-- ==== Sys2Proof/Word.lean ====
section
/-! DEFINITION. The word types of the MC68000 (00_scope.md R6) and the number of a register. -/

namespace Sys2Proof

/-- A byte, 8 bits (R6). -/
abbrev Byte := BitVec 8

/-- A word, 16 bits (R6). -/
abbrev Word := BitVec 16

/-- A long word, 32 bits (R6), the width of every register and address (R25, R27). -/
abbrev Long := BitVec 32

/-- The number of a data or address register, 0 to 7 (10_state.md R20, R22). -/
abbrev RegNum := Fin 8

end Sys2Proof
end

