-- ==== Sys2Proof/Syntax.lean ====
section
/-! DEFINITION. The instructions of the MC68000 as syntax: one constructor of `Instr` per row of opcode_table.json,
with the operand forms of 40_addressing_modes.md. -/

namespace Sys2Proof

/-- The operand sizes byte, word and long (30_encoding.md R104). -/
inductive Size where
  | b | w | l
deriving DecidableEq, Repr

/-- The sizes of the instructions that have no byte form (30_encoding.md R104, the one-bit field). -/
inductive WSize where
  | w | l
deriving DecidableEq, Repr

/-- The sixteen conditions, in the order of their codes (45_program_control.md R271). -/
inductive Cond where
  | t | f | hi | ls | cc | cs | ne | eq | vc | vs | pl | mi | ge | lt | gt | le
deriving DecidableEq, Repr

/-- A general register (00_scope.md R9, `R[i]`). -/
inductive Reg where
  | d (n : RegNum)
  | a (n : RegNum)
deriving DecidableEq, Repr

/-- The index extension word (30_encoding.md R106): register, size, displacement. -/
structure Index where
  reg  : Reg
  long : Bool
  disp : Byte
deriving DecidableEq, Repr

/-- Immediate data with its size (30_encoding.md R105). -/
inductive Imm where
  | b (v : Byte)
  | w (v : Word)
  | l (v : Long)
deriving DecidableEq, Repr

/-- An effective address: the twelve modes with their extension data (40_addressing_modes.md R141 to R152). -/
inductive EA where
  | dreg    (n : RegNum)
  | areg    (n : RegNum)
  | ind     (n : RegNum)
  | postInc (n : RegNum)
  | preDec  (n : RegNum)
  | disp    (n : RegNum) (d : Word)
  | index   (n : RegNum) (x : Index)
  | absW    (w : Word)
  | absL    (l : Long)
  | pcDisp  (d : Word)
  | pcIndex (x : Index)
  | imm     (i : Imm)
deriving DecidableEq, Repr

/-- The twelve addressing modes without their data (40_addressing_modes.md R154). -/
inductive Mode where
  | dreg | areg | ind | postInc | preDec | disp | index | absW | absL | pcDisp | pcIndex | imm
deriving DecidableEq, Repr

/-- A branch displacement: the byte of the operation word, or the word after it (30_encoding.md R110). -/
inductive Disp where
  | short (d : Byte)
  | word  (d : Word)
deriving DecidableEq, Repr

/-- The count of a register shift: the three-bit constant, 0 standing for 8, or a data register (43_shift_rotate.md R230). -/
inductive Count where
  | imm (c : Fin 8)
  | reg (n : RegNum)
deriving DecidableEq, Repr

/-- The instructions: one constructor per row of opcode_table.json, in the table's order. -/
inductive Instr where
  | ori        (imm : Imm) (dst : EA)
  | andi       (imm : Imm) (dst : EA)
  | subi       (imm : Imm) (dst : EA)
  | addi       (imm : Imm) (dst : EA)
  | eori       (imm : Imm) (dst : EA)
  | cmpi       (imm : Imm) (dst : EA)
  | oriToCcr   (data : Byte)
  | oriToSr    (data : Word)
  | andiToCcr  (data : Byte)
  | andiToSr   (data : Word)
  | eoriToCcr  (data : Byte)
  | eoriToSr   (data : Word)
  | btstImm    (bit : Byte) (dst : EA)
  | btstReg    (dn : RegNum) (dst : EA)
  | bchgImm    (bit : Byte) (dst : EA)
  | bchgReg    (dn : RegNum) (dst : EA)
  | bclrImm    (bit : Byte) (dst : EA)
  | bclrReg    (dn : RegNum) (dst : EA)
  | bsetImm    (bit : Byte) (dst : EA)
  | bsetReg    (dn : RegNum) (dst : EA)
  | movepToReg (sz : WSize) (dn an : RegNum) (disp : Word)
  | movepToMem (sz : WSize) (dn an : RegNum) (disp : Word)
  | moveB      (src dst : EA)
  | moveW      (src dst : EA)
  | moveL      (src dst : EA)
  | moveaW     (an : RegNum) (src : EA)
  | moveaL     (an : RegNum) (src : EA)
  | negx       (sz : Size) (dst : EA)
  | moveFromSr (dst : EA)
  | chk        (dn : RegNum) (src : EA)
  | lea        (an : RegNum) (src : EA)
  | clr        (sz : Size) (dst : EA)
  | neg        (sz : Size) (dst : EA)
  | moveToCcr  (src : EA)
  | not        (sz : Size) (dst : EA)
  | moveToSr   (src : EA)
  | nbcd       (dst : EA)
  | swap       (dn : RegNum)
  | pea        (src : EA)
  | extW       (dn : RegNum)
  | extL       (dn : RegNum)
  | movemToMem (sz : WSize) (list : Word) (dst : EA)
  | movemToReg (sz : WSize) (list : Word) (src : EA)
  | tst        (sz : Size) (dst : EA)
  | tas        (dst : EA)
  | illegal
  | trap       (v : Fin 16)
  | link       (an : RegNum) (disp : Word)
  | unlk       (an : RegNum)
  | moveToUsp  (an : RegNum)
  | moveFromUsp (an : RegNum)
  | resetDevices
  | nop
  | stop       (data : Word)
  | rte
  | rts
  | trapv
  | rtr
  | jsr        (dst : EA)
  | jmp        (dst : EA)
  | addq       (q : Fin 8) (sz : Size) (dst : EA)
  | subq       (q : Fin 8) (sz : Size) (dst : EA)
  | scc        (cond : Cond) (dst : EA)
  | dbcc       (cond : Cond) (dn : RegNum) (disp : Word)
  | bra        (disp : Disp)
  | bsr        (disp : Disp)
  | bcc        (cond : Cond) (disp : Disp)
  | moveq      (dn : RegNum) (data : Byte)
  | orToReg    (sz : Size) (src : EA) (dn : RegNum)
  | orToMem    (sz : Size) (dn : RegNum) (dst : EA)
  | divu       (dn : RegNum) (src : EA)
  | divs       (dn : RegNum) (src : EA)
  | sbcd       (mem : Bool) (x y : RegNum)
  | subToReg   (sz : Size) (src : EA) (dn : RegNum)
  | subToMem   (sz : Size) (dn : RegNum) (dst : EA)
  | suba       (sz : WSize) (an : RegNum) (src : EA)
  | subx       (sz : Size) (mem : Bool) (x y : RegNum)
  | line1010   (low : BitVec 12)
  | cmp        (sz : Size) (src : EA) (dn : RegNum)
  | cmpa       (sz : WSize) (an : RegNum) (src : EA)
  | eor        (sz : Size) (dn : RegNum) (dst : EA)
  | cmpm       (sz : Size) (x y : RegNum)
  | andToReg   (sz : Size) (src : EA) (dn : RegNum)
  | andToMem   (sz : Size) (dn : RegNum) (dst : EA)
  | mulu       (dn : RegNum) (src : EA)
  | muls       (dn : RegNum) (src : EA)
  | abcd       (mem : Bool) (x y : RegNum)
  | exgDD      (x y : RegNum)
  | exgAA      (x y : RegNum)
  | exgDA      (x y : RegNum)
  | addToReg   (sz : Size) (src : EA) (dn : RegNum)
  | addToMem   (sz : Size) (dn : RegNum) (dst : EA)
  | adda       (sz : WSize) (an : RegNum) (src : EA)
  | addx       (sz : Size) (mem : Bool) (x y : RegNum)
  | asrReg     (sz : Size) (cnt : Count) (dn : RegNum)
  | asrMem     (dst : EA)
  | aslReg     (sz : Size) (cnt : Count) (dn : RegNum)
  | aslMem     (dst : EA)
  | lsrReg     (sz : Size) (cnt : Count) (dn : RegNum)
  | lsrMem     (dst : EA)
  | lslReg     (sz : Size) (cnt : Count) (dn : RegNum)
  | lslMem     (dst : EA)
  | roxrReg    (sz : Size) (cnt : Count) (dn : RegNum)
  | roxrMem    (dst : EA)
  | roxlReg    (sz : Size) (cnt : Count) (dn : RegNum)
  | roxlMem    (dst : EA)
  | rorReg     (sz : Size) (cnt : Count) (dn : RegNum)
  | rorMem     (dst : EA)
  | rolReg     (sz : Size) (cnt : Count) (dn : RegNum)
  | rolMem     (dst : EA)
  | line1111   (low : BitVec 12)
deriving DecidableEq, Repr

end Sys2Proof
end

