-- ==== Sys2Proof/WellFormed.lean ====
section
/-! DEFINITION. Which terms of `Instr` are encodings of the table: the addressing categories of 40_addressing_modes.md
R154 that each instruction's rule allows, the sizes, and the field values the encodings reserve. -/

namespace Sys2Proof

/-- The size of immediate data. -/
def Imm.size : Imm → Size
  | .b _ => .b
  | .w _ => .w
  | .l _ => .l

/-- The size as a general size. -/
def WSize.size : WSize → Size
  | .w => .w
  | .l => .l

/-- The addressing mode of an effective address. -/
def EA.mode : EA → Mode
  | .dreg _    => .dreg
  | .areg _    => .areg
  | .ind _     => .ind
  | .postInc _ => .postInc
  | .preDec _  => .preDec
  | .disp _ _  => .disp
  | .index _ _ => .index
  | .absW _    => .absW
  | .absL _    => .absL
  | .pcDisp _  => .pcDisp
  | .pcIndex _ => .pcIndex
  | .imm _     => .imm

/-- The DATA column of the category table (R154). -/
def Mode.isData : Mode → Bool
  | .areg => false
  | .dreg | .ind | .postInc | .preDec | .disp | .index | .absW | .absL | .pcDisp | .pcIndex | .imm => true

/-- The MEMORY column of the category table (R154). -/
def Mode.isMemory : Mode → Bool
  | .dreg | .areg => false
  | .ind | .postInc | .preDec | .disp | .index | .absW | .absL | .pcDisp | .pcIndex | .imm => true

/-- The CONTROL column of the category table (R154). -/
def Mode.isControl : Mode → Bool
  | .ind | .disp | .index | .absW | .absL | .pcDisp | .pcIndex => true
  | .dreg | .areg | .postInc | .preDec | .imm => false

/-- The ALTERABLE column of the category table (R154). -/
def Mode.isAlterable : Mode → Bool
  | .dreg | .areg | .ind | .postInc | .preDec | .disp | .index | .absW | .absL => true
  | .pcDisp | .pcIndex | .imm => false

/-- DATA ALTERABLE (R154). -/
def Mode.dataAlterable (m : Mode) : Bool := m.isData && m.isAlterable

/-- MEMORY ALTERABLE (R154). -/
def Mode.memoryAlterable (m : Mode) : Bool := m.isMemory && m.isAlterable

/-- DATA (EXCLUDING IMMEDIATE), the operand of BTST (48_bit_manipulation.md R330). -/
def Mode.dataNotImm (m : Mode) : Bool := m.isData && m != .imm

/-- ALTERABLE CONTROL AND PREDECREMENT, the destination of MOVEM (49_special.md R340). -/
def Mode.movemDst (m : Mode) : Bool := (m.isControl && m.isAlterable) || m == .preDec

/-- CONTROL AND POST INCREMENT, the source of MOVEM (49_special.md R341). -/
def Mode.movemSrc (m : Mode) : Bool := m.isControl || m == .postInc

/-- ALL, except that an address register has no byte operand (10_state.md R23, 40_addressing_modes.md R142). -/
def Mode.allFor (sz : Size) (m : Mode) : Bool := !(sz == .b && m == .areg)

/-- ALTERABLE, except that an address register has no byte operand (10_state.md R23). -/
def Mode.alterableFor (sz : Size) (m : Mode) : Bool := m.isAlterable && m.allFor sz

/-- Immediate data stands at the operand's size (30_encoding.md R105); every other mode fits every size. -/
def EA.fits (sz : Size) : EA → Bool
  | .imm i => i.size == sz
  | .dreg _ | .areg _ | .ind _ | .postInc _ | .preDec _ | .disp _ _ | .index _ _ | .absW _ | .absL _ | .pcDisp _
  | .pcIndex _ => true

/-- A short displacement is not zero: the byte 0 announces the word form (30_encoding.md R110). -/
def Disp.wellFormed : Disp → Bool
  | .short d => d != 0
  | .word _  => true

/-- The conditions T and F are not available for Bcc (45_program_control.md R271). -/
def Cond.forBcc : Cond → Bool
  | .t | .f => false
  | .hi | .ls | .cc | .cs | .ne | .eq | .vc | .vs | .pl | .mi | .ge | .lt | .gt | .le => true

/-- The terms that are encodings of the table: `ea_modes`, `dst_ea_modes`, `sizes` and `constraints` of each row, and the
categories of each instruction's rule. -/
def Instr.wellFormed : Instr → Bool
  | .ori _ dst | .andi _ dst | .subi _ dst | .addi _ dst | .eori _ dst | .cmpi _ dst => dst.mode.dataAlterable
  | .oriToCcr _ | .oriToSr _ | .andiToCcr _ | .andiToSr _ | .eoriToCcr _ | .eoriToSr _ => true
  | .btstImm _ dst | .btstReg _ dst => dst.mode.dataNotImm
  | .bchgImm _ dst | .bchgReg _ dst | .bclrImm _ dst | .bclrReg _ dst | .bsetImm _ dst | .bsetReg _ dst =>
      dst.mode.dataAlterable
  | .movepToReg _ _ _ _ | .movepToMem _ _ _ _ => true
  | .moveB src dst => src.mode.allFor .b && src.fits .b && dst.mode.dataAlterable
  | .moveW src dst => src.mode.allFor .w && src.fits .w && dst.mode.dataAlterable
  | .moveL src dst => src.mode.allFor .l && src.fits .l && dst.mode.dataAlterable
  | .moveaW _ src => src.fits .w
  | .moveaL _ src => src.fits .l
  | .negx _ dst | .clr _ dst | .neg _ dst | .not _ dst | .tst _ dst => dst.mode.dataAlterable
  | .moveFromSr dst | .nbcd dst | .tas dst | .scc _ dst => dst.mode.dataAlterable
  | .chk _ src | .moveToCcr src | .moveToSr src => src.mode.isData && src.fits .w
  | .lea _ src | .pea src | .jsr src | .jmp src => src.mode.isControl
  | .swap _ | .extW _ | .extL _ => true
  | .movemToMem _ _ dst => dst.mode.movemDst
  | .movemToReg _ _ src => src.mode.movemSrc
  | .illegal | .trap _ | .link _ _ | .unlk _ | .moveToUsp _ | .moveFromUsp _ | .resetDevices | .nop | .stop _ | .rte
  | .rts | .trapv | .rtr => true
  | .addq _ sz dst | .subq _ sz dst => dst.mode.alterableFor sz
  | .dbcc _ _ _ => true
  | .bra d | .bsr d => d.wellFormed
  | .bcc cond d => cond.forBcc && d.wellFormed
  | .moveq _ _ => true
  | .orToReg sz src _ | .andToReg sz src _ => src.mode.isData && src.fits sz
  | .orToMem _ _ dst | .andToMem _ _ dst | .subToMem _ _ dst | .addToMem _ _ dst => dst.mode.memoryAlterable
  | .divu _ src | .divs _ src | .mulu _ src | .muls _ src => src.mode.isData && src.fits .w
  | .sbcd _ _ _ | .abcd _ _ _ | .subx _ _ _ _ | .addx _ _ _ _ | .cmpm _ _ _ => true
  | .subToReg sz src _ | .addToReg sz src _ | .cmp sz src _ => src.mode.allFor sz && src.fits sz
  | .suba sz _ src | .cmpa sz _ src | .adda sz _ src => src.fits sz.size
  | .line1010 _ | .line1111 _ => true
  | .eor _ _ dst => dst.mode.dataAlterable
  | .exgDD _ _ | .exgAA _ _ | .exgDA _ _ => true
  | .asrReg _ _ _ | .aslReg _ _ _ | .lsrReg _ _ _ | .lslReg _ _ _ | .roxrReg _ _ _ | .roxlReg _ _ _ | .rorReg _ _ _
  | .rolReg _ _ _ => true
  | .asrMem dst | .aslMem dst | .lsrMem dst | .lslMem dst | .roxrMem dst | .roxlMem dst | .rorMem dst | .rolMem dst =>
      dst.mode.memoryAlterable

end Sys2Proof
end

