-- ==== Sys2Proof/Decode.lean ====
section
/-! DEFINITION. The decoder of 30_encoding.md, total on any words and bytes, and after it the encoder, written from the
same tables. -/

namespace Sys2Proof

/-- Why the decoder gives no instruction. -/
inductive Reject where
  /-- The operation word matches no instruction (30_encoding.md R117, R118): the machine takes vector 4. -/
  | illegal
  /-- The pattern `0000 ddd 100 111 100`, `BTST Dn,#imm`, which is no row of the table, with its register and its immediate byte:
  the machine tests the bit or takes vector 4 (93 U4, 90 C9; log entry 26). -/
  | btstImmediate (dn : RegNum) (data : Byte)
  /-- The instruction needs more words than were given. -/
  | truncated
deriving DecidableEq, Repr

/-- The fields of an operation word (R101, R114): bits 15..12, 11..9, 8..6, 5..3 and 2..0. -/
structure Fields where
  line : Fin 16
  f9   : Fin 8
  f6   : Fin 8
  f3   : Fin 8
  f0   : Fin 8
deriving DecidableEq, Repr

/-- The fields of an operation word. -/
def fieldsOf (w : Word) : Fields where
  line := ⟨w.toNat / 4096, by omega⟩
  f9   := ⟨w.toNat / 512 % 8, by omega⟩
  f6   := ⟨w.toNat / 64 % 8, by omega⟩
  f3   := ⟨w.toNat / 8 % 8, by omega⟩
  f0   := ⟨w.toNat % 8, by omega⟩

/-- The operation word with the given fields. -/
def Fields.word (f : Fields) : Word :=
  BitVec.ofNat 16 (f.line.val * 4096 + f.f9.val * 512 + f.f6.val * 64 + f.f3.val * 8 + f.f0.val)

/-- Bits 7..0 of the operation word. -/
def Fields.low8 (f : Fields) : Byte := BitVec.ofNat 8 (f.f6.val % 4 * 64 + f.f3.val * 8 + f.f0.val)

/-- Bits 11..0 of the operation word. -/
def Fields.low12 (f : Fields) : BitVec 12 := BitVec.ofNat 12 (f.f9.val * 512 + f.f6.val * 64 + f.f3.val * 8 + f.f0.val)

/-- The condition whose code is `n` (45_program_control.md R271). -/
def condOf (n : Nat) : Cond :=
  match n with
  | 0 => .t | 1 => .f | 2 => .hi | 3 => .ls | 4 => .cc | 5 => .cs | 6 => .ne | 7 => .eq
  | 8 => .vc | 9 => .vs | 10 => .pl | 11 => .mi | 12 => .ge | 13 => .lt | 14 => .gt | _ => .le

/-- The condition field, bits 11..8 (R112). -/
def Fields.cond (f : Fields) : Cond := condOf (f.f9.val * 2 + f.f6.val / 4)

/-! ## Words after the operation word -/

/-- A parser of the words of an instruction. -/
abbrev Parse (α : Type) := EStateM Reject (List Word) α

/-- The next word of the instruction. -/
def nextWord : Parse Word := fun ws =>
  match ws with
  | [] => .error .truncated []
  | w :: rest => .ok w rest

/-- A word that is no instruction. -/
def reject {α : Type} (r : Reject) : Parse α := fun ws => .error r ws

/-- The two words of a long word, high-order word first (R105, R108). -/
def nextLong : Parse Long := do
  let hi ← nextWord
  let lo ← nextWord
  pure (hi ++ lo)

/-- The low byte of a word: a byte immediate stands in bits 7..0 and the high byte is ignored (R105, 93 U7, log entry 27). -/
def lowByte (w : Word) : Byte := w.setWidth 8

/-- Immediate data of a size (R105). -/
def nextImm (sz : Size) : Parse Imm :=
  match sz with
  | .b => do pure (.b (lowByte (← nextWord)))
  | .w => do pure (.w (← nextWord))
  | .l => do pure (.l (← nextLong))

/-- The index extension word (R106). Bits 10..8 are ignored (93 U6, log entry 27). -/
def indexOf (w : Word) : Index where
  reg  :=
    let n : RegNum := ⟨w.toNat / 4096 % 8, by omega⟩
    if w.toNat / 32768 = 0 then .d n else .a n
  long := w.toNat / 2048 % 2 == 1
  disp := lowByte w

/-- The addressing mode of a mode and a register field, none where the table of R102 has none. -/
def modeOf (m r : Fin 8) : Option Mode :=
  match m.val with
  | 0 => some .dreg
  | 1 => some .areg
  | 2 => some .ind
  | 3 => some .postInc
  | 4 => some .preDec
  | 5 => some .disp
  | 6 => some .index
  | _ =>
    match r.val with
    | 0 => some .absW
    | 1 => some .absL
    | 2 => some .pcDisp
    | 3 => some .pcIndex
    | 4 => some .imm
    | _ => none

/-- The mode of an effective-address field, if the instruction allows it; else the word is illegal (R118). It looks at the
operation word alone, before any extension word (R117). -/
def allowed (ok : Mode → Bool) (m r : Fin 8) : Parse Mode :=
  match modeOf m r with
  | some mode => if ok mode then pure mode else reject .illegal
  | none => reject .illegal

/-- The effective address of a mode, with its extension words (R103, 40_addressing_modes.md R163). -/
def nextEA (sz : Size) (mode : Mode) (r : RegNum) : Parse EA :=
  match mode with
  | .dreg    => pure (.dreg r)
  | .areg    => pure (.areg r)
  | .ind     => pure (.ind r)
  | .postInc => pure (.postInc r)
  | .preDec  => pure (.preDec r)
  | .disp    => do pure (.disp r (← nextWord))
  | .index   => do pure (.index r (indexOf (← nextWord)))
  | .absW    => do pure (.absW (← nextWord))
  | .absL    => do pure (.absL (← nextLong))
  | .pcDisp  => do pure (.pcDisp (← nextWord))
  | .pcIndex => do pure (.pcIndex (indexOf (← nextWord)))
  | .imm     => do pure (.imm (← nextImm sz))

/-- The effective address in bits 5..0 of the operation word, in one of the modes `ok`. -/
def eaField (ok : Mode → Bool) (sz : Size) (f : Fields) : Parse EA := do
  let mode ← allowed ok f.f3 f.f0
  nextEA sz mode f.f0

/-- The standard size field (R104). -/
def sizeOf2 (n : Nat) : Option Size :=
  match n with
  | 0 => some .b
  | 1 => some .w
  | 2 => some .l
  | _ => none

/-- The size in bits 7..6; size 11 is illegal where this is asked (R116). -/
def sizeField (f : Fields) : Parse Size :=
  match sizeOf2 (f.f6.val % 4) with
  | some sz => pure sz
  | none => reject .illegal

/-- The one-bit size field (R104). -/
def wsizeOf (bit : Nat) : WSize := if bit = 0 then .w else .l

/-- The displacement of a branch (R110): the low byte, or the next word where that byte is 0. -/
def branchDisp (f : Fields) : Parse Disp :=
  if f.low8 = 0 then do pure (.word (← nextWord)) else pure (.short f.low8)

/-! ## The lines of the opcode map (R115, R116) -/

/-- An immediate instruction of line 0000: immediate data, then the destination (R103). -/
def immForm (f : Fields) (make : Imm → EA → Instr) : Parse Instr := do
  let sz ← sizeField f
  let mode ← allowed Mode.dataAlterable f.f3 f.f0
  let i ← nextImm sz
  let dst ← nextEA sz mode f.f0
  pure (make i dst)

/-- ORI, ANDI and EORI, whose field 111 100 names CCR (size 00) or SR (size 01) (R116 item 1). -/
def logicImmForm (f : Fields) (make : Imm → EA → Instr) (toCcr : Byte → Instr) (toSr : Word → Instr) : Parse Instr :=
  if f.f3 = 7 ∧ f.f0 = 4 ∧ f.f6 = 0 then do pure (toCcr (lowByte (← nextWord)))
  else if f.f3 = 7 ∧ f.f0 = 4 ∧ f.f6 = 1 then do pure (toSr (← nextWord))
  else immForm f make

/-- A bit instruction with its bit number in an extension word, which precedes the destination's (48_bit_manipulation.md
R334). -/
def staticBit (ok : Mode → Bool) (f : Fields) (make : Byte → EA → Instr) : Parse Instr := do
  let mode ← allowed ok f.f3 f.f0
  let n ← nextWord
  let dst ← nextEA .b mode f.f0
  pure (make (lowByte n) dst)

/-- A bit instruction with its bit number in a data register. -/
def dynamicBit (ok : Mode → Bool) (f : Fields) (make : RegNum → EA → Instr) : Parse Instr := do
  let dst ← eaField ok .b f
  pure (make f.f9 dst)

/-- MOVEP: opmode 100 and 101 to the register, 110 and 111 to memory (49_special.md R347). -/
def movepForm (f : Fields) : Parse Instr := do
  let d ← nextWord
  match f.f6.val with
  | 4 => pure (.movepToReg .w f.f9 f.f0 d)
  | 5 => pure (.movepToReg .l f.f9 f.f0 d)
  | 6 => pure (.movepToMem .w f.f9 f.f0 d)
  | _ => pure (.movepToMem .l f.f9 f.f0 d)

/-- `BTST Dn,#imm`: no instruction of the table, its immediate byte in the low half of an extension word (93 U4). -/
def btstImmediateForm (f : Fields) : Parse Instr := do
  let w ← nextWord
  reject (.btstImmediate f.f9 (lowByte w))

/-- Line 0000 (R116 item 2). -/
def line0 (f : Fields) : Parse Instr :=
  if 4 ≤ f.f6.val then
    if f.f3 = 1 then movepForm f
    else
      match f.f6.val with
      | 4 => if f.f3 = 7 ∧ f.f0 = 4 then btstImmediateForm f else dynamicBit Mode.dataNotImm f .btstReg
      | 5 => dynamicBit Mode.dataAlterable f .bchgReg
      | 6 => dynamicBit Mode.dataAlterable f .bclrReg
      | _ => dynamicBit Mode.dataAlterable f .bsetReg
  else
    match f.f9.val with
    | 0 => logicImmForm f .ori .oriToCcr .oriToSr
    | 1 => logicImmForm f .andi .andiToCcr .andiToSr
    | 2 => immForm f .subi
    | 3 => immForm f .addi
    | 4 =>
      match f.f6.val with
      | 0 => staticBit Mode.dataNotImm f .btstImm
      | 1 => staticBit Mode.dataAlterable f .bchgImm
      | 2 => staticBit Mode.dataAlterable f .bclrImm
      | _ => staticBit Mode.dataAlterable f .bsetImm
    | 5 => logicImmForm f .eori .eoriToCcr .eoriToSr
    | 6 => immForm f .cmpi
    | _ => reject .illegal

/-- MOVE (R103): both modes are checked, then the source's words, then the destination's. -/
def moveForm (sz : Size) (f : Fields) (make : EA → EA → Instr) : Parse Instr := do
  let srcMode ← allowed (Mode.allFor sz) f.f3 f.f0
  let dstMode ← allowed Mode.dataAlterable f.f6 f.f9
  let src ← nextEA sz srcMode f.f0
  let dst ← nextEA sz dstMode f.f9
  pure (make src dst)

/-- MOVEA, the MOVE layout with destination mode 001 (41_data_movement.md R171). -/
def moveaForm (sz : Size) (f : Fields) (make : RegNum → EA → Instr) : Parse Instr := do
  let src ← eaField (Mode.allFor sz) sz f
  pure (make f.f9 src)

/-- Line 0001, MOVE.B. -/
def line1 (f : Fields) : Parse Instr := moveForm .b f .moveB

/-- Line 0010, MOVE.L and MOVEA.L. -/
def line2 (f : Fields) : Parse Instr := if f.f6 = 1 then moveaForm .l f .moveaL else moveForm .l f .moveL

/-- Line 0011, MOVE.W and MOVEA.W. -/
def line3 (f : Fields) : Parse Instr := if f.f6 = 1 then moveaForm .w f .moveaW else moveForm .w f .moveW

/-- A one-operand instruction with a standard size field and a DATA ALTERABLE operand. -/
def sizedEA (f : Fields) (make : Size → EA → Instr) : Parse Instr := do
  let sz ← sizeField f
  let dst ← eaField Mode.dataAlterable sz f
  pure (make sz dst)

/-- An instruction whose one effective address has a fixed size and category. -/
def oneEA (ok : Mode → Bool) (sz : Size) (f : Fields) (make : EA → Instr) : Parse Instr := do
  let ea ← eaField ok sz f
  pure (make ea)

/-- MOVEM: the register mask, then the effective address (R111). -/
def movemForm (ok : Mode → Bool) (f : Fields) (make : WSize → Word → EA → Instr) : Parse Instr := do
  let mode ← allowed ok f.f3 f.f0
  let list ← nextWord
  let ea ← nextEA .w mode f.f0
  pure (make (wsizeOf (f.f6.val % 2)) list ea)

/-- The operation words `$4E40` to `$4E7F` (R115, R116 item 3). -/
def line4E (f : Fields) : Parse Instr :=
  match f.f3.val with
  | 0 => pure (.trap ⟨f.f0.val, by omega⟩)
  | 1 => pure (.trap ⟨8 + f.f0.val, by omega⟩)
  | 2 => do pure (.link f.f0 (← nextWord))
  | 3 => pure (.unlk f.f0)
  | 4 => pure (.moveToUsp f.f0)
  | 5 => pure (.moveFromUsp f.f0)
  | 6 =>
    match f.f0.val with
    | 0 => pure .resetDevices
    | 1 => pure .nop
    | 2 => do pure (.stop (← nextWord))
    | 3 => pure .rte
    | 5 => pure .rts
    | 6 => pure .trapv
    | 7 => pure .rtr
    | _ => reject .illegal
  | _ => reject .illegal

/-- Line 0100 with bit 8 clear, by bits 11..9 (R116 item 3). -/
def line4Low (f : Fields) : Parse Instr :=
  match f.f9.val with
  | 0 => if f.f6 = 3 then oneEA Mode.dataAlterable .w f .moveFromSr else sizedEA f .negx
  | 1 => sizedEA f .clr
  | 2 => if f.f6 = 3 then oneEA Mode.isData .w f .moveToCcr else sizedEA f .neg
  | 3 => if f.f6 = 3 then oneEA Mode.isData .w f .moveToSr else sizedEA f .not
  | 4 =>
    match f.f6.val with
    | 0 => oneEA Mode.dataAlterable .b f .nbcd
    | 1 => if f.f3 = 0 then pure (.swap f.f0) else oneEA Mode.isControl .l f .pea
    | 2 => if f.f3 = 0 then pure (.extW f.f0) else movemForm Mode.movemDst f .movemToMem
    | _ => if f.f3 = 0 then pure (.extL f.f0) else movemForm Mode.movemDst f .movemToMem
  | 5 =>
    if f.f6 = 3 then
      if f.f3 = 7 ∧ f.f0 = 4 then pure .illegal else oneEA Mode.dataAlterable .b f .tas
    else sizedEA f .tst
  | 6 => if 2 ≤ f.f6.val then movemForm Mode.movemSrc f .movemToReg else reject .illegal
  | _ =>
    match f.f6.val with
    | 0 => reject .illegal
    | 1 => line4E f
    | 2 => oneEA Mode.isControl .l f .jsr
    | _ => oneEA Mode.isControl .l f .jmp

/-- Line 0100 (R116 item 3). -/
def line4 (f : Fields) : Parse Instr :=
  match f.f6.val with
  | 7 => oneEA Mode.isControl .l f (.lea f.f9)
  | 6 => oneEA Mode.isData .w f (.chk f.f9)
  | 5 => reject .illegal
  | 4 => reject .illegal
  | _ => line4Low f

/-- ADDQ and SUBQ (42_integer_arithmetic.md R193, R197). -/
def quickForm (f : Fields) (make : Fin 8 → Size → EA → Instr) : Parse Instr := do
  let sz ← sizeField f
  let dst ← eaField (Mode.alterableFor sz) sz f
  pure (make f.f9 sz dst)

/-- Line 0101 (R116 item 4). -/
def line5 (f : Fields) : Parse Instr :=
  if f.f6.val % 4 = 3 then
    if f.f3 = 1 then do pure (.dbcc f.cond f.f0 (← nextWord))
    else oneEA Mode.dataAlterable .b f (.scc f.cond)
  else if f.f6.val < 4 then quickForm f .addq
  else quickForm f .subq

/-- Line 0110: condition T is BRA and condition F is BSR. -/
def line6 (f : Fields) : Parse Instr := do
  let d ← branchDisp f
  match f.cond with
  | .t => pure (.bra d)
  | .f => pure (.bsr d)
  | c => pure (.bcc c d)

/-- Line 0111: bit 8 must be 0 (R116 item 5). -/
def line7 (f : Fields) : Parse Instr := if f.f6.val < 4 then pure (.moveq f.f9 f.low8) else reject .illegal

/-- `op.s <ea>,Dn` (R113, opmodes 000 to 010). -/
def toRegForm (ok : Size → Mode → Bool) (f : Fields) (make : Size → EA → RegNum → Instr) : Parse Instr := do
  let sz ← sizeField f
  let src ← eaField (ok sz) sz f
  pure (make sz src f.f9)

/-- `op.s Dn,<ea>` (R113, opmodes 100 to 110). -/
def toMemForm (ok : Mode → Bool) (f : Fields) (make : Size → RegNum → EA → Instr) : Parse Instr := do
  let sz ← sizeField f
  let dst ← eaField ok sz f
  pure (make sz f.f9 dst)

/-- The address-register forms ADDA, SUBA, CMPA (R113, opmodes 011 and 111). -/
def addrForm (f : Fields) (make : WSize → RegNum → EA → Instr) : Parse Instr := do
  let sz := wsizeOf (f.f6.val / 4)
  let src ← eaField (Mode.allFor sz.size) sz.size f
  pure (make sz f.f9 src)

/-- The extended forms ADDX and SUBX (R114, format RX_RY). -/
def extendForm (f : Fields) (make : Size → Bool → RegNum → RegNum → Instr) : Parse Instr := do
  let sz ← sizeField f
  pure (make sz (f.f3 == 1) f.f9 f.f0)

/-- Line 1000 (R116 item 6). -/
def line8 (f : Fields) : Parse Instr :=
  match f.f6.val with
  | 3 => oneEA Mode.isData .w f (.divu f.f9)
  | 7 => oneEA Mode.isData .w f (.divs f.f9)
  | 4 => if f.f3.val ≤ 1 then pure (.sbcd (f.f3 == 1) f.f9 f.f0) else toMemForm Mode.memoryAlterable f .orToMem
  | 5 => toMemForm Mode.memoryAlterable f .orToMem
  | 6 => toMemForm Mode.memoryAlterable f .orToMem
  | _ => toRegForm (fun _ => Mode.isData) f .orToReg

/-- Line 1001 (R116 item 7). -/
def line9 (f : Fields) : Parse Instr :=
  if f.f6.val % 4 = 3 then addrForm f .suba
  else if f.f6.val < 4 then toRegForm Mode.allFor f .subToReg
  else if f.f3.val ≤ 1 then extendForm f .subx
  else toMemForm Mode.memoryAlterable f .subToMem

/-- Line 1011 (R116 item 8). -/
def lineB (f : Fields) : Parse Instr :=
  if f.f6.val % 4 = 3 then addrForm f .cmpa
  else if f.f6.val < 4 then toRegForm Mode.allFor f .cmp
  else if f.f3 = 1 then do
    let sz ← sizeField f
    pure (.cmpm sz f.f9 f.f0)
  else toMemForm Mode.dataAlterable f .eor

/-- Line 1100 (R116 item 6). -/
def lineC (f : Fields) : Parse Instr :=
  match f.f6.val with
  | 3 => oneEA Mode.isData .w f (.mulu f.f9)
  | 7 => oneEA Mode.isData .w f (.muls f.f9)
  | 4 => if f.f3.val ≤ 1 then pure (.abcd (f.f3 == 1) f.f9 f.f0) else toMemForm Mode.memoryAlterable f .andToMem
  | 5 =>
    if f.f3 = 0 then pure (.exgDD f.f9 f.f0)
    else if f.f3 = 1 then pure (.exgAA f.f9 f.f0)
    else toMemForm Mode.memoryAlterable f .andToMem
  | 6 => if f.f3 = 1 then pure (.exgDA f.f9 f.f0) else toMemForm Mode.memoryAlterable f .andToMem
  | _ => toRegForm (fun _ => Mode.isData) f .andToReg

/-- Line 1101 (R116 item 7). -/
def lineD (f : Fields) : Parse Instr :=
  if f.f6.val % 4 = 3 then addrForm f .adda
  else if f.f6.val < 4 then toRegForm Mode.allFor f .addToReg
  else if f.f3.val ≤ 1 then extendForm f .addx
  else toMemForm Mode.memoryAlterable f .addToMem

/-- A memory shift: bits 10..9 the kind, bit 8 the direction, one word operand (43_shift_rotate.md R237). -/
def shiftMem (f : Fields) : Parse Instr :=
  match f.f9.val, f.f6.val / 4 with
  | 0, 0 => oneEA Mode.memoryAlterable .w f .asrMem
  | 0, _ => oneEA Mode.memoryAlterable .w f .aslMem
  | 1, 0 => oneEA Mode.memoryAlterable .w f .lsrMem
  | 1, _ => oneEA Mode.memoryAlterable .w f .lslMem
  | 2, 0 => oneEA Mode.memoryAlterable .w f .roxrMem
  | 2, _ => oneEA Mode.memoryAlterable .w f .roxlMem
  | 3, 0 => oneEA Mode.memoryAlterable .w f .rorMem
  | 3, _ => oneEA Mode.memoryAlterable .w f .rolMem
  | _, _ => reject .illegal

/-- A register shift: bit 5 says whether the count is a register, bits 4..3 the kind, bit 8 the direction (R230). -/
def shiftReg (f : Fields) : Parse Instr := do
  let sz ← sizeField f
  let cnt : Count := if f.f3.val < 4 then .imm f.f9 else .reg f.f9
  match f.f3.val % 4, f.f6.val / 4 with
  | 0, 0 => pure (.asrReg sz cnt f.f0)
  | 0, _ => pure (.aslReg sz cnt f.f0)
  | 1, 0 => pure (.lsrReg sz cnt f.f0)
  | 1, _ => pure (.lslReg sz cnt f.f0)
  | 2, 0 => pure (.roxrReg sz cnt f.f0)
  | 2, _ => pure (.roxlReg sz cnt f.f0)
  | _, 0 => pure (.rorReg sz cnt f.f0)
  | _, _ => pure (.rolReg sz cnt f.f0)

/-- Line 1110 (R116 item 9). -/
def lineE (f : Fields) : Parse Instr := if f.f6.val % 4 = 3 then shiftMem f else shiftReg f

/-- The instruction of an operation word, by its line (R115, R116). -/
def decodeFields (f : Fields) : Parse Instr :=
  match f.line.val with
  | 0 => line0 f
  | 1 => line1 f
  | 2 => line2 f
  | 3 => line3 f
  | 4 => line4 f
  | 5 => line5 f
  | 6 => line6 f
  | 7 => line7 f
  | 8 => line8 f
  | 9 => line9 f
  | 10 => pure (.line1010 f.low12)
  | 11 => lineB f
  | 12 => lineC f
  | 13 => lineD f
  | 14 => lineE f
  | _ => pure (.line1111 f.low12)

/-- The instruction at the head of a list of words. -/
def parseInstr : Parse Instr := do
  let w ← nextWord
  decodeFields (fieldsOf w)

/-- The instruction at the head of a list of words and the words after it, or why there is none. -/
def decodeWords (ws : List Word) : Except Reject (Instr × List Word) :=
  match parseInstr ws with
  | .ok i rest => .ok (i, rest)
  | .error r _ => .error r

/-! ## Bytes -/

/-- The high-order byte of a word, which stands at the lower address (20_memory.md R65). -/
def highByte (w : Word) : Byte := (w >>> 8).setWidth 8

/-- The words of a list of bytes, each word its high-order byte first (20_memory.md R65). -/
def wordsOfBytes : List Byte → List Word
  | hi :: lo :: rest => (hi ++ lo) :: wordsOfBytes rest
  | _ => []

/-- The bytes of a list of words (20_memory.md R65). -/
def bytesOfWords : List Word → List Byte
  | [] => []
  | w :: ws => highByte w :: lowByte w :: bytesOfWords ws

/-- The instruction at the head of a list of bytes and the bytes after it, or why there is none. -/
def decodeBytes (bs : List Byte) : Except Reject (Instr × List Byte) :=
  match decodeWords (wordsOfBytes bs) with
  | .ok (i, rest) => .ok (i, bytesOfWords rest)
  | .error r => .error r

/-- Five words, the longest instruction (R100), from a number whose lowest 16 bits are the first word and which has
`nbits` bits; the bits above are 0. -/
def tableWords (nbits w : Nat) : List Word :=
  let v := w % 2 ^ nbits
  [BitVec.ofNat 16 v, BitVec.ofNat 16 (v / 2 ^ 16), BitVec.ofNat 16 (v / 2 ^ 32), BitVec.ofNat 16 (v / 2 ^ 48),
    BitVec.ofNat 16 (v / 2 ^ 64)]

/-- The instruction the decoder reads from the bytes that hold the words of `tableWords`. -/
def decodeTableWord (nbits w : Nat) : Option Instr :=
  match decodeBytes (bytesOfWords (tableWords nbits w)) with
  | .ok (i, _) => some i
  | .error _ => none

/-! ## The encoder -/

/-- The code of a condition (45_program_control.md R271). -/
def Cond.code : Cond → Fin 16
  | .t => 0 | .f => 1 | .hi => 2 | .ls => 3 | .cc => 4 | .cs => 5 | .ne => 6 | .eq => 7
  | .vc => 8 | .vs => 9 | .pl => 10 | .mi => 11 | .ge => 12 | .lt => 13 | .gt => 14 | .le => 15

/-- The size field with bit 8 clear: opmodes 000, 001, 010 (R104, R113). -/
def Size.low : Size → Fin 8
  | .b => 0 | .w => 1 | .l => 2

/-- The size field with bit 8 set: opmodes 100, 101, 110 (R113). -/
def Size.high : Size → Fin 8
  | .b => 4 | .w => 5 | .l => 6

/-- The mode field of an effective address (R102). -/
def EA.modeField : EA → Fin 8
  | .dreg _ => 0 | .areg _ => 1 | .ind _ => 2 | .postInc _ => 3 | .preDec _ => 4 | .disp _ _ => 5 | .index _ _ => 6
  | .absW _ | .absL _ | .pcDisp _ | .pcIndex _ | .imm _ => 7

/-- The register field of an effective address (R102). -/
def EA.regField : EA → Fin 8
  | .dreg n | .areg n | .ind n | .postInc n | .preDec n | .disp n _ | .index n _ => n
  | .absW _ => 0
  | .absL _ => 1
  | .pcDisp _ => 2
  | .pcIndex _ => 3
  | .imm _ => 4

/-- The two words of a long word, high-order first. -/
def longWords (l : Long) : List Word := [(l >>> 16).setWidth 16, l.setWidth 16]

/-- The words of immediate data (R105): a byte stands in the low half of its word, the high half 0. -/
def Imm.words : Imm → List Word
  | .b v => [v.setWidth 16]
  | .w v => [v]
  | .l v => longWords v

/-- The index extension word (R106), bits 10..8 zero. -/
def Index.word (x : Index) : Word :=
  let r := match x.reg with
    | .d n => n.val * 4096
    | .a n => 32768 + n.val * 4096
  BitVec.ofNat 16 (r + (if x.long then 2048 else 0) + x.disp.toNat)

/-- The extension words of an effective address (R103). -/
def EA.words : EA → List Word
  | .dreg _ | .areg _ | .ind _ | .postInc _ | .preDec _ => []
  | .disp _ d => [d]
  | .index _ x => [x.word]
  | .absW w => [w]
  | .absL l => longWords l
  | .pcDisp d => [d]
  | .pcIndex x => [x.word]
  | .imm i => i.words

/-- The low byte of the operation word of a branch (R110). -/
def Disp.byte : Disp → Byte
  | .short d => d
  | .word _ => 0

/-- The extension word of a branch (R110). -/
def Disp.words : Disp → List Word
  | .short _ => []
  | .word d => [d]

/-- Fields with an effective address in bits 5..0. -/
def withEA (line : Fin 16) (f9 f6 : Fin 8) (ea : EA) : Fields := ⟨line, f9, f6, ea.modeField, ea.regField⟩

/-- Fields of a MOVE: destination register and mode in bits 11..6 (R114). -/
def moveFields (line : Fin 16) (src dst : EA) : Fields :=
  ⟨line, dst.regField, dst.modeField, src.modeField, src.regField⟩

/-- Fields with a condition in bits 11..8, `two` in bits 7..6 (R112). -/
def condFields (line : Fin 16) (c : Cond) (two : Fin 4) (f3 f0 : Fin 8) : Fields :=
  ⟨line, ⟨c.code.val / 2, by omega⟩, ⟨c.code.val % 2 * 4 + two.val, by omega⟩, f3, f0⟩

/-- Fields of a branch: a condition and a byte (R114, format BRANCH). -/
def branchFields (c : Cond) (b : Byte) : Fields :=
  condFields 6 c ⟨b.toNat / 64, by omega⟩ ⟨b.toNat / 8 % 8, by omega⟩ ⟨b.toNat % 8, by omega⟩

/-- Fields of a line with twelve bits of its own. -/
def lowFields (line : Fin 16) (v : BitVec 12) : Fields :=
  ⟨line, ⟨v.toNat / 512, by omega⟩, ⟨v.toNat / 64 % 8, by omega⟩, ⟨v.toNat / 8 % 8, by omega⟩, ⟨v.toNat % 8, by omega⟩⟩

/-- The one-bit size field, `0` word and `1` long, at a place that weighs `k`, beside `base`. -/
def WSize.field (base k : Fin 8) : WSize → Fin 8
  | .w => base
  | .l => base + k

/-- The bit M of the format RX_RY: 0 registers, 1 predecrement memory (R114). -/
def memBit (mem : Bool) : Fin 8 := if mem then 1 else 0

/-- Fields of a register shift of kind `tt`; `size` carries the direction (R230). -/
def shiftFields (size : Fin 8) (tt : Fin 4) (cnt : Count) (dn : RegNum) : Fields :=
  match cnt with
  | .imm c => ⟨14, c, size, ⟨tt.val, by omega⟩, dn⟩
  | .reg n => ⟨14, n, size, ⟨4 + tt.val, by omega⟩, dn⟩

/-- The operation word of an instruction as fields (R115). -/
def encodeFields : Instr → Fields
  | .ori i dst => withEA 0 0 i.size.low dst
  | .andi i dst => withEA 0 1 i.size.low dst
  | .subi i dst => withEA 0 2 i.size.low dst
  | .addi i dst => withEA 0 3 i.size.low dst
  | .eori i dst => withEA 0 5 i.size.low dst
  | .cmpi i dst => withEA 0 6 i.size.low dst
  | .oriToCcr _ => ⟨0, 0, 0, 7, 4⟩
  | .oriToSr _ => ⟨0, 0, 1, 7, 4⟩
  | .andiToCcr _ => ⟨0, 1, 0, 7, 4⟩
  | .andiToSr _ => ⟨0, 1, 1, 7, 4⟩
  | .eoriToCcr _ => ⟨0, 5, 0, 7, 4⟩
  | .eoriToSr _ => ⟨0, 5, 1, 7, 4⟩
  | .btstImm _ dst => withEA 0 4 0 dst
  | .bchgImm _ dst => withEA 0 4 1 dst
  | .bclrImm _ dst => withEA 0 4 2 dst
  | .bsetImm _ dst => withEA 0 4 3 dst
  | .btstReg dn dst => withEA 0 dn 4 dst
  | .bchgReg dn dst => withEA 0 dn 5 dst
  | .bclrReg dn dst => withEA 0 dn 6 dst
  | .bsetReg dn dst => withEA 0 dn 7 dst
  | .movepToReg sz dn an _ => ⟨0, dn, sz.field 4 1, 1, an⟩
  | .movepToMem sz dn an _ => ⟨0, dn, sz.field 6 1, 1, an⟩
  | .moveB src dst => moveFields 1 src dst
  | .moveL src dst => moveFields 2 src dst
  | .moveW src dst => moveFields 3 src dst
  | .moveaL an src => withEA 2 an 1 src
  | .moveaW an src => withEA 3 an 1 src
  | .negx sz dst => withEA 4 0 sz.low dst
  | .moveFromSr dst => withEA 4 0 3 dst
  | .chk dn src => withEA 4 dn 6 src
  | .lea an src => withEA 4 an 7 src
  | .clr sz dst => withEA 4 1 sz.low dst
  | .neg sz dst => withEA 4 2 sz.low dst
  | .moveToCcr src => withEA 4 2 3 src
  | .not sz dst => withEA 4 3 sz.low dst
  | .moveToSr src => withEA 4 3 3 src
  | .nbcd dst => withEA 4 4 0 dst
  | .swap dn => ⟨4, 4, 1, 0, dn⟩
  | .pea src => withEA 4 4 1 src
  | .extW dn => ⟨4, 4, 2, 0, dn⟩
  | .extL dn => ⟨4, 4, 3, 0, dn⟩
  | .movemToMem sz _ dst => withEA 4 4 (sz.field 2 1) dst
  | .movemToReg sz _ src => withEA 4 6 (sz.field 2 1) src
  | .tst sz dst => withEA 4 5 sz.low dst
  | .tas dst => withEA 4 5 3 dst
  | .illegal => ⟨4, 5, 3, 7, 4⟩
  | .trap v => ⟨4, 7, 1, ⟨v.val / 8, by omega⟩, ⟨v.val % 8, by omega⟩⟩
  | .link an _ => ⟨4, 7, 1, 2, an⟩
  | .unlk an => ⟨4, 7, 1, 3, an⟩
  | .moveToUsp an => ⟨4, 7, 1, 4, an⟩
  | .moveFromUsp an => ⟨4, 7, 1, 5, an⟩
  | .resetDevices => ⟨4, 7, 1, 6, 0⟩
  | .nop => ⟨4, 7, 1, 6, 1⟩
  | .stop _ => ⟨4, 7, 1, 6, 2⟩
  | .rte => ⟨4, 7, 1, 6, 3⟩
  | .rts => ⟨4, 7, 1, 6, 5⟩
  | .trapv => ⟨4, 7, 1, 6, 6⟩
  | .rtr => ⟨4, 7, 1, 6, 7⟩
  | .jsr dst => withEA 4 7 2 dst
  | .jmp dst => withEA 4 7 3 dst
  | .addq q sz dst => withEA 5 q sz.low dst
  | .subq q sz dst => withEA 5 q sz.high dst
  | .scc cond dst => condFields 5 cond 3 dst.modeField dst.regField
  | .dbcc cond dn _ => condFields 5 cond 3 1 dn
  | .bra d => branchFields .t d.byte
  | .bsr d => branchFields .f d.byte
  | .bcc cond d => branchFields cond d.byte
  | .moveq dn data =>
      ⟨7, dn, ⟨data.toNat / 64, by omega⟩, ⟨data.toNat / 8 % 8, by omega⟩, ⟨data.toNat % 8, by omega⟩⟩
  | .orToReg sz src dn => withEA 8 dn sz.low src
  | .orToMem sz dn dst => withEA 8 dn sz.high dst
  | .divu dn src => withEA 8 dn 3 src
  | .divs dn src => withEA 8 dn 7 src
  | .sbcd mem x y => ⟨8, x, 4, memBit mem, y⟩
  | .subToReg sz src dn => withEA 9 dn sz.low src
  | .subToMem sz dn dst => withEA 9 dn sz.high dst
  | .suba sz an src => withEA 9 an (sz.field 3 4) src
  | .subx sz mem x y => ⟨9, x, sz.high, memBit mem, y⟩
  | .line1010 v => lowFields 10 v
  | .cmp sz src dn => withEA 11 dn sz.low src
  | .cmpa sz an src => withEA 11 an (sz.field 3 4) src
  | .eor sz dn dst => withEA 11 dn sz.high dst
  | .cmpm sz x y => ⟨11, x, sz.high, 1, y⟩
  | .andToReg sz src dn => withEA 12 dn sz.low src
  | .andToMem sz dn dst => withEA 12 dn sz.high dst
  | .mulu dn src => withEA 12 dn 3 src
  | .muls dn src => withEA 12 dn 7 src
  | .abcd mem x y => ⟨12, x, 4, memBit mem, y⟩
  | .exgDD x y => ⟨12, x, 5, 0, y⟩
  | .exgAA x y => ⟨12, x, 5, 1, y⟩
  | .exgDA x y => ⟨12, x, 6, 1, y⟩
  | .addToReg sz src dn => withEA 13 dn sz.low src
  | .addToMem sz dn dst => withEA 13 dn sz.high dst
  | .adda sz an src => withEA 13 an (sz.field 3 4) src
  | .addx sz mem x y => ⟨13, x, sz.high, memBit mem, y⟩
  | .asrReg sz cnt dn => shiftFields sz.low 0 cnt dn
  | .aslReg sz cnt dn => shiftFields sz.high 0 cnt dn
  | .lsrReg sz cnt dn => shiftFields sz.low 1 cnt dn
  | .lslReg sz cnt dn => shiftFields sz.high 1 cnt dn
  | .roxrReg sz cnt dn => shiftFields sz.low 2 cnt dn
  | .roxlReg sz cnt dn => shiftFields sz.high 2 cnt dn
  | .rorReg sz cnt dn => shiftFields sz.low 3 cnt dn
  | .rolReg sz cnt dn => shiftFields sz.high 3 cnt dn
  | .asrMem dst => withEA 14 0 3 dst
  | .aslMem dst => withEA 14 0 7 dst
  | .lsrMem dst => withEA 14 1 3 dst
  | .lslMem dst => withEA 14 1 7 dst
  | .roxrMem dst => withEA 14 2 3 dst
  | .roxlMem dst => withEA 14 2 7 dst
  | .rorMem dst => withEA 14 3 3 dst
  | .rolMem dst => withEA 14 3 7 dst
  | .line1111 v => lowFields 15 v

/-- The extension words of an instruction, in the order of R103. -/
def extensionWords : Instr → List Word
  | .ori i dst | .andi i dst | .subi i dst | .addi i dst | .eori i dst | .cmpi i dst => i.words ++ dst.words
  | .oriToCcr b | .andiToCcr b | .eoriToCcr b => [b.setWidth 16]
  | .oriToSr w | .andiToSr w | .eoriToSr w => [w]
  | .btstImm b dst | .bchgImm b dst | .bclrImm b dst | .bsetImm b dst => b.setWidth 16 :: dst.words
  | .btstReg _ dst | .bchgReg _ dst | .bclrReg _ dst | .bsetReg _ dst => dst.words
  | .movepToReg _ _ _ d | .movepToMem _ _ _ d => [d]
  | .moveB src dst | .moveW src dst | .moveL src dst => src.words ++ dst.words
  | .moveaW _ src | .moveaL _ src => src.words
  | .negx _ dst | .clr _ dst | .neg _ dst | .not _ dst | .tst _ dst => dst.words
  | .moveFromSr dst | .nbcd dst | .tas dst | .scc _ dst => dst.words
  | .chk _ src | .moveToCcr src | .moveToSr src | .lea _ src | .pea src | .jsr src | .jmp src => src.words
  | .swap _ | .extW _ | .extL _ => []
  | .movemToMem _ list ea | .movemToReg _ list ea => list :: ea.words
  | .illegal | .trap _ | .unlk _ | .moveToUsp _ | .moveFromUsp _ | .resetDevices | .nop | .rte | .rts | .trapv
  | .rtr => []
  | .link _ d => [d]
  | .stop d => [d]
  | .addq _ _ dst | .subq _ _ dst => dst.words
  | .dbcc _ _ d => [d]
  | .bra d | .bsr d | .bcc _ d => d.words
  | .moveq _ _ => []
  | .orToReg _ src _ | .andToReg _ src _ | .subToReg _ src _ | .addToReg _ src _ | .cmp _ src _ => src.words
  | .orToMem _ _ dst | .andToMem _ _ dst | .subToMem _ _ dst | .addToMem _ _ dst | .eor _ _ dst => dst.words
  | .divu _ src | .divs _ src | .mulu _ src | .muls _ src => src.words
  | .suba _ _ src | .cmpa _ _ src | .adda _ _ src => src.words
  | .sbcd _ _ _ | .abcd _ _ _ | .subx _ _ _ _ | .addx _ _ _ _ | .cmpm _ _ _ => []
  | .line1010 _ | .line1111 _ | .exgDD _ _ | .exgAA _ _ | .exgDA _ _ => []
  | .asrReg _ _ _ | .aslReg _ _ _ | .lsrReg _ _ _ | .lslReg _ _ _ | .roxrReg _ _ _ | .roxlReg _ _ _ | .rorReg _ _ _
  | .rolReg _ _ _ => []
  | .asrMem dst | .aslMem dst | .lsrMem dst | .lslMem dst | .roxrMem dst | .roxlMem dst | .rorMem dst | .rolMem dst =>
      dst.words

/-- The words of an instruction. -/
def encode (i : Instr) : List Word := (encodeFields i).word :: extensionWords i

end Sys2Proof
end

