-- ==== Sys2Proof/Config.lean ====
section
/-! DEFINITION. What the spec leaves open and an implementation fixes. The opaque constants are free values: they have no
body, so nothing can be proved of them but what holds whatever they are (log entry 14). -/

namespace Sys2Proof.Config

/-- The free bit number `k` of a run (93_implementation_defined.md, treatment "any value"; log entry 14). -/
opaque freeBit : Nat → Bool

/-- The free byte number `k` of a run (device reads, undefined BCD results; log entries 8, 15). -/
opaque freeByte : Nat → Byte

/-- The free word number `k` of a run (device reads, undefined words of the group 0 frame; log entries 8, 25). -/
opaque freeWord : Nat → Word

/-- The free long word number `k` of a run (log entries 23, 24). -/
opaque freeLong : Nat → Long

/-- Whether the processor runs `BTST Dn,#imm` or takes it for an illegal instruction (93 U4 names both; log entry 26). -/
opaque btstImmediateRuns : Bool

/-- What a byte of memory that nothing has written reads as.
DESIGN CHOICE, unsafe: the spec gives memory no contents (10_state.md R40, D7; log entry 1). -/
def unwritten : Byte := 0

end Sys2Proof.Config
end

