-- ==== Sys2Proof/Machine/Bits.lean ====
section
/-! DEFINITION. Sizes and bit-field helpers: widths, truncation, sign extension, halves (00_scope.md R9). -/

namespace Sys2Proof

/-- The size in bytes, `sz` (00_scope.md R9). -/
def Size.bytes : Size → Nat
  | .b => 1
  | .w => 2
  | .l => 4

/-- The size in bits (00_scope.md R9). -/
def Size.bits : Size → Nat
  | .b => 8
  | .w => 16
  | .l => 32

end Sys2Proof

namespace Sys2Proof.Machine

/-- The low bits of a value at a size, zero above, `trunc_sz` (R9). -/
def trunc : Size → Long → Long
  | .b, v => (v.setWidth 8).setWidth 32
  | .w, v => (v.setWidth 16).setWidth 32
  | .l, v => v

/-- `old` with its low bits at a size replaced by those of `new` (10_state.md R21). -/
def merge : Size → Long → Long → Long
  | .b, old, new => old &&& 0xFFFFFF00 ||| new &&& 0x000000FF
  | .w, old, new => old &&& 0xFFFF0000 ||| new &&& 0x0000FFFF
  | .l, _, new => new

/-- The most significant bit of a value at a size, `v[msb]` (R9). -/
def msb (sz : Size) (v : Long) : Bool := v.getLsbD (sz.bits - 1)

/-- A byte, sign-extended to 32 bits. -/
def sextByte (v : Byte) : Long := v.signExtend 32

/-- A word, sign-extended to 32 bits. -/
def sextWord (v : Word) : Long := v.signExtend 32

/-- The low word of a value. -/
def lowWord (v : Long) : Word := v.setWidth 16

/-- The high word of a value. -/
def highWord (v : Long) : Word := (v >>> 16).setWidth 16

/-- A value at a size, sign-extended to 32 bits, `sext_32` (R9). -/
def sext : Size → Long → Long
  | .b, v => sextByte (v.setWidth 8)
  | .w, v => sextWord (lowWord v)
  | .l, v => v

/-- A long word from its two halves, `hi : lo` (R9). -/
def joinWords (hi lo : Word) : Long := hi ++ lo

/-- A byte as a value. -/
def ofByte (v : Byte) : Long := v.setWidth 32

/-- A word as a value. -/
def ofWord (v : Word) : Long := v.setWidth 32

/-- The value of immediate data, not extended by sign (30_encoding.md R105). -/
def immValue : Imm → Long
  | .b v => ofByte v
  | .w v => ofWord v
  | .l v => v

end Sys2Proof.Machine
end

