-- ==== Sys2Proof/Machine/State.lean ====
section
/-! DEFINITION. The state of the machine (10_state.md), the environment's inputs and outputs that a step reads and
writes (70_reset_and_hazards.md R475), the reasons a step can stop, and the state after reset. -/

namespace Sys2Proof.Machine

/-- The condition codes, SR bits 4 to 0 (10_state.md R28, R33). -/
structure CCR where
  x : Bool
  n : Bool
  z : Bool
  v : Bool
  c : Bool
deriving DecidableEq, Repr

/-- The address spaces the function codes name (20_memory.md R63). The codes 000, 011 and 100 are never driven. -/
inductive FC where
  | userData | userProgram | superData | superProgram | intAck
deriving DecidableEq, Repr

/-- The direction of a bus cycle (R/W). -/
inductive Dir where
  | read | write
deriving DecidableEq, Repr

/-- The size of a bus cycle: one byte, or a word (20_memory.md R70, R71). -/
inductive Width where
  | byte | word
deriving DecidableEq, Repr

/-- How the environment answers a bus cycle (`MEM_MAP`, 92_eei_decisions.md; log entry 7). -/
inductive Answer where
  /-- Plain memory; `FC_POLICY` may select among up to four separate 16-Mbyte memories (20_memory.md R60). -/
  | memory (bank : Fin 4)
  /-- A device: it gives the value read and consumes the value written (20_memory.md R66, R75; log entry 8). -/
  | device
  /-- BERR (20_memory.md R69). -/
  | berr
  /-- Nobody answers, not even a bus time-out (log entry 9). -/
  | noAnswer
deriving DecidableEq, Repr

/-- A region of `MEM_MAP`: the addresses from `base`, `size` of them, for one function code or any, for one direction or
any, for one size of cycle or any (log entry 7). -/
structure Region where
  base   : Nat
  size   : Nat
  fc     : Option FC
  dir    : Option Dir
  width  : Option Width
  answer : Answer
deriving DecidableEq, Repr

/-- How the interrupting device answers the acknowledge cycle (60_exceptions.md R424 to R427). -/
inductive Ack where
  | vector (n : Byte)
  | autovector
  | busError
deriving DecidableEq, Repr

/-- What other agents do on the bus. -/
inductive OutsideAct where
  /-- Another master reads a byte of a memory (`DMA_AGENTS`, 20_memory.md R80). -/
  | dmaRead (bank : Fin 4) (addr : Long)
  /-- Another master writes a byte of a memory (R80). -/
  | dmaWrite (bank : Fin 4) (addr : Long) (v : Byte)
  /-- External logic ends the processor's cycle with BERR and HALT: it is made once in vain and repeated (`RERUN`, R85). -/
  | rerun
  /-- RESET and HALT are asserted together: the processor stops where it is (60_exceptions.md R404, R410). -/
  | reset
deriving DecidableEq, Repr

/-- An act of another agent, due when `wait` more bus cycles of the processor have begun, or steps in which it makes none have
passed, after the act before it. The count, and that such a step counts as one, are a DESIGN CHOICE (log entries 10, 11, 12). -/
structure Outside where
  wait : Nat
  act  : OutsideAct
deriving DecidableEq, Repr

/-- What the processor shows outside, and what other masters see: the bus cycles in their one order, and `reset_out`
(70_reset_and_hazards.md R475, 20_memory.md R80). The value of a byte cycle is zero-extended. -/
inductive Event where
  /-- A read cycle, with the value read. -/
  | read (addr : Nat) (fc : FC) (width : Width) (v : Word)
  /-- A write cycle, with the value written. -/
  | write (addr : Nat) (fc : FC) (width : Width) (v : Word)
  /-- The read-modify-write cycle of TAS, one cycle, with the byte read and the byte written (20_memory.md R73). -/
  | modify (addr : Nat) (fc : FC) (old new : Byte)
  /-- A cycle ended by BERR, with the value of a write; `again` when HALT was asserted too, so that it is repeated (R69,
  R85). -/
  | aborted (addr : Nat) (fc : FC) (width : Width) (data : Option Word) (again : Bool)
  /-- An interrupt acknowledge cycle for a level (60_exceptions.md R423). -/
  | acknowledge (level : BitVec 3)
  /-- The pulse of the RESET instruction, `reset_out` (70_reset_and_hazards.md R472). -/
  | resetOut
  /-- A byte another master read, with the value it saw. -/
  | dmaRead (bank : Fin 4) (addr : Nat) (v : Byte)
  /-- A byte another master wrote. -/
  | dmaWrite (bank : Fin 4) (addr : Nat) (v : Byte)
deriving DecidableEq, Repr

/-- The processing state (10_state.md R39). `HeldByHaltPin` is the input `haltPin`. -/
inductive Run where
  | running | stopped | halted
deriving DecidableEq, Repr

/-- Memory: the bytes that differ from what an unlisted address reads as, addresses strictly rising. The key of a byte is
its bank times 2^24 plus its physical address (20_memory.md R61; log entry 7). -/
abbrev Memory := List Host.Cell

/-- The state of the machine: INVENTORY.md lists each field with the rule that names it. -/
structure State where
  /-- D0 to D7 (R20). -/
  d : Vector Long 8
  /-- A0 to A6 (R22). -/
  a : Vector Long 7
  /-- The user stack pointer, A7 when S = 0 (R24). -/
  usp : Long
  /-- The supervisor stack pointer, A7 when S = 1 (R24). -/
  ssp : Long
  /-- The program counter: the address of the next word of the instruction stream to be consumed (R25, R26). -/
  pc : Long
  /-- T, SR bit 15 (R31). -/
  trace : Bool
  /-- S, SR bit 13 (R30). -/
  super : Bool
  /-- The interrupt mask, SR bits 10 to 8 (R32). -/
  mask : BitVec 3
  /-- X N Z V C, SR bits 4 to 0 (R33). -/
  ccr : CCR
  /-- The first word of the prefetch queue (R37): at an instruction boundary the word read at `pc`. -/
  q0 : Word
  /-- The second word of the prefetch queue (R37): the word read at `pc + 2` at a boundary. -/
  q1 : Word
  /-- The instruction register, the operation word in the decoder (60_exceptions.md R430). -/
  ir : Word
  /-- The address of the operation word in execution (00_scope.md R9, `owl`). -/
  owl : Long
  /-- The instruction that just completed began with T = 1, so its trace exception is due (60_exceptions.md R448). -/
  tracePending : Bool
  /-- The processing state (R39). -/
  run : Run
  /-- The edge memory of level 7 (R38, 60_exceptions.md R446). -/
  l7Seen : Bool
  /-- Memory (20_memory.md R60). -/
  mem : Memory
  /-- Input: the requested interrupt level (R38). -/
  irqLevel : BitVec 3
  /-- Input: the answer to the acknowledge cycle (60_exceptions.md R423). -/
  ack : Ack
  /-- Input: RESET and HALT were asserted together and are now negated (60_exceptions.md R410). -/
  resetRequest : Bool
  /-- Input: HALT is asserted alone (60_exceptions.md R461). -/
  haltPin : Bool
  /-- Input: `MEM_MAP` and `FC_POLICY` (00_scope.md R7). -/
  map : List Region
  /-- Input: what other agents will do on the bus, in order: `DMA_AGENTS`, `RERUN`, and a reset in the middle of a step
  (R404, R475). -/
  outside : List Outside
  /-- Input: what the map becomes when the RESET instruction pulses the pin, `RESET_LINE` (R472); `none`: it stays. -/
  resetLine : Option (List Region)
  /-- Output: the bus cycles and the pulse of RESET, the latest first (70_reset_and_hazards.md R475). -/
  events : List Event
  /-- The model's own: the words of the instruction stream that the instruction in execution has fetched (log entry 6). -/
  stream : List Word
  /-- The model's own: how many free values have been used (log entry 14). -/
  free : Nat
deriving DecidableEq, Repr

/-- Why the model stops. -/
inductive Fault where
  /-- A bus cycle that the map says nobody answers: the processor waits for ever. Raised by the bus-cycle operations.
  Safe: no further state is claimed (log entry 9). -/
  | noAnswer
deriving DecidableEq, Repr

/-- What the model has no meaning for. -/
inductive Refusal where
  /-- An instruction whose meaning is not written. Raised by arms of `exec`. Safe. -/
  | notModelled (mnemonic : String)
deriving DecidableEq, Repr

/-- The kind of a group 0 fault inside a step (60_exceptions.md R411, R412). -/
inductive FaultKind where
  | busError | addressError
deriving DecidableEq, Repr

/-- Where in the step a group 0 fault arose: it decides the range of the saved PC (93 U15) and what may be undone (93 U10,
U11). -/
inductive Phase where
  /-- Inside an instruction. -/
  | operand
  /-- The fetch at a new target. -/
  | target (t : Long)
  /-- Inside the entry sequence of a trap of the instruction. -/
  | entry
  /-- The first fetch of the handler of a trap of the instruction. -/
  | handler (t : Long)
deriving DecidableEq, Repr

/-- A bus cycle that ended in a group 0 fault (60_exceptions.md R430, R431). -/
structure BusFault where
  kind  : FaultKind
  addr  : Long
  dir   : Dir
  fc    : FC
  phase : Phase
deriving DecidableEq, Repr

/-- Why an operation of the machine does not complete. -/
inductive Abort where
  /-- A bus error or an address error. -/
  | group0 (f : BusFault)
  /-- A bus cycle nobody answers. -/
  | hang
  /-- RESET and HALT asserted together. -/
  | reset
deriving DecidableEq, Repr

/-- The outcome of a step. -/
abbrev Outcome := Host.Outcome State Fault Refusal

/-- An operation inside a step: it reads and changes the state, gives a value, or aborts. -/
abbrev Exec (α : Type) := EStateM Abort State α

/-- The machine right after reset: what 70_reset_and_hazards.md R471 leaves (10_state.md R40), over memory in which nothing
is listed, with the values of log entries 1, 2, 3, 39 and 40 where the spec gives none. -/
def State.reset : State where
  d := Vector.replicate 8 0
  a := Vector.replicate 7 0
  usp := 0
  ssp := 0
  pc := 0
  trace := false
  super := true
  mask := 7
  ccr := ⟨false, false, false, false, false⟩
  q0 := 0
  q1 := 0
  ir := 0
  owl := 0
  tracePending := false
  run := .running
  l7Seen := false
  mem := []
  irqLevel := 0
  ack := .autovector
  resetRequest := false
  haltPin := false
  map := []
  outside := []
  resetLine := none
  events := []
  stream := []
  free := 0

end Sys2Proof.Machine
end

