-- ==== Sys2Proof/Machine/Memory.lean ====
section
/-! DEFINITION. Memory as a sorted list of cells: reading and writing a byte, and the canonical form (20_memory.md R60,
R61, R65; log entry 1). -/

namespace Sys2Proof.Machine

/-- The number of byte keys: four banks of 2^24 bytes (20_memory.md R60). -/
def memoryKeys : Nat := 4 * 2 ^ 24

/-- The byte at a key. -/
def Memory.readByte : Memory → Nat → Byte
  | [], _ => Config.unwritten
  | (k', v) :: m, k => if k' = k then v else Memory.readByte m k

/-- The memory with one byte changed; an entry equal to what an unlisted address reads as is removed. -/
def Memory.writeByte : Memory → Nat → Byte → Memory
  | [], k, v => if v = Config.unwritten then [] else [(k, v)]
  | (k', v') :: m, k, v =>
    if k < k' then
      if v = Config.unwritten then (k', v') :: m else (k, v) :: (k', v') :: m
    else if k' = k then
      if v = Config.unwritten then m else (k, v) :: m
    else (k', v') :: Memory.writeByte m k v

/-- The canonical form from a least key on: keys strictly rising and in range, no entry that an unlisted address reads
as. -/
def Memory.wfFrom (least : Nat) : Memory → Bool
  | [] => true
  | (k, v) :: m => decide (least ≤ k) && decide (k < memoryKeys) && v != Config.unwritten && Memory.wfFrom (k + 1) m

/-- The canonical form of a memory. -/
def Memory.wf (m : Memory) : Bool := Memory.wfFrom 0 m

end Sys2Proof.Machine
end

