-- ==== Sys2Proof/Machine/Ops.lean ====
section
/-! DEFINITION. The named operations over registers, the status register, memory and the instruction stream, taking an
exception and returning from one. Every instruction's meaning is written over these. -/

namespace Sys2Proof.Machine

/-! ## The status register -/

/-- CCR as a byte, bits 7 to 5 zero (10_state.md R28, R29). -/
def CCR.toByte (f : CCR) : Byte :=
  0#3 ++ BitVec.ofBool f.x ++ BitVec.ofBool f.n ++ BitVec.ofBool f.z ++ BitVec.ofBool f.v ++ BitVec.ofBool f.c

/-- The condition codes in bits 4 to 0 of a byte; the other bits are discarded (R29). -/
def CCR.ofByte (b : Byte) : CCR where
  x := b.getLsbD 4
  n := b.getLsbD 3
  z := b.getLsbD 2
  v := b.getLsbD 1
  c := b.getLsbD 0

/-- The status register as a word, its unused bits zero (R28, R29). -/
def State.sr (s : State) : Word :=
  BitVec.ofBool s.trace ++ 0#1 ++ BitVec.ofBool s.super ++ 0#2 ++ s.mask ++ s.ccr.toByte

/-- The state with SR written from a word; bits outside `$A71F` are discarded (R29). -/
def State.setSr (s : State) (w : Word) : State :=
  { s with trace := w.getLsbD 15, super := w.getLsbD 13, mask := w.extractLsb' 8 3, ccr := CCR.ofByte (w.setWidth 8) }

/-! ## Registers -/

/-- `A[n]`: A7 is SSP when S = 1 and USP when S = 0 (10_state.md R24). -/
def State.areg (s : State) (n : RegNum) : Long :=
  if h : n.val < 7 then s.a[n.val] else if s.super then s.ssp else s.usp

/-- The state with `A[n]` written (R24). -/
def State.setAreg (s : State) (n : RegNum) (v : Long) : State :=
  if h : n.val < 7 then { s with a := s.a.set n.val v } else if s.super then { s with ssp := v } else { s with usp := v }

/-- The state with all 32 bits of `D[n]` written. -/
def State.setDreg (s : State) (n : RegNum) (v : Long) : State := { s with d := s.d.set n.val v }

/-- The state with the condition codes written. -/
def State.setFlags (s : State) (f : CCR) : State := { s with ccr := f }

/-- A general register (00_scope.md R9, `R[i]`). -/
def State.reg (s : State) (r : Reg) : Long :=
  match r with
  | .d n => s.d[n.val]
  | .a n => s.areg n

/-- The general register of index 0 to 15: D0 to D7, A0 to A7 (R9). -/
def regOfIndex (i : Fin 16) : Reg :=
  if h : i.val < 8 then .d ⟨i.val, h⟩ else .a ⟨i.val - 8, by omega⟩

/-- An operation that reads the state. -/
def inspect {α : Type} (f : State → α) : Exec α := fun s => .ok (f s) s

/-- An operation that changes the state. -/
def update (f : State → State) : Exec Unit := fun s => .ok () (f s)

/-- The value of `D[n]`. -/
def getD (n : RegNum) : Exec Long := inspect fun s => s.d[n.val]

/-- The value of `A[n]`. -/
def getA (n : RegNum) : Exec Long := inspect fun s => s.areg n

/-- Write the low bits of `D[n]` at a size, leaving the others (R21). -/
def setD (sz : Size) (n : RegNum) (v : Long) : Exec Unit := update fun s => s.setDreg n (merge sz s.d[n.val] v)

/-- Write all of `A[n]`. -/
def setA (n : RegNum) (v : Long) : Exec Unit := update fun s => s.setAreg n v

/-- Write all of a general register. -/
def setReg (r : Reg) (v : Long) : Exec Unit :=
  match r with
  | .d n => setD .l n v
  | .a n => setA n v

/-- The condition codes. -/
def getCcr : Exec CCR := inspect fun s => s.ccr

/-- Write the condition codes. -/
def setCcr (f : CCR) : Exec Unit := update fun s => s.setFlags f

/-! ## Free values (log entry 14) -/

/-- A free bit. -/
def takeBit : Exec Bool := fun s => .ok (Config.freeBit s.free) { s with free := s.free + 1 }

/-- A free word. -/
def takeWord : Exec Word := fun s => .ok (Config.freeWord s.free) { s with free := s.free + 1 }

/-- A free long word. -/
def takeLong : Exec Long := fun s => .ok (Config.freeLong s.free) { s with free := s.free + 1 }

/-- The index of a free value, for the flag computations that use several. -/
def takeIndex : Exec Nat := fun s => .ok s.free { s with free := s.free + 1 }

/-! ## Bus cycles -/

/-- The function code of a data access (20_memory.md R63, R64). -/
def State.dataFC (s : State) : FC := if s.super then .superData else .userData

/-- The function code of a program access (R63, R64). -/
def State.programFC (s : State) : FC := if s.super then .superProgram else .userProgram

/-- The code FC2 FC1 FC0 (R63). -/
def FC.code : FC → BitVec 3
  | .userData => 1
  | .userProgram => 2
  | .superData => 5
  | .superProgram => 6
  | .intAck => 7

/-- The address the bus carries: bits 23 to 0 (20_memory.md R61). -/
def physical (addr : Long) : Nat := addr.toNat % 2 ^ 24

/-- The key of a byte in memory. -/
def byteKey (bank : Fin 4) (addr : Long) : Nat := bank.val * 2 ^ 24 + physical addr

/-- Whether a region covers a bus cycle. -/
def Region.covers (r : Region) (addr : Long) (fc : FC) (dir : Dir) (w : Width) : Bool :=
  decide (r.base ≤ physical addr) && decide (physical addr < r.base + r.size) &&
    (r.fc == none || r.fc == some fc) && (r.dir == none || r.dir == some dir) && (r.width == none || r.width == some w)

/-- The first region that covers a bus cycle answers it; with none, plain memory (log entry 7). -/
def lookup : List Region → Long → FC → Dir → Width → Answer
  | [], _, _, _, _ => .memory 0
  | r :: rs, addr, fc, dir, w => if r.covers addr fc dir w then r.answer else lookup rs addr fc dir w

/-- The environment's answer to a bus cycle (`MEM_MAP`, `FC_POLICY`). -/
def State.answer (s : State) (addr : Long) (fc : FC) (dir : Dir) (w : Width) : Answer := lookup s.map addr fc dir w

/-- The word in memory at an even address, high-order byte first (20_memory.md R65). -/
def State.wordAt (s : State) (bank : Fin 4) (addr : Long) : Word :=
  s.mem.readByte (byteKey bank addr) ++ s.mem.readByte (byteKey bank (addr + 1))

/-- The state with a word stored, high-order byte first (R65). -/
def State.storeWord (s : State) (bank : Fin 4) (addr : Long) (v : Word) : State :=
  let m := s.mem.writeByte (byteKey bank addr) ((v >>> 8).setWidth 8)
  { s with mem := m.writeByte (byteKey bank (addr + 1)) (v.setWidth 8) }

/-- The state with a byte stored. -/
def State.storeByte (s : State) (bank : Fin 4) (addr : Long) (v : Byte) : State :=
  { s with mem := s.mem.writeByte (byteKey bank addr) v }

/-- The state with an event shown outside (70_reset_and_hazards.md R475; log entry 8). -/
def State.note (s : State) (e : Event) : State := { s with events := e :: s.events }

/-- The state with one free value used. -/
def State.spend (s : State) : State := { s with free := s.free + 1 }

/-- Abort with a bus error (20_memory.md R69). -/
def busError {α : Type} (addr : Long) (dir : Dir) (fc : FC) (w : Width) (data : Option Word) : Exec α := fun s =>
  .error (.group0 ⟨.busError, addr, dir, fc, .operand⟩) (s.note (.aborted (physical addr) fc w data false))

/-- Abort with an address error (20_memory.md R67). -/
def addressError {α : Type} (addr : Long) (dir : Dir) (fc : FC) : Exec α := fun s =>
  .error (.group0 ⟨.addressError, addr, dir, fc, .operand⟩) s

/-- Abort because RESET and HALT are asserted (60_exceptions.md R404). -/
def abandoned {α : Type} : Exec α := fun s => .error .reset s

/-- The acts of other agents that are due before a bus cycle, or in a step without one, in order; the wait of the next act then
goes down by one, in both cases (DESIGN CHOICE, log entry 11). `again` is the cycle made in vain, where a rerun may
repeat it (20_memory.md R80, R85, 60_exceptions.md R404; log entries 10, 11, 12). -/
def performDue (again : Option Event) : List Outside → Exec Unit
  | [] => update fun s => { s with outside := [] }
  | ⟨n + 1, act⟩ :: rest => update fun s => { s with outside := ⟨n, act⟩ :: rest }
  | ⟨0, .dmaRead bank addr⟩ :: rest => do
    update fun s => s.note (.dmaRead bank (physical addr) (s.mem.readByte (byteKey bank addr)))
    performDue again rest
  | ⟨0, .dmaWrite bank addr v⟩ :: rest => do
    update fun s => (s.storeByte bank addr v).note (.dmaWrite bank (physical addr) v)
    performDue again rest
  | ⟨0, .rerun⟩ :: rest => do
    update fun s => match again with
      | some e => s.note e
      | none => s
    performDue again rest
  | ⟨0, .reset⟩ :: rest => do
    update fun s => { s with outside := rest }
    abandoned

/-- The bus between two cycles of the processor: other agents may act (20_memory.md R80). -/
def grantBus (again : Option Event) : Exec Unit := fun s => performDue again s.outside s

/-- A byte read, the bus being granted. -/
def performReadByte (addr : Long) (fc : FC) : Exec Byte := fun s =>
  match s.answer addr fc .read .byte with
  | .memory bank =>
    let v := s.mem.readByte (byteKey bank addr)
    .ok v (s.note (.read (physical addr) fc .byte (v.setWidth 16)))
  | .device =>
    let v := Config.freeByte s.free
    .ok v (s.spend.note (.read (physical addr) fc .byte (v.setWidth 16)))
  | .berr => busError addr .read fc .byte none s
  | .noAnswer => .error .hang s

/-- A word read, the bus being granted. -/
def performReadWord (addr : Long) (fc : FC) : Exec Word := fun s =>
  match s.answer addr fc .read .word with
  | .memory bank =>
    let v := s.wordAt bank addr
    .ok v (s.note (.read (physical addr) fc .word v))
  | .device =>
    let v := Config.freeWord s.free
    .ok v (s.spend.note (.read (physical addr) fc .word v))
  | .berr => busError addr .read fc .word none s
  | .noAnswer => .error .hang s

/-- A byte write, the bus being granted; an aborted one leaves memory unchanged (R66, R69, D9). -/
def performWriteByte (addr : Long) (fc : FC) (v : Byte) : Exec Unit := fun s =>
  match s.answer addr fc .write .byte with
  | .memory bank => .ok () ((s.storeByte bank addr v).note (.write (physical addr) fc .byte (v.setWidth 16)))
  | .device => .ok () (s.note (.write (physical addr) fc .byte (v.setWidth 16)))
  | .berr => busError addr .write fc .byte (some (v.setWidth 16)) s
  | .noAnswer => .error .hang s

/-- A word write, the bus being granted (R66, R69). -/
def performWriteWord (addr : Long) (fc : FC) (v : Word) : Exec Unit := fun s =>
  match s.answer addr fc .write .word with
  | .memory bank => .ok () ((s.storeWord bank addr v).note (.write (physical addr) fc .word v))
  | .device => .ok () (s.note (.write (physical addr) fc .word v))
  | .berr => busError addr .write fc .word (some v) s
  | .noAnswer => .error .hang s

/-- One byte read cycle (20_memory.md R66, R70). -/
def readByteCycle (addr : Long) (fc : FC) : Exec Byte := do
  grantBus (some (.aborted (physical addr) fc .byte none true))
  performReadByte addr fc

/-- One word read cycle (R66). -/
def readWordCycle (addr : Long) (fc : FC) : Exec Word := do
  grantBus (some (.aborted (physical addr) fc .word none true))
  performReadWord addr fc

/-- One byte write cycle. -/
def writeByteCycle (addr : Long) (fc : FC) (v : Byte) : Exec Unit := do
  grantBus (some (.aborted (physical addr) fc .byte (some (v.setWidth 16)) true))
  performWriteByte addr fc v

/-- One word write cycle. -/
def writeWordCycle (addr : Long) (fc : FC) (v : Word) : Exec Unit := do
  grantBus (some (.aborted (physical addr) fc .word (some v) true))
  performWriteWord addr fc v

/-- The read phase of a read-modify-write cycle. -/
def modifyRead (addr : Long) (fc : FC) : Exec Byte := fun s =>
  match s.answer addr fc .read .byte with
  | .memory bank => .ok (s.mem.readByte (byteKey bank addr)) s
  | .device => .ok (Config.freeByte s.free) s.spend
  | .berr => busError addr .read fc .byte none s
  | .noAnswer => .error .hang s

/-- The write phase of a read-modify-write cycle, which shows the whole cycle as one. -/
def modifyWrite (addr : Long) (fc : FC) (old new : Byte) : Exec Unit := fun s =>
  match s.answer addr fc .write .byte with
  | .memory bank => .ok () ((s.storeByte bank addr new).note (.modify (physical addr) fc old new))
  | .device => .ok () (s.note (.modify (physical addr) fc old new))
  | .berr => busError addr .write fc .byte (some (new.setWidth 16)) s
  | .noAnswer => .error .hang s

/-- The read-modify-write cycle of TAS, one bus cycle: nobody acts inside it, and it is not rerun (20_memory.md R73, R74,
R85). `compute` may change the state between the two phases. -/
def modifyByteCycle (addr : Long) (fc : FC) (compute : Byte → Exec Byte) : Exec Unit := do
  grantBus none
  let old ← modifyRead addr fc
  let new ← compute old
  modifyWrite addr fc old new

/-- Whether a region is plain memory. -/
def Region.isMemory (r : Region) : Bool :=
  match r.answer with
  | .memory _ => true
  | .device | .berr | .noAnswer => false

/-- Whether `MEM_MAP` holds plain memory only: no device, no BERR, no silence (92_eei_decisions.md D10). -/
def State.plainMap (s : State) : Bool := s.map.all Region.isMemory

/-- Cycles that a program does not ask for: omitted over plain memory, made where the map holds anything else (D10,
20_memory.md R75, 93 U9; log entry 28). -/
def unasked (m : Exec Unit) : Exec Unit := fun s => if s.plainMap then .ok () s else m s

/-- Whether an access of a size at an address is misaligned (20_memory.md R67). -/
def misaligned (sz : Size) (addr : Long) : Bool := sz != .b && addr.getLsbD 0

/-- `MemRead(addr, n, fc)` (R66): the alignment check before any cycle, then one cycle, or two, the high word first
(R71). -/
def memRead (sz : Size) (addr : Long) (fc : FC) : Exec Long :=
  if misaligned sz addr then addressError addr .read fc
  else
    match sz with
    | .b => do pure (ofByte (← readByteCycle addr fc))
    | .w => do pure (ofWord (← readWordCycle addr fc))
    | .l => do
      let hi ← readWordCycle addr fc
      let lo ← readWordCycle (addr + 2) fc
      pure (joinWords hi lo)

/-- `MemWrite(addr, n, fc, v)` (R66). A long word goes high word first, but low word first when it is pushed
(R71; log entry 21). -/
def memWrite (sz : Size) (pushed : Bool) (addr : Long) (fc : FC) (v : Long) : Exec Unit :=
  if misaligned sz addr then addressError addr .write fc
  else
    match sz with
    | .b => writeByteCycle addr fc (v.setWidth 8)
    | .w => writeWordCycle addr fc (lowWord v)
    | .l =>
      if pushed then do
        writeWordCycle (addr + 2) fc (lowWord v)
        writeWordCycle addr fc (highWord v)
      else do
        writeWordCycle addr fc (highWord v)
        writeWordCycle (addr + 2) fc (lowWord v)

/-- The data-space function code of the current privilege state. -/
def dataSpace : Exec FC := inspect fun s => s.dataFC

/-- The program-space function code of the current privilege state. -/
def programSpace : Exec FC := inspect fun s => s.programFC

/-- A read in data space. -/
def readData (sz : Size) (addr : Long) : Exec Long := do
  let fc ← dataSpace
  memRead sz addr fc

/-- A write in data space (20_memory.md R64: all operands are written there). -/
def writeData (sz : Size) (pushed : Bool) (addr : Long) (v : Long) : Exec Unit := do
  let fc ← dataSpace
  memWrite sz pushed addr fc v

/-! ## Stack -/

/-- `Push16` (00_scope.md R9). -/
def push16 (v : Word) : Exec Unit := do
  let sp ← getA 7
  setA 7 (sp - 2)
  writeData .w true (sp - 2) (ofWord v)

/-- `Push32` (R9), low word first (20_memory.md R71). -/
def push32 (v : Long) : Exec Unit := do
  let sp ← getA 7
  setA 7 (sp - 4)
  writeData .l true (sp - 4) v

/-- `Pop16` (R9): the read, then the pointer (log entry 36). -/
def pop16 : Exec Word := do
  let sp ← getA 7
  let v ← readData .w sp
  setA 7 (sp + 2)
  pure (lowWord v)

/-- `Pop32` (R9): the read, then the pointer (log entry 36). -/
def pop32 : Exec Long := do
  let sp ← getA 7
  let v ← readData .l sp
  setA 7 (sp + 4)
  pure v

/-! ## The instruction stream (70_reset_and_hazards.md R481; log entries 4, 5) -/

/-- The program counter. -/
def getPc : Exec Long := inspect fun s => s.pc

/-- The start of an instruction: its operation word goes to the decoder (R481 item 1), the program counter to the word
after it (10_state.md R26), and T is noted for the trace rule (60_exceptions.md R448). -/
def State.startInstr (s : State) : State :=
  { s with owl := s.pc, ir := s.q0, pc := s.pc + 2, tracePending := s.trace, stream := [] }

/-- The use of one extension word: it leaves the queue, and a fetch replaces it (R481 item 2). -/
def fetchExt : Exec Unit := do
  let pc ← getPc
  let fc ← programSpace
  let w ← readWordCycle (pc + 2) fc
  update fun s => { s with q1 := w, pc := pc + 2, stream := s.stream ++ [w] }

/-- The use of `n` extension words. -/
def fetchExts : Nat → Exec Unit
  | 0 => pure ()
  | n + 1 => do
    fetchExt
    fetchExts n

/-- The last fetch of an instruction that does not change the flow: the operation word is discarded, and the next one and
the word after it fill the queue (R481 item 3). -/
def lastFetch : Exec Unit := do
  let pc ← getPc
  let fc ← programSpace
  let w ← readWordCycle (pc + 2) fc
  update fun s => { s with q0 := s.q1, q1 := w }

/-- The abort with its fault changed. -/
def Abort.mapFault (g : BusFault → BusFault) : Abort → Abort
  | .group0 f => .group0 (g f)
  | .hang => .hang
  | .reset => .reset

/-- The same operation with its faults laid elsewhere. -/
def relaid {α : Type} (g : BusFault → BusFault) (m : Exec α) : Exec α := fun s =>
  match m s with
  | .ok v s' => .ok v s'
  | .error e s' => .error (e.mapFault g) s'

/-- The same operation with its faults laid to the fetch at a target (93 U15). -/
def atTarget {α : Type} (t : Long) (m : Exec α) : Exec α := relaid (fun f => { f with phase := .target t }) m

/-- A word of the instruction stream: at an odd address an address error (20_memory.md R68). -/
def fetchWord (addr : Long) (fc : FC) : Exec Word :=
  if addr.getLsbD 0 then addressError addr .read fc else readWordCycle addr fc

/-- The program counter at a target, and the queue refilled from there. -/
def fetchTarget (t : Long) : Exec Unit := do
  let fc ← programSpace
  update fun s => { s with pc := t }
  let w0 ← fetchWord t fc
  let w1 ← readWordCycle (t + 2) fc
  update fun s => { s with q0 := w0, q1 := w1 }

/-- A transfer of control: the queue is refilled from the target (R481); an odd target faults on that fetch
(45_program_control.md R279; log entry 30). -/
def jump (t : Long) : Exec Unit := atTarget t (fetchTarget t)

/-- Fetch again from the program counter, after a write of SR that changes S (70_reset_and_hazards.md R485; log entry 29). -/
def refill : Exec Unit := do
  let pc ← getPc
  jump pc

/-! ## Taking an exception (60_exceptions.md R420 to R432) -/

/-- The words a group 0 exception pushes below PC and SR (R430). -/
structure Group0Words where
  ir     : Word
  addr   : Long
  status : Word
deriving DecidableEq, Repr

/-- The address of a vector (R402). -/
def vectorAddress (vec : Nat) : Long := BitVec.ofNat 32 (4 * vec)

/-- The space a vector is read in: supervisor data, but supervisor program for vectors 0 and 1 (R402; log entry 47). -/
def vectorSpace (vec : Nat) : FC := if vec < 2 then .superProgram else .superData

/-- The program counter of a frame, `Push32` with the vector number taken between its low word and its high word (R420: the
acknowledge cycle of an interrupt stands there; log entry 35). -/
def pushPc (vector : Exec Nat) (v : Long) : Exec Nat := do
  let sp ← getA 7
  setA 7 (sp - 4)
  let fc ← dataSpace
  if misaligned .l (sp - 4) then addressError (sp - 4) .write fc
  else do
    writeWordCycle (sp - 4 + 2) fc (lowWord v)
    let vec ← vector
    writeWordCycle (sp - 4) fc (highWord v)
    pure vec

/-- The four words a group 0 exception pushes (R430); nothing for any other. -/
def pushExtra : Option Group0Words → Exec Unit
  | none => pure ()
  | some e => do
    push16 e.ir
    push32 e.addr
    push16 e.status

/-- The entry sequence of every exception except reset (R420): S set and T cleared, the mask raised for an interrupt, PC
and SR pushed on the supervisor stack, for group 0 the four extra words of R430 below them, and the program counter loaded
from the vector. `vector` gives the vector number, for an interrupt by the acknowledge cycle. -/
def takeException (vector : Exec Nat) (savedPc : Long) (savedSr : Word) (level : Option (BitVec 3))
    (extra : Option Group0Words) : Exec Unit := do
  update fun s => { s with super := true, trace := false, mask := level.getD s.mask }
  let vec ← pushPc vector savedPc
  push16 savedSr
  pushExtra extra
  let handler ← memRead .l (vectorAddress vec) (vectorSpace vec)
  update fun s => { s with run := .running }
  jump handler

/-- The vector of a group 0 fault (R411, R412). -/
def FaultKind.vector : FaultKind → Nat
  | .busError => 2
  | .addressError => 3

/-- The special status word (R431): R/W in bit 4, I/N in bit 3, the function code in bits 2 to 0; bits 15 to 5 are free
(93 U16; log entry 25). -/
def statusWord (free : Word) (f : BusFault) (notInstr : Bool) : Word :=
  free.extractLsb' 5 11 ++ BitVec.ofBool (f.dir == .read) ++ BitVec.ofBool notInstr ++ f.fc.code

/-- The PC of a group 0 frame: any even value in `owl + 2 .. owl + 10` inside an instruction, any value in `t .. t + 4` for
the fetch at a target `t` (93 U15), any value inside another entry (log entry 24). -/
def savedPcOf (free : Long) (f : BusFault) (notInstr : Bool) (owl : Long) : Long :=
  match f.phase with
  | .target t | .handler t => t + BitVec.ofNat 32 (free.toNat % 5)
  | .operand | .entry => if notInstr then free else owl + 2 + BitVec.ofNat 32 (2 * (free.toNat % 5))

/-- What a step answers when an operation ends: its next state, what a group 0 fault in it leads to, a hang, or a reset that
the next step serves (60_exceptions.md R404; log entry 10). -/
def concluded (onFault : BusFault → State → Outcome) : EStateM.Result Abort State Unit → Outcome
  | .ok _ s => .next s
  | .error (.group0 f) s => onFault f s
  | .error .hang _ => .fault .noAnswer
  | .error .reset s => .next { s with resetRequest := true }

/-- The double fault: the processor halts (R432). -/
def halt (s : State) : Outcome := .next { s with run := .halted }

/-- The entry sequence of a bus error or an address error (R430, R431), from the state `s` of the fault. -/
def enterGroup0 (f : BusFault) (notInstr : Bool) (s : State) : Exec Unit := do
  let freePc ← takeLong
  let freeIr ← takeWord
  let freeStatus ← takeWord
  takeException (pure f.kind.vector) (savedPcOf freePc f notInstr s.owl) s.sr none
    (some ⟨if notInstr then freeIr else s.ir, f.addr, statusWord freeStatus f notInstr⟩)

/-- Bus error or address error processing. A second fault inside it, up to both words fetched from the new PC, is a double
fault (R432; log entry 46). -/
def takeGroup0 (f : BusFault) (notInstr : Bool) (s : State) : Outcome :=
  concluded (fun _ => halt) (enterGroup0 f notInstr s { s with tracePending := false })

/-- A group 1 exception: interrupt, trace, illegal, unimplemented, privilege violation (R403, R421). A group 0 fault inside
it is taken with I/N = 1 (R432). -/
def takeGroup1 (vector : Exec Nat) (savedPc : Long) (savedSr : Word) (level : Option (BitVec 3)) (s : State) : Outcome :=
  concluded (fun f => takeGroup0 f true) (takeException vector savedPc savedSr level none s)

/-- Where a fault inside an entry sequence lies. -/
def Phase.inEntry : Phase → Phase
  | .operand | .entry => .entry
  | .target t | .handler t => .handler t

/-- The same operation with its faults laid to an entry sequence, so that nothing of the instruction is undone. -/
def inEntry {α : Type} (m : Exec α) : Exec α := relaid (fun f => { f with phase := f.phase.inEntry }) m

/-- A group 2 exception, an instruction's own trap (R418): the saved PC is the address of the next instruction, the saved
SR the one the instruction leaves (R422). -/
def trap2 (vec : Nat) : Exec Unit := do
  let pc ← getPc
  let sr ← inspect State.sr
  inEntry (takeException (pure vec) pc sr none none)

/-- Return from exception (45_program_control.md R282): SR and PC from the six-byte frame on SSP. -/
def returnFromException : Exec Unit := do
  let w ← pop16
  let p ← pop32
  update fun s => s.setSr w
  jump p

/-! ## Running an instruction -/

/-- An address register that an addressing mode of the instruction adjusts, and a value it may hold on the way (93 U10;
log entry 19). -/
structure Adjusted where
  reg     : RegNum
  between : List Long
deriving DecidableEq, Repr

/-- One of a list of values, or the last one, by free bits. -/
def pick : Long → List Long → Exec Long
  | v, [] => pure v
  | v, w :: ws => do
    let b ← takeBit
    if b then pure v else pick w ws

/-- After a fault inside an instruction an adjusted address register may hold its old value, its new one or one on the way
(93 U10; log entry 19), and the condition codes may be the old or the new (93 U11; log entry 20). -/
def unsettle (before : State) : List Adjusted → Exec Unit
  | [] => do
    let new ← getCcr
    let b ← takeBit
    setCcr (if b then before.ccr else new)
  | r :: rs => do
    let new ← getA r.reg
    let v ← pick (before.areg r.reg) (new :: r.between)
    setA r.reg v
    unsettle before rs

/-- The state in which the group 0 exception of an aborted instruction starts. -/
def abandon (adjusted : List Adjusted) (f : BusFault) (before after : State) : State :=
  match f.phase with
  | .operand =>
    match unsettle before adjusted after with
    | .ok _ s => s
    | .error _ s => s
  | .target _ | .entry | .handler _ => after

/-- The group 0 exception of an aborted instruction: I/N = 0 (R431), but 1 inside the entry of its own trap (R432, D27; log
entry 44). -/
def takeFault (f : BusFault) (s : State) : Outcome :=
  match f.phase with
  | .operand | .target _ => takeGroup0 f false s
  | .entry | .handler _ => takeGroup0 f true s

/-- Run an instruction's body from its start; a bus error or an address error in it is taken as a group 0 exception (R430,
R431, R440). -/
def runInstr (adjusted : List Adjusted) (body : Exec Unit) (s : State) : Outcome :=
  concluded (fun f s' => takeFault f (abandon adjusted f s.startInstr s')) (body s.startInstr)

/-- An instruction that is not started (illegal, unimplemented, privilege violation): a group 1 exception whose saved PC is
the address of the operation word, and which is not traced (R413 to R415, R422, R448). -/
def refuseInstr (vec : Nat) (s : State) : Outcome :=
  takeGroup1 (pure vec) s.pc s.sr none { s.startInstr with pc := s.pc, tracePending := false }

/-- A privileged instruction: in user state the privilege violation exception, and nothing else (R415, R452). -/
def privileged (body : State → Outcome) (s : State) : Outcome := if s.super then body s else refuseInstr 8 s

end Sys2Proof.Machine
end

