-- ==== Sys2Proof/Machine/Operands.lean ====
section
/-! DEFINITION. The addressing modes: resolving an effective address to an operand location, reading and writing it
(40_addressing_modes.md R140 to R163). -/

namespace Sys2Proof.Machine

/-- The address space of a memory operand (R140, R161). -/
inductive Space where
  | data | program
deriving DecidableEq, Repr

/-- Where an operand is, `DReg n | AReg n | Mem(addr, space) | Imm v` of R140. `pushed` marks `-(An)`, through which a long
word is written low word first (20_memory.md R71). -/
inductive Loc where
  | dreg (n : RegNum)
  | areg (n : RegNum)
  | mem (space : Space) (addr : Long) (pushed : Bool)
  | imm (v : Long)
deriving DecidableEq, Repr

/-- The step of `(An)+` and `-(An)`: the operand size, but 2 for a byte through A7 (R144, R145, R156). -/
def stepOf (sz : Size) (n : RegNum) : Long := if n.val = 7 ∧ sz = .b then 2 else BitVec.ofNat 32 sz.bytes

/-- The index of an index extension word: the register, or its low word sign-extended, plus the displacement (R147). -/
def indexOffset (s : State) (x : Index) : Long :=
  (if x.long then s.reg x.reg else sextWord (lowWord (s.reg x.reg))) + sextByte x.disp

/-- The location of an operand; the program counter is at its first extension word, which is the base of the PC-relative
modes (R141 to R152). -/
def State.locate (s : State) (sz : Size) : EA → Loc
  | .dreg n => .dreg n
  | .areg n => .areg n
  | .ind n => .mem .data (s.areg n) false
  | .postInc n => .mem .data (s.areg n) false
  | .preDec n => .mem .data (s.areg n - stepOf sz n) true
  | .disp n d => .mem .data (s.areg n + sextWord d) false
  | .index n x => .mem .data (s.areg n + indexOffset s x) false
  | .absW w => .mem .data (sextWord w) false
  | .absL l => .mem .data l false
  | .pcDisp d => .mem .program (s.pc + sextWord d) false
  | .pcIndex x => .mem .program (s.pc + indexOffset s x) false
  | .imm i => .imm (immValue i)

/-- The state after the register side effect of an addressing mode (R144, R145). -/
def State.afterMode (s : State) (sz : Size) : EA → State
  | .postInc n => s.setAreg n (s.areg n + stepOf sz n)
  | .preDec n => s.setAreg n (s.areg n - stepOf sz n)
  | .dreg _ | .areg _ | .ind _ | .disp _ _ | .index _ _ | .absW _ | .absL _ | .pcDisp _ | .pcIndex _ | .imm _ => s

/-- The number of extension words of immediate data (30_encoding.md R105). -/
def immCount : Imm → Nat
  | .b _ => 1
  | .w _ => 1
  | .l _ => 2

/-- The number of extension words of an effective address (30_encoding.md R105, R106, R107). -/
def extCount : EA → Nat
  | .dreg _ | .areg _ | .ind _ | .postInc _ | .preDec _ => 0
  | .disp _ _ | .index _ _ | .absW _ | .pcDisp _ | .pcIndex _ => 1
  | .absL _ => 2
  | .imm i => immCount i

/-- `Resolve` (R140): the location of an operand, with the register side effect of its mode and the use of its extension
words. -/
def resolve (sz : Size) (ea : EA) : Exec Loc := do
  let loc ← inspect fun s => s.locate sz ea
  update fun s => s.afterMode sz ea
  fetchExts (extCount ea)
  pure loc

/-- The function code of a space in the current privilege state (R161). -/
def spaceFC (sp : Space) : Exec FC :=
  match sp with
  | .data => dataSpace
  | .program => programSpace

/-- `Read(op, sz)` (R140): the operand, zero above its size. -/
def readLoc (sz : Size) : Loc → Exec Long
  | .dreg n => do pure (trunc sz (← getD n))
  | .areg n => do pure (trunc sz (← getA n))
  | .mem sp addr _ => do
    let fc ← spaceFC sp
    memRead sz addr fc
  | .imm v => pure (trunc sz v)

/-- `Write(op, sz, v)` (R140): a data register keeps its other bits (10_state.md R21), an address register takes the
sign-extended value (R23), memory is written in data space. -/
def writeLoc (sz : Size) (loc : Loc) (v : Long) : Exec Unit :=
  match loc with
  | .dreg n => setD sz n v
  | .areg n => setA n (sext sz v)
  | .mem _ addr pushed => writeData sz pushed addr v
  | .imm _ => pure ()

/-- A source operand: resolved and read completely (R157). -/
def fetchOperand (sz : Size) (ea : EA) : Exec Long := do
  let loc ← resolve sz ea
  readLoc sz loc

/-- The address of a control operand: it is computed, and nothing is read through it (R161, R162). -/
def controlAddress (ea : EA) : Exec Long := do
  let loc ← resolve .l ea
  match loc with
  | .mem _ addr _ => pure addr
  | .dreg _ | .areg _ | .imm _ => pure 0

/-- The use of the extension words of an instruction's own immediate data (30_encoding.md R103, R105). -/
def fetchImm (i : Imm) : Exec Unit := fetchExts (immCount i)

/-- The address register that an effective address adjusts, with its step (93 U10). -/
def adjustment (sz : Size) : EA → Option (RegNum × Long)
  | .postInc n => some (n, stepOf sz n)
  | .preDec n => some (n, -stepOf sz n)
  | .dreg _ | .areg _ | .ind _ | .disp _ _ | .index _ _ | .absW _ | .absL _ | .pcDisp _ | .pcIndex _ | .imm _ => none

/-- What one operand adjusts. -/
def adjusts1 (sz : Size) (ea : EA) : List Adjusted :=
  match adjustment sz ea with
  | some (n, _) => [⟨n, []⟩]
  | none => []

/-- What two operands adjust, in their order. Where both adjust one register, its value after the first may stay (log
entry 19). -/
def adjusts2 (sz : Size) (first second : EA) (s : State) : List Adjusted :=
  match adjustment sz first, adjustment sz second with
  | some (m, k), some (n, _) => if m = n then [⟨m, [s.areg m + k]⟩] else [⟨m, []⟩, ⟨n, []⟩]
  | _, _ => adjusts1 sz first ++ adjusts1 sz second

/-- What an instruction that pushes or pops adjusts. -/
def adjustsStack : List Adjusted := [⟨7, []⟩]

/-! ## The common shapes of instructions -/

/-- A computation on a destination operand: its value and the condition codes give the result and the new condition
codes. -/
abbrev Alu := CCR → Long → Long × CCR

/-- The end of an instruction that writes one location: the result and the condition codes from those of before. The next
instruction is fetched before the write (70_reset_and_hazards.md R481; log entry 5). -/
def writeBack (sz : Size) (loc : Loc) (f : CCR → Long × CCR) : Exec Unit := do
  lastFetch
  let flags ← getCcr
  setCcr (f flags).2
  writeLoc sz loc (f flags).1

/-- Read, compute, write back at one location, resolved once (R158). -/
def modifyOperand (sz : Size) (dst : EA) (f : Alu) : Exec Unit := do
  let loc ← resolve sz dst
  let v ← readLoc sz loc
  writeBack sz loc fun flags => f flags v

/-- An operand read and discarded (20_memory.md R75 (a)). -/
def discardLoc (sz : Size) (loc : Loc) : Exec Unit := do
  let _ ← readLoc sz loc
  pure ()

/-- Write one location (R172, R209, R344). Where the map holds more than plain memory the operand is read first (93 U9, D10), so
an odd address is the address error of a read there, and of the write over plain memory (log entry 28). -/
def storeOperand (sz : Size) (dst : EA) (f : CCR → Long × CCR) : Exec Unit := do
  let loc ← resolve sz dst
  unasked (discardLoc sz loc)
  writeBack sz loc f

/-- A source operand combined into a data register, at the size `szD` of the destination. -/
def combineReg (szS szD : Size) (src : EA) (dn : RegNum) (f : Long → Alu) : Exec Unit := do
  let v ← fetchOperand szS src
  lastFetch
  let old ← getD dn
  let flags ← getCcr
  setCcr (f v flags (trunc szD old)).2
  setD szD dn (f v flags (trunc szD old)).1

/-- A data register combined into a memory or register operand. -/
def combineEA (sz : Size) (dn : RegNum) (dst : EA) (f : Long → Alu) : Exec Unit := do
  let v ← getD dn
  modifyOperand sz dst (f (trunc sz v))

/-- Immediate data combined into an operand (30_encoding.md R103). -/
def combineImm (i : Imm) (dst : EA) (f : Long → Alu) : Exec Unit := do
  fetchImm i
  modifyOperand i.size dst (f (immValue i))

/-- An operand that is read for the condition codes only. -/
def testOperand (sz : Size) (ea : EA) (f : CCR → Long → CCR) : Exec Unit := do
  let v ← fetchOperand sz ea
  lastFetch
  let flags ← getCcr
  setCcr (f flags v)

/-- A one-word instruction on one data register. -/
def onReg (sz : Size) (dn : RegNum) (f : Alu) : Exec Unit := modifyOperand sz (.dreg dn) f

/-- The two forms of the extended instructions: registers, or `-(Ay),-(Ax)` with `Ay` first (R157). -/
def extended (sz : Size) (mem : Bool) (x y : RegNum) (f : Long → Alu) : Exec Unit :=
  if mem then do
    let v ← fetchOperand sz (.preDec y)
    modifyOperand sz (.preDec x) (f v)
  else combineReg sz sz (.dreg y) x f

/-- What the extended instructions adjust. -/
def adjustsExtended (sz : Size) (mem : Bool) (x y : RegNum) (s : State) : List Adjusted :=
  if mem then adjusts2 sz (.preDec y) (.preDec x) s else []

end Sys2Proof.Machine
end

