-- ==== Sys2Proof/Machine/Flags.lean ====
section
/-! DEFINITION. Results and condition codes: addition, subtraction, logic, shifts, decimal arithmetic, multiplication and
division, and the conditions (00_scope.md R10, 10_state.md R33, R34). -/

namespace Sys2Proof.Machine

/-! ## Addition and subtraction -/

/-- The result of `add` or `sub` of 00_scope.md R10: the result, the carry or borrow, the overflow. -/
structure Sum where
  r        : Long
  carry    : Bool
  overflow : Bool
deriving DecidableEq, Repr

/-- `add(d, s, x)` at a width (R10); `d` and `s` are below `2^bits`. -/
def addAt (sz : Size) (d s : Long) (x : Bool) : Sum :=
  let t := d.toNat + s.toNat + x.toNat
  let r := BitVec.ofNat 32 (t % 2 ^ sz.bits)
  ⟨r, decide (2 ^ sz.bits ≤ t), msb sz d == msb sz s && msb sz r != msb sz d⟩

/-- `sub(d, s, x)` at a width (R10): destination minus source. -/
def subAt (sz : Size) (d s : Long) (x : Bool) : Sum :=
  let r := BitVec.ofNat 32 ((2 ^ sz.bits + d.toNat - (s.toNat + x.toNat)) % 2 ^ sz.bits)
  ⟨r, decide (d.toNat < s.toNat + x.toNat), msb sz d != msb sz s && msb sz r != msb sz d⟩

/-- All five flags of a sum (42_integer_arithmetic.md R198, R199 with X). -/
def sumFlags (sz : Size) (t : Sum) : CCR := ⟨t.carry, msb sz t.r, t.r == 0, t.overflow, t.carry⟩

/-- ADD (R190, R198). -/
def aluAdd (sz : Size) (s : Long) : Alu := fun _ d => ((addAt sz d s false).r, sumFlags sz (addAt sz d s false))

/-- SUB (R194, R199). -/
def aluSub (sz : Size) (s : Long) : Alu := fun _ d => ((subAt sz d s false).r, sumFlags sz (subAt sz d s false))

/-- The flags of a comparison, R199 without X (R200). -/
def compareFlags (sz : Size) (f : CCR) (d s : Long) : CCR := { sumFlags sz (subAt sz d s false) with x := f.x }

/-- NEG: `sub(0, d, 0)` (R208). -/
def aluNeg (sz : Size) : Alu := fun _ d => ((subAt sz 0 d false).r, sumFlags sz (subAt sz 0 d false))

/-- The flags of an extended sum: as R198 or R199, but Z is only ever cleared (47_extended_precision_bcd.md R316). -/
def extendFlags (sz : Size) (f : CCR) (t : Sum) : CCR := { sumFlags sz t with z := f.z && t.r == 0 }

/-- ADDX (R310). -/
def aluAddx (sz : Size) (s : Long) : Alu := fun f d => ((addAt sz d s f.x).r, extendFlags sz f (addAt sz d s f.x))

/-- SUBX (R311). -/
def aluSubx (sz : Size) (s : Long) : Alu := fun f d => ((subAt sz d s f.x).r, extendFlags sz f (subAt sz d s f.x))

/-- NEGX (R312). -/
def aluNegx (sz : Size) : Alu := fun f d => ((subAt sz 0 d f.x).r, extendFlags sz f (subAt sz 0 d f.x))

/-! ## Logic -/

/-- The flags of a logical result, of a move and of a test: N and Z from the value, V and C cleared, X unchanged
(44_logic.md R263, 41_data_movement.md R170). -/
def logicFlags (sz : Size) (f : CCR) (r : Long) : CCR := ⟨f.x, msb sz r, r == 0, false, false⟩

/-- AND (R250). -/
def aluAnd (sz : Size) (s : Long) : Alu := fun f d => (d &&& s, logicFlags sz f (d &&& s))

/-- OR (R252). -/
def aluOr (sz : Size) (s : Long) : Alu := fun f d => (d ||| s, logicFlags sz f (d ||| s))

/-- EOR (R254). -/
def aluEor (sz : Size) (s : Long) : Alu := fun f d => (d ^^^ s, logicFlags sz f (d ^^^ s))

/-- NOT (R262). -/
def aluNot (sz : Size) : Alu := fun f d => (trunc sz (~~~d), logicFlags sz f (trunc sz (~~~d)))

/-- CLR (42_integer_arithmetic.md R209). -/
def clearResult (f : CCR) : Long × CCR := (0, ⟨f.x, false, true, false, false⟩)

/-! ## Shifts and rotates (43_shift_rotate.md, 47_extended_precision_bcd.md R313, R314) -/

/-- The eight shifts and rotates. -/
inductive ShiftOp where
  | asr | asl | lsr | lsl | roxr | roxl | ror | rol
deriving DecidableEq, Repr

/-- The state of a shift after some single-bit steps: the value, the X bit of the ring, the last bit out, and whether the
sign has changed at any step. -/
structure Shifted where
  v       : Long
  x       : Bool
  out     : Bool
  changed : Bool
deriving DecidableEq, Repr

/-- The value shifted left one bit at a size, `bit` entering at bit 0. -/
def leftIn (sz : Size) (v : Long) (bit : Bool) : Long := trunc sz (v <<< 1) ||| (BitVec.ofBool bit).setWidth 32

/-- The value shifted right one bit at a size, `bit` entering at the top. -/
def rightIn (sz : Size) (v : Long) (bit : Bool) : Long :=
  v >>> 1 ||| (BitVec.ofBool bit).setWidth 32 <<< (sz.bits - 1)

/-- One single-bit step (R231 to R236, R313, R314). -/
def shiftStep (op : ShiftOp) (sz : Size) (t : Shifted) : Shifted :=
  let high := msb sz t.v
  let low := t.v.getLsbD 0
  match op with
  | .asl => ⟨leftIn sz t.v false, high, high, t.changed || msb sz (leftIn sz t.v false) != high⟩
  | .lsl => ⟨leftIn sz t.v false, high, high, t.changed⟩
  | .asr => ⟨rightIn sz t.v high, low, low, t.changed⟩
  | .lsr => ⟨rightIn sz t.v false, low, low, t.changed⟩
  | .rol => ⟨leftIn sz t.v high, t.x, high, t.changed⟩
  | .ror => ⟨rightIn sz t.v low, t.x, low, t.changed⟩
  | .roxl => ⟨leftIn sz t.v t.x, high, high, t.changed⟩
  | .roxr => ⟨rightIn sz t.v t.x, low, low, t.changed⟩

/-- `cnt` single-bit steps (R230). -/
def shiftSteps (op : ShiftOp) (sz : Size) : Nat → Shifted → Shifted
  | 0, t => t
  | n + 1, t => shiftSteps op sz n (shiftStep op sz t)

/-- The carry of a shift by zero: cleared, or X for ROXL and ROXR (R230, R313). -/
def zeroCountCarry (op : ShiftOp) (x : Bool) : Bool :=
  match op with
  | .roxr | .roxl => x
  | .asr | .asl | .lsr | .lsl | .ror | .rol => false

/-- A shift or rotate by a count (R230 to R236). -/
def aluShift (op : ShiftOp) (sz : Size) (cnt : Nat) : Alu := fun f d =>
  let t := shiftSteps op sz cnt ⟨d, f.x, zeroCountCarry op f.x, false⟩
  (t.v, ⟨t.x, msb sz t.v, t.v == 0, t.changed, t.out⟩)

/-- The count of a register shift: 1 to 8, or a register modulo 64 (R230). -/
def shiftCount (c : Count) (s : State) : Nat :=
  match c with
  | .imm q => if q.val = 0 then 8 else q.val
  | .reg n => s.d[n.val].toNat % 64

/-! ## Decimal arithmetic (47_extended_precision_bcd.md R323) -/

/-- Whether both digits of a byte are in 0 to 9. -/
def validBcd (v : Long) : Bool := decide (v.toNat / 16 % 16 ≤ 9) && decide (v.toNat % 16 ≤ 9)

/-- The value of two digits, `dec`. -/
def decOf (v : Long) : Nat := 10 * (v.toNat / 16 % 16) + v.toNat % 16

/-- The byte of a value 0 to 99. -/
def bcdByte (t : Nat) : Long := BitVec.ofNat 32 (t / 10 * 16 + t % 10)

/-- The result and flags of a decimal instruction. For valid digits the result and the carry are given; for a digit above 9
both are free (93 U2 (a), log entry 15). N and V are free (93 U2 (b)); Z by R316. `k` numbers the free values. -/
def bcdResult (k : Nat) (valid : Bool) (f : CCR) (r : Long) (carry : Bool) : Long × CCR :=
  let r' := if valid then r else ofByte (Config.freeByte k)
  let c := if valid then carry else Config.freeBit (k + 2)
  (r', ⟨c, Config.freeBit k, f.z && r' == 0, Config.freeBit (k + 1), c⟩)

/-- ABCD (R320, R323). -/
def aluAbcd (k : Nat) (s : Long) : Alu := fun f d =>
  let t := decOf d + decOf s + f.x.toNat
  bcdResult k (validBcd d && validBcd s) f (bcdByte (t % 100)) (decide (99 < t))

/-- SBCD (R321, R323): `t mod 100` with `t` negative on a borrow. -/
def aluSbcd (k : Nat) (s : Long) : Alu := fun f d =>
  let m := decOf s + f.x.toNat
  bcdResult k (validBcd d && validBcd s) f (bcdByte ((100 + decOf d - m) % 100)) (decide (decOf d < m))

/-- NBCD (R322, R323). -/
def aluNbcd (k : Nat) : Alu := fun f d =>
  let m := decOf d + f.x.toNat
  bcdResult k (validBcd d) f (bcdByte ((100 - m) % 100)) (decide (0 < m))

/-- Three free values for a decimal instruction: numbers `k`, `k + 1`, `k + 2`. -/
def takeBcdIndex : Exec Nat := do
  let k ← takeIndex
  let _ ← takeIndex
  let _ ← takeIndex
  pure k

/-! ## Multiplication and division (42_integer_arithmetic.md R206 to R213) -/

/-- MULU: the product of the low words (R206). -/
def aluMulu (s : Long) : Alu := fun f d =>
  let r := BitVec.ofNat 32 ((lowWord d).toNat * (lowWord s).toNat)
  (r, logicFlags .l f r)

/-- MULS: the product of the low words, signed (R207). -/
def aluMuls (s : Long) : Alu := fun f d =>
  let r := BitVec.ofInt 32 ((lowWord d).toInt * (lowWord s).toInt)
  (r, logicFlags .l f r)

/-- What a division does, apart from the trap: `rem : q` in the register, or the overflow (R210). -/
def divideResult (k : Nat) (overflow : Bool) (rem q : Word) (f : CCR) (d : Long) : Long × CCR :=
  if overflow then (d, ⟨f.x, Config.freeBit k, Config.freeBit (k + 1), true, false⟩)
  else (joinWords rem q, ⟨f.x, q.msb, q == 0, false, false⟩)

/-- DIVU, for a divisor that is not zero (R213). -/
def aluDivu (k : Nat) (s : Long) : Alu := fun f d =>
  let q := d.toNat / s.toNat
  divideResult k (decide (0xFFFF < q)) (BitVec.ofNat 16 (d.toNat % s.toNat)) (BitVec.ofNat 16 q) f d

/-- DIVS, for a divisor that is not zero: rounded toward zero, the remainder with the dividend's sign (R212). -/
def aluDivs (k : Nat) (s : Long) : Alu := fun f d =>
  let n := d.toInt
  let m := (lowWord s).toInt
  let q := n.tdiv m
  divideResult k (decide (q < -32768) || decide (32767 < q)) (BitVec.ofInt 16 (n - q * m)) (BitVec.ofInt 16 q) f d

/-- The condition codes at a zero divide: N, Z, V, C free, X unchanged (R211, 93 U3; log entry 16). -/
def zeroDivideFlags (k : Nat) (f : CCR) : CCR :=
  ⟨f.x, Config.freeBit k, Config.freeBit (k + 1), Config.freeBit (k + 2), Config.freeBit (k + 3)⟩

/-! ## Conditions -/

/-- `cond(cc)` (45_program_control.md R271). -/
def condHolds (f : CCR) : Cond → Bool
  | .t => true
  | .f => false
  | .hi => !f.c && !f.z
  | .ls => f.c || f.z
  | .cc => !f.c
  | .cs => f.c
  | .ne => !f.z
  | .eq => f.z
  | .vc => !f.v
  | .vs => f.v
  | .pl => !f.n
  | .mi => f.n
  | .ge => f.n == f.v
  | .lt => f.n != f.v
  | .gt => !f.z && f.n == f.v
  | .le => f.z || f.n != f.v

end Sys2Proof.Machine
end

