-- ==== Sys2Proof/Machine/Arith.lean ====
section
/-! DEFINITION. Integer arithmetic (42_integer_arithmetic.md). -/

namespace Sys2Proof.Machine

/-- ADD <ea>,Dn (R190). -/
def execAddToReg (sz : Size) (src : EA) (dn : RegNum) (s : State) : Outcome :=
  runInstr (adjusts1 sz src) (combineReg sz sz src dn (aluAdd sz)) s

/-- ADD Dn,<ea> (R190). -/
def execAddToMem (sz : Size) (dn : RegNum) (dst : EA) (s : State) : Outcome :=
  runInstr (adjusts1 sz dst) (combineEA sz dn dst (aluAdd sz)) s

/-- ADDI (R191). -/
def execAddi (i : Imm) (dst : EA) (s : State) : Outcome :=
  runInstr (adjusts1 i.size dst) (combineImm i dst (aluAdd i.size)) s

/-- An address register changed by a sign-extended source; no flag is touched (R192, R196). -/
def addressOp (sz : Size) (an : RegNum) (src : EA) (f : Long → Long → Long) : Exec Unit := do
  let v ← fetchOperand sz src
  lastFetch
  let old ← getA an
  setA an (f old (sext sz v))

/-- ADDA (R192). -/
def execAdda (sz : WSize) (an : RegNum) (src : EA) (s : State) : Outcome :=
  runInstr (adjusts1 sz.size src) (addressOp sz.size an src fun a v => a + v) s

/-- The constant of ADDQ and SUBQ: 0 stands for 8 (R193). -/
def quickValue (q : Fin 8) : Long := if q.val = 0 then 8 else BitVec.ofNat 32 q.val

/-- ADDQ and SUBQ: on an address register all 32 bits and no flag; else as ADD or SUB (R193, R197). -/
def quickOp (q : Fin 8) (sz : Size) (dst : EA) (onAddr : Long → Long → Long) (f : Long → Alu) : Exec Unit :=
  match dst with
  | .areg n => do
    lastFetch
    let old ← getA n
    setA n (onAddr old (quickValue q))
  | .dreg _ | .ind _ | .postInc _ | .preDec _ | .disp _ _ | .index _ _ | .absW _ | .absL _ | .pcDisp _ | .pcIndex _
  | .imm _ => modifyOperand sz dst (f (quickValue q))

/-- ADDQ (R193). -/
def execAddq (q : Fin 8) (sz : Size) (dst : EA) (s : State) : Outcome :=
  runInstr (adjusts1 sz dst) (quickOp q sz dst (fun a v => a + v) (aluAdd sz)) s

/-- SUB <ea>,Dn (R194). -/
def execSubToReg (sz : Size) (src : EA) (dn : RegNum) (s : State) : Outcome :=
  runInstr (adjusts1 sz src) (combineReg sz sz src dn (aluSub sz)) s

/-- SUB Dn,<ea> (R194). -/
def execSubToMem (sz : Size) (dn : RegNum) (dst : EA) (s : State) : Outcome :=
  runInstr (adjusts1 sz dst) (combineEA sz dn dst (aluSub sz)) s

/-- SUBI (R195). -/
def execSubi (i : Imm) (dst : EA) (s : State) : Outcome :=
  runInstr (adjusts1 i.size dst) (combineImm i dst (aluSub i.size)) s

/-- SUBA (R196). -/
def execSuba (sz : WSize) (an : RegNum) (src : EA) (s : State) : Outcome :=
  runInstr (adjusts1 sz.size src) (addressOp sz.size an src fun a v => a - v) s

/-- SUBQ (R197). -/
def execSubq (q : Fin 8) (sz : Size) (dst : EA) (s : State) : Outcome :=
  runInstr (adjusts1 sz dst) (quickOp q sz dst (fun a v => a - v) (aluSub sz)) s

/-- CMP (R200): the flags of Dn minus the source, nothing stored. -/
def execCmp (sz : Size) (src : EA) (dn : RegNum) (s : State) : Outcome :=
  runInstr (adjusts1 sz src) (do
    let d ← getD dn
    testOperand sz src fun flags v => compareFlags sz flags (trunc sz d) v) s

/-- CMPA (R201): the source sign-extended, compared on 32 bits. -/
def execCmpa (sz : WSize) (an : RegNum) (src : EA) (s : State) : Outcome :=
  runInstr (adjusts1 sz.size src) (do
    let v ← fetchOperand sz.size src
    lastFetch
    let d ← getA an
    let flags ← getCcr
    setCcr (compareFlags .l flags d (sext sz.size v))) s

/-- CMPI (R202). -/
def execCmpi (i : Imm) (dst : EA) (s : State) : Outcome :=
  runInstr (adjusts1 i.size dst) (do
    fetchImm i
    testOperand i.size dst fun flags v => compareFlags i.size flags v (immValue i)) s

/-- CMPM (R203): `(Ay)+` first, then `(Ax)+`. -/
def execCmpm (sz : Size) (x y : RegNum) (s : State) : Outcome :=
  runInstr (adjusts2 sz (.postInc y) (.postInc x) s) (do
    let v ← fetchOperand sz (.postInc y)
    testOperand sz (.postInc x) fun flags d => compareFlags sz flags d v) s

/-- TST (R204). -/
def execTst (sz : Size) (dst : EA) (s : State) : Outcome :=
  runInstr (adjusts1 sz dst) (testOperand sz dst fun flags v => logicFlags sz flags v) s

/-- EXT.W (R205). -/
def execExtW (dn : RegNum) (s : State) : Outcome :=
  runInstr [] (onReg .w dn fun flags v => (trunc .w (sext .b v), logicFlags .w flags (trunc .w (sext .b v)))) s

/-- EXT.L (R205). -/
def execExtL (dn : RegNum) (s : State) : Outcome :=
  runInstr [] (onReg .l dn fun flags v => (sext .w v, logicFlags .l flags (sext .w v))) s

/-- NEG (R208). -/
def execNeg (sz : Size) (dst : EA) (s : State) : Outcome :=
  runInstr (adjusts1 sz dst) (modifyOperand sz dst (aluNeg sz)) s

/-- CLR (R209); a memory destination is read first (93 U9; log entry 28). -/
def execClr (sz : Size) (dst : EA) (s : State) : Outcome :=
  runInstr (adjusts1 sz dst) (storeOperand sz dst clearResult) s

/-- MULU (R206). -/
def execMulu (dn : RegNum) (src : EA) (s : State) : Outcome :=
  runInstr (adjusts1 .w src) (combineReg .w .l src dn aluMulu) s

/-- MULS (R207). -/
def execMuls (dn : RegNum) (src : EA) (s : State) : Outcome :=
  runInstr (adjusts1 .w src) (combineReg .w .l src dn aluMuls) s

/-- Four free values for a division: numbers `k` to `k + 3`. -/
def takeDivideIndex : Exec Nat := do
  let k ← takeIndex
  let _ ← takeIndex
  let _ ← takeIndex
  let _ ← takeIndex
  pure k

/-- A division: the source is read, a zero divisor traps through vector 5, else `f` (R210, R211). -/
def divideBody (dn : RegNum) (src : EA) (f : Nat → Long → Alu) : Exec Unit := do
  let v ← fetchOperand .w src
  let k ← takeDivideIndex
  if v = 0 then do
    let flags ← getCcr
    setCcr (zeroDivideFlags k flags)
    trap2 5
  else do
    lastFetch
    let old ← getD dn
    let flags ← getCcr
    setCcr (f k v flags old).2
    setD .l dn (f k v flags old).1

/-- DIVU (R213). -/
def execDivu (dn : RegNum) (src : EA) (s : State) : Outcome :=
  runInstr (adjusts1 .w src) (divideBody dn src aluDivu) s

/-- DIVS (R212). -/
def execDivs (dn : RegNum) (src : EA) (s : State) : Outcome :=
  runInstr (adjusts1 .w src) (divideBody dn src aluDivs) s

end Sys2Proof.Machine
end

