-- ==== Sys2Proof/Machine/Bit.lean ====
section
/-! DEFINITION. Bit manipulation (48_bit_manipulation.md). -/

namespace Sys2Proof.Machine

/-- The operand size of a bit instruction: long on a data register, byte in memory (R334). -/
def bitSize (dst : EA) : Size := if dst.mode = .dreg then .l else .b

/-- The bit number, modulo 32 or modulo 8 (R334). -/
def bitNumber (dst : EA) (b : Long) : Nat := b.toNat % (bitSize dst).bits

/-- The flags of a bit test: Z the complement of the bit, the others unchanged (R334). -/
def bitFlags (f : CCR) (v : Long) (n : Nat) : CCR := { f with z := !v.getLsbD n }

/-- The value with one bit at `n`. -/
def oneBit (n : Nat) : Long := 1#32 <<< n

/-- A test of a bit. -/
def testBit (dst : EA) (b : Long) : Exec Unit :=
  testOperand (bitSize dst) dst fun f v => bitFlags f v (bitNumber dst b)

/-- A test of a bit, and a change of it. -/
def changeBit (dst : EA) (b : Long) (f : Long → Long → Long) : Exec Unit :=
  modifyOperand (bitSize dst) dst fun fl v => (f v (oneBit (bitNumber dst b)), bitFlags fl v (bitNumber dst b))

/-- The static form: the bit number in an extension word before the destination's (R334). -/
def staticBitForm (b : Byte) (body : Long → Exec Unit) : Exec Unit := do
  fetchExts 1
  body (ofByte b)

/-- The dynamic form: the bit number in a data register (R334). -/
def dynamicBitForm (dn : RegNum) (body : Long → Exec Unit) : Exec Unit := do
  let b ← getD dn
  body b

/-- BTST #<data>,<ea> (R330). -/
def execBtstImm (b : Byte) (dst : EA) (s : State) : Outcome :=
  runInstr (adjusts1 (bitSize dst) dst) (staticBitForm b (testBit dst)) s

/-- BTST Dn,<ea> (R330). -/
def execBtstReg (dn : RegNum) (dst : EA) (s : State) : Outcome :=
  runInstr (adjusts1 (bitSize dst) dst) (dynamicBitForm dn (testBit dst)) s

/-- BCHG #<data>,<ea> (R331). -/
def execBchgImm (b : Byte) (dst : EA) (s : State) : Outcome :=
  runInstr (adjusts1 (bitSize dst) dst) (staticBitForm b fun n => changeBit dst n fun v m => v ^^^ m) s

/-- BCHG Dn,<ea> (R331). -/
def execBchgReg (dn : RegNum) (dst : EA) (s : State) : Outcome :=
  runInstr (adjusts1 (bitSize dst) dst) (dynamicBitForm dn fun n => changeBit dst n fun v m => v ^^^ m) s

/-- BCLR #<data>,<ea> (R332). -/
def execBclrImm (b : Byte) (dst : EA) (s : State) : Outcome :=
  runInstr (adjusts1 (bitSize dst) dst) (staticBitForm b fun n => changeBit dst n fun v m => v &&& ~~~m) s

/-- BCLR Dn,<ea> (R332). -/
def execBclrReg (dn : RegNum) (dst : EA) (s : State) : Outcome :=
  runInstr (adjusts1 (bitSize dst) dst) (dynamicBitForm dn fun n => changeBit dst n fun v m => v &&& ~~~m) s

/-- BSET #<data>,<ea> (R333). -/
def execBsetImm (b : Byte) (dst : EA) (s : State) : Outcome :=
  runInstr (adjusts1 (bitSize dst) dst) (staticBitForm b fun n => changeBit dst n fun v m => v ||| m) s

/-- BSET Dn,<ea> (R333). -/
def execBsetReg (dn : RegNum) (dst : EA) (s : State) : Outcome :=
  runInstr (adjusts1 (bitSize dst) dst) (dynamicBitForm dn fun n => changeBit dst n fun v m => v ||| m) s

end Sys2Proof.Machine
end

