-- ==== Sys2Proof/Machine/Control.lean ====
section
/-! DEFINITION. Program control (45_program_control.md) and the unimplemented lines (60_exceptions.md R413, R414). -/

namespace Sys2Proof.Machine

/-- The words of a branch after the operation word are used; the target and the PC of the next instruction (R272). -/
def branchTarget (d : Disp) : Exec Long := do
  let base ← getPc
  match d with
  | .short b => pure (base + sextByte b)
  | .word w => do
    fetchExt
    pure (base + sextWord w)

/-- BRA (R273). -/
def execBra (d : Disp) (s : State) : Outcome :=
  runInstr [] (do
    let t ← branchTarget d
    jump t) s

/-- Bcc (R272). -/
def execBcc (cond : Cond) (d : Disp) (s : State) : Outcome :=
  runInstr [] (do
    let t ← branchTarget d
    let flags ← getCcr
    if condHolds flags cond then jump t else lastFetch) s

/-- BSR (R274): the address of the next instruction is pushed. -/
def execBsr (d : Disp) (s : State) : Outcome :=
  runInstr adjustsStack (do
    let t ← branchTarget d
    let next ← getPc
    push32 next
    jump t) s

/-- JMP (R275). -/
def execJmp (dst : EA) (s : State) : Outcome :=
  runInstr [] (do
    let t ← controlAddress dst
    jump t) s

/-- JSR (R276): the address is computed before the push. -/
def execJsr (dst : EA) (s : State) : Outcome :=
  runInstr adjustsStack (do
    let t ← controlAddress dst
    let next ← getPc
    push32 next
    jump t) s

/-- RTS (R277). -/
def execRts (s : State) : Outcome :=
  runInstr adjustsStack (do
    let t ← pop32
    jump t) s

/-- RTR (R283): the upper byte of the popped word is ignored. -/
def execRtr (s : State) : Outcome :=
  runInstr adjustsStack (do
    let w ← pop16
    setCcr (CCR.ofByte (w.setWidth 8))
    let t ← pop32
    jump t) s

/-- RTE (R282), privileged. -/
def execRte (s : State) : Outcome := privileged (runInstr adjustsStack returnFromException) s

/-- NOP (R278). -/
def execNop (s : State) : Outcome := runInstr [] lastFetch s

/-- RESET (R281), privileged: an output event, after which the devices may answer by another map (70_reset_and_hazards.md
R472; log entry 42). -/
def execResetDevices (s : State) : Outcome :=
  privileged (runInstr [] do
    update fun s => { s.note .resetOut with map := s.resetLine.getD s.map }
    lastFetch) s

/-- The state in which STOP with S = 0 in its data takes its privilege violation: SR as it was (60_exceptions.md R440: not started)
or loaded from the data (R285), freely, as 93 U13 leaves the stacked SR (log entry 22). -/
def State.stopViolated (s : State) (data : Word) : State :=
  let s' : State := { s.startInstr with pc := s.pc, tracePending := false, free := s.free + 1 }
  if Config.freeBit s.free then s' else s'.setSr data

/-- STOP (R285), privileged. Data with S = 0 causes a privilege violation instead (93 U13; log entry 22). Nothing is fetched (log
entry 33). -/
def execStop (data : Word) (s : State) : Outcome :=
  privileged (fun s =>
    if data.getLsbD 13 then
      runInstr [] (update fun s => { s.setSr data with pc := s.owl + 4, run := .stopped }) s
    else
      takeGroup1 (pure 8) s.pc (s.stopViolated data).sr none (s.stopViolated data)) s

/-- TRAP (R284): vectors 32 to 47. -/
def execTrap (v : Fin 16) (s : State) : Outcome := runInstr [] (trap2 (32 + v.val)) s

/-- TRAPV (R286). -/
def execTrapv (s : State) : Outcome :=
  runInstr [] (do
    let flags ← getCcr
    if flags.v then trap2 7 else lastFetch) s

/-- ILLEGAL (49_special.md R349): the illegal instruction exception. -/
def execIllegal (s : State) : Outcome := refuseInstr 4 s

/-- A word of line 1010 (60_exceptions.md R414). -/
def execLine1010 (_low : BitVec 12) (s : State) : Outcome := refuseInstr 10 s

/-- A word of line 1111 (60_exceptions.md R414). -/
def execLine1111 (_low : BitVec 12) (s : State) : Outcome := refuseInstr 11 s

end Sys2Proof.Machine
end

