-- ==== Sys2Proof/Machine/Extended.lean ====
section
/-! DEFINITION. Extended precision and decimal arithmetic (47_extended_precision_bcd.md). -/

namespace Sys2Proof.Machine

/-- ADDX (R310). -/
def execAddx (sz : Size) (mem : Bool) (x y : RegNum) (s : State) : Outcome :=
  runInstr (adjustsExtended sz mem x y s) (extended sz mem x y (aluAddx sz)) s

/-- SUBX (R311). -/
def execSubx (sz : Size) (mem : Bool) (x y : RegNum) (s : State) : Outcome :=
  runInstr (adjustsExtended sz mem x y s) (extended sz mem x y (aluSubx sz)) s

/-- NEGX (R312). -/
def execNegx (sz : Size) (dst : EA) (s : State) : Outcome :=
  runInstr (adjusts1 sz dst) (modifyOperand sz dst (aluNegx sz)) s

/-- ABCD (R320). -/
def execAbcd (mem : Bool) (x y : RegNum) (s : State) : Outcome :=
  runInstr (adjustsExtended .b mem x y s) (do
    let k ← takeBcdIndex
    extended .b mem x y (aluAbcd k)) s

/-- SBCD (R321). -/
def execSbcd (mem : Bool) (x y : RegNum) (s : State) : Outcome :=
  runInstr (adjustsExtended .b mem x y s) (do
    let k ← takeBcdIndex
    extended .b mem x y (aluSbcd k)) s

/-- NBCD (R322). -/
def execNbcd (dst : EA) (s : State) : Outcome :=
  runInstr (adjusts1 .b dst) (do
    let k ← takeBcdIndex
    modifyOperand .b dst (aluNbcd k)) s

end Sys2Proof.Machine
end

