-- ==== Sys2Proof/Machine/Move.lean ====
section
/-! DEFINITION. Data movement (41_data_movement.md) and LEA, PEA (46_lea_pea_position_independent.md). -/

namespace Sys2Proof.Machine

/-- The register of `MOVE.L An,(An)+` and `MOVE.L An,-(An)`. -/
def selfAdjusted (sz : Size) (src dst : EA) : Option RegNum :=
  match sz, src, dst with
  | .l, .areg n, .postInc m => if n = m then some n else none
  | .l, .areg n, .preDec m => if n = m then some n else none
  | _, _, _ => none

/-- The value MOVE stores: the source operand; but for `MOVE.L An,(An)+` and `MOVE.L An,-(An)` the old or the adjusted
register, freely (93 U8; log entry 18). -/
def movedValue (sz : Size) (src dst : EA) (v : Long) : Exec Long :=
  match selfAdjusted sz src dst with
  | none => pure v
  | some n => do
    let new ← getA n
    let b ← takeBit
    pure (if b then v else new)

/-- MOVE at a size (R170): the source is read completely before the destination is resolved (R157). C is cleared, as R170 says,
after a rotate too, where a remark of R237 says that C stays (DEDUCED, log entry 48). -/
def moveBody (sz : Size) (src dst : EA) : Exec Unit := do
  let v ← fetchOperand sz src
  let loc ← resolve sz dst
  let v ← movedValue sz src dst v
  lastFetch
  let flags ← getCcr
  setCcr (logicFlags sz flags v)
  writeLoc sz loc v

/-- MOVEA at a size (R171): the whole register takes the sign-extended value, over any adjustment of it. -/
def moveaBody (sz : Size) (an : RegNum) (src : EA) : Exec Unit := do
  let v ← fetchOperand sz src
  lastFetch
  setA an (sext sz v)

/-- MOVE.B (R170). -/
def execMoveB (src dst : EA) (s : State) : Outcome := runInstr (adjusts2 .b src dst s) (moveBody .b src dst) s

/-- MOVE.W (R170). -/
def execMoveW (src dst : EA) (s : State) : Outcome := runInstr (adjusts2 .w src dst s) (moveBody .w src dst) s

/-- MOVE.L (R170). -/
def execMoveL (src dst : EA) (s : State) : Outcome := runInstr (adjusts2 .l src dst s) (moveBody .l src dst) s

/-- MOVEA.W (R171). -/
def execMoveaW (an : RegNum) (src : EA) (s : State) : Outcome := runInstr (adjusts1 .w src) (moveaBody .w an src) s

/-- MOVEA.L (R171). -/
def execMoveaL (an : RegNum) (src : EA) (s : State) : Outcome := runInstr (adjusts1 .l src) (moveaBody .l an src) s

/-- MOVE from SR (R172); not privileged. -/
def execMoveFromSr (dst : EA) (s : State) : Outcome :=
  runInstr (adjusts1 .w dst) (storeOperand .w dst fun flags => (ofWord s.sr, flags)) s

/-- MOVE to CCR (R174): a word is read and its low byte used. -/
def execMoveToCcr (src : EA) (s : State) : Outcome :=
  runInstr (adjusts1 .w src) (testOperand .w src fun _ v => CCR.ofByte (v.setWidth 8)) s

/-- Write SR. Only where S changes are the words in the queue fetched again, in the new program space (R175, R480, R485; log
entry 29). -/
def writeSr (f : Word → Word) : Exec Unit := do
  let w ← inspect fun s => f s.sr
  let super ← inspect fun s => s.super
  if w.getLsbD 13 = super then do
    lastFetch
    update fun s => s.setSr w
  else do
    update fun s => s.setSr w
    refill

/-- MOVE to SR (R175), privileged. -/
def execMoveToSr (src : EA) (s : State) : Outcome :=
  privileged (runInstr (adjusts1 .w src) do
    let v ← fetchOperand .w src
    writeSr fun _ => lowWord v) s

/-- MOVE An,USP (R176), privileged. -/
def execMoveToUsp (an : RegNum) (s : State) : Outcome :=
  privileged (runInstr [] do
    lastFetch
    let v ← getA an
    update fun s => { s with usp := v }) s

/-- MOVE USP,An (R176), privileged. -/
def execMoveFromUsp (an : RegNum) (s : State) : Outcome :=
  privileged (runInstr [] do
    lastFetch
    update fun s => s.setAreg an s.usp) s

/-- MOVEQ (R177). -/
def execMoveq (dn : RegNum) (data : Byte) (s : State) : Outcome :=
  runInstr [] (onReg .l dn fun flags _ => (sextByte data, logicFlags .l flags (sextByte data))) s

/-- Exchange two registers (R178). -/
def exchange (x y : Reg) : Exec Unit := do
  lastFetch
  let v ← inspect fun s => s.reg x
  let w ← inspect fun s => s.reg y
  setReg x w
  setReg y v

/-- EXG Dx,Dy (R178). -/
def execExgDD (x y : RegNum) (s : State) : Outcome := runInstr [] (exchange (.d x) (.d y)) s

/-- EXG Ax,Ay (R178). -/
def execExgAA (x y : RegNum) (s : State) : Outcome := runInstr [] (exchange (.a x) (.a y)) s

/-- EXG Dx,Ay (R178). -/
def execExgDA (x y : RegNum) (s : State) : Outcome := runInstr [] (exchange (.d x) (.a y)) s

/-- SWAP (R179). -/
def execSwap (dn : RegNum) (s : State) : Outcome :=
  runInstr [] (onReg .l dn fun flags v =>
    (joinWords (lowWord v) (highWord v), logicFlags .l flags (joinWords (lowWord v) (highWord v)))) s

/-- LEA (R300): the address, with no access through it. -/
def execLea (an : RegNum) (src : EA) (s : State) : Outcome :=
  runInstr [] (do
    let addr ← controlAddress src
    lastFetch
    setA an addr) s

/-- PEA (R301): the address is computed before the stack pointer moves. -/
def execPea (src : EA) (s : State) : Outcome :=
  runInstr adjustsStack (do
    let addr ← controlAddress src
    lastFetch
    push32 addr) s

end Sys2Proof.Machine
end

