-- ==== Sys2Proof/Machine/Logic.lean ====
section
/-! DEFINITION. Logic (44_logic.md), on operands, on CCR and on SR. -/

namespace Sys2Proof.Machine

/-- AND <ea>,Dn (R250). -/
def execAndToReg (sz : Size) (src : EA) (dn : RegNum) (s : State) : Outcome :=
  runInstr (adjusts1 sz src) (combineReg sz sz src dn (aluAnd sz)) s

/-- AND Dn,<ea> (R250). -/
def execAndToMem (sz : Size) (dn : RegNum) (dst : EA) (s : State) : Outcome :=
  runInstr (adjusts1 sz dst) (combineEA sz dn dst (aluAnd sz)) s

/-- ANDI (R251). -/
def execAndi (i : Imm) (dst : EA) (s : State) : Outcome :=
  runInstr (adjusts1 i.size dst) (combineImm i dst (aluAnd i.size)) s

/-- OR <ea>,Dn (R252). -/
def execOrToReg (sz : Size) (src : EA) (dn : RegNum) (s : State) : Outcome :=
  runInstr (adjusts1 sz src) (combineReg sz sz src dn (aluOr sz)) s

/-- OR Dn,<ea> (R252). -/
def execOrToMem (sz : Size) (dn : RegNum) (dst : EA) (s : State) : Outcome :=
  runInstr (adjusts1 sz dst) (combineEA sz dn dst (aluOr sz)) s

/-- ORI (R253). -/
def execOri (i : Imm) (dst : EA) (s : State) : Outcome :=
  runInstr (adjusts1 i.size dst) (combineImm i dst (aluOr i.size)) s

/-- EOR Dn,<ea> (R254). -/
def execEor (sz : Size) (dn : RegNum) (dst : EA) (s : State) : Outcome :=
  runInstr (adjusts1 sz dst) (combineEA sz dn dst (aluEor sz)) s

/-- EORI (R255). -/
def execEori (i : Imm) (dst : EA) (s : State) : Outcome :=
  runInstr (adjusts1 i.size dst) (combineImm i dst (aluEor i.size)) s

/-- NOT (R262). -/
def execNot (sz : Size) (dst : EA) (s : State) : Outcome :=
  runInstr (adjusts1 sz dst) (modifyOperand sz dst (aluNot sz)) s

/-- A logical operation of a byte on CCR. -/
def onCcr (f : Byte → Byte) : Exec Unit := do
  fetchExts 1
  lastFetch
  let flags ← getCcr
  setCcr (CCR.ofByte (f flags.toByte))

/-- ANDI to CCR (R256). -/
def execAndiToCcr (data : Byte) (s : State) : Outcome := runInstr [] (onCcr fun b => b &&& data) s

/-- ORI to CCR (R258). -/
def execOriToCcr (data : Byte) (s : State) : Outcome := runInstr [] (onCcr fun b => b ||| data) s

/-- EORI to CCR (R260). -/
def execEoriToCcr (data : Byte) (s : State) : Outcome := runInstr [] (onCcr fun b => b ^^^ data) s

/-- A logical operation of a word on SR. -/
def onSr (f : Word → Word) : Exec Unit := do
  fetchExts 1
  writeSr f

/-- ANDI to SR (R257), privileged. -/
def execAndiToSr (data : Word) (s : State) : Outcome := privileged (runInstr [] (onSr fun w => w &&& data)) s

/-- ORI to SR (R259), privileged. -/
def execOriToSr (data : Word) (s : State) : Outcome := privileged (runInstr [] (onSr fun w => w ||| data)) s

/-- EORI to SR (R261), privileged. -/
def execEoriToSr (data : Word) (s : State) : Outcome := privileged (runInstr [] (onSr fun w => w ^^^ data)) s

end Sys2Proof.Machine
end

