-- ==== Sys2Proof/Machine/Shift.lean ====
section
/-! DEFINITION. Shifts and rotates (43_shift_rotate.md, 47_extended_precision_bcd.md R313, R314). -/

namespace Sys2Proof.Machine

/-- A register shift (R230). -/
def shiftRegBody (op : ShiftOp) (sz : Size) (c : Count) (dn : RegNum) : Exec Unit := do
  let cnt ← inspect fun s => shiftCount c s
  onReg sz dn (aluShift op sz cnt)

/-- A memory shift, by one bit (R237). -/
def shiftMemBody (op : ShiftOp) (dst : EA) : Exec Unit := modifyOperand .w dst (aluShift op .w 1)

/-- ASR of a data register (R232). -/
def execAsrReg (sz : Size) (c : Count) (dn : RegNum) (s : State) : Outcome :=
  runInstr [] (shiftRegBody .asr sz c dn) s

/-- ASR of a memory word (R232, R237). -/
def execAsrMem (dst : EA) (s : State) : Outcome := runInstr (adjusts1 .w dst) (shiftMemBody .asr dst) s

/-- ASL of a data register (R231). -/
def execAslReg (sz : Size) (c : Count) (dn : RegNum) (s : State) : Outcome :=
  runInstr [] (shiftRegBody .asl sz c dn) s

/-- ASL of a memory word (R231, R237). -/
def execAslMem (dst : EA) (s : State) : Outcome := runInstr (adjusts1 .w dst) (shiftMemBody .asl dst) s

/-- LSR of a data register (R234). -/
def execLsrReg (sz : Size) (c : Count) (dn : RegNum) (s : State) : Outcome :=
  runInstr [] (shiftRegBody .lsr sz c dn) s

/-- LSR of a memory word (R234, R237). -/
def execLsrMem (dst : EA) (s : State) : Outcome := runInstr (adjusts1 .w dst) (shiftMemBody .lsr dst) s

/-- LSL of a data register (R233). -/
def execLslReg (sz : Size) (c : Count) (dn : RegNum) (s : State) : Outcome :=
  runInstr [] (shiftRegBody .lsl sz c dn) s

/-- LSL of a memory word (R233, R237). -/
def execLslMem (dst : EA) (s : State) : Outcome := runInstr (adjusts1 .w dst) (shiftMemBody .lsl dst) s

/-- ROXR of a data register (R314). -/
def execRoxrReg (sz : Size) (c : Count) (dn : RegNum) (s : State) : Outcome :=
  runInstr [] (shiftRegBody .roxr sz c dn) s

/-- ROXR of a memory word (R314, R237). -/
def execRoxrMem (dst : EA) (s : State) : Outcome := runInstr (adjusts1 .w dst) (shiftMemBody .roxr dst) s

/-- ROXL of a data register (R313). -/
def execRoxlReg (sz : Size) (c : Count) (dn : RegNum) (s : State) : Outcome :=
  runInstr [] (shiftRegBody .roxl sz c dn) s

/-- ROXL of a memory word (R313, R237). -/
def execRoxlMem (dst : EA) (s : State) : Outcome := runInstr (adjusts1 .w dst) (shiftMemBody .roxl dst) s

/-- ROR of a data register (R236). -/
def execRorReg (sz : Size) (c : Count) (dn : RegNum) (s : State) : Outcome :=
  runInstr [] (shiftRegBody .ror sz c dn) s

/-- ROR of a memory word (R236, R237). -/
def execRorMem (dst : EA) (s : State) : Outcome := runInstr (adjusts1 .w dst) (shiftMemBody .ror dst) s

/-- ROL of a data register (R235). -/
def execRolReg (sz : Size) (c : Count) (dn : RegNum) (s : State) : Outcome :=
  runInstr [] (shiftRegBody .rol sz c dn) s

/-- ROL of a memory word (R235, R237). -/
def execRolMem (dst : EA) (s : State) : Outcome := runInstr (adjusts1 .w dst) (shiftMemBody .rol dst) s

end Sys2Proof.Machine
end

