-- ==== Sys2Proof/Machine/Special.lean ====
section
/-! DEFINITION. Special instructions (49_special.md): MOVEM, LINK, UNLK, Scc, DBcc, CHK, MOVEP, TAS. -/

namespace Sys2Proof.Machine

/-! ## MOVEM -/

/-- The sixteen mask positions, from bit 0. -/
def maskBits : List (Fin 16) := [0, 1, 2, 3, 4, 5, 6, 7, 8, 9, 10, 11, 12, 13, 14, 15]

/-- The registers of a mask, D0 first (30_encoding.md R111). -/
def movemList (mask : Word) : List Reg := (maskBits.filter fun i => mask.getLsbD i.val).map regOfIndex

/-- The registers of a predecrement mask, whose bit 0 is A7: A7 first (R111). -/
def movemDownList (mask : Word) : List Reg :=
  (maskBits.filter fun j => mask.getLsbD j.val).map fun j => regOfIndex ⟨15 - j.val, by omega⟩

/-- Store registers at rising addresses (R340). -/
def storeUp (sz : Size) : Long → List Reg → Exec Unit
  | _, [] => pure ()
  | addr, r :: rs => do
    let v ← inspect fun s => s.reg r
    writeData sz false addr v
    storeUp sz (addr + BitVec.ofNat 32 sz.bytes) rs

/-- Store registers at falling addresses; the result is the last address (R340). The addressing register is read before it
is written back, so its initial value is stored. -/
def storeDown (sz : Size) : Long → List Reg → Exec Long
  | addr, [] => pure addr
  | addr, r :: rs => do
    let v ← inspect fun s => s.reg r
    writeData sz true (addr - BitVec.ofNat 32 sz.bytes) v
    storeDown sz (addr - BitVec.ofNat 32 sz.bytes) rs

/-- Load registers from rising addresses, each value sign-extended; the result is the address after the last (R341). -/
def loadUp (sz : Size) (fc : FC) : Long → List Reg → Exec Long
  | addr, [] => pure addr
  | addr, r :: rs => do
    let v ← memRead sz addr fc
    setReg r (sext sz v)
    loadUp sz fc (addr + BitVec.ofNat 32 sz.bytes) rs

/-- The values the addressing register of a MOVEM may hold after a fault: `n` multiples of a step (93 U10; log entry
41). DESIGN CHOICE: where the list of a load holds that register and the fault comes after its load, its loaded value (R341), its
value before the instruction and these multiples are all allowed. -/
def multiples (base step : Long) : Nat → List Long
  | 0 => []
  | n + 1 => (base + step) :: multiples (base + step) step n

/-- What a MOVEM adjusts. -/
def adjustsMovem (sz : Size) (ea : EA) (count : Nat) (s : State) : List Adjusted :=
  match ea with
  | .postInc n => [⟨n, multiples (s.areg n) (BitVec.ofNat 32 sz.bytes) count⟩]
  | .preDec n => [⟨n, multiples (s.areg n) (-BitVec.ofNat 32 sz.bytes) count⟩]
  | .dreg _ | .areg _ | .ind _ | .disp _ _ | .index _ _ | .absW _ | .absL _ | .pcDisp _ | .pcIndex _ | .imm _ => []

/-- MOVEM registers to memory (R340). -/
def movemToMemBody (sz : Size) (mask : Word) (dst : EA) : Exec Unit := do
  fetchExts 1
  match dst with
  | .preDec n => do
    let top ← getA n
    lastFetch
    let last ← storeDown sz top (movemDownList mask)
    setA n last
  | .dreg _ | .areg _ | .ind _ | .postInc _ | .disp _ _ | .index _ _ | .absW _ | .absL _ | .pcDisp _ | .pcIndex _
  | .imm _ => do
    let addr ← controlAddress dst
    lastFetch
    storeUp sz addr (movemList mask)

/-- The one word read past the last datum and discarded, where the map holds more than plain memory (20_memory.md R75 (b), D10).
DESIGN CHOICE: in the space of the operand, so in program space for a PC-relative source; R75 names none (log entry 28). -/
def extraRead (fc : FC) (addr : Long) (rs : List Reg) : Exec Unit :=
  match rs with
  | [] => pure ()
  | _ :: _ => unasked do
    let _ ← readWordCycle addr fc
    pure ()

/-- MOVEM memory to registers (R341): with `(An)+` the register takes the final address, over a loaded value. -/
def movemToRegBody (sz : Size) (mask : Word) (src : EA) : Exec Unit := do
  fetchExts 1
  match src with
  | .postInc n => do
    let addr ← getA n
    let fc ← dataSpace
    let last ← loadUp sz fc addr (movemList mask)
    extraRead fc last (movemList mask)
    setA n last
    lastFetch
  | .dreg _ | .areg _ | .ind _ | .preDec _ | .disp _ _ | .index _ _ | .absW _ | .absL _ | .pcDisp _ | .pcIndex _
  | .imm _ => do
    let loc ← resolve sz src
    match loc with
    | .mem sp addr _ => do
      let fc ← spaceFC sp
      let last ← loadUp sz fc addr (movemList mask)
      extraRead fc last (movemList mask)
      lastFetch
    | .dreg _ | .areg _ | .imm _ => lastFetch

/-- MOVEM registers to memory (R340). -/
def execMovemToMem (sz : WSize) (mask : Word) (dst : EA) (s : State) : Outcome :=
  runInstr (adjustsMovem sz.size dst (movemList mask).length s) (movemToMemBody sz.size mask dst) s

/-- MOVEM memory to registers (R341). -/
def execMovemToReg (sz : WSize) (mask : Word) (src : EA) (s : State) : Outcome :=
  runInstr (adjustsMovem sz.size src (movemList mask).length s) (movemToRegBody sz.size mask src) s

/-! ## LINK and UNLK -/

/-- The value LINK pushes: `A[n]`, but free for `LINK A7` (93 U14; log entry 23). -/
def linkValue (an : RegNum) : Exec Long := if an = 7 then takeLong else getA an

/-- The value UNLK leaves in its register: the one popped, but free for `UNLK A7` (93 U14; log entry 23). -/
def unlinkValue (an : RegNum) (v : Long) : Exec Long := if an = 7 then takeLong else pure v

/-- LINK (R342). -/
def execLink (an : RegNum) (d : Word) (s : State) : Outcome :=
  runInstr adjustsStack (do
    fetchExts 1
    lastFetch
    let v ← linkValue an
    push32 v
    let sp ← getA 7
    setA an sp
    setA 7 (sp + sextWord d)) s

/-- UNLK (R343). -/
def execUnlk (an : RegNum) (s : State) : Outcome :=
  runInstr [] (do
    let top ← getA an
    setA 7 top
    let v ← pop32
    lastFetch
    let v ← unlinkValue an v
    setA an v) s

/-! ## Scc, DBcc, CHK -/

/-- Scc (R344). -/
def execScc (cond : Cond) (dst : EA) (s : State) : Outcome :=
  runInstr (adjusts1 .b dst) (storeOperand .b dst fun f => (if condHolds f cond then 0xFF else 0, f)) s

/-- DBcc (R345): the counter is the low word of Dn. -/
def execDbcc (cond : Cond) (dn : RegNum) (d : Word) (s : State) : Outcome :=
  runInstr [] (do
    let base ← getPc
    fetchExts 1
    let flags ← getCcr
    if condHolds flags cond then lastFetch
    else do
      let old ← getD dn
      setD .w dn (ofWord (lowWord old - 1))
      if lowWord old = 0 then lastFetch else jump (base + sextWord d)) s

/-- The condition codes CHK leaves: N as given, or free when no trap is taken; Z, V, C free; X unchanged (R346, 93 U5; log
entry 17). -/
def chkFlags (k : Nat) (n : Option Bool) (f : CCR) : CCR :=
  ⟨f.x, n.getD (Config.freeBit (k + 3)), Config.freeBit k, Config.freeBit (k + 1), Config.freeBit (k + 2)⟩

/-- Four free values for CHK: numbers `k` to `k + 3`. -/
def takeChkIndex : Exec Nat := do
  let k ← takeIndex
  let _ ← takeIndex
  let _ ← takeIndex
  let _ ← takeIndex
  pure k

/-- CHK (R346): trap through vector 6 below 0 or above the bound. -/
def execChk (dn : RegNum) (src : EA) (s : State) : Outcome :=
  runInstr (adjusts1 .w src) (do
    let bound ← fetchOperand .w src
    let k ← takeChkIndex
    let v ← getD dn
    let flags ← getCcr
    if (lowWord v).toInt < 0 then do
      setCcr (chkFlags k (some true) flags)
      trap2 6
    else if (lowWord bound).toInt < (lowWord v).toInt then do
      setCcr (chkFlags k (some false) flags)
      trap2 6
    else do
      lastFetch
      setCcr (chkFlags k none flags)) s

/-! ## MOVEP -/

/-- The byte of weight `j` of a value, byte 0 the least significant. -/
def byteOf (v : Long) (j : Nat) : Byte := v.extractLsb' (8 * j) 8

/-- Store the `k` low bytes of a value at every other address, most significant first (R347). -/
def storeAlternate (v : Long) : Nat → Long → Exec Unit
  | 0, _ => pure ()
  | j + 1, addr => do
    let fc ← dataSpace
    writeByteCycle addr fc (byteOf v j)
    storeAlternate v j (addr + 2)

/-- Load `k` bytes from every other address onto a value, most significant first (R347). -/
def loadAlternate : Long → Nat → Long → Exec Long
  | acc, 0, _ => pure acc
  | acc, j + 1, addr => do
    let fc ← dataSpace
    let b ← readByteCycle addr fc
    loadAlternate (acc <<< 8 ||| ofByte b) j (addr + 2)

/-- MOVEP d(Ay),Dx (R347). DESIGN CHOICE: Dx is written once, after every read and the last fetch, so a bus error part-way
leaves all of it as before (00_scope.md R9 puts writes after reads, the loop of R347 writes byte by byte; log entry 45). -/
def execMovepToReg (sz : WSize) (dn an : RegNum) (d : Word) (s : State) : Outcome :=
  runInstr [] (do
    fetchExts 1
    let a ← getA an
    let v ← loadAlternate 0 sz.size.bytes (a + sextWord d)
    lastFetch
    setD sz.size dn v) s

/-- MOVEP Dx,d(Ay) (R347). -/
def execMovepToMem (sz : WSize) (dn an : RegNum) (d : Word) (s : State) : Outcome :=
  runInstr [] (do
    fetchExts 1
    let a ← getA an
    let v ← getD dn
    lastFetch
    storeAlternate v sz.size.bytes (a + sextWord d)) s

/-! ## TAS -/

/-- What TAS does with the byte it reads: the condition codes, and the byte with bit 7 set (R348). -/
def testAndSet (old : Byte) : Exec Byte := do
  let flags ← getCcr
  setCcr (logicFlags .b flags (ofByte old))
  pure (old ||| 0x80)

/-- TAS on an operand that is not in memory. -/
def testAndSetReg (loc : Loc) : Exec Unit := do
  let old ← readLoc .b loc
  let new ← testAndSet (old.setWidth 8)
  writeLoc .b loc (ofByte new)

/-- TAS on a location: in memory one read-modify-write cycle (20_memory.md R73). -/
def testAndSetLoc : Loc → Exec Unit
  | .mem _ addr _ => do
    let fc ← dataSpace
    modifyByteCycle addr fc testAndSet
  | .dreg n => testAndSetReg (.dreg n)
  | .areg n => testAndSetReg (.areg n)
  | .imm v => testAndSetReg (.imm v)

/-- TAS (R348). -/
def execTas (dst : EA) (s : State) : Outcome :=
  runInstr (adjusts1 .b dst) (do
    let loc ← resolve .b dst
    lastFetch
    testAndSetLoc loc) s

end Sys2Proof.Machine
end

