-- ==== Sys2Proof/Machine/Dispatch.lean ====
section
/-! DEFINITION. The meaning of each instruction: one arm per constructor of `Instr`, in the order of opcode_table.json. -/

namespace Sys2Proof.Machine

/-- The outcome of an instruction in a state at an instruction boundary. -/
def exec (i : Instr) (s : State) : Host.Outcome State Fault Refusal :=
  match i with
  | .ori imm dst => Sys2Proof.Machine.execOri imm dst s
  | .andi imm dst => Sys2Proof.Machine.execAndi imm dst s
  | .subi imm dst => Sys2Proof.Machine.execSubi imm dst s
  | .addi imm dst => Sys2Proof.Machine.execAddi imm dst s
  | .eori imm dst => Sys2Proof.Machine.execEori imm dst s
  | .cmpi imm dst => Sys2Proof.Machine.execCmpi imm dst s
  | .oriToCcr data => Sys2Proof.Machine.execOriToCcr data s
  | .oriToSr data => Sys2Proof.Machine.execOriToSr data s
  | .andiToCcr data => Sys2Proof.Machine.execAndiToCcr data s
  | .andiToSr data => Sys2Proof.Machine.execAndiToSr data s
  | .eoriToCcr data => Sys2Proof.Machine.execEoriToCcr data s
  | .eoriToSr data => Sys2Proof.Machine.execEoriToSr data s
  | .btstImm bit dst => Sys2Proof.Machine.execBtstImm bit dst s
  | .btstReg dn dst => Sys2Proof.Machine.execBtstReg dn dst s
  | .bchgImm bit dst => Sys2Proof.Machine.execBchgImm bit dst s
  | .bchgReg dn dst => Sys2Proof.Machine.execBchgReg dn dst s
  | .bclrImm bit dst => Sys2Proof.Machine.execBclrImm bit dst s
  | .bclrReg dn dst => Sys2Proof.Machine.execBclrReg dn dst s
  | .bsetImm bit dst => Sys2Proof.Machine.execBsetImm bit dst s
  | .bsetReg dn dst => Sys2Proof.Machine.execBsetReg dn dst s
  | .movepToReg sz dn an disp => Sys2Proof.Machine.execMovepToReg sz dn an disp s
  | .movepToMem sz dn an disp => Sys2Proof.Machine.execMovepToMem sz dn an disp s
  | .moveB src dst => Sys2Proof.Machine.execMoveB src dst s
  | .moveW src dst => Sys2Proof.Machine.execMoveW src dst s
  | .moveL src dst => Sys2Proof.Machine.execMoveL src dst s
  | .moveaW an src => Sys2Proof.Machine.execMoveaW an src s
  | .moveaL an src => Sys2Proof.Machine.execMoveaL an src s
  | .negx sz dst => Sys2Proof.Machine.execNegx sz dst s
  | .moveFromSr dst => Sys2Proof.Machine.execMoveFromSr dst s
  | .chk dn src => Sys2Proof.Machine.execChk dn src s
  | .lea an src => Sys2Proof.Machine.execLea an src s
  | .clr sz dst => Sys2Proof.Machine.execClr sz dst s
  | .neg sz dst => Sys2Proof.Machine.execNeg sz dst s
  | .moveToCcr src => Sys2Proof.Machine.execMoveToCcr src s
  | .not sz dst => Sys2Proof.Machine.execNot sz dst s
  | .moveToSr src => Sys2Proof.Machine.execMoveToSr src s
  | .nbcd dst => Sys2Proof.Machine.execNbcd dst s
  | .swap dn => Sys2Proof.Machine.execSwap dn s
  | .pea src => Sys2Proof.Machine.execPea src s
  | .extW dn => Sys2Proof.Machine.execExtW dn s
  | .extL dn => Sys2Proof.Machine.execExtL dn s
  | .movemToMem sz list dst => Sys2Proof.Machine.execMovemToMem sz list dst s
  | .movemToReg sz list src => Sys2Proof.Machine.execMovemToReg sz list src s
  | .tst sz dst => Sys2Proof.Machine.execTst sz dst s
  | .tas dst => Sys2Proof.Machine.execTas dst s
  | .illegal => Sys2Proof.Machine.execIllegal s
  | .trap v => Sys2Proof.Machine.execTrap v s
  | .link an disp => Sys2Proof.Machine.execLink an disp s
  | .unlk an => Sys2Proof.Machine.execUnlk an s
  | .moveToUsp an => Sys2Proof.Machine.execMoveToUsp an s
  | .moveFromUsp an => Sys2Proof.Machine.execMoveFromUsp an s
  | .resetDevices => Sys2Proof.Machine.execResetDevices s
  | .nop => Sys2Proof.Machine.execNop s
  | .stop data => Sys2Proof.Machine.execStop data s
  | .rte => Sys2Proof.Machine.execRte s
  | .rts => Sys2Proof.Machine.execRts s
  | .trapv => Sys2Proof.Machine.execTrapv s
  | .rtr => Sys2Proof.Machine.execRtr s
  | .jsr dst => Sys2Proof.Machine.execJsr dst s
  | .jmp dst => Sys2Proof.Machine.execJmp dst s
  | .addq q sz dst => Sys2Proof.Machine.execAddq q sz dst s
  | .subq q sz dst => Sys2Proof.Machine.execSubq q sz dst s
  | .scc cond dst => Sys2Proof.Machine.execScc cond dst s
  | .dbcc cond dn disp => Sys2Proof.Machine.execDbcc cond dn disp s
  | .bra disp => Sys2Proof.Machine.execBra disp s
  | .bsr disp => Sys2Proof.Machine.execBsr disp s
  | .bcc cond disp => Sys2Proof.Machine.execBcc cond disp s
  | .moveq dn data => Sys2Proof.Machine.execMoveq dn data s
  | .orToReg sz src dn => Sys2Proof.Machine.execOrToReg sz src dn s
  | .orToMem sz dn dst => Sys2Proof.Machine.execOrToMem sz dn dst s
  | .divu dn src => Sys2Proof.Machine.execDivu dn src s
  | .divs dn src => Sys2Proof.Machine.execDivs dn src s
  | .sbcd mem x y => Sys2Proof.Machine.execSbcd mem x y s
  | .subToReg sz src dn => Sys2Proof.Machine.execSubToReg sz src dn s
  | .subToMem sz dn dst => Sys2Proof.Machine.execSubToMem sz dn dst s
  | .suba sz an src => Sys2Proof.Machine.execSuba sz an src s
  | .subx sz mem x y => Sys2Proof.Machine.execSubx sz mem x y s
  | .line1010 low => Sys2Proof.Machine.execLine1010 low s
  | .cmp sz src dn => Sys2Proof.Machine.execCmp sz src dn s
  | .cmpa sz an src => Sys2Proof.Machine.execCmpa sz an src s
  | .eor sz dn dst => Sys2Proof.Machine.execEor sz dn dst s
  | .cmpm sz x y => Sys2Proof.Machine.execCmpm sz x y s
  | .andToReg sz src dn => Sys2Proof.Machine.execAndToReg sz src dn s
  | .andToMem sz dn dst => Sys2Proof.Machine.execAndToMem sz dn dst s
  | .mulu dn src => Sys2Proof.Machine.execMulu dn src s
  | .muls dn src => Sys2Proof.Machine.execMuls dn src s
  | .abcd mem x y => Sys2Proof.Machine.execAbcd mem x y s
  | .exgDD x y => Sys2Proof.Machine.execExgDD x y s
  | .exgAA x y => Sys2Proof.Machine.execExgAA x y s
  | .exgDA x y => Sys2Proof.Machine.execExgDA x y s
  | .addToReg sz src dn => Sys2Proof.Machine.execAddToReg sz src dn s
  | .addToMem sz dn dst => Sys2Proof.Machine.execAddToMem sz dn dst s
  | .adda sz an src => Sys2Proof.Machine.execAdda sz an src s
  | .addx sz mem x y => Sys2Proof.Machine.execAddx sz mem x y s
  | .asrReg sz cnt dn => Sys2Proof.Machine.execAsrReg sz cnt dn s
  | .asrMem dst => Sys2Proof.Machine.execAsrMem dst s
  | .aslReg sz cnt dn => Sys2Proof.Machine.execAslReg sz cnt dn s
  | .aslMem dst => Sys2Proof.Machine.execAslMem dst s
  | .lsrReg sz cnt dn => Sys2Proof.Machine.execLsrReg sz cnt dn s
  | .lsrMem dst => Sys2Proof.Machine.execLsrMem dst s
  | .lslReg sz cnt dn => Sys2Proof.Machine.execLslReg sz cnt dn s
  | .lslMem dst => Sys2Proof.Machine.execLslMem dst s
  | .roxrReg sz cnt dn => Sys2Proof.Machine.execRoxrReg sz cnt dn s
  | .roxrMem dst => Sys2Proof.Machine.execRoxrMem dst s
  | .roxlReg sz cnt dn => Sys2Proof.Machine.execRoxlReg sz cnt dn s
  | .roxlMem dst => Sys2Proof.Machine.execRoxlMem dst s
  | .rorReg sz cnt dn => Sys2Proof.Machine.execRorReg sz cnt dn s
  | .rorMem dst => Sys2Proof.Machine.execRorMem dst s
  | .rolReg sz cnt dn => Sys2Proof.Machine.execRolReg sz cnt dn s
  | .rolMem dst => Sys2Proof.Machine.execRolMem dst s
  | .line1111 low => Sys2Proof.Machine.execLine1111 low s

end Sys2Proof.Machine
end

