-- ==== Sys2Proof/Machine/Fetch.lean ====
section
/-! DEFINITION. What a step does at an instruction boundary: reset, trace, interrupts, and fetching and running an
instruction (60_exceptions.md R444 to R449, 70_reset_and_hazards.md R471). -/

namespace Sys2Proof.Machine

/-! ## The words of the next instruction -/

/-- The words after the queue as memory holds them; a word that is not in plain memory stands as 0 (log entry 6). -/
def peekWords (s : State) : Nat → Long → List Word
  | 0, _ => []
  | n + 1, addr =>
    (match s.answer addr s.programFC .read .word with
      | .memory bank => s.wordAt bank addr
      | .device | .berr | .noAnswer => 0) :: peekWords s n (addr + 2)

/-- Whether a fetch gives a word that is known only when it is made. -/
def State.deviceWord (s : State) (addr : Long) : Bool := s.answer addr s.programFC .read .word == .device

/-- Whether the words after the queue are known before they are fetched: none is a device's, and no other agent may change
memory under way. -/
def State.knownAhead (s : State) : Bool :=
  s.outside.isEmpty && !s.deviceWord (s.pc + 4) && !s.deviceWord (s.pc + 6) && !s.deviceWord (s.pc + 8)

/-- The region with BERR for no answer, so that a probe ends. -/
def Region.ending (r : Region) : Region := { r with answer := if r.answer = .noAnswer then .berr else r.answer }

/-- The state a probe of the next instruction starts from. -/
def State.probe (s : State) : State := { s with map := s.map.map Region.ending }

/-- A guess of the words after the queue, with those in place that the instruction it stands for fetches. A fetch depends on
earlier words alone, so each use makes at least one more word right (log entry 6). -/
def State.learn (s : State) (ws : List Word) : List Word :=
  match decodeWords (s.q0 :: s.q1 :: ws) with
  | .error _ => ws
  | .ok (i, _) =>
    match exec i s.probe with
    | .next t => t.stream ++ ws.drop t.stream.length
    | .fault _ => ws
    | .refused _ => ws

/-- The words at the program counter: the prefetch queue, then three words as the instruction will fetch them, five in all
(30_encoding.md R100). -/
def State.instrWords (s : State) : List Word :=
  let ahead := peekWords s 3 (s.pc + 4)
  s.q0 :: s.q1 :: if s.knownAhead then ahead else s.learn (s.learn (s.learn ahead))

/-- Decode the words at the program counter and run the instruction, or take the illegal instruction exception (R413).
`BTST Dn,#imm`, which the spec leaves outside its table, does the one or the other (93 U4; log entry 26). Five words are never
too few. -/
def runDecoded (s : State) : Outcome :=
  match decodeWords s.instrWords with
  | .ok (i, _) => exec i s
  | .error .illegal => refuseInstr 4 s
  | .error (.btstImmediate dn data) =>
    if Config.btstImmediateRuns then exec (.btstReg dn (.imm (.b data))) s else refuseInstr 4 s
  | .error .truncated => refuseInstr 4 s

/-- Fetch and run: an odd program counter is an address error of the fetch (20_memory.md R68; log entry 38). -/
def runNext (s : State) : Outcome :=
  if s.pc.getLsbD 0 then
    takeGroup0 ⟨.addressError, s.pc, .read, s.programFC, .target s.pc⟩ false { s with tracePending := false }
  else runDecoded s

/-! ## Reset -/

/-- The sequence of reset exception processing (70_reset_and_hazards.md R471). -/
def enterReset : Exec Unit := do
  let ssp ← memRead .l 0 .superProgram
  update fun s => { s with ssp := ssp }
  let pc ← memRead .l 4 .superProgram
  jump pc

/-- Reset exception processing: a fault in it is a double fault (60_exceptions.md R432). -/
def processReset (s : State) : Outcome :=
  concluded (fun _ => halt)
    (enterReset { s with
      super := true, trace := false, mask := 7, run := .running, l7Seen := false, tracePending := false,
      resetRequest := false })

/-! ## Trace and interrupts -/

/-- The trace exception, vector 9, after the instruction that began with T = 1 (60_exceptions.md R448; log entry 31). -/
def takeTrace (s : State) : Outcome := takeGroup1 (pure 9) s.pc s.sr none { s with tracePending := false }

/-- The edge memory of level 7 follows the pins: it is cleared when the level is seen below 7 (R446). -/
def State.sampled (s : State) : State := { s with l7Seen := s.l7Seen && s.irqLevel == 7 }

/-- Whether the requested level is accepted (R445, R446). -/
def State.accepts (s : State) : Bool :=
  decide (s.mask < s.irqLevel) || (s.irqLevel == 7 && !s.l7Seen)

/-- The vector number the acknowledge cycle gives (R424 to R427). -/
def State.ackVector (s : State) : Nat :=
  match s.ack with
  | .vector n => n.toNat
  | .autovector => 24 + s.irqLevel.toNat
  | .busError => 24

/-- The acknowledge cycle of a level (R423): the vector number. -/
def acknowledgeCycle (level : BitVec 3) : Exec Nat := do
  grantBus (some (.acknowledge level))
  update fun s => s.note (.acknowledge level)
  inspect State.ackVector

/-- Interrupt entry (R423): the exception with the mask at the level and the acknowledge cycle inside it (log entry 35). -/
def takeInterrupt (s : State) : Outcome :=
  takeGroup1 (acknowledgeCycle s.irqLevel) s.pc s.sr (some s.irqLevel) { s with l7Seen := s.irqLevel == 7 }

/-- A step in which the processor makes no cycle: other agents may act (R461, 20_memory.md R80; log entry 34), and for the wait
of the next act the step counts as one cycle does (DESIGN CHOICE, log entry 11). -/
def waitOnBus (s : State) : Outcome := concluded (fun _ => halt) (grantBus none s)

/-- The boundary after any trace: an accepted interrupt, else a wait while stopped, else the next instruction (R444, R447,
R449). -/
def atBoundary (s : State) : Outcome :=
  let s := s.sampled
  if s.accepts then takeInterrupt s
  else if s.run = .stopped then waitOnBus s
  else runNext s

/-- One step, by the decision procedure of R449: reset; a held or halted processor waits (log entry 34); a trace exception that
is due; the boundary. -/
def stepOnce (s : State) : Outcome :=
  if s.resetRequest then processReset s
  else if s.haltPin || s.run = .halted then waitOnBus s
  else if s.tracePending then takeTrace s
  else atBoundary s

/-! ## Placing an instruction -/

/-- Store words at rising addresses in the plain memory that instruction fetches read. -/
def State.placeWords (s : State) : Long → List Word → State
  | _, [] => s
  | addr, w :: ws =>
    match s.answer addr s.programFC .read .word with
    | .memory bank => State.placeWords (s.storeWord bank addr w) (addr + 2) ws
    | .device => State.placeWords s (addr + 2) ws
    | .berr => State.placeWords s (addr + 2) ws
    | .noAnswer => State.placeWords s (addr + 2) ws

/-- The state with an instruction's words at the program counter, in memory and in the prefetch queue, and nothing due
before it (log entry 3). -/
def State.placeInstr (s : State) (ws : List Word) : State :=
  { s.placeWords s.pc ws with
      q0 := ws.getD 0 0, q1 := ws.getD 1 0, run := .running, resetRequest := false, haltPin := false, tracePending := false,
      irqLevel := 0, outside := [] }

end Sys2Proof.Machine
end

