-- ==== Sys2Proof/Safety.lean ====
section
/-! DEFINITION. The terms the claims use: the part of the state an instruction's rule speaks of, plain memory, and the
invariants of a safe run. -/

namespace Sys2Proof.Machine

/-! ## What an instruction's rule speaks of -/

/-- The state without the instruction stream (program counter, queue, instruction register, `owl`, the trace due, the words
fetched) and without what the model counts (events, free values). Two states with one `settled` part agree in every register, every flag and bit
of SR, both stack pointers, the processing state, memory and every input. -/
def State.settled (s : State) : State :=
  { s with pc := 0, q0 := 0, q1 := 0, ir := 0, owl := 0, tracePending := false, events := [], stream := [], free := 0 }

/-- Word `k` of the instruction stream at an instruction boundary in plain memory: two from the queue, then memory. -/
def State.streamWord (s : State) : Nat → Word
  | 0 => s.q0
  | 1 => s.q1
  | k + 2 => s.wordAt 0 (s.pc + BitVec.ofNat 32 (2 * (k + 2)))

/-- The queue holds the two words that memory has at the program counter. -/
def State.QueueFilled (t : State) : Prop := t.q0 = t.wordAt 0 t.pc ∧ t.q1 = t.wordAt 0 (t.pc + 2)

/-- An instruction completes: it answers a next state that agrees with `expected` in all that its rule speaks of, the program
counter is after its last word (10_state.md R26), and a trace exception is due just when T was set at its start
(60_exceptions.md R448). The queue has moved on by the instruction's words, read before any write of it: the model's choice
(log entries 4 and 5; 70_reset_and_hazards.md R481). -/
def Completes (i : Instr) (s expected : State) : Prop :=
  ∃ t, exec i s = .next t ∧ t.settled = expected.settled ∧ t.pc = s.pc + BitVec.ofNat 32 (2 * (encode i).length) ∧
    t.tracePending = s.trace ∧
    t.q0 = s.streamWord (encode i).length ∧ t.q1 = s.streamWord ((encode i).length + 1)

/-- An instruction transfers control: as `Completes`, but the program counter is at the target and the queue filled from there
(20_memory.md R83). -/
def TransfersTo (i : Instr) (s expected : State) (target : Long) : Prop :=
  ∃ t, exec i s = .next t ∧ t.settled = expected.settled ∧ t.pc = target ∧ t.tracePending = s.trace ∧ t.QueueFilled

/-! ## Plain memory -/

/-- Every bus cycle is answered by the one plain memory and no other agent acts (`MEM_MAP`, `FC_POLICY`, `RERUN` and
`DMA_AGENTS` at their defaults, 92_eei_decisions.md). -/
def State.Plain (s : State) : Prop := s.outside = [] ∧ ∀ addr fc dir w, s.answer addr fc dir w = .memory 0

/-- The operand in plain memory (20_memory.md R65, R66). -/
def State.load (s : State) (sz : Size) (addr : Long) : Long :=
  match sz with
  | .b => ofByte (s.mem.readByte (byteKey 0 addr))
  | .w => ofWord (s.wordAt 0 addr)
  | .l => joinWords (s.wordAt 0 addr) (s.wordAt 0 (addr + 2))

/-- The state with an operand stored in plain memory; `pushed` is the order of the two words of a long word (R71). -/
def State.store (s : State) (sz : Size) (pushed : Bool) (addr v : Long) : State :=
  match sz with
  | .b => s.storeByte 0 addr (v.setWidth 8)
  | .w => s.storeWord 0 addr (lowWord v)
  | .l =>
    if pushed then (s.storeWord 0 (addr + 2) (lowWord v)).storeWord 0 addr (highWord v)
    else (s.storeWord 0 addr (highWord v)).storeWord 0 (addr + 2) (lowWord v)

/-! ## Operands in plain memory -/

/-- The state when the program counter has passed `k` words of the instruction. -/
def State.past (s : State) (k : Nat) : State := { s with pc := s.pc + BitVec.ofNat 32 (2 * k) }

/-- Whether an operand can be accessed: a word or a long word in memory is at an even address (20_memory.md R67). -/
def Loc.Aligned (sz : Size) : Loc → Prop
  | .mem _ addr _ => misaligned sz addr = false
  | .dreg _ | .areg _ | .imm _ => True

/-- The value of an operand (40_addressing_modes.md R140). -/
def State.valueAt (s : State) (sz : Size) : Loc → Long
  | .dreg n => trunc sz s.d[n.val]
  | .areg n => trunc sz (s.areg n)
  | .mem _ addr _ => s.load sz addr
  | .imm v => trunc sz v

/-- The state with an operand written (R140). -/
def State.written (s : State) (sz : Size) (loc : Loc) (v : Long) : State :=
  match loc with
  | .dreg n => s.setDreg n (merge sz s.d[n.val] v)
  | .areg n => s.setAreg n (sext sz v)
  | .mem _ addr pushed => s.store sz pushed addr v
  | .imm _ => s

/-- The location of an operand whose first extension word is word `k` of the instruction at the program counter. -/
def State.locAt (s : State) (k : Nat) (sz : Size) (ea : EA) : Loc := (s.past k).locate sz ea

/-- The value of an operand whose first extension word is word `k` of the instruction. -/
def State.operand (s : State) (k : Nat) (sz : Size) (ea : EA) : Long := s.valueAt sz (s.locAt k sz ea)

/-- The operand can be read and written. -/
def State.Ready (s : State) (k : Nat) (sz : Size) (ea : EA) : Prop := s.Plain ∧ (s.locAt k sz ea).Aligned sz

/-- The state after an operand is resolved and written. -/
def State.result (s : State) (k : Nat) (sz : Size) (ea : EA) (v : Long) : State :=
  (s.afterMode sz ea).written sz (s.locAt k sz ea) v

/-- Registers stored at rising addresses (49_special.md R340). -/
def State.storedUp (s : State) (sz : Size) : Long → List Reg → State
  | _, [] => s
  | addr, r :: rs => State.storedUp (s.store sz false addr (s.reg r)) sz (addr + BitVec.ofNat 32 sz.bytes) rs

/-- Registers stored at falling addresses, the first one just below the address (R340). -/
def State.storedDown (s : State) (sz : Size) : Long → List Reg → State
  | _, [] => s
  | addr, r :: rs =>
    State.storedDown (s.store sz true (addr - BitVec.ofNat 32 sz.bytes) (s.reg r)) sz (addr - BitVec.ofNat 32 sz.bytes) rs

/-- The state with a general register written whole. -/
def State.setReg (s : State) (r : Reg) (v : Long) : State :=
  match r with
  | .d n => s.setDreg n v
  | .a n => s.setAreg n v

/-- Registers loaded from rising addresses, each value sign-extended (R341). -/
def State.loadedUp (s : State) (sz : Size) : Long → List Reg → State
  | _, [] => s
  | addr, r :: rs => State.loadedUp (s.setReg r (sext sz (s.load sz addr))) sz (addr + BitVec.ofNat 32 sz.bytes) rs

/-- Bytes stored at every other address. -/
def State.storedAlternate (s : State) : Long → List Byte → State
  | _, [] => s
  | addr, b :: bs => State.storedAlternate (s.storeByte 0 addr b) (addr + 2) bs

/-- The byte at an address in plain memory. -/
def State.byteAt (s : State) (addr : Long) : Byte := s.mem.readByte (byteKey 0 addr)

/-- A word is what SR reads as: T in bit 15, S in bit 13, the mask in bits 10 to 8, X N Z V C in bits 4 to 0, the unused bits
zero (10_state.md R28, R29). -/
def State.SrReads (s : State) (w : Word) : Prop :=
  w.getLsbD 15 = s.trace ∧ w.getLsbD 13 = s.super ∧ w.extractLsb' 8 3 = s.mask ∧ w.getLsbD 4 = s.ccr.x ∧
    w.getLsbD 3 = s.ccr.n ∧ w.getLsbD 2 = s.ccr.z ∧ w.getLsbD 1 = s.ccr.v ∧ w.getLsbD 0 = s.ccr.c ∧ w &&& 0x58E0 = 0

/-- The state with T, S, the mask and the condition codes taken from their places in a word (R28). -/
def State.withSr (s : State) (w : Word) : State :=
  { s with
    trace := w.getLsbD 15, super := w.getLsbD 13, mask := w.extractLsb' 8 3,
    ccr := ⟨w.getLsbD 4, w.getLsbD 3, w.getLsbD 2, w.getLsbD 1, w.getLsbD 0⟩ }

/-- The index of an index extension word, from R147: the low word of the register sign-extended, or the whole register, plus the
sign-extended byte. -/
def State.indexValue (s : State) (x : Index) : Long :=
  (if x.long then s.reg x.reg else ((s.reg x.reg).extractLsb' 0 16).signExtend 32) + x.disp.signExtend 32

/-- The number a value stands for at a size, two's complement (42_integer_arithmetic.md R214). -/
def signedOf (sz : Size) (v : Long) : Int := (sext sz v).toInt

/-- The three MOVE instructions. -/
def moveInstr : Size → EA → EA → Instr
  | .b => .moveB
  | .w => .moveW
  | .l => .moveL

/-- The register forms of the shifts and rotates. -/
def shiftInstr : ShiftOp → Size → Count → RegNum → Instr
  | .asr => .asrReg
  | .asl => .aslReg
  | .lsr => .lsrReg
  | .lsl => .lslReg
  | .roxr => .roxrReg
  | .roxl => .roxlReg
  | .ror => .rorReg
  | .rol => .rolReg

/-- The memory forms of the shifts and rotates. -/
def shiftMemInstr : ShiftOp → EA → Instr
  | .asr => .asrMem
  | .asl => .aslMem
  | .lsr => .lsrMem
  | .lsl => .lslMem
  | .roxr => .roxrMem
  | .roxl => .roxlMem
  | .ror => .rorMem
  | .rol => .rolMem

/-- The keys of the bytes an operand of a size occupies at an address. -/
def occupied (sz : Size) (addr : Long) : List Nat :=
  match sz with
  | .b => [byteKey 0 addr]
  | .w => [byteKey 0 addr, byteKey 0 (addr + 1)]
  | .l => [byteKey 0 addr, byteKey 0 (addr + 1), byteKey 0 (addr + 2), byteKey 0 (addr + 3)]

/-- The state after a long word is pushed in plain memory (00_scope.md R9). -/
def State.pushed32 (s : State) (v : Long) : State := (s.setAreg 7 (s.areg 7 - 4)).store .l true (s.areg 7 - 4) v

/-- The state after a word is pushed in plain memory (R9). -/
def State.pushed16 (s : State) (v : Word) : State := (s.setAreg 7 (s.areg 7 - 2)).store .w true (s.areg 7 - 2) (ofWord v)

/-! ## Exceptions in plain memory -/

/-- The state in which the frame of an exception is pushed: S set, T cleared, the mask raised for an interrupt
(60_exceptions.md R420, R423). -/
def State.entering (s : State) (level : Option (BitVec 3)) : State :=
  { s with super := true, trace := false, mask := level.getD s.mask }

/-- The state after an exception with a six-byte frame is entered in plain memory, but for the program counter
(R420, R421). -/
def State.entered (s : State) (savedPc : Long) (savedSr : Word) (level : Option (BitVec 3)) : State :=
  { ((s.entering level).pushed32 savedPc).pushed16 savedSr with run := .running }

/-- The address of the handler, read from the vector after the frame is pushed (R402, R420). -/
def State.handler (s : State) (vec : Nat) (savedPc : Long) (savedSr : Word) (level : Option (BitVec 3)) : Long :=
  (s.entered savedPc savedSr level).load .l (vectorAddress vec)

/-- The entry of an exception runs without a fault: plain memory, an even supervisor stack pointer, an even handler
address. -/
def State.EntryReady (s : State) (vec : Nat) (savedPc : Long) (savedSr : Word) (level : Option (BitVec 3)) : Prop :=
  s.Plain ∧ s.ssp.getLsbD 0 = false ∧ (s.handler vec savedPc savedSr level).getLsbD 0 = false

/-- An outcome is the entry of an exception with a six-byte frame: the next state is the one entered, at the handler, the queue
filled from there; `trace` tells whether a trace exception is due after it. -/
def Enters (o : Outcome) (s : State) (vec : Nat) (savedPc : Long) (savedSr : Word) (level : Option (BitVec 3))
    (trace : Bool) : Prop :=
  ∃ t, o = .next t ∧ t.settled = (s.entered savedPc savedSr level).settled ∧
    t.pc = s.handler vec savedPc savedSr level ∧ t.tracePending = trace ∧ t.QueueFilled

/-- The state after the fourteen-byte frame of a bus error or an address error is entered in plain memory, but for the
program counter (R430). -/
def State.entered0 (s : State) (savedPc : Long) (savedSr : Word) (ir : Word) (addr : Long) (status : Word) : State :=
  { ((((s.entering none).pushed32 savedPc).pushed16 savedSr).pushed16 ir |>.pushed32 addr).pushed16 status with
    run := .running }

/-- The address of the handler of a group 0 exception. -/
def State.handler0 (s : State) (vec : Nat) (savedPc : Long) (savedSr : Word) (ir : Word) (addr : Long) (status : Word) :
    Long := (s.entered0 savedPc savedSr ir addr status).load .l (vectorAddress vec)

/-- The entry of a group 0 exception does not fault: an even supervisor stack pointer and an even handler address, whatever the
free parts of the frame are. -/
def State.Ready0 (s : State) (vec : Nat) (ir : Word) (addr : Long) : Prop :=
  s.ssp.getLsbD 0 = false ∧ ∀ p st, (s.handler0 vec p s.sr ir addr st).getLsbD 0 = false

/-- An outcome is the entry of a bus error or an address error from the state `s`: the fourteen-byte frame with the operation
word, the address of the access and a status word that tells its direction, I/N and its function code, the program counter at
the handler, the queue filled from there, no trace due (60_exceptions.md R430, R431). `saved` is the range of the saved PC. -/
def Enters0 (o : Outcome) (s : State) (vec : Nat) (saved : Long → Prop) (ir : Word) (addr : Long) (read notInstr : Bool)
    (fc : BitVec 3) : Prop :=
  ∃ (p : Long) (st : Word) (t : State), o = .next t ∧ saved p ∧ st.getLsbD 4 = read ∧ st.getLsbD 3 = notInstr ∧
    st.extractLsb' 0 3 = fc ∧ t.settled = (s.entered0 p s.sr ir addr st).settled ∧
    t.pc = s.handler0 vec p s.sr ir addr st ∧ t.tracePending = false ∧ t.QueueFilled

/-- The saved PC of a fault inside the instruction at `pc` (93 U15; log entry 24). -/
def InsideOf (pc p : Long) : Prop := ∃ j : Nat, j ≤ 4 ∧ p = pc + 2 + BitVec.ofNat 32 (2 * j)

/-- The saved PC of a fault of the fetch at a target (93 U15; log entry 24). -/
def NearTarget (target p : Long) : Prop := ∃ j : Nat, j ≤ 4 ∧ p = target + BitVec.ofNat 32 j

/-! ## Invariants -/

/-- Memory is in its canonical form. -/
def State.MemoryCanonical (s : State) : Prop := s.mem.wf = true

/-- The program counter of a processor that is not halted and has no reset to serve is even (20_memory.md R68). -/
def State.PcEven (s : State) : Prop := s.run ≠ .halted → s.resetRequest = false → s.pc.getLsbD 0 = false

/-- The part of the state that only supervisor state may change (10_state.md R30, R32, 60_exceptions.md R452): T, the mask and
the supervisor stack pointer. -/
def State.SupervisorPart (s t : State) : Prop := t.trace = s.trace ∧ t.mask = s.mask ∧ t.ssp = s.ssp

/-- The acts of other agents that remain: the first ones are done, and the next one may be due sooner. -/
def Later (before after : List Outside) : Prop :=
  after = [] ∨ ∃ n m act rest, (⟨n + m, act⟩ :: rest) <:+ before ∧ after = ⟨n, act⟩ :: rest

/-- The inputs of the environment after a step: unchanged, but that the acts of other agents pass, that the RESET instruction
may put the map of `resetLine` in place, and that a reset is requested only by an act. -/
def State.InputsFollow (s t : State) : Prop :=
  t.irqLevel = s.irqLevel ∧ t.ack = s.ack ∧ t.haltPin = s.haltPin ∧ t.resetLine = s.resetLine ∧
    (t.map = s.map ∨ s.resetLine = some t.map) ∧ Later s.outside t.outside ∧
    (t.resetRequest = true → ∃ n, ⟨n, .reset⟩ ∈ s.outside)

end Sys2Proof.Machine
end

