-- ==== Sys2Proof/Certificates/Slice0/Obligations.lean ====
section
/-! DEFINITION. The statements about the model that the provers settle. Instruction statements are about plain memory and
aligned operands; the expected state is written relative to the state before, so it is also the frame: every register, flag,
byte of memory and input that it does not change is as before. -/

open Sys2Proof Sys2Proof.Machine

/-! ## Encoding -/

/-- Operation words written out from the encodings of the rules of 41 to 49 decode to their instructions: `ADD.W #$64,D2`
(R190), `MOVE.W (A3),D1` (R170), `CLR.W $12(A2)` (R209), `LEA -$6F(A0,A1.L),A2` (R300), `BNE` with a word displacement (R272),
`LSR.B #1,D0` (R234), `ABCD D1,D0` (R320), `BTST #3,D0` (R330), `EORI #$2000,SR` (R261), `MOVEM.L (A7)+,D0-D7/A0-A6`
(R341). -/
def Obligations.DecodeExamples : Prop :=
  decodeWords [0xD47C, 0x0064] = .ok (.addToReg .w (.imm (.w 0x0064)) 2, []) ∧
  decodeWords [0x3213] = .ok (.moveW (.ind 3) (.dreg 1), []) ∧
  decodeWords [0x426A, 0x0012] = .ok (.clr .w (.disp 2 0x0012), []) ∧
  decodeWords [0x45F0, 0x9891] = .ok (.lea 2 (.index 0 ⟨.a 1, true, 0x91⟩), []) ∧
  decodeWords [0x6600, 0x0010] = .ok (.bcc .ne (.word 0x0010), []) ∧
  decodeWords [0xE208] = .ok (.lsrReg .b (.imm 1) 0, []) ∧
  decodeWords [0xC101] = .ok (.abcd false 0 1, []) ∧
  decodeWords [0x0800, 0x0003] = .ok (.btstImm 3 (.dreg 0), []) ∧
  decodeWords [0x0A7C, 0x2000] = .ok (.eoriToSr 0x2000, []) ∧
  decodeWords [0x4CDF, 0x7FFF] = .ok (.movemToReg .l 0x7FFF (.postInc 7), [])

/-- Decoding an encoded well-formed instruction, whatever words follow it, gives the instruction and leaves those words. -/
def Obligations.DecodeEncode : Prop :=
  ∀ (i : Instr) (rest : List Word), i.wellFormed = true → decodeWords (encode i ++ rest) = .ok (i, rest)

/-- The decoder gives well-formed instructions only: no operand form that the tables exclude gets past it. -/
def Obligations.DecodeWellFormed : Prop :=
  ∀ (ws rest : List Word) (i : Instr), decodeWords ws = .ok (i, rest) → i.wellFormed = true

/-! ## The step -/

/-- At a boundary where nothing else is due, a step runs the instruction that the words at the program counter decode to;
the level 7 edge memory is first cleared if the level is below 7 (60_exceptions.md R446). In plain memory those words are the two
of the queue and the three after them in memory: the model's choice (log entry 4). -/
def Obligations.StepRunsDecoded : Prop :=
  ∀ s : State,
    let s' : State := { s with l7Seen := s.l7Seen && s.irqLevel == 7 }
    (∀ (i : Instr) (rest : List Word),
      s.resetRequest = false → s.haltPin = false → s.run = .running → s.tracePending = false →
      s.irqLevel ≤ s.mask → ¬ (s.irqLevel = 7 ∧ s.l7Seen = false) →
      s.pc.getLsbD 0 = false → decodeWords s'.instrWords = .ok (i, rest) → step s = exec i s') ∧
    (s.Plain → s'.instrWords = [s.q0, s.q1, s.wordAt 0 (s.pc + 4), s.wordAt 0 (s.pc + 6), s.wordAt 0 (s.pc + 8)])

/-- At such a boundary a word that matches no instruction takes the illegal instruction exception, and nothing else
(60_exceptions.md R413). The pattern of `BTST Dn,#imm` does that, or tests the bit: the two treatments that
93_implementation_defined.md U4 names, freely, the model's choice (log entry 26). -/
def Obligations.IllegalWordTraps : Prop :=
  (∀ (dn : RegNum) (w : Word) (rest : List Word),
    decodeWords ((0x013C + BitVec.ofNat 16 (512 * dn.val)) :: w :: rest) = .error (.btstImmediate dn (w.setWidth 8))) ∧
  ∀ s : State,
    let s' : State := { s with l7Seen := s.l7Seen && s.irqLevel == 7 }
    s.resetRequest = false → s.haltPin = false → s.run = .running → s.tracePending = false →
    s.irqLevel ≤ s.mask → ¬ (s.irqLevel = 7 ∧ s.l7Seen = false) →
    s.pc.getLsbD 0 = false → s'.EntryReady 4 s.pc s.sr none →
      (decodeWords s'.instrWords = .error .illegal → Enters (step s) s' 4 s.pc s.sr none false) ∧
      ∀ (dn : RegNum) (b : Byte), decodeWords s'.instrWords = .error (.btstImmediate dn b) →
        Enters (step s) s' 4 s.pc s.sr none false ∨ step s = exec (.btstReg dn (.imm (.b b))) s'

/-- An accepted interrupt (above the mask, or level 7 not yet seen) is entered instead of the next instruction, also from
the stopped state: SR and the next PC are saved, the mask becomes the level, and the vector is the device's byte, the
autovector 24 + level, or 24 on a bus error (60_exceptions.md R423 to R426, R445 to R447). -/
def Obligations.InterruptEntry : Prop :=
  ∀ (s : State) (vec : Nat),
    s.resetRequest = false → s.haltPin = false → s.run ≠ .halted → s.tracePending = false →
    (s.mask < s.irqLevel ∨ (s.irqLevel = 7 ∧ s.l7Seen = false)) →
    vec = (match s.ack with | .vector n => n.toNat | .autovector => 24 + s.irqLevel.toNat | .busError => 24) →
    ({ s with l7Seen := s.irqLevel == 7 } : State).EntryReady vec s.pc s.sr (some s.irqLevel) →
    Enters (step s) { s with l7Seen := s.irqLevel == 7 } vec s.pc s.sr (some s.irqLevel) false

/-- A trace exception that is due is entered before any interrupt, with the PC of the next instruction and the SR as it is
(60_exceptions.md R448, R449). -/
def Obligations.TraceEntry : Prop :=
  ∀ s : State,
    s.resetRequest = false → s.haltPin = false → s.run ≠ .halted → s.tracePending = true →
    s.EntryReady 9 s.pc s.sr none → Enters (step s) s 9 s.pc s.sr none false

/-- Reset processing: SSP and PC from vectors 0 and 1, S = 1, T = 0, mask 7, running, the queue filled from the new PC; the
registers and memory as they were (R471: "everything else: unchanged from whatever it was"; log entry 32). An odd initial PC
is a double fault (70_reset_and_hazards.md R471). -/
def Obligations.ResetProcessing : Prop :=
  ∀ s : State, s.resetRequest = true → s.Plain →
    ((s.load .l 4).getLsbD 0 = true → ∃ t, step s = .next t ∧ t.run = .halted) ∧
    ((s.load .l 4).getLsbD 0 = false → ∃ t, step s = .next t ∧
      t.settled = ({ s with ssp := s.load .l 0, super := true, trace := false, mask := 7, run := .running, l7Seen := false,
                            resetRequest := false } : State).settled ∧
      t.pc = s.load .l 4 ∧ t.q0 = s.wordAt 0 (s.load .l 4) ∧ t.q1 = s.wordAt 0 (s.load .l 4 + 2) ∧ t.tracePending = false)

/-- A halted processor and one held by the HALT pin do nothing until a reset is requested; a stopped one does nothing but follow
the level 7 edge while no request is accepted (60_exceptions.md R432, R447, R461, 10_state.md R39). Another master may write
memory meanwhile, and between the two cycles of a long word (20_memory.md R74, R80). That its write is due after a count of
cycles is the model's form (log entry 11), and that the high word of a read is the first of the two is the order the model takes
(R71; 93_implementation_defined.md U12 allows either; log entry 21). -/
def Obligations.WaitingStates : Prop :=
  ∀ s : State,
    (s.resetRequest = false →
      let waits := s.run = .halted ∨ s.haltPin = true
      (s.outside = [] → (waits → step s = .next s) ∧
        (s.run = .stopped → s.haltPin = false → s.tracePending = false → s.irqLevel ≤ s.mask →
          ¬ (s.irqLevel = 7 ∧ s.l7Seen = false) → step s = .next { s with l7Seen := s.l7Seen && s.irqLevel == 7 })) ∧
      ∀ (addr : Long) (v : Byte), s.outside = [⟨0, .dmaWrite 0 addr v⟩] → waits →
        step s = .next { s.storeByte 0 addr v with
          outside := [], events := .dmaWrite 0 (addr.toNat % 2 ^ 24) v :: s.events }) ∧
    ∀ (addr x : Long) (v : Byte) (fc : FC), s.map = [] → s.outside = [⟨1, .dmaWrite 0 x v⟩] → addr.getLsbD 0 = false →
      ∃ t, memRead .l addr fc s = .ok (s.wordAt 0 addr ++ (s.storeByte 0 x v).wordAt 0 (addr + 2)) t ∧
        t.mem = (s.storeByte 0 x v).mem

/-! ## Invariants -/

/-- The state after reset meets the invariants; its memory and its PC are the model's choice (log entries 1 and 3). -/
def Obligations.ResetInvariants : Prop :=
  State.reset.MemoryCanonical ∧ State.reset.PcEven

/-- Every step keeps memory in its canonical form. -/
def Obligations.StepKeepsMemory : Prop :=
  ∀ s t : State, s.MemoryCanonical → step s = .next t → t.MemoryCanonical

/-- Every step keeps the program counter even, except that it may halt the processor or leave a reset to be served. -/
def Obligations.StepKeepsPcEven : Prop :=
  ∀ s t : State, s.PcEven → step s = .next t → t.PcEven

/-- No step taken in user state changes T, the interrupt mask or the supervisor stack pointer, unless it ends in supervisor
state (10_state.md R30, R32, R453). -/
def Obligations.UserIsolation : Prop :=
  ∀ s t : State, s.super = false → step s = .next t → t.super = true ∨ s.SupervisorPart t

/-- No step changes an input of the environment, except that the acts of other agents pass, that a reset is requested only by one
of them and otherwise served, and that the RESET instruction may put another map in place. -/
def Obligations.InputsKept : Prop :=
  ∀ s t : State, step s = .next t → s.InputsFollow t

/-! ## Memory and operands -/

/-- An operand stored in canonical memory reads back, its high-order byte lies at its lowest address, and every byte outside
it reads as before (20_memory.md R65). -/
def Obligations.StoreFrame : Prop :=
  ∀ (s : State) (sz : Size) (pushed : Bool) (addr v : Long), s.MemoryCanonical →
    (s.store sz pushed addr v).load sz addr = trunc sz v ∧
    (s.store sz pushed addr v).byteAt addr = BitVec.ofNat 8 ((trunc sz v).toNat / 2 ^ (sz.bits - 8)) ∧
    ∀ k, k ∉ occupied sz addr → (s.store sz pushed addr v).mem.readByte k = s.mem.readByte k

/-- What each of the twelve addressing modes reads in plain memory, and which register it changes
(40_addressing_modes.md R141 to R152, 30_encoding.md R106). -/
def Obligations.OperandModes : Prop :=
  ∀ (s : State) (sz : Size), s.Plain →
    let reads (ea : EA) (v : Long) (t : State) (k : Nat) : Prop :=
      ∃ u, fetchOperand sz ea s = .ok v u ∧ u.settled = t.settled ∧ u.pc = s.pc + BitVec.ofNat 32 (2 * k)
    let step (n : RegNum) : Long := if n = 7 ∧ sz = .b then 2 else BitVec.ofNat 32 sz.bytes
    let even (addr : Long) : Prop := misaligned sz addr = false
    (∀ n, reads (.dreg n) (trunc sz s.d[n.val]) s 0) ∧
    (∀ n, reads (.areg n) (trunc sz (s.areg n)) s 0) ∧
    (∀ n, even (s.areg n) → reads (.ind n) (s.load sz (s.areg n)) s 0) ∧
    (∀ n, even (s.areg n) →
      reads (.postInc n) (s.load sz (s.areg n)) (s.setAreg n (s.areg n + step n)) 0) ∧
    (∀ n, even (s.areg n - step n) →
      reads (.preDec n) (s.load sz (s.areg n - step n)) (s.setAreg n (s.areg n - step n)) 0) ∧
    (∀ n d, even (s.areg n + d.signExtend 32) → reads (.disp n d) (s.load sz (s.areg n + d.signExtend 32)) s 1) ∧
    (∀ n (x : Index), let addr := s.areg n + s.indexValue x; even addr → reads (.index n x) (s.load sz addr) s 1) ∧
    (∀ w : Word, even (w.signExtend 32) → reads (.absW w) (s.load sz (w.signExtend 32)) s 1) ∧
    (∀ l, even l → reads (.absL l) (s.load sz l) s 2) ∧
    (∀ d, even (s.pc + d.signExtend 32) → reads (.pcDisp d) (s.load sz (s.pc + d.signExtend 32)) s 1) ∧
    (∀ x : Index, let addr := s.pc + s.indexValue x; even addr → reads (.pcIndex x) (s.load sz addr) s 1) ∧
    (∀ i : Imm, i.size = sz → reads (.imm i) (immValue i) s i.words.length)

/-! ## Results and condition codes -/

/-- Carry and overflow of an addition and a subtraction with extend at a size: the result is exact but for a carry or borrow of
`2^bits`, and V says that the signed result does not fit (00_scope.md R10, 10_state.md R33). -/
def Obligations.SumMeaning : Prop :=
  ∀ (sz : Size) (d a : Long) (x : Bool),
    let t := addAt sz (trunc sz d) (trunc sz a) x
    let u := subAt sz (trunc sz d) (trunc sz a) x
    let sum : Int := signedOf sz d + signedOf sz a + x.toNat
    let difference : Int := signedOf sz d - signedOf sz a - x.toNat
    t.r.toNat + (if t.carry then 2 ^ sz.bits else 0) = (trunc sz d).toNat + (trunc sz a).toNat + x.toNat ∧
    t.r.toNat < 2 ^ sz.bits ∧
    (t.overflow = false ↔ signedOf sz t.r = sum) ∧
    (t.overflow = true ↔ sum < -2 ^ (sz.bits - 1) ∨ 2 ^ (sz.bits - 1) ≤ sum) ∧
    u.r.toNat + (trunc sz a).toNat + x.toNat = (trunc sz d).toNat + (if u.carry then 2 ^ sz.bits else 0) ∧
    u.r.toNat < 2 ^ sz.bits ∧
    (u.overflow = false ↔ signedOf sz u.r = difference) ∧
    (u.overflow = true ↔ difference < -2 ^ (sz.bits - 1) ∨ 2 ^ (sz.bits - 1) ≤ difference)

/-- The sixteen conditions: their codes, their tests, and that Bcc has no T and no F, whose words are BRA and BSR. After a
comparison of `d` with `a` at a size each ordering says what its name says of them, unsigned or signed
(45_program_control.md R271). -/
def Obligations.Conditions : Prop :=
  (List.range 16).map condOf = [.t, .f, .hi, .ls, .cc, .cs, .ne, .eq, .vc, .vs, .pl, .mi, .ge, .lt, .gt, .le] ∧
  (∀ f : CCR,
    condHolds f .t = true ∧ condHolds f .f = false ∧
    (condHolds f .hi = true ↔ f.c = false ∧ f.z = false) ∧ (condHolds f .ls = true ↔ f.c = true ∨ f.z = true) ∧
    (condHolds f .cc = true ↔ f.c = false) ∧ (condHolds f .cs = true ↔ f.c = true) ∧
    (condHolds f .ne = true ↔ f.z = false) ∧ (condHolds f .eq = true ↔ f.z = true) ∧
    (condHolds f .vc = true ↔ f.v = false) ∧ (condHolds f .vs = true ↔ f.v = true) ∧
    (condHolds f .pl = true ↔ f.n = false) ∧ (condHolds f .mi = true ↔ f.n = true) ∧
    (condHolds f .ge = true ↔ f.n = f.v) ∧ (condHolds f .lt = true ↔ f.n ≠ f.v) ∧
    (condHolds f .gt = true ↔ f.z = false ∧ f.n = f.v) ∧ (condHolds f .le = true ↔ f.z = true ∨ f.n ≠ f.v)) ∧
  (∀ (cond : Cond) (d : Disp), (Instr.bcc cond d).wellFormed = true → cond ≠ .t ∧ cond ≠ .f) ∧
  decodeWords [0x6002] = .ok (.bra (.short 2), []) ∧ decodeWords [0x6102] = .ok (.bsr (.short 2), []) ∧
  ∀ (sz : Size) (f : CCR) (d a : Long),
    let g := compareFlags sz f (trunc sz d) (trunc sz a)
    let du := (trunc sz d).toNat
    let au := (trunc sz a).toNat
    g.x = f.x ∧
    condHolds g .eq = decide (du = au) ∧ condHolds g .ne = decide (du ≠ au) ∧
    condHolds g .hi = decide (au < du) ∧ condHolds g .ls = decide (du ≤ au) ∧
    condHolds g .cc = decide (au ≤ du) ∧ condHolds g .cs = decide (du < au) ∧
    condHolds g .gt = decide (signedOf sz a < signedOf sz d) ∧ condHolds g .le = decide (signedOf sz d ≤ signedOf sz a) ∧
    condHolds g .ge = decide (signedOf sz a ≤ signedOf sz d) ∧ condHolds g .lt = decide (signedOf sz d < signedOf sz a)

/-- What the shifts and rotates compute, as arithmetic and as places of bits (43_shift_rotate.md R230 to R236, R238,
47_extended_precision_bcd.md R313, R314): products and quotients by powers of two; rotation of the operand, or of the ring of
the operand and X; the last bit out in C, and in X for all but ROL and ROR; N and Z from the result; V only from ASL; and a count
of zero. -/
def Obligations.ShiftMeaning : Prop :=
  ∀ (sz : Size) (d : Long) (f : CCR) (cnt : Nat),
    let v := trunc sz d
    let run (op : ShiftOp) : Long × CCR := aluShift op sz cnt f v
    let ring (j : Nat) : Bool := if j = sz.bits then f.x else v.getLsbD j
    (run .lsl).1.toNat = v.toNat * 2 ^ cnt % 2 ^ sz.bits ∧
    (run .asl).1 = (run .lsl).1 ∧
    ((run .asl).2.v = true ↔
      signedOf sz v * 2 ^ cnt < -2 ^ (sz.bits - 1) ∨ (2 : Int) ^ (sz.bits - 1) ≤ signedOf sz v * 2 ^ cnt) ∧
    (run .lsr).1.toNat = v.toNat / 2 ^ cnt ∧
    signedOf sz (run .asr).1 = signedOf sz v / 2 ^ cnt ∧
    (∀ i < sz.bits, (run .rol).1.getLsbD i = v.getLsbD ((i + sz.bits - cnt % sz.bits) % sz.bits) ∧
      (run .ror).1.getLsbD i = v.getLsbD ((i + cnt) % sz.bits) ∧
      (run .roxl).1.getLsbD i = ring ((i + (sz.bits + 1) - cnt % (sz.bits + 1)) % (sz.bits + 1)) ∧
      (run .roxr).1.getLsbD i = ring ((i + cnt) % (sz.bits + 1))) ∧
    (run .roxl).2.x = ring ((2 * sz.bits + 1 - cnt % (sz.bits + 1)) % (sz.bits + 1)) ∧
    (run .roxr).2.x = ring ((sz.bits + cnt) % (sz.bits + 1)) ∧
    (run .roxl).2.c = (run .roxl).2.x ∧ (run .roxr).2.c = (run .roxr).2.x ∧
    (run .rol).2.x = f.x ∧ (run .ror).2.x = f.x ∧
    (0 < cnt → (run .lsl).2.c = decide (v.toNat * 2 ^ cnt / 2 ^ sz.bits % 2 = 1) ∧ (run .lsl).2.x = (run .lsl).2.c ∧
      (run .lsr).2.c = decide (v.toNat / 2 ^ (cnt - 1) % 2 = 1) ∧ (run .lsr).2.x = (run .lsr).2.c ∧
      (run .asl).2.c = (run .lsl).2.c ∧ (run .asl).2.x = (run .asl).2.c ∧
      (run .asr).2.c = decide (signedOf sz v / 2 ^ (cnt - 1) % 2 = 1) ∧ (run .asr).2.x = (run .asr).2.c ∧
      (run .rol).2.c = (run .rol).1.getLsbD 0 ∧ (run .ror).2.c = (run .ror).1.getLsbD (sz.bits - 1)) ∧
    (cnt < sz.bits → (run .rol).1 = (aluShift .ror sz (sz.bits - cnt) f v).1) ∧
    ∀ op : ShiftOp,
      (run op).1.toNat < 2 ^ sz.bits ∧ (run op).2.n = (run op).1.getLsbD (sz.bits - 1) ∧ (run op).2.z = ((run op).1 == 0) ∧
      (op ≠ .asl → (run op).2.v = false) ∧
      (cnt = 0 → (run op).1 = v ∧ (run op).2.x = f.x ∧ (run op).2.v = false ∧
        (run op).2.c = if op = .roxl ∨ op = .roxr then f.x else false)

/-! ## Integer arithmetic -/

/-- ADD and SUB, `<ea>,Dn` and `Dn,<ea>` (42_integer_arithmetic.md R190, R194, R198, R199). -/
def Obligations.AddSub : Prop :=
  ∀ (s : State) (sz : Size) (ea : EA) (dn : RegNum), s.Ready 1 sz ea →
    let v := s.operand 1 sz ea
    let d := trunc sz s.d[dn.val]
    let toReg (r : Long) : State := (s.afterMode sz ea).setDreg dn (merge sz s.d[dn.val] r)
    let toMem (r : Long) : State := s.result 1 sz ea r
    let flags (t : Sum) : CCR := ⟨t.carry, msb sz t.r, t.r == 0, t.overflow, t.carry⟩
    let sum := addAt sz d v false
    let into := addAt sz v d false
    let minus := subAt sz d v false
    let back := subAt sz v d false
    Completes (.addToReg sz ea dn) s ((toReg sum.r).setFlags (flags sum)) ∧
    Completes (.subToReg sz ea dn) s ((toReg minus.r).setFlags (flags minus)) ∧
    Completes (.addToMem sz dn ea) s ((toMem into.r).setFlags (flags into)) ∧
    Completes (.subToMem sz dn ea) s ((toMem back.r).setFlags (flags back))

/-- ADDI, SUBI and CMPI: the destination's extension words follow the immediate's (R191, R195, R202). -/
def Obligations.AddSubCmpImm : Prop :=
  ∀ (s : State) (i : Imm) (dst : EA), s.Ready (1 + i.words.length) i.size dst →
    let d := s.operand (1 + i.words.length) i.size dst
    let t := addAt i.size d (immValue i) false
    let u := subAt i.size d (immValue i) false
    Completes (.addi i dst) s ((s.result (1 + i.words.length) i.size dst t.r).setFlags
      ⟨t.carry, msb i.size t.r, t.r == 0, t.overflow, t.carry⟩) ∧
    Completes (.subi i dst) s ((s.result (1 + i.words.length) i.size dst u.r).setFlags
      ⟨u.carry, msb i.size u.r, u.r == 0, u.overflow, u.carry⟩) ∧
    Completes (.cmpi i dst) s ((s.afterMode i.size dst).setFlags
      ⟨s.ccr.x, msb i.size u.r, u.r == 0, u.overflow, u.carry⟩)

/-- ADDQ and SUBQ: the constant 0 stands for 8; on an address register all 32 bits and no flag (R193, R197). -/
def Obligations.Quick : Prop :=
  ∀ (s : State) (q : Fin 8) (sz : Size) (dst : EA), s.Ready 1 sz dst →
    let k : Long := if q = 0 then 8 else BitVec.ofNat 32 q.val
    (∀ n, dst = .areg n →
      Completes (.addq q sz dst) s (s.setAreg n (s.areg n + k)) ∧
      Completes (.subq q sz dst) s (s.setAreg n (s.areg n - k))) ∧
    ((∀ n, dst ≠ .areg n) →
      let d := s.operand 1 sz dst
      let t := addAt sz d k false
      let u := subAt sz d k false
      Completes (.addq q sz dst) s ((s.result 1 sz dst t.r).setFlags
        ⟨t.carry, msb sz t.r, t.r == 0, t.overflow, t.carry⟩) ∧
      Completes (.subq q sz dst) s ((s.result 1 sz dst u.r).setFlags
        ⟨u.carry, msb sz u.r, u.r == 0, u.overflow, u.carry⟩))

/-- ADDA, SUBA, CMPA and MOVEA: the source is sign-extended and acts on all 32 bits; only CMPA sets flags (R192, R196, R201,
41_data_movement.md R171). -/
def Obligations.AddressArithmetic : Prop :=
  ∀ (s : State) (sz : WSize) (an : RegNum) (src : EA), s.Ready 1 sz.size src →
    let v := sext sz.size (s.operand 1 sz.size src)
    let s' := s.afterMode sz.size src
    let u := subAt .l (s'.areg an) v false
    Completes (.adda sz an src) s (s'.setAreg an (s'.areg an + v)) ∧
    Completes (.suba sz an src) s (s'.setAreg an (s'.areg an - v)) ∧
    Completes (.cmpa sz an src) s (s'.setFlags ⟨s.ccr.x, u.r.msb, u.r == 0, u.overflow, u.carry⟩) ∧
    Completes (match sz with | .w => .moveaW an src | .l => .moveaL an src) s (s'.setAreg an v)

/-- CMP, CMPM and TST store nothing (R200, R203, R204). -/
def Obligations.CompareAndTest : Prop :=
  ∀ (s : State) (sz : Size), s.Plain →
    (∀ (src : EA) (dn : RegNum), s.Ready 1 sz src →
      let u := subAt sz (trunc sz s.d[dn.val]) (s.operand 1 sz src) false
      Completes (.cmp sz src dn) s ((s.afterMode sz src).setFlags
        ⟨s.ccr.x, msb sz u.r, u.r == 0, u.overflow, u.carry⟩)) ∧
    (∀ x y : RegNum, s.Ready 1 sz (.postInc y) → (s.afterMode sz (.postInc y)).Ready 1 sz (.postInc x) →
      let s' := s.afterMode sz (.postInc y)
      let u := subAt sz (s'.operand 1 sz (.postInc x)) (s.operand 1 sz (.postInc y)) false
      Completes (.cmpm sz x y) s ((s'.afterMode sz (.postInc x)).setFlags
        ⟨s.ccr.x, msb sz u.r, u.r == 0, u.overflow, u.carry⟩)) ∧
    (∀ dst : EA, s.Ready 1 sz dst →
      let v := s.operand 1 sz dst
      Completes (.tst sz dst) s ((s.afterMode sz dst).setFlags ⟨s.ccr.x, msb sz v, v == 0, false, false⟩))

/-- NEG, NEGX and CLR (R208, R209, 47_extended_precision_bcd.md R312). -/
def Obligations.OneOperand : Prop :=
  ∀ (s : State) (sz : Size) (dst : EA), s.Ready 1 sz dst →
    let d := s.operand 1 sz dst
    let u := subAt sz 0 d false
    let w := subAt sz 0 d s.ccr.x
    Completes (.neg sz dst) s ((s.result 1 sz dst u.r).setFlags
      ⟨decide (d ≠ 0), msb sz u.r, u.r == 0, u.overflow, decide (d ≠ 0)⟩) ∧
    Completes (.negx sz dst) s ((s.result 1 sz dst w.r).setFlags
      ⟨w.carry, msb sz w.r, s.ccr.z && w.r == 0, w.overflow, w.carry⟩) ∧
    Completes (.clr sz dst) s ((s.result 1 sz dst 0).setFlags ⟨s.ccr.x, false, true, false, false⟩)

/-- MULU and MULS: the exact product of two words, whole in the register (R206, R207). -/
def Obligations.Multiply : Prop :=
  ∀ (s : State) (dn : RegNum) (src : EA), s.Ready 1 .w src →
    let a := lowWord (s.operand 1 .w src)
    let d := lowWord s.d[dn.val]
    (∃ r : Long, r.toNat = d.toNat * a.toNat ∧
      Completes (.mulu dn src) s (((s.afterMode .w src).setDreg dn r).setFlags ⟨s.ccr.x, r.msb, r == 0, false, false⟩)) ∧
    (∃ r : Long, r.toInt = d.toInt * a.toInt ∧
      Completes (.muls dn src) s (((s.afterMode .w src).setDreg dn r).setFlags ⟨s.ccr.x, r.msb, r == 0, false, false⟩))

/-- DIVU by a divisor that is not zero: quotient and remainder, or V when the quotient does not fit, N and Z then being free
(R210, R213). -/
def Obligations.DivideUnsigned : Prop :=
  ∀ (s : State) (dn : RegNum) (src : EA), s.Ready 1 .w src → s.operand 1 .w src ≠ 0 →
    let m := (s.operand 1 .w src).toNat
    let n := s.d[dn.val].toNat
    let s' := s.afterMode .w src
    (0xFFFF < n / m → ∃ fn fz, Completes (.divu dn src) s (s'.setFlags ⟨s.ccr.x, fn, fz, true, false⟩)) ∧
    (n / m ≤ 0xFFFF → ∃ q rem : Word, q.toNat * m + rem.toNat = n ∧ rem.toNat < m ∧
      Completes (.divu dn src) s ((s'.setDreg dn (rem ++ q)).setFlags ⟨s.ccr.x, q.msb, q == 0, false, false⟩))

/-- DIVS by a divisor that is not zero: rounded toward zero, the remainder with the dividend's sign; or V (R210, R212). -/
def Obligations.DivideSigned : Prop :=
  ∀ (s : State) (dn : RegNum) (src : EA), s.Ready 1 .w src → s.operand 1 .w src ≠ 0 →
    let m := (lowWord (s.operand 1 .w src)).toInt
    let n := s.d[dn.val].toInt
    let s' := s.afterMode .w src
    (n.tdiv m < -32768 ∨ 32767 < n.tdiv m →
      ∃ fn fz, Completes (.divs dn src) s (s'.setFlags ⟨s.ccr.x, fn, fz, true, false⟩)) ∧
    (-32768 ≤ n.tdiv m ∧ n.tdiv m ≤ 32767 → ∃ q rem : Word, q.toInt = n.tdiv m ∧ rem.toInt = n - q.toInt * m ∧
      (rem.toInt = 0 ∨ (rem.toInt < 0 ↔ n < 0)) ∧
      Completes (.divs dn src) s ((s'.setDreg dn (rem ++ q)).setFlags ⟨s.ccr.x, q.msb, q == 0, false, false⟩))

/-- Division by zero traps through vector 5 with the register unchanged and the next PC saved; N, Z, V and C are then free
(R211). -/
def Obligations.DivideByZero : Prop :=
  ∀ (s : State) (dn : RegNum) (src : EA), s.Ready 1 .w src → s.operand 1 .w src = 0 →
    let s' (f : CCR) : State := (s.afterMode .w src).setFlags f
    let next : Long := s.pc + BitVec.ofNat 32 (2 * (1 + src.words.length))
    (∀ f, (s' f).EntryReady 5 next (s' f).sr none) →
    (∃ f : CCR, f.x = s.ccr.x ∧ Enters (exec (.divu dn src) s) (s' f) 5 next (s' f).sr none s.trace) ∧
    (∃ f : CCR, f.x = s.ccr.x ∧ Enters (exec (.divs dn src) s) (s' f) 5 next (s' f).sr none s.trace)

/-! ## Extended and decimal arithmetic -/

/-- ADDX and SUBX, both forms: with X, and Z only ever cleared (47_extended_precision_bcd.md R310, R311, R316). -/
def Obligations.ExtendedArithmetic : Prop :=
  ∀ (s : State) (sz : Size) (x y : RegNum), s.Plain →
    (let d := trunc sz s.d[x.val]
     let a := trunc sz s.d[y.val]
     let t := addAt sz d a s.ccr.x
     let u := subAt sz d a s.ccr.x
     Completes (.addx sz false x y) s ((s.setDreg x (merge sz s.d[x.val] t.r)).setFlags
       ⟨t.carry, msb sz t.r, s.ccr.z && t.r == 0, t.overflow, t.carry⟩) ∧
     Completes (.subx sz false x y) s ((s.setDreg x (merge sz s.d[x.val] u.r)).setFlags
       ⟨u.carry, msb sz u.r, s.ccr.z && u.r == 0, u.overflow, u.carry⟩)) ∧
    (let s' := s.afterMode sz (.preDec y)
     s.Ready 1 sz (.preDec y) → s'.Ready 1 sz (.preDec x) →
     let a := s.operand 1 sz (.preDec y)
     let d := s'.operand 1 sz (.preDec x)
     let t := addAt sz d a s.ccr.x
     let u := subAt sz d a s.ccr.x
     Completes (.addx sz true x y) s ((s'.result 1 sz (.preDec x) t.r).setFlags
       ⟨t.carry, msb sz t.r, s.ccr.z && t.r == 0, t.overflow, t.carry⟩) ∧
     Completes (.subx sz true x y) s ((s'.result 1 sz (.preDec x) u.r).setFlags
       ⟨u.carry, msb sz u.r, s.ccr.z && u.r == 0, u.overflow, u.carry⟩))

/-- ABCD, SBCD and NBCD. For valid digits the result is the decimal one and X and C its carry; Z is only ever cleared; N and V
are free. For other digits the instruction completes with some result (R320 to R323, log entry 15). -/
def Obligations.Decimal : Prop :=
  ∀ s : State, s.Plain →
    let outcome (i : Instr) (write : Long → State) (valid : Bool) (sum : Int) : Prop :=
      ∃ (r : Long) (n v c : Bool), Completes i s ((write r).setFlags ⟨c, n, s.ccr.z && r == 0, v, c⟩) ∧
        (valid = true → validBcd r = true ∧ (decOf r : Int) = sum % 100 ∧ r.toNat < 256 ∧
          c = decide (sum < 0 ∨ 99 < sum))
    let dec (v : Long) : Int := decOf v
    (∀ x y : RegNum,
      let d := trunc .b s.d[x.val]
      let a := trunc .b s.d[y.val]
      let write (r : Long) : State := s.setDreg x (merge .b s.d[x.val] r)
      outcome (.abcd false x y) write (validBcd d && validBcd a) (dec d + dec a + s.ccr.x.toNat) ∧
      outcome (.sbcd false x y) write (validBcd d && validBcd a) (dec d - dec a - s.ccr.x.toNat)) ∧
    (∀ x y : RegNum,
      let s' := s.afterMode .b (.preDec y)
      let d := s'.operand 1 .b (.preDec x)
      let a := s.operand 1 .b (.preDec y)
      let write (r : Long) : State := s'.result 1 .b (.preDec x) r
      outcome (.abcd true x y) write (validBcd d && validBcd a) (dec d + dec a + s.ccr.x.toNat) ∧
      outcome (.sbcd true x y) write (validBcd d && validBcd a) (dec d - dec a - s.ccr.x.toNat)) ∧
    (∀ dst : EA,
      let d := s.operand 1 .b dst
      outcome (.nbcd dst) (fun r => s.result 1 .b dst r) (validBcd d) (0 - dec d - s.ccr.x.toNat))

/-! ## Logic -/

/-- The logical instructions: `AND <ea>,Dn` and `OR <ea>,Dn`; AND, OR and `EOR Dn,<ea>`; NOT; ANDI, ORI and EORI. N and Z come
from the result, V and C are cleared, X is unchanged (44_logic.md R263, with R250 to R255 and R262). -/
def Obligations.Logic : Prop :=
  ∀ s : State,
    let flags (sz : Size) (r : Long) : CCR := ⟨s.ccr.x, msb sz r, r == 0, false, false⟩
    (∀ (sz : Size) (ea : EA) (dn : RegNum), s.Ready 1 sz ea →
      let v := s.operand 1 sz ea
      let d := trunc sz s.d[dn.val]
      let toReg (r : Long) : State := ((s.afterMode sz ea).setDreg dn (merge sz s.d[dn.val] r)).setFlags (flags sz r)
      let toEa (r : Long) : State := (s.result 1 sz ea r).setFlags (flags sz r)
      Completes (.andToReg sz ea dn) s (toReg (d &&& v)) ∧ Completes (.orToReg sz ea dn) s (toReg (d ||| v)) ∧
      Completes (.andToMem sz dn ea) s (toEa (v &&& d)) ∧ Completes (.orToMem sz dn ea) s (toEa (v ||| d)) ∧
      Completes (.eor sz dn ea) s (toEa (v ^^^ d)) ∧ Completes (.not sz ea) s (toEa (trunc sz (~~~v)))) ∧
    (∀ (i : Imm) (dst : EA), s.Ready (1 + i.words.length) i.size dst →
      let d := s.operand (1 + i.words.length) i.size dst
      let toEa (r : Long) : State := (s.result (1 + i.words.length) i.size dst r).setFlags (flags i.size r)
      Completes (.andi i dst) s (toEa (d &&& immValue i)) ∧ Completes (.ori i dst) s (toEa (d ||| immValue i)) ∧
      Completes (.eori i dst) s (toEa (d ^^^ immValue i)))

/-! ## Data movement -/

/-- MOVE.B, MOVE.W and MOVE.L: the source is read before the destination is resolved; N and Z from the value, V and C
cleared. Not for MOVE.L of an address register through itself adjusted (41_data_movement.md R170,
40_addressing_modes.md R157). -/
def Obligations.Move : Prop :=
  ∀ (s : State) (sz : Size) (src dst : EA),
    let s' := s.afterMode sz src
    let k := 1 + src.words.length
    s.Ready 1 sz src → s'.Ready k sz dst →
    ¬ (sz = .l ∧ ∃ n, src = .areg n ∧ (dst = .postInc n ∨ dst = .preDec n)) →
    let v := s.operand 1 sz src
    Completes (moveInstr sz src dst) s ((s'.result k sz dst v).setFlags ⟨s.ccr.x, msb sz v, v == 0, false, false⟩)

/-- MOVE.L An,(An)+ and MOVE.L An,-(An) complete; what is stored is the old or the adjusted register (the model's choice of a
free value: log entry 18). -/
def Obligations.MoveSelfAdjusted : Prop :=
  ∀ (s : State) (n : RegNum) (dst : EA), dst = .postInc n ∨ dst = .preDec n → s.Ready 1 .l dst →
    ∃ v : Long, (v = s.areg n ∨ v = (s.afterMode .l dst).areg n) ∧
      Completes (.moveL (.areg n) dst) s ((s.result 1 .l dst v).setFlags ⟨s.ccr.x, v.msb, v == 0, false, false⟩)

/-- MOVEQ, SWAP, EXT and the three forms of EXG (R177 to R179, 42_integer_arithmetic.md R205). -/
def Obligations.RegisterOnly : Prop :=
  ∀ (s : State) (x y : RegNum), s.Plain →
    let flags (r : Long) : CCR := ⟨s.ccr.x, r.msb, r == 0, false, false⟩
    (∀ b : Byte, Completes (.moveq x b) s ((s.setDreg x (b.signExtend 32)).setFlags (flags (b.signExtend 32)))) ∧
    (let r := lowWord s.d[x.val] ++ highWord s.d[x.val]
     Completes (.swap x) s ((s.setDreg x r).setFlags (flags r))) ∧
    (let w : Word := (s.d[x.val].setWidth 8).signExtend 16
     Completes (.extW x) s ((s.setDreg x (highWord s.d[x.val] ++ w)).setFlags ⟨s.ccr.x, w.msb, w == 0, false, false⟩)) ∧
    (let r : Long := (lowWord s.d[x.val]).signExtend 32
     Completes (.extL x) s ((s.setDreg x r).setFlags (flags r))) ∧
    Completes (.exgDD x y) s ((s.setDreg x s.d[y.val]).setDreg y s.d[x.val]) ∧
    Completes (.exgAA x y) s ((s.setAreg x (s.areg y)).setAreg y (s.areg x)) ∧
    Completes (.exgDA x y) s ((s.setDreg x (s.areg y)).setAreg y s.d[x.val])

/-- SR reads with T in bit 15, S in bit 13, the mask in bits 10 to 8 and X N Z V C in bits 4 to 0; MOVE from SR gives that word;
MOVE to CCR, ANDI, ORI and EORI to CCR act on bits 4 to 0 (10_state.md R28, R29, R172, R174, 44_logic.md R256, R258, R260). -/
def Obligations.StatusRegister : Prop :=
  ∀ s : State,
    let bits (b : Byte) : CCR := ⟨b.getLsbD 4, b.getLsbD 3, b.getLsbD 2, b.getLsbD 1, b.getLsbD 0⟩
    let f := s.ccr
    s.SrReads s.sr ∧ (∀ w, s.SrReads w → w = s.sr) ∧
    (∀ ea : EA, s.Ready 1 .w ea →
      Completes (.moveFromSr ea) s (s.result 1 .w ea (ofWord s.sr)) ∧
      Completes (.moveToCcr ea) s ((s.afterMode .w ea).setFlags (bits ((s.operand 1 .w ea).setWidth 8)))) ∧
    (s.Plain → ∀ b : Byte,
      let g := bits b
      Completes (.andiToCcr b) s (s.setFlags ⟨f.x && g.x, f.n && g.n, f.z && g.z, f.v && g.v, f.c && g.c⟩) ∧
      Completes (.oriToCcr b) s (s.setFlags ⟨f.x || g.x, f.n || g.n, f.z || g.z, f.v || g.v, f.c || g.c⟩) ∧
      Completes (.eoriToCcr b) s (s.setFlags ⟨f.x ^^ g.x, f.n ^^ g.n, f.z ^^ g.z, f.v ^^ g.v, f.c ^^ g.c⟩))

/-- In supervisor state: MOVE USP; and the instructions that write SR put bit 15 into T, bit 13 into S, bits 10 to 8 into the mask
and bits 4 to 0 into the condition codes (R28, R29, R175, R176, 44_logic.md R257, R259, R261). Where S stays the queue moves on;
where S is cleared it is filled again from the next instruction, in user program space (R485): the model's choice (log
entry 29). -/
def Obligations.SupervisorMoves : Prop :=
  ∀ (s : State) (sr : Word), s.super = true → s.Plain → s.SrReads sr →
    (∀ an : RegNum,
      Completes (.moveToUsp an) s { s with usp := s.areg an } ∧ Completes (.moveFromUsp an) s (s.setAreg an s.usp)) ∧
    (let writes (i : Instr) (s' : State) (w : Word) : Prop :=
        (w.getLsbD 13 = true → Completes i s (s'.withSr w)) ∧
        (w.getLsbD 13 = false → s.pc.getLsbD 0 = false →
          TransfersTo i s (s'.withSr w) (s.pc + BitVec.ofNat 32 (2 * (encode i).length)))
     (∀ src : EA, s.Ready 1 .w src →
       writes (.moveToSr src) (s.afterMode .w src) (lowWord (s.operand 1 .w src))) ∧
     (∀ w : Word, writes (.andiToSr w) s (sr &&& w) ∧ writes (.oriToSr w) s (sr ||| w) ∧
       writes (.eoriToSr w) s (sr ^^^ w)))

/-- LEA and PEA: the address itself, computed before the stack pointer moves, odd or not
(46_lea_pea_position_independent.md R300, R301). -/
def Obligations.LoadAddress : Prop :=
  ∀ (s : State) (an : RegNum) (src : EA) (sp : Space) (addr : Long) (p : Bool),
    s.Plain → src.mode.isControl = true → s.locAt 1 .l src = .mem sp addr p →
    Completes (.lea an src) s (s.setAreg an addr) ∧
    ((s.areg 7).getLsbD 0 = false → Completes (.pea src) s (s.pushed32 addr))

/-! ## Shifts and bits -/

/-- Shifts and rotates: of a data register by a constant 1 to 8 or by a data register modulo 64, and of a word in memory by one
bit (43_shift_rotate.md R230, R237). -/
def Obligations.Shifts : Prop :=
  ∀ (s : State) (op : ShiftOp), s.Plain →
    (∀ (sz : Size) (c : Count) (dn : RegNum),
      let cnt := match c with | .imm q => if q = 0 then 8 else q.val | .reg n => s.d[n.val].toNat % 64
      let r := aluShift op sz cnt s.ccr (trunc sz s.d[dn.val])
      Completes (shiftInstr op sz c dn) s ((s.setDreg dn (merge sz s.d[dn.val] r.1)).setFlags r.2)) ∧
    (∀ dst : EA, s.Ready 1 .w dst →
      let r := aluShift op .w 1 s.ccr (s.operand 1 .w dst)
      Completes (shiftMemInstr op dst) s ((s.result 1 .w dst r.1).setFlags r.2))

/-- BTST, BCHG, BCLR and BSET, static and dynamic: bit number modulo 32 on a data register and modulo 8 in memory; Z from the
bit before the change, no other flag (48_bit_manipulation.md R330 to R334). -/
def Obligations.BitInstructions : Prop :=
  ∀ (s : State) (dst : EA), s.Plain →
    let sz := match dst with | .dreg _ => Size.l | _ => Size.b
    let bits := match dst with | .dreg _ => 32 | _ => 8
    let all (k : Nat) (number : Nat) (test change clear set : Instr) : Prop :=
      let n := number % bits
      let v := s.operand k sz dst
      let f : CCR := { s.ccr with z := !v.getLsbD n }
      Completes test s ((s.afterMode sz dst).setFlags f) ∧
      Completes change s ((s.result k sz dst (v ^^^ 1#32 <<< n)).setFlags f) ∧
      Completes clear s ((s.result k sz dst (v &&& ~~~(1#32 <<< n))).setFlags f) ∧
      Completes set s ((s.result k sz dst (v ||| 1#32 <<< n)).setFlags f)
    (∀ b : Byte, s.Ready 2 sz dst → all 2 b.toNat (.btstImm b dst) (.bchgImm b dst) (.bclrImm b dst) (.bsetImm b dst)) ∧
    (∀ dn : RegNum, s.Ready 1 sz dst →
      all 1 s.d[dn.val].toNat (.btstReg dn dst) (.bchgReg dn dst) (.bclrReg dn dst) (.bsetReg dn dst))

/-- TAS and Scc on a byte (49_special.md R344, R348). TAS in memory is one read-modify-write cycle, its last one (20_memory.md
R73); that the next instruction is fetched before it is the model's choice (log entry 5). -/
def Obligations.TestAndSet : Prop :=
  ∀ (s : State) (dst : EA), s.Ready 1 .b dst →
    let v := s.operand 1 .b dst
    Completes (.tas dst) s ((s.result 1 .b dst (v ||| 0x80)).setFlags ⟨s.ccr.x, v.getLsbD 7, v == 0, false, false⟩) ∧
    (∀ addr p, s.locAt 1 .b dst = .mem .data addr p →
      ∃ t, exec (.tas dst) s = .next t ∧ t.events.head? =
        some (.modify (addr.toNat % 2 ^ 24) (if s.super then .superData else .userData) (s.byteAt addr)
          (s.byteAt addr ||| 0x80))) ∧
    ∀ cond, Completes (.scc cond dst) s (s.result 1 .b dst (if condHolds s.ccr cond then 0xFF else 0))

/-! ## Program control -/

/-- BRA, Bcc and BSR: the displacement is relative to the word after the operation word; BSR pushes the address of the next
instruction (45_program_control.md R272 to R274). -/
def Obligations.Branches : Prop :=
  ∀ (s : State) (d : Disp), s.Plain →
    let target := s.pc + 2 + (match d with | .short b => b.signExtend 32 | .word w => w.signExtend 32)
    let next := s.pc + BitVec.ofNat 32 (2 * (1 + d.words.length))
    (target.getLsbD 0 = false →
      TransfersTo (.bra d) s s target ∧
      (∀ cond, condHolds s.ccr cond = true → TransfersTo (.bcc cond d) s s target) ∧
      ((s.areg 7).getLsbD 0 = false → TransfersTo (.bsr d) s (s.pushed32 next) target)) ∧
    (∀ cond, condHolds s.ccr cond = false → Completes (.bcc cond d) s s)

/-- JMP and JSR: to the address itself; JSR pushes the address of the next instruction (R275, R276). -/
def Obligations.Jumps : Prop :=
  ∀ (s : State) (dst : EA) (sp : Space) (addr : Long) (p : Bool),
    s.Plain → dst.mode.isControl = true → s.locAt 1 .l dst = .mem sp addr p → addr.getLsbD 0 = false →
    TransfersTo (.jmp dst) s s addr ∧
    ((s.areg 7).getLsbD 0 = false →
      TransfersTo (.jsr dst) s (s.pushed32 (s.pc + BitVec.ofNat 32 (2 * (1 + dst.words.length)))) addr)

/-- RTS, RTR and, in supervisor state, RTE, which takes T, S, the mask and the condition codes from their places in the popped word
(R277, R282, R283, R28). -/
def Obligations.Returns : Prop :=
  ∀ s : State, s.Plain → (s.areg 7).getLsbD 0 = false →
    let sp := s.areg 7
    let w := lowWord (s.load .w sp)
    ((s.load .l sp).getLsbD 0 = false → TransfersTo .rts s (s.setAreg 7 (sp + 4)) (s.load .l sp)) ∧
    ((s.load .l (sp + 2)).getLsbD 0 = false →
      TransfersTo .rtr s ((s.setAreg 7 (sp + 6)).setFlags
        ⟨w.getLsbD 4, w.getLsbD 3, w.getLsbD 2, w.getLsbD 1, w.getLsbD 0⟩) (s.load .l (sp + 2)) ∧
      (s.super = true → TransfersTo .rte s ((s.setAreg 7 (sp + 6)).withSr w) (s.load .l (sp + 2))))

/-- DBcc: the condition first, then the word counter, which ends the loop at -1 (49_special.md R345). -/
def Obligations.DecrementAndBranch : Prop :=
  ∀ (s : State) (cond : Cond) (dn : RegNum) (d : Word), s.Plain →
    let c := lowWord s.d[dn.val]
    let s' := s.setDreg dn (highWord s.d[dn.val] ++ (c - 1))
    let target := s.pc + 2 + d.signExtend 32
    (condHolds s.ccr cond = true → Completes (.dbcc cond dn d) s s) ∧
    (condHolds s.ccr cond = false → c = 0 → Completes (.dbcc cond dn d) s s') ∧
    (condHolds s.ccr cond = false → c ≠ 0 → target.getLsbD 0 = false → TransfersTo (.dbcc cond dn d) s s' target)

/-- NOP, word `$4E71`, changes nothing but the PC (R278). That the prefetch queue moves on by one word, with one read of the word
after it as the only bus cycle, is the model's choice (log entries 4 and 5; 70_reset_and_hazards.md R481). -/
def Obligations.NopAdvancesPc : Prop :=
  decodeWords [0x4E71] = .ok (.nop, []) ∧
  ∀ s : State, s.Plain →
    ∃ t, exec .nop s = .next t ∧ t.settled = s.settled ∧ t.pc = s.pc + 2 ∧ t.q0 = s.q1 ∧ t.q1 = s.wordAt 0 (s.pc + 4) ∧
      t.tracePending = s.trace ∧
      t.events = .read ((s.pc + 4).toNat % 2 ^ 24) (if s.super then .superProgram else .userProgram) .word
        (s.wordAt 0 (s.pc + 4)) :: s.events

/-- RESET, word `$4E70`, in supervisor state: no register, flag or byte of memory changes, and the next instruction follows with no
exception processing (10_state.md R41, R281). That the pulse is one event before the last fetch, and that it may put another map
in place, is the model's choice (log entry 42; 70_reset_and_hazards.md R472), and so is the queue (log entries 4 and 5). -/
def Obligations.ResetInstruction : Prop :=
  decodeWords [0x4E70] = .ok (.resetDevices, []) ∧
  ∀ s : State,
    let s' : State := { s with map := s.resetLine.getD s.map }
    s'.Plain → s.super = true →
      ∃ t, exec .resetDevices s = .next t ∧ t.settled = s'.settled ∧ t.pc = s.pc + 2 ∧ t.q0 = s.q1 ∧
        t.q1 = s.wordAt 0 (s.pc + 4) ∧ t.tracePending = s.trace ∧
        t.events = .read ((s.pc + 4).toNat % 2 ^ 24) .superProgram .word (s.wordAt 0 (s.pc + 4)) :: .resetOut :: s.events

/-- STOP in supervisor state: with S = 1 in its data it loads SR and stops after itself, its trace due when T was set (R285).
That it makes no bus cycle, so that nothing of the memory map can stop it, is the model's choice (log entry 33). With S = 0 it
is a privilege violation that saves the old SR or the data (93_implementation_defined.md U13); that the handler's mask and
condition codes go with the one saved is the model's choice (log entry 22). -/
def Obligations.Stop : Prop :=
  ∀ (s : State) (data : Word), s.super = true →
    (data.getLsbD 13 = true → ∃ t, exec (.stop data) s = .next t ∧
      t.settled = ({ s.withSr data with run := .stopped } : State).settled ∧ t.pc = s.pc + 4 ∧ t.tracePending = s.trace ∧
      t.events = s.events) ∧
    (data.getLsbD 13 = false → (∀ w, s.EntryReady 8 s.pc w none) →
      ∃ (s' : State) (w : Word), ((s' = s ∧ w = s.sr) ∨ (s' = s.withSr data ∧ w = data &&& 0xA71F)) ∧
        Enters (exec (.stop data) s) s' 8 s.pc w none false)

/-! ## Exceptions -/

/-- TRAP and TRAPV enter through their vectors with the next PC and the SR; TRAPV does so only with V = 1
(R284, R286, 60_exceptions.md R418, R420 to R422). -/
def Obligations.Traps : Prop :=
  (∀ v : Fin 16, decodeWords [0x4E40 + BitVec.ofNat 16 v.val] = .ok (.trap v, [])) ∧
  decodeWords [0x4E76] = .ok (.trapv, []) ∧
  ∀ s : State,
    (∀ v : Fin 16, s.EntryReady (32 + v.val) (s.pc + 2) s.sr none →
      Enters (exec (.trap v) s) s (32 + v.val) (s.pc + 2) s.sr none s.trace) ∧
    (s.ccr.v = true → s.EntryReady 7 (s.pc + 2) s.sr none → Enters (exec .trapv s) s 7 (s.pc + 2) s.sr none s.trace) ∧
    (s.ccr.v = false → s.Plain → Completes .trapv s s)

/-- CHK: no trap for a value from 0 to the bound; vector 6 with N = 1 below 0 and N = 0 above the bound; the other flags but X
are free (49_special.md R346). -/
def Obligations.CheckBounds : Prop :=
  ∀ (s : State) (dn : RegNum) (src : EA), s.Ready 1 .w src →
    let v := (lowWord s.d[dn.val]).toInt
    let bound := (lowWord (s.operand 1 .w src)).toInt
    let s' (f : CCR) : State := (s.afterMode .w src).setFlags f
    let next : Long := s.pc + BitVec.ofNat 32 (2 * (1 + src.words.length))
    (0 ≤ v → v ≤ bound → ∃ f : CCR, f.x = s.ccr.x ∧ Completes (.chk dn src) s (s' f)) ∧
    (v < 0 ∨ bound < v → (∀ f, (s' f).EntryReady 6 next (s' f).sr none) →
      ∃ f : CCR, f.x = s.ccr.x ∧ f.n = decide (v < 0) ∧
        Enters (exec (.chk dn src) s) (s' f) 6 next (s' f).sr none s.trace)

/-- ILLEGAL and the words of lines 1010 and 1111 do nothing but enter vectors 4, 10 and 11 with the PC of the word itself
(R413, R414, 49_special.md R349). -/
def Obligations.NotStarted : Prop :=
  decodeWords [0x4AFC] = .ok (.illegal, []) ∧
  (∀ low : BitVec 12, decodeWords [0xA#4 ++ low] = .ok (.line1010 low, []) ∧
    decodeWords [0xF#4 ++ low] = .ok (.line1111 low, [])) ∧
  ∀ (s : State) (low : BitVec 12),
    (s.EntryReady 4 s.pc s.sr none → Enters (exec .illegal s) s 4 s.pc s.sr none false) ∧
    (s.EntryReady 10 s.pc s.sr none → Enters (exec (.line1010 low) s) s 10 s.pc s.sr none false) ∧
    (s.EntryReady 11 s.pc s.sr none → Enters (exec (.line1111 low) s) s 11 s.pc s.sr none false)

/-- In user state each privileged instruction does nothing but enter vector 8 with the PC of the instruction itself
(R415, R452). -/
def Obligations.PrivilegeViolation : Prop :=
  ∀ (s : State) (i : Instr) (n : RegNum) (w : Word) (ea : EA),
    i ∈ [.resetDevices, .rte, .stop w, .oriToSr w, .moveToUsp n, .moveFromUsp n, .andiToSr w, .eoriToSr w, .moveToSr ea] →
    s.super = false → s.EntryReady 8 s.pc s.sr none → Enters (exec i s) s 8 s.pc s.sr none false

/-- What the entry of an exception leaves: S = 1, T = 0, the mask unchanged but for an interrupt, SSP down by six, the SR at
SSP and the PC above it, the user stack pointer and the registers as they were, and no other byte of memory changed
(R420, R421). -/
def Obligations.SixByteFrame : Prop :=
  ∀ (s : State) (p : Long) (w : Word) (level : Option (BitVec 3)), s.MemoryCanonical →
    let t := s.entered p w level
    t.super = true ∧ t.trace = false ∧ t.mask = level.getD s.mask ∧ t.ssp = s.ssp - 6 ∧ t.usp = s.usp ∧ t.d = s.d ∧
    t.a = s.a ∧ t.ccr = s.ccr ∧ t.run = .running ∧
    t.load .w t.ssp = ofWord w ∧ t.load .l (t.ssp + 2) = p ∧
    ∀ k, (∀ j < 6, k ≠ byteKey 0 (t.ssp + BitVec.ofNat 32 j)) → t.mem.readByte k = s.mem.readByte k

/-- A word or long word accessed at an odd address, and a fetch at an odd target, is an address error: vector 3, and a frame with
the operation word, the odd address, and a status word that tells read or write, instruction, and the space (R412, R430, R431;
20_memory.md R67, R68, 45_program_control.md R279). In turn: reads through every addressing mode (ADD); writes through every
mode (MOVE from a data register); the stack in user state (BSR, JSR, PEA, LINK, RTS, RTR); and the odd targets of BRA, Bcc, BSR,
DBcc, JMP, JSR, RTS, RTR and RTE, after the transfer's other effects. The model's choice: an adjusted register and the condition
codes may be the old or the new ones (93_implementation_defined.md U10, U11; log entries 19 and 20), and the range of the saved PC
(U15; log entry 24). -/
def Obligations.AddressError : Prop :=
  ∀ s : State, s.Plain →
    let data : BitVec 3 := if s.super then 5 else 1
    let inside (i : Instr) (s' : State) (addr : Long) (read : Bool) (fc : BitVec 3) : Prop :=
      Enters0 (exec i s) s' 3 (InsideOf s.pc) s.q0 addr read false fc
    let pushFaults (i : Instr) : Prop :=
      ∃ s', (s' = s ∨ s' = s.setAreg 7 (s.areg 7 - 4)) ∧ inside i s' (s.areg 7 - 4) false 1
    let lands (i : Instr) (s' : State) (target : Long) : Prop :=
      target.getLsbD 0 = true → s'.Ready0 3 s.q0 target →
        Enters0 (exec i s) s' 3 (NearTarget target) s.q0 target true false (if s'.super then 6 else 2)
    let next (i : Instr) : Long := s.pc + BitVec.ofNat 32 (2 * (encode i).length)
    let sp := s.areg 7
    (∀ (sz : Size) (ea : EA) (dn : RegNum) (space : Space) (addr : Long) (p : Bool), sz ≠ .b →
      s.locAt 1 sz ea = .mem space addr p → addr.getLsbD 0 = true →
      s.Ready0 3 s.q0 addr → (s.afterMode sz ea).Ready0 3 s.q0 addr →
      ∃ s', (s' = s ∨ s' = s.afterMode sz ea) ∧
        inside (.addToReg sz ea dn) s' addr true (match space with | .data => data | .program => data + 1)) ∧
    (∀ (sz : Size) (dst : EA) (m : RegNum) (addr : Long) (p : Bool) (f : CCR), sz ≠ .b →
      s.locAt 1 sz dst = .mem .data addr p → addr.getLsbD 0 = true →
      let v := trunc sz s.d[m.val]
      f = ⟨s.ccr.x, msb sz v, v == 0, false, false⟩ →
      (∀ s', s' ∈ [s, s.afterMode sz dst, s.setFlags f, (s.afterMode sz dst).setFlags f] → s'.Ready0 3 s.q0 addr) →
      ∃ s' ∈ [s, s.afterMode sz dst, s.setFlags f, (s.afterMode sz dst).setFlags f],
        inside (moveInstr sz (.dreg m) dst) s' addr false data) ∧
    (s.super = false → sp.getLsbD 0 = true →
      (s.Ready0 3 s.q0 (sp - 4) → (s.setAreg 7 (sp - 4)).Ready0 3 s.q0 (sp - 4) →
        (∀ d, pushFaults (.bsr d)) ∧ (∀ an d, pushFaults (.link an d)) ∧
        ∀ (ea : EA) (space : Space) (addr : Long) (p : Bool), ea.mode.isControl = true → s.locAt 1 .l ea = .mem space addr p →
          pushFaults (.jsr ea) ∧ pushFaults (.pea ea)) ∧
      (s.Ready0 3 s.q0 sp → inside .rts s sp true 1 ∧ inside .rtr s sp true 1)) ∧
    (∀ d : Disp,
      let target := s.pc + 2 + (match d with | .short b => b.signExtend 32 | .word w => w.signExtend 32)
      lands (.bra d) s target ∧ (∀ cond, condHolds s.ccr cond = true → lands (.bcc cond d) s target) ∧
      (sp.getLsbD 0 = false → lands (.bsr d) (s.pushed32 (next (.bsr d))) target)) ∧
    (∀ (cond : Cond) (dn : RegNum) (d : Word), condHolds s.ccr cond = false → lowWord s.d[dn.val] ≠ 0 →
      lands (.dbcc cond dn d) (s.setDreg dn (highWord s.d[dn.val] ++ (lowWord s.d[dn.val] - 1))) (s.pc + 2 + d.signExtend 32)) ∧
    (∀ (ea : EA) (space : Space) (addr : Long) (p : Bool), ea.mode.isControl = true → s.locAt 1 .l ea = .mem space addr p →
      lands (.jmp ea) s addr ∧ (sp.getLsbD 0 = false → lands (.jsr ea) (s.pushed32 (next (.jsr ea))) addr)) ∧
    (sp.getLsbD 0 = false →
      let w := lowWord (s.load .w sp)
      lands .rts (s.setAreg 7 (sp + 4)) (s.load .l sp) ∧
      lands .rtr ((s.setAreg 7 (sp + 6)).setFlags ⟨w.getLsbD 4, w.getLsbD 3, w.getLsbD 2, w.getLsbD 1, w.getLsbD 0⟩)
        (s.load .l (sp + 2)) ∧
      (s.super = true → lands .rte ((s.setAreg 7 (sp + 6)).withSr w) (s.load .l (sp + 2))))

/-- A cycle that the environment refuses to user state with BERR is a bus error: vector 2, and a frame like that of an address error
with the address of the cycle (R411, R430, R431; 20_memory.md R69, R72, R77, 70_reset_and_hazards.md R482). In turn: reads of a
byte, a word, and either word of a long word, through every mode (ADD); writes of the same (MOVE from a data register), where the
refused cycle leaves memory unchanged and a first half that was written stays; the fetch of the word after the next instruction
(NOP), and the fetch at a branch's target. The model's choice: an adjusted register and the condition codes may be the old or the
new ones (log entries 19 and 20), and the range of the saved PC (log entry 24). -/
def Obligations.BusError : Prop :=
  ∀ s : State, s.super = false → s.outside = [] →
    (∀ a dir w, s.answer a .superData dir w = .memory 0) → (∀ a dir w, s.answer a .superProgram dir w = .memory 0) →
    let inside (i : Instr) (s' : State) (addr : Long) (read : Bool) (fc : BitVec 3) : Prop :=
      Enters0 (exec i s) s' 2 (InsideOf s.pc) s.q0 addr read false fc
    let width (sz : Size) : Width := if sz = .b then .byte else .word
    let refused (dir : Dir) (w : Width) (a : Long) : Prop := s.answer a .userData dir w = .berr
    let granted (dir : Dir) (w : Width) (a : Long) : Prop := s.answer a .userData dir w = .memory 0
    ((∀ a, s.answer a .userProgram .read .word = .memory 0) →
      (∀ (sz : Size) (ea : EA) (dn : RegNum) (addr : Long) (p : Bool), s.locAt 1 sz ea = .mem .data addr p →
        misaligned sz addr = false →
        let at_ (cycle : Long) : Prop :=
          s.Ready0 2 s.q0 cycle → (s.afterMode sz ea).Ready0 2 s.q0 cycle →
          ∃ s', (s' = s ∨ s' = s.afterMode sz ea) ∧ inside (.addToReg sz ea dn) s' cycle true 1
        (refused .read (width sz) addr → at_ addr) ∧
        (sz = .l → granted .read .word addr → refused .read .word (addr + 2) → at_ (addr + 2))) ∧
      (∀ (sz : Size) (dst : EA) (m : RegNum) (addr : Long) (p : Bool) (f : CCR), s.locAt 1 sz dst = .mem .data addr p →
        misaligned sz addr = false →
        let v := trunc sz s.d[m.val]
        f = ⟨s.ccr.x, msb sz v, v == 0, false, false⟩ →
        let at_ (cycle : Long) (stored : State → State) : Prop :=
          let ends := [s, s.afterMode sz dst, s.setFlags f, (s.afterMode sz dst).setFlags f].map stored
          (∀ s', s' ∈ ends → s'.Ready0 2 s.q0 cycle) → ∃ s' ∈ ends, inside (moveInstr sz (.dreg m) dst) s' cycle false 1
        let first := if sz = .l ∧ p = true then addr + 2 else addr
        let second := if p then addr else addr + 2
        let half : Word := if p then lowWord v else highWord v
        (refused .write (width sz) first → at_ first id) ∧
        (sz = .l → granted .write .word first → refused .write .word second →
          at_ second fun u => u.storeWord 0 first half))) ∧
    (s.answer (s.pc + 4) .userProgram .read .word = .berr → s.Ready0 2 s.q0 (s.pc + 4) →
      inside .nop s (s.pc + 4) true 2) ∧
    (∀ b : Byte,
      let target := s.pc + 2 + b.signExtend 32
      target.getLsbD 0 = false → s.answer target .userProgram .read .word = .berr → s.Ready0 2 s.q0 target →
        Enters0 (exec (.bra (.short b)) s) s 2 (NearTarget target) s.q0 target true false 2)

/-- A bus error or an address error with an odd supervisor stack pointer is a double fault: the processor halts. A fault inside
another exception's entry is not: a TRAP whose vector holds an odd address is an address error with I/N = 1 (R432, D27 of
92_eei_decisions.md), at the range of the saved PC that the model takes (log entry 24), with a free instruction register (93 U16). -/
def Obligations.DoubleFault : Prop :=
  (∀ (s : State) (f : BusFault) (notInstr : Bool), s.ssp.getLsbD 0 = true →
    ∃ t, takeGroup0 f notInstr s = .next t ∧ t.run = .halted) ∧
  ∀ (s : State) (v : Fin 16), s.Plain → s.ssp.getLsbD 0 = false →
    let target := s.handler (32 + v.val) (s.pc + 2) s.sr none
    let s' := s.entered (s.pc + 2) s.sr none
    target.getLsbD 0 = true → (∀ ir, s'.Ready0 3 ir target) →
    ∃ ir, Enters0 (exec (.trap v) s) s' 3 (NearTarget target) ir target true true 6

/-! ## MOVEM, MOVEP, LINK, UNLK -/

/-- MOVEM registers to memory: D0 first at rising addresses, or A7 first at falling ones, the addressing register's initial
value stored (49_special.md R340, 30_encoding.md R111). -/
def Obligations.MovemStore : Prop :=
  ∀ (s : State) (sz : WSize) (mask : Word), s.Plain →
    let up : List Reg := (List.finRange 16).filterMap fun i => if mask.getLsbD i.val then some (regOfIndex i) else none
    let down : List Reg :=
      (List.finRange 16).filterMap fun i => if mask.getLsbD i.val then some (regOfIndex i.rev) else none
    (∀ (dst : EA) (sp : Space) (addr : Long) (p : Bool), dst.mode.isControl = true → s.locAt 2 sz.size dst = .mem sp addr p →
      (up ≠ [] → addr.getLsbD 0 = false) →
      Completes (.movemToMem sz mask dst) s (s.storedUp sz.size addr up)) ∧
    (∀ n : RegNum, (down ≠ [] → (s.areg n).getLsbD 0 = false) →
      Completes (.movemToMem sz mask (.preDec n)) s
        ((s.storedDown sz.size (s.areg n) down).setAreg n
          (s.areg n - BitVec.ofNat 32 (sz.size.bytes * down.length))))

/-- MOVEM memory to registers: rising addresses, every word sign-extended into its whole register; with `(An)+` the register
ends at the address after the last (R341). -/
def Obligations.MovemLoad : Prop :=
  ∀ (s : State) (sz : WSize) (mask : Word), s.Plain →
    let up : List Reg := (List.finRange 16).filterMap fun i => if mask.getLsbD i.val then some (regOfIndex i) else none
    (∀ (src : EA) (sp : Space) (addr : Long) (p : Bool), src.mode.isControl = true → s.locAt 2 sz.size src = .mem sp addr p →
      (up ≠ [] → addr.getLsbD 0 = false) →
      Completes (.movemToReg sz mask src) s (s.loadedUp sz.size addr up)) ∧
    (∀ n : RegNum, (up ≠ [] → (s.areg n).getLsbD 0 = false) →
      Completes (.movemToReg sz mask (.postInc n)) s
        ((s.loadedUp sz.size (s.areg n) up).setAreg n (s.areg n + BitVec.ofNat 32 (sz.size.bytes * up.length))))

/-- MOVEP: two or four bytes at every other address, the most significant first, at an odd address as well (R347). -/
def Obligations.MovePeripheral : Prop :=
  ∀ (s : State) (dn an : RegNum) (d : Word), s.Plain →
    let a := s.areg an + d.signExtend 32
    let v := s.d[dn.val]
    let byte (j : Nat) : Byte := v.extractLsb' (8 * j) 8
    Completes (.movepToReg .w dn an d) s (s.setDreg dn (highWord v ++ (s.byteAt a ++ s.byteAt (a + 2)))) ∧
    Completes (.movepToReg .l dn an d) s
      (s.setDreg dn (s.byteAt a ++ s.byteAt (a + 2) ++ s.byteAt (a + 4) ++ s.byteAt (a + 6))) ∧
    Completes (.movepToMem .w dn an d) s (s.storedAlternate a [byte 1, byte 0]) ∧
    Completes (.movepToMem .l dn an d) s (s.storedAlternate a [byte 3, byte 2, byte 1, byte 0])

/-- LINK and UNLK (R342, R343); with A7 as their register they complete with one free value (log entry 23). -/
def Obligations.LinkUnlink : Prop :=
  ∀ (s : State) (an : RegNum) (d : Word), s.Plain →
    let sp := s.areg 7
    (sp.getLsbD 0 = false →
      (an ≠ 7 → Completes (.link an d) s
        (((s.pushed32 (s.areg an)).setAreg an (sp - 4)).setAreg 7 (sp - 4 + d.signExtend 32))) ∧
      (∃ v, Completes (.link 7 d) s ((s.pushed32 v).setAreg 7 (sp - 4 + d.signExtend 32))) ∧
      (∃ v, Completes (.unlk 7) s (s.setAreg 7 v))) ∧
    ((s.areg an).getLsbD 0 = false → an ≠ 7 →
      Completes (.unlk an) s ((s.setAreg 7 (s.areg an + 4)).setAreg an (s.load .l (s.areg an))))
end

