-- ==== Sys2Proof/Laws/Bits.lean ====
section
/-! SUPPORT. The sizes and halves of values: truncation, sign bits, bounds. -/

namespace Sys2Proof.Machine

/-- The sign bit of a long word. -/
theorem msb_long (v : Long) : msb .l v = v.msb := (BitVec.msb_eq_getLsbD_last v).symm

theorem trunc_long (v : Long) : trunc .l v = v := rfl

theorem merge_long (old new : Long) : merge .l old new = new := rfl

theorem trunc_toNat (sz : Size) (v : Long) : (trunc sz v).toNat = v.toNat % 2 ^ sz.bits := by
  have h := v.isLt
  cases sz with
  | b =>
    show ((v.setWidth 8).setWidth 32).toNat = _
    rw [BitVec.toNat_setWidth, BitVec.toNat_setWidth]
    simp only [Size.bits]
    omega
  | w =>
    show ((v.setWidth 16).setWidth 32).toNat = _
    rw [BitVec.toNat_setWidth, BitVec.toNat_setWidth]
    simp only [Size.bits]
    omega
  | l =>
    show v.toNat = _
    simp only [Size.bits]
    omega

theorem trunc_trunc (sz : Size) (v : Long) : trunc sz (trunc sz v) = trunc sz v := by
  apply BitVec.eq_of_toNat_eq
  rw [trunc_toNat, trunc_toNat, Nat.mod_mod]

theorem trunc_lt (sz : Size) (v : Long) : (trunc sz v).toNat < 2 ^ sz.bits := by
  rw [trunc_toNat]
  exact Nat.mod_lt _ (by positivity)

theorem lowWord_trunc (v : Long) : lowWord (trunc .w v) = lowWord v := by
  apply BitVec.eq_of_toNat_eq
  show ((trunc .w v).setWidth 16).toNat = (v.setWidth 16).toNat
  rw [BitVec.toNat_setWidth, BitVec.toNat_setWidth, trunc_toNat, Size.bits, Nat.mod_mod]

/-- A word written into a register keeps the high word (10_state.md R21). -/
theorem merge_word (old new : Long) : merge .w old new = highWord old ++ lowWord new := by
  apply BitVec.eq_of_getLsbD_eq
  intro i hi
  show (old &&& 0xFFFF0000#32 ||| new &&& 0x0000FFFF#32).getLsbD i = ((old >>> 16).setWidth 16 ++ new.setWidth 16).getLsbD i
  rw [BitVec.getLsbD_append, BitVec.getLsbD_or, BitVec.getLsbD_and, BitVec.getLsbD_and, BitVec.getLsbD_setWidth,
    BitVec.getLsbD_setWidth, BitVec.getLsbD_ushiftRight]
  interval_cases i <;> simp

/-- A byte written into a register keeps the upper 24 bits (R21). -/
theorem merge_byte (old new : Long) : merge .b old new = old.extractLsb' 8 24 ++ new.setWidth 8 := by
  apply BitVec.eq_of_getLsbD_eq
  intro i hi
  show (old &&& 0xFFFFFF00#32 ||| new &&& 0x000000FF#32).getLsbD i = (old.extractLsb' 8 24 ++ new.setWidth 8).getLsbD i
  rw [BitVec.getLsbD_append, BitVec.getLsbD_or, BitVec.getLsbD_and, BitVec.getLsbD_and, BitVec.getLsbD_setWidth,
    BitVec.getLsbD_extractLsb']
  interval_cases i <;> simp

/-- A long word is its two halves. -/
theorem join_halves (v : Long) : joinWords (highWord v) (lowWord v) = v := by
  apply BitVec.eq_of_toNat_eq
  have h := v.isLt
  show (highWord v ++ lowWord v).toNat = _
  rw [BitVec.toNat_append, highWord, lowWord, BitVec.toNat_setWidth, BitVec.toNat_setWidth, BitVec.toNat_ushiftRight,
    Nat.shiftRight_eq_div_pow, Nat.shiftLeft_eq, ← Nat.shiftLeft_eq, ← Nat.shiftLeft_add_eq_or_of_lt (by omega),
    Nat.shiftLeft_eq]
  omega

end Sys2Proof.Machine
end

