-- ==== Sys2Proof/Laws/Exec.lean ====
section
/-! SUPPORT. The laws of operations in sequence: how a bind completes and how it aborts. -/

namespace Sys2Proof.Machine

variable {α β : Type}

@[simp] theorem exec_pure (a : α) (s : State) : (pure a : Exec α) s = .ok a s := rfl

@[simp] theorem inspect_run (f : State → α) (s : State) : inspect f s = .ok (f s) s := rfl

@[simp] theorem update_run (f : State → State) (s : State) : update f s = .ok () (f s) := rfl

/-- A sequence that first reads the state. -/
@[simp] theorem inspect_bind (f : State → α) (g : α → Exec β) (s : State) : (inspect f >>= g) s = g (f s) s := rfl

/-- A sequence that first changes the state. -/
@[simp] theorem update_bind (f : State → State) (g : Unit → Exec β) (s : State) : (update f >>= g) s = g () (f s) := rfl

/-- A sequence whose first part is a value. -/
@[simp] theorem pure_bind_run (a : α) (g : α → Exec β) (s : State) : ((pure a : Exec α) >>= g) s = g a s := rfl

/-- A sequence whose first part completes is its second part. -/
theorem bind_of_ok {x : Exec α} {f : α → Exec β} {s s1 : State} {a : α} (h : x s = .ok a s1) :
    (x >>= f) s = f a s1 := by
  show EStateM.bind x f s = _
  unfold EStateM.bind
  rw [h]

/-- A sequence whose first part aborts aborts. -/
theorem bind_of_error {x : Exec α} {f : α → Exec β} {s s1 : State} {e : Abort} (h : x s = .error e s1) :
    (x >>= f) s = .error e s1 := by
  show EStateM.bind x f s = _
  unfold EStateM.bind
  rw [h]

/-- A sequence completes just where both parts do. -/
theorem bind_ok {x : Exec α} {f : α → Exec β} {s s2 : State} {b : β} :
    (x >>= f) s = .ok b s2 ↔ ∃ a s1, x s = .ok a s1 ∧ f a s1 = .ok b s2 := by
  cases h : x s with
  | ok a s1 => rw [bind_of_ok h]; simp
  | error e s1 => rw [bind_of_error h]; simp

/-- A sequence aborts just where its first part does, or the second after the first completes. -/
theorem bind_error {x : Exec α} {f : α → Exec β} {s s2 : State} {e : Abort} :
    (x >>= f) s = .error e s2 ↔ x s = .error e s2 ∨ ∃ a s1, x s = .ok a s1 ∧ f a s1 = .error e s2 := by
  cases h : x s with
  | ok a s1 => rw [bind_of_ok h]; simp
  | error e' s1 => rw [bind_of_error h]; simp

/-- From a state with `P`, an operation that completes leaves a state with `P`, and one that aborts a state with `E`. -/
def Keeps (P E : State → Prop) (x : Exec α) : Prop :=
  ∀ s, P s → (∀ a s', x s = .ok a s' → P s') ∧ (∀ e s', x s = .error e s' → E s')

variable {P E : State → Prop}

theorem Keeps.ok {x : Exec α} (h : Keeps P E x) {s s' : State} {a : α} (hs : P s) (hx : x s = .ok a s') : P s' :=
  (h s hs).1 a s' hx

theorem Keeps.error {x : Exec α} (h : Keeps P E x) {s s' : State} {e : Abort} (hs : P s) (hx : x s = .error e s') :
    E s' := (h s hs).2 e s' hx

theorem keeps_pure (P E : State → Prop) (a : α) : Keeps P E (pure a : Exec α) := by
  intro s hs
  constructor
  · intro b s' h; cases h; exact hs
  · intro e s' h; cases h

theorem Keeps.bind {x : Exec α} {f : α → Exec β} (hx : Keeps P E x) (hf : ∀ a, Keeps P E (f a)) :
    Keeps P E (x >>= f) := by
  intro s hs
  constructor
  · intro b s' h
    obtain ⟨a, s1, h1, h2⟩ := bind_ok.mp h
    exact (hf a).ok (hx.ok hs h1) h2
  · intro e s' h
    rcases bind_error.mp h with h1 | ⟨a, s1, h1, h2⟩
    · exact hx.error hs h1
    · exact (hf a).error (hx.ok hs h1) h2

/-- An operation that only reads the state. -/
theorem keeps_inspect (P E : State → Prop) (f : State → α) : Keeps P E (inspect f) := by
  intro s hs
  constructor
  · intro b s' h; cases h; exact hs
  · intro e s' h; cases h

/-- An operation that changes the state in one way. -/
theorem keeps_update {f : State → State} (h : ∀ s, P s → P (f s)) : Keeps P E (update f) := by
  intro s hs
  constructor
  · intro b s' hx; cases hx; exact h s hs
  · intro e s' hx; cases hx

theorem Keeps.ite {c : Prop} [Decidable c] {x y : Exec α} (hx : Keeps P E x) (hy : Keeps P E y) :
    Keeps P E (if c then x else y) := by
  split
  · exact hx
  · exact hy

end Sys2Proof.Machine
end

