-- ==== Sys2Proof/Laws/State.lean ====
section
/-! SUPPORT. One lemma per field per update of the state, so that no proof unfolds a record update. -/

namespace Sys2Proof.Machine

variable (s : State)

/-! ### `setDreg` -/

@[simp] theorem State.setDreg_d (n : RegNum) (v : Long) : (s.setDreg n v).d = s.d.set n.val v := rfl
@[simp] theorem State.setDreg_a (n : RegNum) (v : Long) : (s.setDreg n v).a = s.a := rfl
@[simp] theorem State.setDreg_usp (n : RegNum) (v : Long) : (s.setDreg n v).usp = s.usp := rfl
@[simp] theorem State.setDreg_ssp (n : RegNum) (v : Long) : (s.setDreg n v).ssp = s.ssp := rfl
@[simp] theorem State.setDreg_pc (n : RegNum) (v : Long) : (s.setDreg n v).pc = s.pc := rfl
@[simp] theorem State.setDreg_trace (n : RegNum) (v : Long) : (s.setDreg n v).trace = s.trace := rfl
@[simp] theorem State.setDreg_super (n : RegNum) (v : Long) : (s.setDreg n v).super = s.super := rfl
@[simp] theorem State.setDreg_mask (n : RegNum) (v : Long) : (s.setDreg n v).mask = s.mask := rfl
@[simp] theorem State.setDreg_ccr (n : RegNum) (v : Long) : (s.setDreg n v).ccr = s.ccr := rfl
@[simp] theorem State.setDreg_q0 (n : RegNum) (v : Long) : (s.setDreg n v).q0 = s.q0 := rfl
@[simp] theorem State.setDreg_q1 (n : RegNum) (v : Long) : (s.setDreg n v).q1 = s.q1 := rfl
@[simp] theorem State.setDreg_ir (n : RegNum) (v : Long) : (s.setDreg n v).ir = s.ir := rfl
@[simp] theorem State.setDreg_owl (n : RegNum) (v : Long) : (s.setDreg n v).owl = s.owl := rfl
@[simp] theorem State.setDreg_tracePending (n : RegNum) (v : Long) : (s.setDreg n v).tracePending = s.tracePending := rfl
@[simp] theorem State.setDreg_run (n : RegNum) (v : Long) : (s.setDreg n v).run = s.run := rfl
@[simp] theorem State.setDreg_l7Seen (n : RegNum) (v : Long) : (s.setDreg n v).l7Seen = s.l7Seen := rfl
@[simp] theorem State.setDreg_mem (n : RegNum) (v : Long) : (s.setDreg n v).mem = s.mem := rfl
@[simp] theorem State.setDreg_irqLevel (n : RegNum) (v : Long) : (s.setDreg n v).irqLevel = s.irqLevel := rfl
@[simp] theorem State.setDreg_ack (n : RegNum) (v : Long) : (s.setDreg n v).ack = s.ack := rfl
@[simp] theorem State.setDreg_resetRequest (n : RegNum) (v : Long) : (s.setDreg n v).resetRequest = s.resetRequest := rfl
@[simp] theorem State.setDreg_haltPin (n : RegNum) (v : Long) : (s.setDreg n v).haltPin = s.haltPin := rfl
@[simp] theorem State.setDreg_map (n : RegNum) (v : Long) : (s.setDreg n v).map = s.map := rfl
@[simp] theorem State.setDreg_outside (n : RegNum) (v : Long) : (s.setDreg n v).outside = s.outside := rfl
@[simp] theorem State.setDreg_resetLine (n : RegNum) (v : Long) : (s.setDreg n v).resetLine = s.resetLine := rfl
@[simp] theorem State.setDreg_stream (n : RegNum) (v : Long) : (s.setDreg n v).stream = s.stream := rfl
@[simp] theorem State.setDreg_events (n : RegNum) (v : Long) : (s.setDreg n v).events = s.events := rfl
@[simp] theorem State.setDreg_free (n : RegNum) (v : Long) : (s.setDreg n v).free = s.free := rfl

/-! ### `setAreg` -/

@[simp] theorem State.setAreg_d (n : RegNum) (v : Long) : (s.setAreg n v).d = s.d := by
  unfold State.setAreg; split_ifs <;> rfl
@[simp] theorem State.setAreg_pc (n : RegNum) (v : Long) : (s.setAreg n v).pc = s.pc := by
  unfold State.setAreg; split_ifs <;> rfl
@[simp] theorem State.setAreg_trace (n : RegNum) (v : Long) : (s.setAreg n v).trace = s.trace := by
  unfold State.setAreg; split_ifs <;> rfl
@[simp] theorem State.setAreg_super (n : RegNum) (v : Long) : (s.setAreg n v).super = s.super := by
  unfold State.setAreg; split_ifs <;> rfl
@[simp] theorem State.setAreg_mask (n : RegNum) (v : Long) : (s.setAreg n v).mask = s.mask := by
  unfold State.setAreg; split_ifs <;> rfl
@[simp] theorem State.setAreg_ccr (n : RegNum) (v : Long) : (s.setAreg n v).ccr = s.ccr := by
  unfold State.setAreg; split_ifs <;> rfl
@[simp] theorem State.setAreg_q0 (n : RegNum) (v : Long) : (s.setAreg n v).q0 = s.q0 := by
  unfold State.setAreg; split_ifs <;> rfl
@[simp] theorem State.setAreg_q1 (n : RegNum) (v : Long) : (s.setAreg n v).q1 = s.q1 := by
  unfold State.setAreg; split_ifs <;> rfl
@[simp] theorem State.setAreg_ir (n : RegNum) (v : Long) : (s.setAreg n v).ir = s.ir := by
  unfold State.setAreg; split_ifs <;> rfl
@[simp] theorem State.setAreg_owl (n : RegNum) (v : Long) : (s.setAreg n v).owl = s.owl := by
  unfold State.setAreg; split_ifs <;> rfl
@[simp] theorem State.setAreg_tracePending (n : RegNum) (v : Long) : (s.setAreg n v).tracePending = s.tracePending := by
  unfold State.setAreg; split_ifs <;> rfl
@[simp] theorem State.setAreg_run (n : RegNum) (v : Long) : (s.setAreg n v).run = s.run := by
  unfold State.setAreg; split_ifs <;> rfl
@[simp] theorem State.setAreg_l7Seen (n : RegNum) (v : Long) : (s.setAreg n v).l7Seen = s.l7Seen := by
  unfold State.setAreg; split_ifs <;> rfl
@[simp] theorem State.setAreg_mem (n : RegNum) (v : Long) : (s.setAreg n v).mem = s.mem := by
  unfold State.setAreg; split_ifs <;> rfl
@[simp] theorem State.setAreg_irqLevel (n : RegNum) (v : Long) : (s.setAreg n v).irqLevel = s.irqLevel := by
  unfold State.setAreg; split_ifs <;> rfl
@[simp] theorem State.setAreg_ack (n : RegNum) (v : Long) : (s.setAreg n v).ack = s.ack := by
  unfold State.setAreg; split_ifs <;> rfl
@[simp] theorem State.setAreg_resetRequest (n : RegNum) (v : Long) : (s.setAreg n v).resetRequest = s.resetRequest := by
  unfold State.setAreg; split_ifs <;> rfl
@[simp] theorem State.setAreg_haltPin (n : RegNum) (v : Long) : (s.setAreg n v).haltPin = s.haltPin := by
  unfold State.setAreg; split_ifs <;> rfl
@[simp] theorem State.setAreg_map (n : RegNum) (v : Long) : (s.setAreg n v).map = s.map := by
  unfold State.setAreg; split_ifs <;> rfl
@[simp] theorem State.setAreg_outside (n : RegNum) (v : Long) : (s.setAreg n v).outside = s.outside := by
  unfold State.setAreg; split_ifs <;> rfl
@[simp] theorem State.setAreg_resetLine (n : RegNum) (v : Long) : (s.setAreg n v).resetLine = s.resetLine := by
  unfold State.setAreg; split_ifs <;> rfl
@[simp] theorem State.setAreg_stream (n : RegNum) (v : Long) : (s.setAreg n v).stream = s.stream := by
  unfold State.setAreg; split_ifs <;> rfl
@[simp] theorem State.setAreg_events (n : RegNum) (v : Long) : (s.setAreg n v).events = s.events := by
  unfold State.setAreg; split_ifs <;> rfl
@[simp] theorem State.setAreg_free (n : RegNum) (v : Long) : (s.setAreg n v).free = s.free := by
  unfold State.setAreg; split_ifs <;> rfl

/-! ### `setSr` -/

@[simp] theorem State.setSr_d (w : Word) : (s.setSr w).d = s.d := rfl
@[simp] theorem State.setSr_a (w : Word) : (s.setSr w).a = s.a := rfl
@[simp] theorem State.setSr_usp (w : Word) : (s.setSr w).usp = s.usp := rfl
@[simp] theorem State.setSr_ssp (w : Word) : (s.setSr w).ssp = s.ssp := rfl
@[simp] theorem State.setSr_pc (w : Word) : (s.setSr w).pc = s.pc := rfl
@[simp] theorem State.setSr_trace (w : Word) : (s.setSr w).trace = w.getLsbD 15 := rfl
@[simp] theorem State.setSr_super (w : Word) : (s.setSr w).super = w.getLsbD 13 := rfl
@[simp] theorem State.setSr_mask (w : Word) : (s.setSr w).mask = w.extractLsb' 8 3 := rfl
@[simp] theorem State.setSr_ccr (w : Word) : (s.setSr w).ccr = CCR.ofByte (w.setWidth 8) := rfl
@[simp] theorem State.setSr_q0 (w : Word) : (s.setSr w).q0 = s.q0 := rfl
@[simp] theorem State.setSr_q1 (w : Word) : (s.setSr w).q1 = s.q1 := rfl
@[simp] theorem State.setSr_ir (w : Word) : (s.setSr w).ir = s.ir := rfl
@[simp] theorem State.setSr_owl (w : Word) : (s.setSr w).owl = s.owl := rfl
@[simp] theorem State.setSr_tracePending (w : Word) : (s.setSr w).tracePending = s.tracePending := rfl
@[simp] theorem State.setSr_run (w : Word) : (s.setSr w).run = s.run := rfl
@[simp] theorem State.setSr_l7Seen (w : Word) : (s.setSr w).l7Seen = s.l7Seen := rfl
@[simp] theorem State.setSr_mem (w : Word) : (s.setSr w).mem = s.mem := rfl
@[simp] theorem State.setSr_irqLevel (w : Word) : (s.setSr w).irqLevel = s.irqLevel := rfl
@[simp] theorem State.setSr_ack (w : Word) : (s.setSr w).ack = s.ack := rfl
@[simp] theorem State.setSr_resetRequest (w : Word) : (s.setSr w).resetRequest = s.resetRequest := rfl
@[simp] theorem State.setSr_haltPin (w : Word) : (s.setSr w).haltPin = s.haltPin := rfl
@[simp] theorem State.setSr_map (w : Word) : (s.setSr w).map = s.map := rfl
@[simp] theorem State.setSr_outside (w : Word) : (s.setSr w).outside = s.outside := rfl
@[simp] theorem State.setSr_resetLine (w : Word) : (s.setSr w).resetLine = s.resetLine := rfl
@[simp] theorem State.setSr_stream (w : Word) : (s.setSr w).stream = s.stream := rfl
@[simp] theorem State.setSr_events (w : Word) : (s.setSr w).events = s.events := rfl
@[simp] theorem State.setSr_free (w : Word) : (s.setSr w).free = s.free := rfl

/-! ### `setFlags` -/

@[simp] theorem State.setFlags_ccr (f : CCR) : (s.setFlags f).ccr = f := rfl
@[simp] theorem State.setFlags_d (f : CCR) : (s.setFlags f).d = s.d := rfl
@[simp] theorem State.setFlags_a (f : CCR) : (s.setFlags f).a = s.a := rfl
@[simp] theorem State.setFlags_usp (f : CCR) : (s.setFlags f).usp = s.usp := rfl
@[simp] theorem State.setFlags_ssp (f : CCR) : (s.setFlags f).ssp = s.ssp := rfl
@[simp] theorem State.setFlags_pc (f : CCR) : (s.setFlags f).pc = s.pc := rfl
@[simp] theorem State.setFlags_trace (f : CCR) : (s.setFlags f).trace = s.trace := rfl
@[simp] theorem State.setFlags_super (f : CCR) : (s.setFlags f).super = s.super := rfl
@[simp] theorem State.setFlags_mask (f : CCR) : (s.setFlags f).mask = s.mask := rfl
@[simp] theorem State.setFlags_q0 (f : CCR) : (s.setFlags f).q0 = s.q0 := rfl
@[simp] theorem State.setFlags_q1 (f : CCR) : (s.setFlags f).q1 = s.q1 := rfl
@[simp] theorem State.setFlags_ir (f : CCR) : (s.setFlags f).ir = s.ir := rfl
@[simp] theorem State.setFlags_owl (f : CCR) : (s.setFlags f).owl = s.owl := rfl
@[simp] theorem State.setFlags_tracePending (f : CCR) : (s.setFlags f).tracePending = s.tracePending := rfl
@[simp] theorem State.setFlags_run (f : CCR) : (s.setFlags f).run = s.run := rfl
@[simp] theorem State.setFlags_l7Seen (f : CCR) : (s.setFlags f).l7Seen = s.l7Seen := rfl
@[simp] theorem State.setFlags_mem (f : CCR) : (s.setFlags f).mem = s.mem := rfl
@[simp] theorem State.setFlags_irqLevel (f : CCR) : (s.setFlags f).irqLevel = s.irqLevel := rfl
@[simp] theorem State.setFlags_ack (f : CCR) : (s.setFlags f).ack = s.ack := rfl
@[simp] theorem State.setFlags_resetRequest (f : CCR) : (s.setFlags f).resetRequest = s.resetRequest := rfl
@[simp] theorem State.setFlags_haltPin (f : CCR) : (s.setFlags f).haltPin = s.haltPin := rfl
@[simp] theorem State.setFlags_map (f : CCR) : (s.setFlags f).map = s.map := rfl
@[simp] theorem State.setFlags_outside (f : CCR) : (s.setFlags f).outside = s.outside := rfl
@[simp] theorem State.setFlags_resetLine (f : CCR) : (s.setFlags f).resetLine = s.resetLine := rfl
@[simp] theorem State.setFlags_stream (f : CCR) : (s.setFlags f).stream = s.stream := rfl
@[simp] theorem State.setFlags_events (f : CCR) : (s.setFlags f).events = s.events := rfl
@[simp] theorem State.setFlags_free (f : CCR) : (s.setFlags f).free = s.free := rfl

/-! ### `storeByte` -/

@[simp] theorem State.storeByte_d (b : Fin 4) (x : Long) (v : Byte) : (s.storeByte b x v).d = s.d := rfl
@[simp] theorem State.storeByte_a (b : Fin 4) (x : Long) (v : Byte) : (s.storeByte b x v).a = s.a := rfl
@[simp] theorem State.storeByte_usp (b : Fin 4) (x : Long) (v : Byte) : (s.storeByte b x v).usp = s.usp := rfl
@[simp] theorem State.storeByte_ssp (b : Fin 4) (x : Long) (v : Byte) : (s.storeByte b x v).ssp = s.ssp := rfl
@[simp] theorem State.storeByte_pc (b : Fin 4) (x : Long) (v : Byte) : (s.storeByte b x v).pc = s.pc := rfl
@[simp] theorem State.storeByte_trace (b : Fin 4) (x : Long) (v : Byte) : (s.storeByte b x v).trace = s.trace := rfl
@[simp] theorem State.storeByte_super (b : Fin 4) (x : Long) (v : Byte) : (s.storeByte b x v).super = s.super := rfl
@[simp] theorem State.storeByte_mask (b : Fin 4) (x : Long) (v : Byte) : (s.storeByte b x v).mask = s.mask := rfl
@[simp] theorem State.storeByte_ccr (b : Fin 4) (x : Long) (v : Byte) : (s.storeByte b x v).ccr = s.ccr := rfl
@[simp] theorem State.storeByte_q0 (b : Fin 4) (x : Long) (v : Byte) : (s.storeByte b x v).q0 = s.q0 := rfl
@[simp] theorem State.storeByte_q1 (b : Fin 4) (x : Long) (v : Byte) : (s.storeByte b x v).q1 = s.q1 := rfl
@[simp] theorem State.storeByte_ir (b : Fin 4) (x : Long) (v : Byte) : (s.storeByte b x v).ir = s.ir := rfl
@[simp] theorem State.storeByte_owl (b : Fin 4) (x : Long) (v : Byte) : (s.storeByte b x v).owl = s.owl := rfl
@[simp] theorem State.storeByte_tracePending (b : Fin 4) (x : Long) (v : Byte) : (s.storeByte b x v).tracePending = s.tracePending := rfl
@[simp] theorem State.storeByte_run (b : Fin 4) (x : Long) (v : Byte) : (s.storeByte b x v).run = s.run := rfl
@[simp] theorem State.storeByte_l7Seen (b : Fin 4) (x : Long) (v : Byte) : (s.storeByte b x v).l7Seen = s.l7Seen := rfl
@[simp] theorem State.storeByte_mem (b : Fin 4) (x : Long) (v : Byte) : (s.storeByte b x v).mem = s.mem.writeByte (byteKey b x) v := rfl
@[simp] theorem State.storeByte_irqLevel (b : Fin 4) (x : Long) (v : Byte) : (s.storeByte b x v).irqLevel = s.irqLevel := rfl
@[simp] theorem State.storeByte_ack (b : Fin 4) (x : Long) (v : Byte) : (s.storeByte b x v).ack = s.ack := rfl
@[simp] theorem State.storeByte_resetRequest (b : Fin 4) (x : Long) (v : Byte) : (s.storeByte b x v).resetRequest = s.resetRequest := rfl
@[simp] theorem State.storeByte_haltPin (b : Fin 4) (x : Long) (v : Byte) : (s.storeByte b x v).haltPin = s.haltPin := rfl
@[simp] theorem State.storeByte_map (b : Fin 4) (x : Long) (v : Byte) : (s.storeByte b x v).map = s.map := rfl
@[simp] theorem State.storeByte_outside (b : Fin 4) (x : Long) (v : Byte) : (s.storeByte b x v).outside = s.outside := rfl
@[simp] theorem State.storeByte_resetLine (b : Fin 4) (x : Long) (v : Byte) : (s.storeByte b x v).resetLine = s.resetLine := rfl
@[simp] theorem State.storeByte_stream (b : Fin 4) (x : Long) (v : Byte) : (s.storeByte b x v).stream = s.stream := rfl
@[simp] theorem State.storeByte_events (b : Fin 4) (x : Long) (v : Byte) : (s.storeByte b x v).events = s.events := rfl
@[simp] theorem State.storeByte_free (b : Fin 4) (x : Long) (v : Byte) : (s.storeByte b x v).free = s.free := rfl

/-! ### `storeWord` -/

@[simp] theorem State.storeWord_d (b : Fin 4) (x : Long) (v : Word) : (s.storeWord b x v).d = s.d := rfl
@[simp] theorem State.storeWord_a (b : Fin 4) (x : Long) (v : Word) : (s.storeWord b x v).a = s.a := rfl
@[simp] theorem State.storeWord_usp (b : Fin 4) (x : Long) (v : Word) : (s.storeWord b x v).usp = s.usp := rfl
@[simp] theorem State.storeWord_ssp (b : Fin 4) (x : Long) (v : Word) : (s.storeWord b x v).ssp = s.ssp := rfl
@[simp] theorem State.storeWord_pc (b : Fin 4) (x : Long) (v : Word) : (s.storeWord b x v).pc = s.pc := rfl
@[simp] theorem State.storeWord_trace (b : Fin 4) (x : Long) (v : Word) : (s.storeWord b x v).trace = s.trace := rfl
@[simp] theorem State.storeWord_super (b : Fin 4) (x : Long) (v : Word) : (s.storeWord b x v).super = s.super := rfl
@[simp] theorem State.storeWord_mask (b : Fin 4) (x : Long) (v : Word) : (s.storeWord b x v).mask = s.mask := rfl
@[simp] theorem State.storeWord_ccr (b : Fin 4) (x : Long) (v : Word) : (s.storeWord b x v).ccr = s.ccr := rfl
@[simp] theorem State.storeWord_q0 (b : Fin 4) (x : Long) (v : Word) : (s.storeWord b x v).q0 = s.q0 := rfl
@[simp] theorem State.storeWord_q1 (b : Fin 4) (x : Long) (v : Word) : (s.storeWord b x v).q1 = s.q1 := rfl
@[simp] theorem State.storeWord_ir (b : Fin 4) (x : Long) (v : Word) : (s.storeWord b x v).ir = s.ir := rfl
@[simp] theorem State.storeWord_owl (b : Fin 4) (x : Long) (v : Word) : (s.storeWord b x v).owl = s.owl := rfl
@[simp] theorem State.storeWord_tracePending (b : Fin 4) (x : Long) (v : Word) : (s.storeWord b x v).tracePending = s.tracePending := rfl
@[simp] theorem State.storeWord_run (b : Fin 4) (x : Long) (v : Word) : (s.storeWord b x v).run = s.run := rfl
@[simp] theorem State.storeWord_l7Seen (b : Fin 4) (x : Long) (v : Word) : (s.storeWord b x v).l7Seen = s.l7Seen := rfl
@[simp] theorem State.storeWord_irqLevel (b : Fin 4) (x : Long) (v : Word) : (s.storeWord b x v).irqLevel = s.irqLevel := rfl
@[simp] theorem State.storeWord_ack (b : Fin 4) (x : Long) (v : Word) : (s.storeWord b x v).ack = s.ack := rfl
@[simp] theorem State.storeWord_resetRequest (b : Fin 4) (x : Long) (v : Word) : (s.storeWord b x v).resetRequest = s.resetRequest := rfl
@[simp] theorem State.storeWord_haltPin (b : Fin 4) (x : Long) (v : Word) : (s.storeWord b x v).haltPin = s.haltPin := rfl
@[simp] theorem State.storeWord_map (b : Fin 4) (x : Long) (v : Word) : (s.storeWord b x v).map = s.map := rfl
@[simp] theorem State.storeWord_outside (b : Fin 4) (x : Long) (v : Word) : (s.storeWord b x v).outside = s.outside := rfl
@[simp] theorem State.storeWord_resetLine (b : Fin 4) (x : Long) (v : Word) : (s.storeWord b x v).resetLine = s.resetLine := rfl
@[simp] theorem State.storeWord_stream (b : Fin 4) (x : Long) (v : Word) : (s.storeWord b x v).stream = s.stream := rfl
@[simp] theorem State.storeWord_events (b : Fin 4) (x : Long) (v : Word) : (s.storeWord b x v).events = s.events := rfl
@[simp] theorem State.storeWord_free (b : Fin 4) (x : Long) (v : Word) : (s.storeWord b x v).free = s.free := rfl

/-! ### `startInstr` -/

@[simp] theorem State.startInstr_d : s.startInstr.d = s.d := rfl
@[simp] theorem State.startInstr_a : s.startInstr.a = s.a := rfl
@[simp] theorem State.startInstr_usp : s.startInstr.usp = s.usp := rfl
@[simp] theorem State.startInstr_ssp : s.startInstr.ssp = s.ssp := rfl
@[simp] theorem State.startInstr_pc : s.startInstr.pc = s.pc + 2 := rfl
@[simp] theorem State.startInstr_trace : s.startInstr.trace = s.trace := rfl
@[simp] theorem State.startInstr_super : s.startInstr.super = s.super := rfl
@[simp] theorem State.startInstr_mask : s.startInstr.mask = s.mask := rfl
@[simp] theorem State.startInstr_ccr : s.startInstr.ccr = s.ccr := rfl
@[simp] theorem State.startInstr_q0 : s.startInstr.q0 = s.q0 := rfl
@[simp] theorem State.startInstr_q1 : s.startInstr.q1 = s.q1 := rfl
@[simp] theorem State.startInstr_ir : s.startInstr.ir = s.q0 := rfl
@[simp] theorem State.startInstr_owl : s.startInstr.owl = s.pc := rfl
@[simp] theorem State.startInstr_tracePending : s.startInstr.tracePending = s.trace := rfl
@[simp] theorem State.startInstr_run : s.startInstr.run = s.run := rfl
@[simp] theorem State.startInstr_l7Seen : s.startInstr.l7Seen = s.l7Seen := rfl
@[simp] theorem State.startInstr_mem : s.startInstr.mem = s.mem := rfl
@[simp] theorem State.startInstr_irqLevel : s.startInstr.irqLevel = s.irqLevel := rfl
@[simp] theorem State.startInstr_ack : s.startInstr.ack = s.ack := rfl
@[simp] theorem State.startInstr_resetRequest : s.startInstr.resetRequest = s.resetRequest := rfl
@[simp] theorem State.startInstr_haltPin : s.startInstr.haltPin = s.haltPin := rfl
@[simp] theorem State.startInstr_map : s.startInstr.map = s.map := rfl
@[simp] theorem State.startInstr_outside : s.startInstr.outside = s.outside := rfl
@[simp] theorem State.startInstr_resetLine : s.startInstr.resetLine = s.resetLine := rfl
@[simp] theorem State.startInstr_stream : s.startInstr.stream = [] := rfl
@[simp] theorem State.startInstr_events : s.startInstr.events = s.events := rfl
@[simp] theorem State.startInstr_free : s.startInstr.free = s.free := rfl

/-! ### `note`, `spend` -/

@[simp] theorem State.note_d (e : Event) : (s.note e).d = s.d := rfl
@[simp] theorem State.note_a (e : Event) : (s.note e).a = s.a := rfl
@[simp] theorem State.note_usp (e : Event) : (s.note e).usp = s.usp := rfl
@[simp] theorem State.note_ssp (e : Event) : (s.note e).ssp = s.ssp := rfl
@[simp] theorem State.note_pc (e : Event) : (s.note e).pc = s.pc := rfl
@[simp] theorem State.note_trace (e : Event) : (s.note e).trace = s.trace := rfl
@[simp] theorem State.note_super (e : Event) : (s.note e).super = s.super := rfl
@[simp] theorem State.note_mask (e : Event) : (s.note e).mask = s.mask := rfl
@[simp] theorem State.note_ccr (e : Event) : (s.note e).ccr = s.ccr := rfl
@[simp] theorem State.note_q0 (e : Event) : (s.note e).q0 = s.q0 := rfl
@[simp] theorem State.note_q1 (e : Event) : (s.note e).q1 = s.q1 := rfl
@[simp] theorem State.note_ir (e : Event) : (s.note e).ir = s.ir := rfl
@[simp] theorem State.note_owl (e : Event) : (s.note e).owl = s.owl := rfl
@[simp] theorem State.note_tracePending (e : Event) : (s.note e).tracePending = s.tracePending := rfl
@[simp] theorem State.note_run (e : Event) : (s.note e).run = s.run := rfl
@[simp] theorem State.note_l7Seen (e : Event) : (s.note e).l7Seen = s.l7Seen := rfl
@[simp] theorem State.note_mem (e : Event) : (s.note e).mem = s.mem := rfl
@[simp] theorem State.note_irqLevel (e : Event) : (s.note e).irqLevel = s.irqLevel := rfl
@[simp] theorem State.note_ack (e : Event) : (s.note e).ack = s.ack := rfl
@[simp] theorem State.note_resetRequest (e : Event) : (s.note e).resetRequest = s.resetRequest := rfl
@[simp] theorem State.note_haltPin (e : Event) : (s.note e).haltPin = s.haltPin := rfl
@[simp] theorem State.note_map (e : Event) : (s.note e).map = s.map := rfl
@[simp] theorem State.note_outside (e : Event) : (s.note e).outside = s.outside := rfl
@[simp] theorem State.note_resetLine (e : Event) : (s.note e).resetLine = s.resetLine := rfl
@[simp] theorem State.note_events (e : Event) : (s.note e).events = e :: s.events := rfl
@[simp] theorem State.note_stream (e : Event) : (s.note e).stream = s.stream := rfl
@[simp] theorem State.note_free (e : Event) : (s.note e).free = s.free := rfl

@[simp] theorem State.spend_d : s.spend.d = s.d := rfl
@[simp] theorem State.spend_a : s.spend.a = s.a := rfl
@[simp] theorem State.spend_usp : s.spend.usp = s.usp := rfl
@[simp] theorem State.spend_ssp : s.spend.ssp = s.ssp := rfl
@[simp] theorem State.spend_pc : s.spend.pc = s.pc := rfl
@[simp] theorem State.spend_trace : s.spend.trace = s.trace := rfl
@[simp] theorem State.spend_super : s.spend.super = s.super := rfl
@[simp] theorem State.spend_mask : s.spend.mask = s.mask := rfl
@[simp] theorem State.spend_ccr : s.spend.ccr = s.ccr := rfl
@[simp] theorem State.spend_q0 : s.spend.q0 = s.q0 := rfl
@[simp] theorem State.spend_q1 : s.spend.q1 = s.q1 := rfl
@[simp] theorem State.spend_ir : s.spend.ir = s.ir := rfl
@[simp] theorem State.spend_owl : s.spend.owl = s.owl := rfl
@[simp] theorem State.spend_tracePending : s.spend.tracePending = s.tracePending := rfl
@[simp] theorem State.spend_run : s.spend.run = s.run := rfl
@[simp] theorem State.spend_l7Seen : s.spend.l7Seen = s.l7Seen := rfl
@[simp] theorem State.spend_mem : s.spend.mem = s.mem := rfl
@[simp] theorem State.spend_irqLevel : s.spend.irqLevel = s.irqLevel := rfl
@[simp] theorem State.spend_ack : s.spend.ack = s.ack := rfl
@[simp] theorem State.spend_resetRequest : s.spend.resetRequest = s.resetRequest := rfl
@[simp] theorem State.spend_haltPin : s.spend.haltPin = s.haltPin := rfl
@[simp] theorem State.spend_map : s.spend.map = s.map := rfl
@[simp] theorem State.spend_outside : s.spend.outside = s.outside := rfl
@[simp] theorem State.spend_resetLine : s.spend.resetLine = s.resetLine := rfl
@[simp] theorem State.spend_events : s.spend.events = s.events := rfl
@[simp] theorem State.spend_stream : s.spend.stream = s.stream := rfl
@[simp] theorem State.spend_free : s.spend.free = s.free + 1 := rfl

@[simp] theorem State.areg_note (e : Event) (m : RegNum) : (s.note e).areg m = s.areg m := rfl

@[simp] theorem State.wordAt_note (e : Event) (b : Fin 4) (x : Long) : (s.note e).wordAt b x = s.wordAt b x := rfl

@[simp] theorem State.settled_note (e : Event) : (s.note e).settled = s.settled := rfl

@[simp] theorem State.settled_spend : s.spend.settled = s.settled := rfl

/-! ### `settled` -/

@[simp] theorem State.settled_d : s.settled.d = s.d := rfl
@[simp] theorem State.settled_a : s.settled.a = s.a := rfl
@[simp] theorem State.settled_usp : s.settled.usp = s.usp := rfl
@[simp] theorem State.settled_ssp : s.settled.ssp = s.ssp := rfl
@[simp] theorem State.settled_pc : s.settled.pc = 0 := rfl
@[simp] theorem State.settled_trace : s.settled.trace = s.trace := rfl
@[simp] theorem State.settled_super : s.settled.super = s.super := rfl
@[simp] theorem State.settled_mask : s.settled.mask = s.mask := rfl
@[simp] theorem State.settled_ccr : s.settled.ccr = s.ccr := rfl
@[simp] theorem State.settled_q0 : s.settled.q0 = 0 := rfl
@[simp] theorem State.settled_q1 : s.settled.q1 = 0 := rfl
@[simp] theorem State.settled_ir : s.settled.ir = 0 := rfl
@[simp] theorem State.settled_owl : s.settled.owl = 0 := rfl
@[simp] theorem State.settled_tracePending : s.settled.tracePending = false := rfl
@[simp] theorem State.settled_run : s.settled.run = s.run := rfl
@[simp] theorem State.settled_l7Seen : s.settled.l7Seen = s.l7Seen := rfl
@[simp] theorem State.settled_mem : s.settled.mem = s.mem := rfl
@[simp] theorem State.settled_irqLevel : s.settled.irqLevel = s.irqLevel := rfl
@[simp] theorem State.settled_ack : s.settled.ack = s.ack := rfl
@[simp] theorem State.settled_resetRequest : s.settled.resetRequest = s.resetRequest := rfl
@[simp] theorem State.settled_haltPin : s.settled.haltPin = s.haltPin := rfl
@[simp] theorem State.settled_map : s.settled.map = s.map := rfl
@[simp] theorem State.settled_outside : s.settled.outside = s.outside := rfl
@[simp] theorem State.settled_resetLine : s.settled.resetLine = s.resetLine := rfl
@[simp] theorem State.settled_stream : s.settled.stream = [] := rfl
@[simp] theorem State.settled_events : s.settled.events = [] := rfl
@[simp] theorem State.settled_free : s.settled.free = 0 := rfl

/-! ### Address registers -/

/-- Writing an address register and reading one (10_state.md R24). -/
theorem State.areg_setAreg (m n : RegNum) (v : Long) : (s.setAreg n v).areg m = if m = n then v else s.areg m := by
  unfold State.setAreg State.areg
  by_cases hm : m.val < 7 <;> by_cases hn : n.val < 7 <;> simp only [hm, hn, dite_true, dite_false]
  · simp only [Vector.getElem_set, Fin.ext_iff, eq_comm]
  · have hne : m ≠ n := fun h => hn (h ▸ hm)
    cases s.super <;> simp [hne]
  · have hne : m ≠ n := fun h => hm (h ▸ hn)
    simp [hne]
  · have he : m = n := Fin.ext (by have := m.isLt; have := n.isLt; omega)
    cases hs : s.super <;> simp [he]

@[simp] theorem State.areg_setAreg_same (n : RegNum) (v : Long) : (s.setAreg n v).areg n = v := by
  simp [State.areg_setAreg]

@[simp] theorem State.areg_setAreg_of_ne (m n : RegNum) (v : Long) (h : m ≠ n) :
    (s.setAreg n v).areg m = s.areg m := by
  simp [State.areg_setAreg, h]

/-- The address registers depend on A0 to A6, the two stack pointers and S alone. -/
theorem State.areg_congr {s t : State} (ha : t.a = s.a) (hu : t.usp = s.usp) (hs : t.ssp = s.ssp)
    (hp : t.super = s.super) (n : RegNum) : t.areg n = s.areg n := by
  unfold State.areg
  rw [ha, hu, hs, hp]

@[simp] theorem State.areg_setDreg (n m : RegNum) (v : Long) : (s.setDreg n v).areg m = s.areg m := rfl

/-- Writing an address register and writing the condition codes commute. -/
theorem State.setFlags_setAreg (f : CCR) (n : RegNum) (v : Long) : (s.setFlags f).setAreg n v = (s.setAreg n v).setFlags f := by
  have hs : (s.setFlags f).super = s.super := rfl
  unfold State.setAreg
  rw [hs]
  by_cases hn : n.val < 7
  · rw [dif_pos hn, dif_pos hn]
    rfl
  · rw [dif_neg hn, dif_neg hn]
    cases s.super <;> rfl

@[simp] theorem State.areg_setFlags (f : CCR) (m : RegNum) : (s.setFlags f).areg m = s.areg m := rfl

@[simp] theorem State.areg_startInstr (m : RegNum) : s.startInstr.areg m = s.areg m := rfl

@[simp] theorem State.areg_storeByte (b : Fin 4) (x : Long) (v : Byte) (m : RegNum) :
    (s.storeByte b x v).areg m = s.areg m := rfl

@[simp] theorem State.areg_storeWord (b : Fin 4) (x : Long) (v : Word) (m : RegNum) :
    (s.storeWord b x v).areg m = s.areg m := rfl

@[simp] theorem State.areg_settled (m : RegNum) : s.settled.areg m = s.areg m := rfl

@[simp] theorem State.settled_startInstr : s.startInstr.settled = s.settled := rfl

@[simp] theorem State.settled_settled : s.settled.settled = s.settled := rfl

/-- Writing an address register commutes with settling. -/
theorem State.settled_setAreg (n : RegNum) (v : Long) : (s.setAreg n v).settled = s.settled.setAreg n v := by
  have hs : s.settled.super = s.super := rfl
  unfold State.setAreg
  rw [hs]
  by_cases hn : n.val < 7
  · rw [dif_pos hn, dif_pos hn]
    rfl
  · rw [dif_neg hn, dif_neg hn]
    cases s.super <;> rfl

theorem State.settled_setDreg (n : RegNum) (v : Long) : (s.setDreg n v).settled = s.settled.setDreg n v := rfl

theorem State.settled_setSr (w : Word) : (s.setSr w).settled = s.settled.setSr w := rfl

/-- The status register depends on its fields alone. -/
@[simp] theorem State.sr_startInstr : s.startInstr.sr = s.sr := rfl

@[simp] theorem State.sr_settled : s.settled.sr = s.sr := rfl

end Sys2Proof.Machine
end

