-- ==== Sys2Proof/Laws/Flow.lean ====
section
/-! SUPPORT. The part of the state that the instruction stream and the counters own: two states agree in everything else
just where one is the other with another such part. -/

namespace Sys2Proof.Machine

variable {s t : State}

/-- The fields that `State.settled` erases. -/
structure Flow where
  pc           : Long
  q0           : Word
  q1           : Word
  ir           : Word
  owl          : Long
  tracePending : Bool
  events       : List Event
  stream       : List Word
  free         : Nat
deriving DecidableEq, Repr

/-- The flow of a state. -/
def State.flow (s : State) : Flow := ⟨s.pc, s.q0, s.q1, s.ir, s.owl, s.tracePending, s.events, s.stream, s.free⟩

/-- The state with another flow. -/
def State.withFlow (s : State) (f : Flow) : State :=
  { s with
    pc := f.pc, q0 := f.q0, q1 := f.q1, ir := f.ir, owl := f.owl, tracePending := f.tracePending, events := f.events,
    stream := f.stream, free := f.free }

@[simp] theorem State.withFlow_flow : s.withFlow s.flow = s := rfl
@[simp] theorem State.flow_withFlow (f : Flow) : (s.withFlow f).flow = f := rfl
@[simp] theorem State.withFlow_withFlow (f g : Flow) : (s.withFlow f).withFlow g = s.withFlow g := rfl
@[simp] theorem State.settled_withFlow (f : Flow) : (s.withFlow f).settled = s.settled := rfl
@[simp] theorem State.flow_pc : s.flow.pc = s.pc := rfl
@[simp] theorem State.flow_q0 : s.flow.q0 = s.q0 := rfl
@[simp] theorem State.flow_q1 : s.flow.q1 = s.q1 := rfl
@[simp] theorem State.flow_tracePending : s.flow.tracePending = s.tracePending := rfl
@[simp] theorem State.withFlow_pc (f : Flow) : (s.withFlow f).pc = f.pc := rfl
@[simp] theorem State.withFlow_q0 (f : Flow) : (s.withFlow f).q0 = f.q0 := rfl
@[simp] theorem State.withFlow_q1 (f : Flow) : (s.withFlow f).q1 = f.q1 := rfl
@[simp] theorem State.withFlow_free (f : Flow) : (s.withFlow f).free = f.free := rfl
@[simp] theorem State.withFlow_tracePending (f : Flow) : (s.withFlow f).tracePending = f.tracePending := rfl
@[simp] theorem State.withFlow_owl (f : Flow) : (s.withFlow f).owl = f.owl := rfl
@[simp] theorem State.withFlow_d (f : Flow) : (s.withFlow f).d = s.d := rfl
@[simp] theorem State.withFlow_a (f : Flow) : (s.withFlow f).a = s.a := rfl
@[simp] theorem State.withFlow_usp (f : Flow) : (s.withFlow f).usp = s.usp := rfl
@[simp] theorem State.withFlow_ssp (f : Flow) : (s.withFlow f).ssp = s.ssp := rfl
@[simp] theorem State.withFlow_trace (f : Flow) : (s.withFlow f).trace = s.trace := rfl
@[simp] theorem State.withFlow_super (f : Flow) : (s.withFlow f).super = s.super := rfl
@[simp] theorem State.withFlow_mask (f : Flow) : (s.withFlow f).mask = s.mask := rfl
@[simp] theorem State.withFlow_ccr (f : Flow) : (s.withFlow f).ccr = s.ccr := rfl
@[simp] theorem State.withFlow_run (f : Flow) : (s.withFlow f).run = s.run := rfl
@[simp] theorem State.withFlow_mem (f : Flow) : (s.withFlow f).mem = s.mem := rfl
@[simp] theorem State.withFlow_map (f : Flow) : (s.withFlow f).map = s.map := rfl
@[simp] theorem State.withFlow_outside (f : Flow) : (s.withFlow f).outside = s.outside := rfl
@[simp] theorem State.withFlow_areg (f : Flow) (n : RegNum) : (s.withFlow f).areg n = s.areg n := rfl
@[simp] theorem State.withFlow_reg (f : Flow) (r : Reg) : (s.withFlow f).reg r = s.reg r := by cases r <;> rfl
@[simp] theorem State.withFlow_sr (f : Flow) : (s.withFlow f).sr = s.sr := rfl
@[simp] theorem State.withFlow_answer (f : Flow) (x : Long) (fc : FC) (dir : Dir) (w : Width) :
    (s.withFlow f).answer x fc dir w = s.answer x fc dir w := rfl
@[simp] theorem State.withFlow_wordAt (f : Flow) (b : Fin 4) (x : Long) : (s.withFlow f).wordAt b x = s.wordAt b x := rfl
@[simp] theorem State.withFlow_load (f : Flow) (sz : Size) (x : Long) : (s.withFlow f).load sz x = s.load sz x := by
  cases sz <;> rfl
@[simp] theorem State.withFlow_valueAt (f : Flow) (sz : Size) (loc : Loc) :
    (s.withFlow f).valueAt sz loc = s.valueAt sz loc := by
  cases loc
  case mem => exact State.withFlow_load f sz _
  all_goals rfl
@[simp] theorem State.withFlow_plain (f : Flow) : (s.withFlow f).Plain ↔ s.Plain := Iff.rfl

/-! Updates of the rest commute with a change of flow. -/

@[simp] theorem State.withFlow_setDreg (f : Flow) (n : RegNum) (v : Long) :
    (s.withFlow f).setDreg n v = (s.setDreg n v).withFlow f := rfl

@[simp] theorem State.withFlow_setAreg (f : Flow) (n : RegNum) (v : Long) :
    (s.withFlow f).setAreg n v = (s.setAreg n v).withFlow f := by
  have hs : (s.withFlow f).super = s.super := rfl
  unfold State.setAreg
  rw [hs]
  by_cases hn : n.val < 7
  · rw [dif_pos hn, dif_pos hn]
    rfl
  · rw [dif_neg hn, dif_neg hn]
    cases s.super <;> rfl

@[simp] theorem State.withFlow_setSr (f : Flow) (w : Word) : (s.withFlow f).setSr w = (s.setSr w).withFlow f := rfl

@[simp] theorem State.withFlow_setFlags (f : Flow) (c : CCR) :
    (s.withFlow f).setFlags c = (s.setFlags c).withFlow f := rfl

@[simp] theorem State.withFlow_storeByte (f : Flow) (b : Fin 4) (x : Long) (v : Byte) :
    (s.withFlow f).storeByte b x v = (s.storeByte b x v).withFlow f := rfl

@[simp] theorem State.withFlow_storeWord (f : Flow) (b : Fin 4) (x : Long) (v : Word) :
    (s.withFlow f).storeWord b x v = (s.storeWord b x v).withFlow f := rfl

@[simp] theorem State.withFlow_store (f : Flow) (sz : Size) (p : Bool) (x v : Long) :
    (s.withFlow f).store sz p x v = (s.store sz p x v).withFlow f := by
  cases sz
  case l => cases p <;> rfl
  all_goals rfl

@[simp] theorem State.withFlow_afterMode (f : Flow) (sz : Size) (ea : EA) :
    (s.withFlow f).afterMode sz ea = (s.afterMode sz ea).withFlow f := by
  cases ea
  case postInc => exact State.withFlow_setAreg f _ _
  case preDec => exact State.withFlow_setAreg f _ _
  all_goals rfl

@[simp] theorem State.withFlow_written (f : Flow) (sz : Size) (loc : Loc) (v : Long) :
    (s.withFlow f).written sz loc v = (s.written sz loc v).withFlow f := by
  cases loc
  case dreg => rfl
  case areg => exact State.withFlow_setAreg f _ _
  case mem => exact State.withFlow_store f sz _ _ _
  case imm => rfl

/-- An operand's location depends on the flow through the program counter alone. -/
theorem State.withFlow_locate {f : Flow} {k : Nat} (h : f.pc = s.pc + BitVec.ofNat 32 (2 * k)) (sz : Size) (ea : EA) :
    (s.withFlow f).locate sz ea = s.locAt k sz ea := by
  cases ea
  case pcDisp d =>
    show Loc.mem .program (f.pc + _) false = Loc.mem .program ((s.pc + BitVec.ofNat 32 (2 * k)) + _) false
    rw [h]
  case pcIndex x =>
    show Loc.mem .program (f.pc + indexOffset (s.withFlow f) x) false =
      Loc.mem .program ((s.pc + BitVec.ofNat 32 (2 * k)) + indexOffset s x) false
    rw [h]
    rfl
  all_goals rfl

/-- Two states with one settled part differ in their flow alone. -/
theorem State.eq_withFlow_of_settled (h : t.settled = s.settled) : t = s.withFlow t.flow := by
  have h' : (t.settled).withFlow t.flow = (s.settled).withFlow t.flow := by rw [h]
  exact h'

theorem State.settled_eq_iff : t.settled = s.settled ↔ ∃ f, t = s.withFlow f :=
  ⟨fun h => ⟨t.flow, State.eq_withFlow_of_settled h⟩, fun ⟨f, h⟩ => by rw [h]; rfl⟩

/-- The start of an instruction is a change of flow. -/
theorem State.startInstr_eq :
    s.startInstr =
      s.withFlow { s.flow with owl := s.pc, ir := s.q0, pc := s.pc + 2, tracePending := s.trace, stream := [] } := rfl

/-- Showing an event is a change of flow. -/
theorem State.note_eq (e : Event) : s.note e = s.withFlow { s.flow with events := e :: s.events } := rfl

/-! ## How the flow moves in plain memory -/

/-- The word of the second place of the queue after `n` more extension words are used, `m` giving the memory. -/
def Flow.wordAfter (f : Flow) (m : State) (n : Nat) : Word :=
  if n = 0 then f.q1 else m.wordAt 0 (f.pc + BitVec.ofNat 32 (2 * n))

/-- `g` is `f` after `n` more extension words are used. -/
structure Flow.Passed (f g : Flow) (m : State) (n : Nat) : Prop where
  pc_eq : g.pc = f.pc + BitVec.ofNat 32 (2 * n)
  q0_eq : g.q0 = f.q0
  q1_eq : g.q1 = f.wordAfter m n
  trace_eq : g.tracePending = f.tracePending

/-- `g` is `f` after `n` more extension words are used and the last fetch is made. -/
structure Flow.Done (f g : Flow) (m : State) (n : Nat) : Prop where
  pc_eq : g.pc = f.pc + BitVec.ofNat 32 (2 * n)
  q0_eq : g.q0 = f.wordAfter m n
  q1_eq : g.q1 = f.wordAfter m (n + 1)
  trace_eq : g.tracePending = f.tracePending

/-- `g` is `f` after the queue is filled from a target. -/
structure Flow.Arrived (f g : Flow) (m : State) (target : Long) : Prop where
  pc_eq : g.pc = target
  q0_eq : g.q0 = m.wordAt 0 target
  q1_eq : g.q1 = m.wordAt 0 (target + 2)
  trace_eq : g.tracePending = f.tracePending

theorem State.wordAt_congr (h : t.mem = s.mem) (b : Fin 4) (x : Long) : t.wordAt b x = s.wordAt b x := by
  simp only [State.wordAt, h]

/-- Passing `m` and then `n` words is passing `m + n`. -/
theorem pc_add (p : Long) (m n : Nat) :
    p + BitVec.ofNat 32 (2 * m) + BitVec.ofNat 32 (2 * n) = p + BitVec.ofNat 32 (2 * (m + n)) := by
  rw [Nat.mul_add, BitVec.ofNat_add, BitVec.add_assoc]

theorem pc_two (p : Long) : p + 2 = p + BitVec.ofNat 32 (2 * 1) := rfl

variable {f g h : Flow} {m : State} {a b : Nat} {x : Long}

theorem Flow.Passed.refl (f : Flow) (m : State) : f.Passed f m 0 := ⟨by simp, rfl, rfl, rfl⟩

/-- The word after `a` and then `b` words is the word after `a + b`. -/
theorem Flow.Passed.wordAfter (p : f.Passed g m a) (b : Nat) : g.wordAfter m b = f.wordAfter m (a + b) := by
  unfold Flow.wordAfter
  by_cases hb : b = 0
  · subst hb
    rw [if_pos rfl, p.q1_eq]
    rfl
  · rw [if_neg hb, if_neg (by omega), p.pc_eq, pc_add]

theorem Flow.Passed.trans (p : f.Passed g m a) (q : g.Passed h m b) : f.Passed h m (a + b) :=
  ⟨by rw [q.pc_eq, p.pc_eq, pc_add], q.q0_eq.trans p.q0_eq, by rw [q.q1_eq, p.wordAfter], q.trace_eq.trans p.trace_eq⟩

theorem Flow.Passed.done (p : f.Passed g m a) (q : g.Done h m b) : f.Done h m (a + b) :=
  ⟨by rw [q.pc_eq, p.pc_eq, pc_add], by rw [q.q0_eq, p.wordAfter], by rw [q.q1_eq, p.wordAfter, Nat.add_assoc],
    q.trace_eq.trans p.trace_eq⟩

theorem Flow.Passed.arrived (p : f.Passed g m a) {m' : State} (q : g.Arrived h m' x) : f.Arrived h m' x :=
  ⟨q.pc_eq, q.q0_eq, q.q1_eq, q.trace_eq.trans p.trace_eq⟩

/-- What passes no word leaves the program counter and the queue. -/
theorem Flow.Passed.pc_same (p : f.Passed g m 0) : g.pc = f.pc := by rw [p.pc_eq]; simp

theorem Flow.Passed.q1_same (p : f.Passed g m 0) : g.q1 = f.q1 := p.q1_eq

/-- It leaves a finished movement finished. -/
theorem Flow.Done.same {m' : State} (d : f.Done g m a) (p : g.Passed h m' 0) : f.Done h m a :=
  ⟨p.pc_same.trans d.pc_eq, p.q0_eq.trans d.q0_eq, p.q1_same.trans d.q1_eq, p.trace_eq.trans d.trace_eq⟩

/-- It can stand anywhere in a movement. -/
theorem Flow.Passed.same {m' : State} (d : f.Passed g m a) (p : g.Passed h m' 0) : f.Passed h m a :=
  ⟨p.pc_same.trans d.pc_eq, p.q0_eq.trans d.q0_eq, p.q1_same.trans d.q1_eq, p.trace_eq.trans d.trace_eq⟩

/-- The movements look at memory alone. -/
theorem Flow.wordAfter_congr {m' : State} (hm : m'.mem = m.mem) (f : Flow) (n : Nat) :
    f.wordAfter m' n = f.wordAfter m n := by
  unfold Flow.wordAfter
  rw [State.wordAt_congr hm]

theorem Flow.Passed.congr {m' : State} (p : f.Passed g m' a) (hm : m'.mem = m.mem) : f.Passed g m a :=
  ⟨p.pc_eq, p.q0_eq, p.q1_eq.trans (Flow.wordAfter_congr hm f a), p.trace_eq⟩

theorem Flow.Done.congr {m' : State} (p : f.Done g m' a) (hm : m'.mem = m.mem) : f.Done g m a :=
  ⟨p.pc_eq, p.q0_eq.trans (Flow.wordAfter_congr hm f a), p.q1_eq.trans (Flow.wordAfter_congr hm f _), p.trace_eq⟩

theorem Flow.Arrived.congr {m' : State} (p : f.Arrived g m' x) (hm : m'.mem = m.mem) : f.Arrived g m x :=
  ⟨p.pc_eq, p.q0_eq.trans (State.wordAt_congr hm 0 _), p.q1_eq.trans (State.wordAt_congr hm 0 _), p.trace_eq⟩

end Sys2Proof.Machine
end

