-- ==== Sys2Proof/Laws/Memory.lean ====
section
/-! SUPPORT. The laws of memory: a read after a write, and the canonical form under every memory operation. -/

namespace Sys2Proof.Machine

/-- The canonical form from a key on holds from every smaller key on. -/
theorem Memory.wfFrom_mono {m : Memory} {i j : Nat} (h : i ≤ j) (hm : Memory.wfFrom j m = true) :
    Memory.wfFrom i m = true := by
  cases m with
  | nil => rfl
  | cons c m =>
    obtain ⟨k, v⟩ := c
    simp only [Memory.wfFrom, Bool.and_eq_true, decide_eq_true_eq] at hm ⊢
    obtain ⟨⟨⟨h1, h2⟩, h3⟩, h4⟩ := hm
    exact ⟨⟨⟨by omega, h2⟩, h3⟩, h4⟩

/-- A canonical memory that starts after a key reads as unwritten at that key. -/
theorem Memory.readByte_below {m : Memory} {i k : Nat} (hm : Memory.wfFrom i m = true) (h : k < i) :
    Memory.readByte m k = Config.unwritten := by
  induction m generalizing i with
  | nil => rfl
  | cons c m ih =>
    obtain ⟨k', v⟩ := c
    simp only [Memory.wfFrom, Bool.and_eq_true, decide_eq_true_eq] at hm
    obtain ⟨⟨⟨h1, h2⟩, h3⟩, h4⟩ := hm
    rw [Memory.readByte, if_neg (by omega)]
    exact ih h4 (by omega)

/-- A write keeps the canonical form from a key on. -/
theorem Memory.wfFrom_writeByte {m : Memory} {i k : Nat} {v : Byte} (hm : Memory.wfFrom i m = true) (hi : i ≤ k)
    (hk : k < memoryKeys) : Memory.wfFrom i (Memory.writeByte m k v) = true := by
  induction m generalizing i with
  | nil =>
    rw [Memory.writeByte]
    split
    · rfl
    · rename_i hv
      simp [Memory.wfFrom, hi, hk, hv]
  | cons c m ih =>
    obtain ⟨k', v'⟩ := c
    have hm' := hm
    simp only [Memory.wfFrom, Bool.and_eq_true, decide_eq_true_eq] at hm'
    obtain ⟨⟨⟨h1, h2⟩, h3⟩, h4⟩ := hm'
    rw [Memory.writeByte]
    split
    · rename_i hlt
      split
      · exact hm
      · rename_i hv
        simp only [Memory.wfFrom, Bool.and_eq_true, decide_eq_true_eq]
        exact ⟨⟨⟨hi, hk⟩, by simp [hv]⟩, ⟨⟨by omega, h2⟩, h3⟩, h4⟩
    · split
      · rename_i heq
        subst heq
        split
        · exact Memory.wfFrom_mono (by omega) h4
        · rename_i hv
          simp only [Memory.wfFrom, Bool.and_eq_true, decide_eq_true_eq]
          exact ⟨⟨⟨hi, hk⟩, by simp [hv]⟩, h4⟩
      · simp only [Memory.wfFrom, Bool.and_eq_true, decide_eq_true_eq]
        exact ⟨⟨⟨h1, h2⟩, h3⟩, ih h4 (by omega)⟩

/-- A write keeps the canonical form. -/
theorem Memory.wf_writeByte {m : Memory} {k : Nat} {v : Byte} (hm : m.wf = true) (hk : k < memoryKeys) :
    (m.writeByte k v).wf = true := Memory.wfFrom_writeByte hm (Nat.zero_le k) hk

/-- A read after a write of a canonical memory from a key on. -/
theorem Memory.readByte_writeByte_from {m : Memory} {i k j : Nat} {v : Byte} (hm : Memory.wfFrom i m = true) :
    (m.writeByte k v).readByte j = if j = k then v else m.readByte j := by
  induction m generalizing i with
  | nil =>
    rw [Memory.writeByte]
    split
    · rename_i hv
      simp [Memory.readByte, hv]
    · simp [Memory.readByte, eq_comm]
  | cons c m ih =>
    obtain ⟨k', v'⟩ := c
    simp only [Memory.wfFrom, Bool.and_eq_true, decide_eq_true_eq] at hm
    obtain ⟨⟨⟨h1, h2⟩, h3⟩, h4⟩ := hm
    rw [Memory.writeByte]
    split
    · rename_i hlt
      split
      · rename_i hv
        split
        · rename_i hj
          subst hj
          rw [Memory.readByte, if_neg (by omega), hv]
          exact Memory.readByte_below h4 (by omega)
        · rfl
      · by_cases hj : j = k
        · simp [Memory.readByte, hj]
        · simp [Memory.readByte, hj, Ne.symm hj]
    · rename_i hge
      split
      · rename_i heq
        subst heq
        split
        · rename_i hv
          by_cases hj : j = k'
          · subst hj
            simp [hv, Memory.readByte_below h4 (Nat.lt_succ_self j)]
          · simp [Memory.readByte, hj, Ne.symm hj]
        · by_cases hj : j = k'
          · simp [Memory.readByte, hj]
          · simp [Memory.readByte, hj, Ne.symm hj]
      · rename_i hne
        simp only [Memory.readByte]
        by_cases hj : k' = j
        · have : j ≠ k := by omega
          simp [hj, this]
        · simp only [if_neg hj]
          exact ih h4

/-- A read after a write gives the value written at that key and leaves every other key alone. -/
theorem Memory.readByte_writeByte {m : Memory} {k j : Nat} {v : Byte} (hm : m.wf = true) :
    (m.writeByte k v).readByte j = if j = k then v else m.readByte j := Memory.readByte_writeByte_from hm

end Sys2Proof.Machine
end

