-- ==== Sys2Proof/Laws/Ops.lean ====
section
/-! SUPPORT. For each shared operation of Machine/Ops.lean, once, everything it can do. -/

namespace Sys2Proof.Machine

variable {s s' : State}

/-! ## Bus cycles -/

/-- With no act of another agent to come, the bus is the processor's. -/
theorem grantBus_idle (h : s.outside = []) (again : Option Event) : grantBus again s = .ok () s := by
  unfold grantBus
  rw [h]
  show EStateM.Result.ok () { s with outside := [] } = _
  rw [← h]

/-- A byte read gives what memory holds or a free value of a device, and shows the cycle. -/
theorem performReadByte_ok {addr : Long} {fc : FC} {v : Byte} (h : performReadByte addr fc s = .ok v s') :
    (∃ bank, s.answer addr fc .read .byte = .memory bank ∧ v = s.mem.readByte (byteKey bank addr) ∧
        s' = s.note (.read (physical addr) fc .byte (v.setWidth 16))) ∨
      (s.answer addr fc .read .byte = .device ∧ v = Config.freeByte s.free ∧
        s' = s.spend.note (.read (physical addr) fc .byte (v.setWidth 16))) := by
  unfold performReadByte at h
  split at h
  · rename_i bank ha; cases h; exact .inl ⟨bank, ha, rfl, rfl⟩
  · rename_i ha; cases h; exact .inr ⟨ha, rfl, rfl⟩
  · cases h
  · cases h

/-- A byte read that aborts: BERR, or nobody answers. -/
theorem performReadByte_error {addr : Long} {fc : FC} {e : Abort} (h : performReadByte addr fc s = .error e s') :
    (s.answer addr fc .read .byte = .berr ∧ e = .group0 ⟨.busError, addr, .read, fc, .operand⟩ ∧
        s' = s.note (.aborted (physical addr) fc .byte none false)) ∨
      (s.answer addr fc .read .byte = .noAnswer ∧ e = .hang ∧ s' = s) := by
  unfold performReadByte at h
  split at h
  · cases h
  · cases h
  · rename_i ha; cases h; exact .inl ⟨ha, rfl, rfl⟩
  · rename_i ha; cases h; exact .inr ⟨ha, rfl, rfl⟩

/-- A word read gives what memory holds or a free value of a device, and shows the cycle. -/
theorem performReadWord_ok {addr : Long} {fc : FC} {v : Word} (h : performReadWord addr fc s = .ok v s') :
    (∃ bank, s.answer addr fc .read .word = .memory bank ∧ v = s.wordAt bank addr ∧
        s' = s.note (.read (physical addr) fc .word v)) ∨
      (s.answer addr fc .read .word = .device ∧ v = Config.freeWord s.free ∧
        s' = s.spend.note (.read (physical addr) fc .word v)) := by
  unfold performReadWord at h
  split at h
  · rename_i bank ha; cases h; exact .inl ⟨bank, ha, rfl, rfl⟩
  · rename_i ha; cases h; exact .inr ⟨ha, rfl, rfl⟩
  · cases h
  · cases h

/-- A word read that aborts: BERR, or nobody answers. -/
theorem performReadWord_error {addr : Long} {fc : FC} {e : Abort} (h : performReadWord addr fc s = .error e s') :
    (s.answer addr fc .read .word = .berr ∧ e = .group0 ⟨.busError, addr, .read, fc, .operand⟩ ∧
        s' = s.note (.aborted (physical addr) fc .word none false)) ∨
      (s.answer addr fc .read .word = .noAnswer ∧ e = .hang ∧ s' = s) := by
  unfold performReadWord at h
  split at h
  · cases h
  · cases h
  · rename_i ha; cases h; exact .inl ⟨ha, rfl, rfl⟩
  · rename_i ha; cases h; exact .inr ⟨ha, rfl, rfl⟩

/-- A byte write stores it in the memory that answers, or gives it to a device, and shows the cycle. -/
theorem performWriteByte_ok {addr : Long} {fc : FC} {v : Byte} (h : performWriteByte addr fc v s = .ok () s') :
    (∃ bank, s.answer addr fc .write .byte = .memory bank ∧
        s' = (s.storeByte bank addr v).note (.write (physical addr) fc .byte (v.setWidth 16))) ∨
      (s.answer addr fc .write .byte = .device ∧ s' = s.note (.write (physical addr) fc .byte (v.setWidth 16))) := by
  unfold performWriteByte at h
  split at h
  · rename_i bank ha; cases h; exact .inl ⟨bank, ha, rfl⟩
  · rename_i ha; cases h; exact .inr ⟨ha, rfl⟩
  · cases h
  · cases h

/-- A byte write that aborts leaves memory unchanged (20_memory.md R69). -/
theorem performWriteByte_error {addr : Long} {fc : FC} {v : Byte} {e : Abort}
    (h : performWriteByte addr fc v s = .error e s') :
    (s.answer addr fc .write .byte = .berr ∧ e = .group0 ⟨.busError, addr, .write, fc, .operand⟩ ∧
        s' = s.note (.aborted (physical addr) fc .byte (some (v.setWidth 16)) false)) ∨
      (s.answer addr fc .write .byte = .noAnswer ∧ e = .hang ∧ s' = s) := by
  unfold performWriteByte at h
  split at h
  · cases h
  · cases h
  · rename_i ha; cases h; exact .inl ⟨ha, rfl, rfl⟩
  · rename_i ha; cases h; exact .inr ⟨ha, rfl, rfl⟩

/-- A word write stores it in the memory that answers, or gives it to a device, and shows the cycle. -/
theorem performWriteWord_ok {addr : Long} {fc : FC} {v : Word} (h : performWriteWord addr fc v s = .ok () s') :
    (∃ bank, s.answer addr fc .write .word = .memory bank ∧
        s' = (s.storeWord bank addr v).note (.write (physical addr) fc .word v)) ∨
      (s.answer addr fc .write .word = .device ∧ s' = s.note (.write (physical addr) fc .word v)) := by
  unfold performWriteWord at h
  split at h
  · rename_i bank ha; cases h; exact .inl ⟨bank, ha, rfl⟩
  · rename_i ha; cases h; exact .inr ⟨ha, rfl⟩
  · cases h
  · cases h

/-- A word write that aborts leaves memory unchanged (20_memory.md R69). -/
theorem performWriteWord_error {addr : Long} {fc : FC} {v : Word} {e : Abort}
    (h : performWriteWord addr fc v s = .error e s') :
    (s.answer addr fc .write .word = .berr ∧ e = .group0 ⟨.busError, addr, .write, fc, .operand⟩ ∧
        s' = s.note (.aborted (physical addr) fc .word (some v) false)) ∨
      (s.answer addr fc .write .word = .noAnswer ∧ e = .hang ∧ s' = s) := by
  unfold performWriteWord at h
  split at h
  · cases h
  · cases h
  · rename_i ha; cases h; exact .inl ⟨ha, rfl, rfl⟩
  · rename_i ha; cases h; exact .inr ⟨ha, rfl, rfl⟩

/-- The write phase of a read-modify-write cycle stores the byte in the memory that answers, or gives it to a device. -/
theorem modifyWrite_ok {addr : Long} {fc : FC} {old new : Byte} (h : modifyWrite addr fc old new s = .ok () s') :
    (∃ bank, s.answer addr fc .write .byte = .memory bank ∧
        s' = (s.storeByte bank addr new).note (.modify (physical addr) fc old new)) ∨
      (s.answer addr fc .write .byte = .device ∧ s' = s.note (.modify (physical addr) fc old new)) := by
  unfold modifyWrite at h
  split at h
  · rename_i bank ha; cases h; exact .inl ⟨bank, ha, rfl⟩
  · rename_i ha; cases h; exact .inr ⟨ha, rfl⟩
  · cases h
  · cases h

/-- A memory access that completes was aligned. -/
theorem memRead_aligned {sz : Size} {addr : Long} {fc : FC} {v : Long} (h : memRead sz addr fc s = .ok v s') :
    misaligned sz addr = false := by
  unfold memRead at h
  split at h
  · cases h
  · rename_i ha
    simpa using ha

/-- A misaligned read is an address error, and nothing else happens (20_memory.md R67). -/
theorem memRead_misaligned {sz : Size} {addr : Long} (ha : misaligned sz addr = true) (fc : FC) :
    memRead sz addr fc s = .error (.group0 ⟨.addressError, addr, .read, fc, .operand⟩) s := by
  unfold memRead
  rw [if_pos ha]
  rfl

/-- A misaligned write is an address error, and nothing else happens (R67). -/
theorem memWrite_misaligned {sz : Size} {addr : Long} (ha : misaligned sz addr = true) (p : Bool) (fc : FC) (v : Long) :
    memWrite sz p addr fc v s = .error (.group0 ⟨.addressError, addr, .write, fc, .operand⟩) s := by
  unfold memWrite
  rw [if_pos ha]
  rfl

/-! ## The instruction stream -/

/-- The use of an extension word reads the word after the queue, which takes the place of the one used. -/
theorem fetchExt_ok (h : fetchExt s = .ok () s') :
    ∃ w s1, readWordCycle (s.pc + 2) s.programFC s = .ok w s1 ∧
      s' = { s1 with q1 := w, pc := s.pc + 2, stream := s1.stream ++ [w] } := by
  obtain ⟨w, s1, h1, h⟩ := bind_ok.mp (show (readWordCycle (s.pc + 2) s.programFC >>= _) s = _ from h)
  cases h
  exact ⟨w, s1, h1, rfl⟩

/-- The last fetch of an instruction shifts the queue. -/
theorem lastFetch_ok (h : lastFetch s = .ok () s') :
    ∃ w s1, readWordCycle (s.pc + 2) s.programFC s = .ok w s1 ∧ s' = { s1 with q0 := s1.q1, q1 := w } := by
  obtain ⟨w, s1, h1, h⟩ := bind_ok.mp (show (readWordCycle (s.pc + 2) s.programFC >>= _) s = _ from h)
  cases h
  exact ⟨w, s1, h1, rfl⟩

/-- A word of the instruction stream that is read was at an even address. -/
theorem fetchWord_ok {addr : Long} {fc : FC} {w : Word} (h : fetchWord addr fc s = .ok w s') :
    addr.getLsbD 0 = false ∧ readWordCycle addr fc s = .ok w s' := by
  unfold fetchWord at h
  split at h
  · cases h
  · rename_i ha
    exact ⟨by simpa using ha, h⟩

/-- An operation whose faults are laid elsewhere completes just where the operation does. -/
theorem relaid_ok {α : Type} {g : BusFault → BusFault} {m : Exec α} {v : α} :
    relaid g m s = .ok v s' ↔ m s = .ok v s' := by
  unfold relaid
  cases m s <;> simp

/-- And it aborts just where the operation does, in the same state. -/
theorem relaid_error {α : Type} {g : BusFault → BusFault} {m : Exec α} {e : Abort} :
    relaid g m s = .error e s' ↔ ∃ e', m s = .error e' s' ∧ e = e'.mapFault g := by
  unfold relaid
  cases m s with
  | ok v t => simp
  | error e' t =>
    constructor
    · intro h; cases h; exact ⟨e', rfl, rfl⟩
    · rintro ⟨e'', h, rfl⟩; cases h; rfl

theorem relaid_of_ok {α : Type} {g : BusFault → BusFault} {m : Exec α} {v : α} (h : m s = .ok v s') :
    relaid g m s = .ok v s' := relaid_ok.mpr h

theorem relaid_of_error {α : Type} {g : BusFault → BusFault} {m : Exec α} {e : Abort} (h : m s = .error e s') :
    relaid g m s = .error (e.mapFault g) s' := relaid_error.mpr ⟨e, h, rfl⟩

/-- A transfer of control that completes goes to an even address and fills the queue by two reads from there. -/
theorem jump_ok {t : Long} (h : jump t s = .ok () s') :
    t.getLsbD 0 = false ∧ ∃ w0 w1 s1 s2, readWordCycle t s.programFC { s with pc := t } = .ok w0 s1 ∧
      readWordCycle (t + 2) s.programFC s1 = .ok w1 s2 ∧ s' = { s2 with q0 := w0, q1 := w1 } := by
  have h : (fetchWord t s.programFC >>= _) { s with pc := t } = _ := relaid_ok.mp h
  obtain ⟨w0, s1, h1, h⟩ := bind_ok.mp h
  obtain ⟨w1, s2, h2, h⟩ := bind_ok.mp h
  cases h
  obtain ⟨ht, h1⟩ := fetchWord_ok h1
  exact ⟨ht, w0, w1, s1, s2, h1, h2, rfl⟩

/-! ## The end of a step -/

@[simp] theorem concluded_ok (onFault : BusFault → State → Outcome) (s : State) :
    concluded onFault (.ok () s) = .next s := rfl

@[simp] theorem concluded_fault (onFault : BusFault → State → Outcome) (f : BusFault) (s : State) :
    concluded onFault (.error (.group0 f) s) = onFault f s := rfl

@[simp] theorem concluded_reset (onFault : BusFault → State → Outcome) (s : State) :
    concluded onFault (.error .reset s) = .next { s with resetRequest := true } := rfl

/-- A step that answers a next state: the operation completed, its fault was taken, or a reset is to be served. -/
theorem concluded_next {onFault : BusFault → State → Outcome} {r : EStateM.Result Abort State Unit} {t : State}
    (h : concluded onFault r = .next t) :
    r = .ok () t ∨ (∃ f u, r = .error (.group0 f) u ∧ onFault f u = .next t) ∨
      ∃ u, r = .error .reset u ∧ t = { u with resetRequest := true } := by
  unfold concluded at h
  split at h
  · cases h; exact .inl rfl
  · exact .inr (.inl ⟨_, _, rfl, h⟩)
  · cases h
  · cases h; exact .inr (.inr ⟨_, rfl, rfl⟩)

/-! ## Plain memory -/

theorem lookup_nil (addr : Long) (fc : FC) (dir : Dir) (w : Width) : lookup [] addr fc dir w = .memory 0 := rfl

/-- Plain memory depends on the map and on the other agents alone. -/
theorem State.Plain.congr {t : State} (h : s.Plain) (hm : t.map = s.map) (ho : t.outside = s.outside) : t.Plain := by
  refine ⟨ho.trans h.1, fun addr fc dir w => ?_⟩
  show lookup t.map addr fc dir w = _
  rw [hm]
  exact h.2 addr fc dir w

/-- Over an empty map no cycle is made that a program does not ask for. -/
@[simp] theorem State.plainMap_of_map (h : s.map = []) : s.plainMap = true := by
  unfold State.plainMap
  rw [h]
  rfl

/-- Cycles that a program does not ask for are omitted over plain memory, and made otherwise. -/
theorem unasked_run (m : Exec Unit) : unasked m s = if s.plainMap then .ok () s else m s := rfl

/-- An environment without regions and without other agents is plain memory. -/
theorem State.plain_of_map (h : s.map = []) (ho : s.outside = []) : s.Plain := by
  refine ⟨ho, fun addr fc dir w => ?_⟩
  show lookup s.map addr fc dir w = _
  rw [h]
  rfl

theorem State.Plain.grantBus (h : s.Plain) (again : Option Event) : grantBus again s = .ok () s := grantBus_idle h.1 again

/-- The state after an event is shown. -/
def Flow.noted (f : Flow) (e : Event) : Flow := { f with events := e :: f.events }

theorem Flow.noted_passed (f : Flow) (e : Event) (m : State) : f.Passed (f.noted e) m 0 :=
  ⟨by simp [Flow.noted], rfl, rfl, rfl⟩

theorem readWordCycle_plain (h : s.Plain) (addr : Long) (fc : FC) :
    readWordCycle addr fc s = .ok (s.wordAt 0 addr) (s.note (.read (physical addr) fc .word (s.wordAt 0 addr))) := by
  unfold readWordCycle
  rw [bind_of_ok (h.grantBus _)]
  unfold performReadWord
  simp only [h.2]

theorem readByteCycle_plain (h : s.Plain) (addr : Long) (fc : FC) :
    readByteCycle addr fc s = .ok (s.mem.readByte (byteKey 0 addr))
      (s.note (.read (physical addr) fc .byte ((s.mem.readByte (byteKey 0 addr)).setWidth 16))) := by
  unfold readByteCycle
  rw [bind_of_ok (h.grantBus _)]
  unfold performReadByte
  simp only [h.2]

theorem writeWordCycle_plain (h : s.Plain) (addr : Long) (fc : FC) (v : Word) :
    writeWordCycle addr fc v s = .ok () ((s.storeWord 0 addr v).note (.write (physical addr) fc .word v)) := by
  unfold writeWordCycle
  rw [bind_of_ok (h.grantBus _)]
  unfold performWriteWord
  simp only [h.2]

theorem writeByteCycle_plain (h : s.Plain) (addr : Long) (fc : FC) (v : Byte) :
    writeByteCycle addr fc v s = .ok () ((s.storeByte 0 addr v).note (.write (physical addr) fc .byte (v.setWidth 16))) := by
  unfold writeByteCycle
  rw [bind_of_ok (h.grantBus _)]
  unfold performWriteByte
  simp only [h.2]

/-- `t` is `e` but for events that cycles have shown. -/
def Shown (e t : State) : Prop := ∃ es, t = { e with events := es }

theorem Shown.refl (s : State) : Shown s s := ⟨s.events, rfl⟩

theorem Shown.note (e : Event) (s : State) : Shown s (s.note e) := ⟨e :: s.events, rfl⟩

theorem Shown.trans {a b c : State} (h : Shown a b) (g : Shown b c) : Shown a c := by
  obtain ⟨_, rfl⟩ := h
  obtain ⟨_, rfl⟩ := g
  exact ⟨_, rfl⟩

theorem State.setAreg_shown (es : List Event) (n : RegNum) (v : Long) :
    ({ s with events := es } : State).setAreg n v = { s.setAreg n v with events := es } := by
  unfold State.setAreg
  by_cases hn : n.val < 7
  · rw [dif_pos hn, dif_pos hn]
  · rw [dif_neg hn, dif_neg hn]
    cases hs : s.super <;> simp

theorem Shown.plain {e t : State} (h : Shown e t) (hp : e.Plain) : t.Plain := by
  obtain ⟨_, rfl⟩ := h
  exact hp

theorem Shown.settled {e t : State} (h : Shown e t) : t.settled = e.settled := by
  obtain ⟨_, rfl⟩ := h
  rfl

/-- As a change of flow: nothing has been fetched. -/
theorem Shown.flow {e t : State} (h : Shown e t) (m : State) : ∃ f, t = e.withFlow f ∧ e.flow.Passed f m 0 := by
  obtain ⟨es, rfl⟩ := h
  exact ⟨{ e.flow with events := es }, rfl, by simp, rfl, rfl, rfl⟩

/-- A read of plain memory at an aligned address gives the bytes there, whatever the function code. -/
theorem memRead_plain (h : s.Plain) {sz : Size} {addr : Long} (ha : misaligned sz addr = false) (fc : FC) :
    ∃ t, memRead sz addr fc s = .ok (s.load sz addr) t ∧ Shown s t := by
  unfold memRead
  rw [if_neg (by simp [ha])]
  cases sz with
  | b => exact ⟨_, bind_of_ok (readByteCycle_plain h addr fc), Shown.note _ _⟩
  | w => exact ⟨_, bind_of_ok (readWordCycle_plain h addr fc), Shown.note _ _⟩
  | l =>
    exact ⟨_, (bind_of_ok (readWordCycle_plain h addr fc)).trans
      (bind_of_ok (readWordCycle_plain ((Shown.note _ s).plain h) (addr + 2) fc)), (Shown.note _ _).trans (Shown.note _ _)⟩

/-- A write of plain memory at an aligned address stores the bytes there. -/
theorem memWrite_plain (h : s.Plain) {sz : Size} {addr : Long} (ha : misaligned sz addr = false) (p : Bool) (fc : FC)
    (v : Long) : ∃ t, memWrite sz p addr fc v s = .ok () t ∧ Shown (s.store sz p addr v) t := by
  unfold memWrite
  rw [if_neg (by simp [ha])]
  cases sz with
  | b => exact ⟨_, writeByteCycle_plain h addr fc _, Shown.note _ _⟩
  | w => exact ⟨_, writeWordCycle_plain h addr fc _, Shown.note _ _⟩
  | l =>
    cases p with
    | true =>
      refine ⟨_, (bind_of_ok (writeWordCycle_plain h (addr + 2) fc (lowWord v))).trans
        (writeWordCycle_plain (s := (s.storeWord 0 (addr + 2) (lowWord v)).note _) h addr fc (highWord v)), ?_⟩
      exact ⟨_, rfl⟩
    | false =>
      refine ⟨_, (bind_of_ok (writeWordCycle_plain h addr fc (highWord v))).trans
        (writeWordCycle_plain (s := (s.storeWord 0 addr (highWord v)).note _) h (addr + 2) fc (lowWord v)), ?_⟩
      exact ⟨_, rfl⟩

theorem writeData_plain (h : s.Plain) {sz : Size} {addr : Long} (ha : misaligned sz addr = false) (p : Bool)
    (v : Long) : ∃ t, writeData sz p addr v s = .ok () t ∧ Shown (s.store sz p addr v) t := memWrite_plain h ha p _ v

theorem readData_plain (h : s.Plain) {sz : Size} {addr : Long} (ha : misaligned sz addr = false) :
    ∃ t, readData sz addr s = .ok (s.load sz addr) t ∧ Shown s t := memRead_plain h ha _

/-- In plain memory the last fetch completes. -/
theorem lastFetch_plain (h : s.Plain) : ∃ g, lastFetch s = .ok () (s.withFlow g) ∧ s.flow.Done g s 0 := by
  let e : Event := .read (physical (s.pc + 2)) s.programFC .word (s.wordAt 0 (s.pc + 2))
  refine ⟨{ s.flow with q0 := s.q1, q1 := s.wordAt 0 (s.pc + 2), events := e :: s.events },
    bind_of_ok (readWordCycle_plain h (s.pc + 2) s.programFC), ?_, rfl, rfl, rfl⟩
  simp

/-- In plain memory an extension word is used without a fault. -/
theorem fetchExt_plain (h : s.Plain) : ∃ g, fetchExt s = .ok () (s.withFlow g) ∧ s.flow.Passed g s 1 :=
  let w := s.wordAt 0 (s.pc + 2)
  let e : Event := .read (physical (s.pc + 2)) s.programFC .word w
  ⟨{ s.flow with q1 := w, pc := s.pc + 2, stream := s.stream ++ [w], events := e :: s.events },
    bind_of_ok (readWordCycle_plain h (s.pc + 2) s.programFC), rfl, rfl, rfl, rfl⟩

/-- In plain memory a transfer of control to an even address completes. -/
theorem jump_plain (h : s.Plain) {t : Long} (ht : t.getLsbD 0 = false) :
    ∃ g, jump t s = .ok () (s.withFlow g) ∧ s.flow.Arrived g s t := by
  let e : Event := .read (physical t) s.programFC .word (s.wordAt 0 t)
  let e' : Event := .read (physical (t + 2)) s.programFC .word (s.wordAt 0 (t + 2))
  have h0 : fetchWord t s.programFC { s with pc := t } = .ok (s.wordAt 0 t) (({ s with pc := t } : State).note e) := by
    unfold fetchWord
    rw [if_neg (by rw [ht]; decide)]
    exact readWordCycle_plain (s := { s with pc := t }) h t _
  have h1 : fetchTarget t s = .ok () (s.withFlow
      { s.flow with pc := t, q0 := s.wordAt 0 t, q1 := s.wordAt 0 (t + 2), events := e' :: e :: s.events }) := by
    show (fetchWord t s.programFC >>= _) { s with pc := t } = _
    rw [bind_of_ok h0, bind_of_ok (readWordCycle_plain (s := ({ s with pc := t } : State).note e) h (t + 2) _)]
    rfl
  exact ⟨_, relaid_of_ok h1, rfl, rfl, rfl, rfl⟩

/-- A transfer of control to an odd address is an address error of the fetch at the target (45_program_control.md R279). -/
theorem jump_odd {t : Long} (ht : t.getLsbD 0 = true) :
    jump t s = .error (.group0 ⟨.addressError, t, .read, s.programFC, .target t⟩) { s with pc := t } := by
  have h0 : fetchWord t s.programFC { s with pc := t } =
      .error (.group0 ⟨.addressError, t, .read, s.programFC, .operand⟩) { s with pc := t } := by
    unfold fetchWord
    rw [if_pos ht]
    rfl
  have h1 : fetchTarget t s = .error (.group0 ⟨.addressError, t, .read, s.programFC, .operand⟩) { s with pc := t } := by
    show (fetchWord t s.programFC >>= _) { s with pc := t } = _
    rw [bind_of_error h0]
  exact relaid_of_error h1

/-- An even step leaves an address as even or odd as it was. -/
theorem getLsbD_zero_add (x y : Long) (hy : y.getLsbD 0 = false) : (x + y).getLsbD 0 = x.getLsbD 0 := by
  have h : ∀ z : Long, z.getLsbD 0 = decide (z.toNat % 2 = 1) := by
    intro z
    rw [BitVec.getLsbD, Nat.testBit_zero]
  rw [h] at hy
  rw [h, h, BitVec.toNat_add]
  have hy' : ¬ y.toNat % 2 = 1 := by simpa using hy
  congr 1
  apply propext
  omega

theorem getLsbD_zero_sub4 (x : Long) : (x - 4).getLsbD 0 = x.getLsbD 0 := by
  rw [BitVec.sub_eq_add_neg]
  exact getLsbD_zero_add x (-4) (by decide)

theorem getLsbD_zero_sub2 (x : Long) : (x - 2).getLsbD 0 = x.getLsbD 0 := by
  rw [BitVec.sub_eq_add_neg]
  exact getLsbD_zero_add x (-2) (by decide)

/-- A push of a long word in plain memory. -/
theorem push32_plain (h : s.Plain) (ha : (s.areg 7).getLsbD 0 = false) (v : Long) :
    ∃ t, push32 v s = .ok () t ∧ Shown (s.pushed32 v) t := by
  have h1 : (s.setAreg 7 (s.areg 7 - 4)).Plain := h.congr (State.setAreg_map ..) (State.setAreg_outside ..)
  have h2 : misaligned .l (s.areg 7 - 4) = false := by
    simp only [misaligned, getLsbD_zero_sub4, ha, Bool.and_false]
  exact writeData_plain h1 h2 true v

/-- A push of a word in plain memory. -/
theorem push16_plain (h : s.Plain) (ha : (s.areg 7).getLsbD 0 = false) (v : Word) :
    ∃ t, push16 v s = .ok () t ∧ Shown (s.pushed16 v) t := by
  have h1 : (s.setAreg 7 (s.areg 7 - 2)).Plain := h.congr (State.setAreg_map ..) (State.setAreg_outside ..)
  have h2 : misaligned .w (s.areg 7 - 2) = false := by
    simp only [misaligned, getLsbD_zero_sub2, ha, Bool.and_false]
  exact writeData_plain h1 h2 true (ofWord v)

/-- A push through an odd stack pointer is an address error of the write, with the pointer moved (R67). -/
theorem push32_odd (ha : (s.areg 7).getLsbD 0 = true) (v : Long) :
    push32 v s = .error (.group0 ⟨.addressError, s.areg 7 - 4, .write, (s.setAreg 7 (s.areg 7 - 4)).dataFC, .operand⟩)
      (s.setAreg 7 (s.areg 7 - 4)) := by
  have h2 : misaligned .l (s.areg 7 - 4) = true := by
    simp only [misaligned, getLsbD_zero_sub4, ha, Bool.and_true]
    decide
  exact memWrite_misaligned h2 true _ v

/-- The saved program counter is pushed as `Push32` pushes it, where the vector number is given without a cycle. -/
theorem pushPc_pure (vec : Nat) (v : Long) : pushPc (pure vec) v s = (do push32 v; pure vec : Exec Nat) s := by
  show (if misaligned .l (s.areg 7 - 4) then _ else _ : Exec Nat) (s.setAreg 7 (s.areg 7 - 4)) =
    (memWrite .l true (s.areg 7 - 4) _ v >>= fun _ => pure vec) (s.setAreg 7 (s.areg 7 - 4))
  unfold memWrite
  by_cases hm : misaligned .l (s.areg 7 - 4) = true
  · rw [if_pos hm, if_pos hm]
    rfl
  · rw [if_neg hm, if_neg hm]
    simp only [if_true, pure_bind, bind_assoc]

/-- A pop of a long word in plain memory. -/
theorem pop32_plain (h : s.Plain) (ha : (s.areg 7).getLsbD 0 = false) :
    ∃ t, pop32 s = .ok (s.load .l (s.areg 7)) t ∧ Shown (s.setAreg 7 (s.areg 7 + 4)) t := by
  obtain ⟨t, h1, f, rfl⟩ := readData_plain h (sz := .l) (addr := s.areg 7) (by simp only [misaligned, ha, Bool.and_false])
  refine ⟨_, bind_of_ok h1, f, ?_⟩
  exact State.setAreg_shown ..

/-- A pop of a word in plain memory. -/
theorem pop16_plain (h : s.Plain) (ha : (s.areg 7).getLsbD 0 = false) :
    ∃ t, pop16 s = .ok (lowWord (s.load .w (s.areg 7))) t ∧ Shown (s.setAreg 7 (s.areg 7 + 2)) t := by
  obtain ⟨t, h1, f, rfl⟩ := readData_plain h (sz := .w) (addr := s.areg 7) (by simp only [misaligned, ha, Bool.and_false])
  refine ⟨_, bind_of_ok h1, f, ?_⟩
  exact State.setAreg_shown ..

end Sys2Proof.Machine
end

