-- ==== Sys2Proof/Laws/Operands.lean ====
section
/-! SUPPORT. What the addressing modes and the common shapes of instructions do in plain memory: they complete, and their
result is a state of Safety.lean's terms with some flow whose program counter is known. -/

namespace Sys2Proof.Machine

variable {s s' : State} {α : Type}

/-! ## The program counter and the words of an instruction -/

theorem EA.words_length (ea : EA) : ea.words.length = extCount ea := by
  cases ea
  case imm i => cases i <;> rfl
  all_goals rfl

theorem Imm.words_length (i : Imm) : i.words.length = immCount i := by cases i <;> rfl

theorem Disp.words_length_short (b : Byte) : (Disp.short b).words.length = 0 := rfl

theorem Disp.words_length_word (w : Word) : (Disp.word w).words.length = 1 := rfl

/-! ## Plain memory is kept -/

theorem State.Plain.setAreg (h : s.Plain) (n : RegNum) (v : Long) : (s.setAreg n v).Plain :=
  h.congr (State.setAreg_map ..) (State.setAreg_outside ..)

theorem State.Plain.setDreg (h : s.Plain) (n : RegNum) (v : Long) : (s.setDreg n v).Plain := h

theorem State.Plain.afterMode (h : s.Plain) (sz : Size) (ea : EA) : (s.afterMode sz ea).Plain := by
  cases ea
  case postInc => exact h.setAreg _ _
  case preDec => exact h.setAreg _ _
  all_goals exact h

theorem State.Plain.withFlow (h : s.Plain) (f : Flow) : (s.withFlow f).Plain := h

theorem State.Plain.store (h : s.Plain) (sz : Size) (p : Bool) (x v : Long) : (s.store sz p x v).Plain := by
  cases sz
  case l => cases p <;> exact h
  all_goals exact h

theorem State.Plain.written (h : s.Plain) (sz : Size) (loc : Loc) (v : Long) : (s.written sz loc v).Plain := by
  cases loc
  case areg => exact h.setAreg _ _
  case mem => exact h.store _ _ _ _
  all_goals exact h

/-! ## What the side effect of a mode leaves -/

@[simp] theorem State.afterMode_d (sz : Size) (ea : EA) : (s.afterMode sz ea).d = s.d := by
  cases ea
  case postInc => exact State.setAreg_d ..
  case preDec => exact State.setAreg_d ..
  all_goals rfl

@[simp] theorem State.afterMode_ccr (sz : Size) (ea : EA) : (s.afterMode sz ea).ccr = s.ccr := by
  cases ea
  case postInc => exact State.setAreg_ccr ..
  case preDec => exact State.setAreg_ccr ..
  all_goals rfl

@[simp] theorem State.afterMode_mem (sz : Size) (ea : EA) : (s.afterMode sz ea).mem = s.mem := by
  cases ea
  case postInc => exact State.setAreg_mem ..
  case preDec => exact State.setAreg_mem ..
  all_goals rfl

@[simp] theorem State.afterMode_super (sz : Size) (ea : EA) : (s.afterMode sz ea).super = s.super := by
  cases ea
  case postInc => exact State.setAreg_super ..
  case preDec => exact State.setAreg_super ..
  all_goals rfl

@[simp] theorem State.afterMode_flow (sz : Size) (ea : EA) : (s.afterMode sz ea).flow = s.flow := by
  have h : ∀ n v, (s.setAreg n v).flow = s.flow := by
    intro n v
    unfold State.setAreg
    split_ifs <;> rfl
  cases ea
  case postInc => exact h _ _
  case preDec => exact h _ _
  all_goals rfl

@[simp] theorem State.afterMode_pc (sz : Size) (ea : EA) : (s.afterMode sz ea).pc = s.pc :=
  congrArg Flow.pc (State.afterMode_flow (s := s) sz ea)

theorem State.load_congr {t : State} (h : t.mem = s.mem) (sz : Size) (x : Long) : t.load sz x = s.load sz x := by
  cases sz <;> simp only [State.load, State.wordAt, h]

/-- An operand's value is not changed by the side effect of its own mode. -/
theorem State.valueAt_afterMode (sz : Size) (ea : EA) :
    (s.afterMode sz ea).valueAt sz (s.locate sz ea) = s.valueAt sz (s.locate sz ea) := by
  cases ea
  case postInc => exact State.load_congr (State.setAreg_mem ..) _ _
  case preDec => exact State.load_congr (State.setAreg_mem ..) _ _
  all_goals rfl

@[simp] theorem State.afterMode_tracePending (sz : Size) (ea : EA) :
    (s.afterMode sz ea).tracePending = s.tracePending :=
  congrArg Flow.tracePending (State.afterMode_flow (s := s) sz ea)

/-- Writing an operand and writing the condition codes commute. -/
theorem State.written_setFlags (sz : Size) (loc : Loc) (v : Long) (c : CCR) :
    (s.setFlags c).written sz loc v = (s.written sz loc v).setFlags c := by
  cases loc with
  | dreg n => rfl
  | areg n => exact State.setFlags_setAreg s c n _
  | mem sp x p =>
    show (s.setFlags c).store sz p x v = (s.store sz p x v).setFlags c
    cases sz
    case l => cases p <;> rfl
    all_goals rfl
  | imm w => rfl

/-- A write in one's own state moves nothing. -/
theorem State.written_flow (sz : Size) (loc : Loc) (v : Long) : (s.written sz loc v).flow = s.flow := by
  cases loc with
  | dreg n => rfl
  | areg n =>
    show (s.setAreg n _).flow = _
    unfold State.setAreg
    split_ifs <;> rfl
  | mem sp x p =>
    show (s.store sz p x v).flow = _
    cases sz
    case l => cases p <;> rfl
    all_goals rfl
  | imm w => rfl

/-! ## The operations -/

/-- In plain memory extension words are used without a fault. -/
theorem fetchExts_plain (h : s.Plain) (n : Nat) :
    ∃ g, fetchExts n s = .ok () (s.withFlow g) ∧ s.flow.Passed g s n := by
  induction n generalizing s with
  | zero => exact ⟨s.flow, rfl, Flow.Passed.refl _ _⟩
  | succ n ih =>
    obtain ⟨f, h1, h2⟩ := fetchExt_plain h
    obtain ⟨g, h3, h4⟩ := ih (h.withFlow f)
    exact ⟨g, (bind_of_ok h1).trans h3, Nat.add_comm 1 n ▸ h2.trans (h4.congr rfl)⟩

/-- In plain memory an operand is resolved: its location, the register its mode adjusts, its extension words used. -/
theorem resolve_plain (h : s.Plain) (sz : Size) (ea : EA) :
    ∃ g, resolve sz ea s = .ok (s.locate sz ea) ((s.afterMode sz ea).withFlow g) ∧ s.flow.Passed g s (extCount ea) := by
  obtain ⟨g, h1, h2⟩ := fetchExts_plain (h.afterMode sz ea) (extCount ea)
  rw [State.afterMode_flow] at h2
  refine ⟨g, ?_, h2.congr (State.afterMode_mem ..)⟩
  unfold resolve
  rw [inspect_bind, update_bind, bind_of_ok h1]
  rfl

/-- In plain memory an aligned operand is read. -/
theorem readLoc_plain (h : s.Plain) {sz : Size} {loc : Loc} (ha : loc.Aligned sz) :
    ∃ g, readLoc sz loc s = .ok (s.valueAt sz loc) (s.withFlow g) ∧ s.flow.Passed g s 0 := by
  cases loc with
  | dreg n => exact ⟨s.flow, rfl, Flow.Passed.refl _ _⟩
  | areg n => exact ⟨s.flow, rfl, Flow.Passed.refl _ _⟩
  | mem sp addr p =>
    have key : ∀ fc, ∃ g, memRead sz addr fc s = .ok (s.load sz addr) (s.withFlow g) ∧ s.flow.Passed g s 0 := by
      intro fc
      obtain ⟨t, h1, h2⟩ := memRead_plain h ha fc
      obtain ⟨g, rfl, h3⟩ := h2.flow s
      exact ⟨g, h1, h3⟩
    cases sp with
    | data => exact key _
    | program => exact key _
  | imm v => exact ⟨s.flow, rfl, Flow.Passed.refl _ _⟩

/-- In plain memory an aligned operand is written. -/
theorem writeLoc_plain (h : s.Plain) {sz : Size} {loc : Loc} (ha : loc.Aligned sz) (v : Long) :
    ∃ g, writeLoc sz loc v s = .ok () ((s.written sz loc v).withFlow g) ∧ s.flow.Passed g s 0 := by
  have same : ∃ g, (.ok () (s.written sz loc v) : EStateM.Result Abort State Unit) =
      .ok () ((s.written sz loc v).withFlow g) ∧ s.flow.Passed g s 0 :=
    ⟨(s.written sz loc v).flow, rfl, by rw [State.written_flow]; exact Flow.Passed.refl _ _⟩
  cases loc with
  | dreg n => exact same
  | areg n => exact same
  | mem sp addr p =>
    obtain ⟨t, h1, h2⟩ := writeData_plain h ha p v
    obtain ⟨g, rfl, h3⟩ := h2.flow s
    refine ⟨g, h1, ?_⟩
    have hf : (s.store sz p addr v).flow = s.flow := State.written_flow sz (.mem sp addr p) v
    rw [hf] at h3
    exact h3
  | imm w => exact same

/-- In plain memory a source operand is resolved and read. -/
theorem fetchOperand_plain (h : s.Plain) {sz : Size} {ea : EA} (ha : (s.locate sz ea).Aligned sz) :
    ∃ g, fetchOperand sz ea s = .ok (s.valueAt sz (s.locate sz ea)) ((s.afterMode sz ea).withFlow g) ∧
      s.flow.Passed g s (extCount ea) := by
  obtain ⟨f, h1, h2⟩ := resolve_plain h sz ea
  obtain ⟨g, h3, h4⟩ := readLoc_plain ((h.afterMode sz ea).withFlow f) ha
  rw [State.withFlow_valueAt, State.valueAt_afterMode, State.withFlow_withFlow] at h3
  exact ⟨g, (bind_of_ok h1).trans h3, h2.same h4⟩

/-- In plain memory the address of a control operand is computed. -/
theorem controlAddress_plain (h : s.Plain) {ea : EA} {sp : Space} {x : Long} {p : Bool}
    (hx : s.locate .l ea = .mem sp x p) :
    ∃ g, controlAddress ea s = .ok x ((s.afterMode .l ea).withFlow g) ∧ s.flow.Passed g s (extCount ea) := by
  obtain ⟨f, h1, h2⟩ := resolve_plain h .l ea
  refine ⟨f, ?_, h2⟩
  unfold controlAddress
  rw [bind_of_ok h1, hx]
  rfl

/-- The last fetch from a state with the memory of another. -/
theorem lastFetch_of {m : State} (h : s.Plain) (hm : s.mem = m.mem) (f : Flow) :
    ∃ g, lastFetch (s.withFlow f) = .ok () (s.withFlow g) ∧ f.Done g m 0 := by
  obtain ⟨g, h1, h2⟩ := lastFetch_plain (h.withFlow f)
  exact ⟨g, h1, h2.congr hm⟩

/-- In plain memory the end of an instruction that writes one location, from a state with the memory of another. -/
theorem writeBack_of {m : State} (h : s.Plain) (hm : s.mem = m.mem) {sz : Size} {loc : Loc} (ha : loc.Aligned sz) (f : Flow)
    (u : CCR → Long × CCR) :
    ∃ g, writeBack sz loc u (s.withFlow f) = .ok () (((s.setFlags (u s.ccr).2).written sz loc (u s.ccr).1).withFlow g) ∧
      f.Done g m 0 := by
  obtain ⟨f1, h1, p1⟩ := lastFetch_of h hm f
  have hq : (s.setFlags (u s.ccr).2).Plain := h
  obtain ⟨f2, h2, p2⟩ := writeLoc_plain (hq.withFlow f1) ha (u s.ccr).1
  rw [State.withFlow_written, State.withFlow_withFlow] at h2
  refine ⟨f2, ?_, p1.same p2⟩
  unfold writeBack
  rw [bind_of_ok h1]
  unfold getCcr setCcr
  rw [inspect_bind, update_bind]
  simp only [State.withFlow_ccr, State.withFlow_setFlags]
  exact h2

/-- In plain memory a cycle that a program does not ask for changes the flow at most, made or not. -/
theorem unasked_of {m : State} {x : Exec Unit} {f : Flow}
    (h : ∃ g, x (s.withFlow f) = .ok () (s.withFlow g) ∧ f.Passed g m 0) :
    ∃ g, unasked x (s.withFlow f) = .ok () (s.withFlow g) ∧ f.Passed g m 0 := by
  unfold unasked
  split
  · exact ⟨f, rfl, Flow.Passed.refl _ _⟩
  · exact h

/-- In plain memory an operand is read, changed and written back. -/
theorem modifyOperand_plain (h : s.Plain) {sz : Size} {ea : EA} (ha : (s.locate sz ea).Aligned sz) (u : Alu) :
    ∃ g, modifyOperand sz ea u s =
        .ok () ((((s.afterMode sz ea).setFlags (u s.ccr (s.valueAt sz (s.locate sz ea))).2).written sz
          (s.locate sz ea) (u s.ccr (s.valueAt sz (s.locate sz ea))).1).withFlow g) ∧
      s.flow.Done g s (extCount ea) := by
  obtain ⟨f1, h1, p1⟩ := resolve_plain h sz ea
  obtain ⟨f2, h2, p2⟩ := readLoc_plain ((h.afterMode sz ea).withFlow f1) ha
  rw [State.withFlow_valueAt, State.valueAt_afterMode, State.withFlow_withFlow] at h2
  obtain ⟨f3, h3, p3⟩ := writeBack_of (m := s) (h.afterMode sz ea) (State.afterMode_mem ..) ha f2
    fun c => u c (s.valueAt sz (s.locate sz ea))
  refine ⟨f3, ?_, (p1.same p2).done p3⟩
  rw [State.afterMode_ccr] at h3
  exact (bind_of_ok h1).trans ((bind_of_ok h2).trans h3)

/-- In plain memory an operand is written, read before or not. -/
theorem storeOperand_plain (h : s.Plain) {sz : Size} {ea : EA} (ha : (s.locate sz ea).Aligned sz) (u : CCR → Long × CCR) :
    ∃ g, storeOperand sz ea u s =
        .ok () ((((s.afterMode sz ea).setFlags (u s.ccr).2).written sz (s.locate sz ea) (u s.ccr).1).withFlow g) ∧
      s.flow.Done g s (extCount ea) := by
  obtain ⟨f1, h1, p1⟩ := resolve_plain h sz ea
  obtain ⟨f2, h2, p2⟩ := unasked_of (m := s) (x := discardLoc sz (s.locate sz ea)) (f := f1) (by
    obtain ⟨f2, h2, p2⟩ := readLoc_plain ((h.afterMode sz ea).withFlow f1) ha
    rw [State.withFlow_withFlow] at h2
    exact ⟨f2, bind_of_ok h2, p2.congr (State.afterMode_mem ..)⟩)
  obtain ⟨f3, h3, p3⟩ := writeBack_of (m := s) (h.afterMode sz ea) (State.afterMode_mem ..) ha f2 u
  refine ⟨f3, ?_, (p1.same p2).done p3⟩
  rw [State.afterMode_ccr] at h3
  exact (bind_of_ok h1).trans ((bind_of_ok h2).trans h3)

/-- In plain memory a source operand is combined into a data register. -/
theorem combineReg_plain (h : s.Plain) {szS szD : Size} {src : EA} (dn : RegNum)
    (ha : (s.locate szS src).Aligned szS) (u : Long → Alu) :
    ∃ g, combineReg szS szD src dn u s =
        .ok () ((((s.afterMode szS src).setFlags
            (u (s.valueAt szS (s.locate szS src)) s.ccr (trunc szD s.d[dn.val])).2).setDreg dn
          (merge szD s.d[dn.val]
            (u (s.valueAt szS (s.locate szS src)) s.ccr (trunc szD s.d[dn.val])).1)).withFlow g) ∧
      s.flow.Done g s (extCount src) := by
  obtain ⟨f, h1, p1⟩ := fetchOperand_plain h ha
  obtain ⟨g, h2, p2⟩ := lastFetch_of (m := s) (h.afterMode szS src) (State.afterMode_mem ..) f
  refine ⟨g, ?_, p1.done p2⟩
  unfold combineReg
  rw [bind_of_ok h1, bind_of_ok h2]
  unfold getD getCcr setCcr setD
  rw [inspect_bind, inspect_bind, update_bind, update_run]
  simp only [State.withFlow_ccr, State.afterMode_ccr, State.withFlow_d, State.afterMode_d,
    State.withFlow_setFlags, State.withFlow_setDreg, State.setFlags_d]

/-- In plain memory an operand is tested. -/
theorem testOperand_plain (h : s.Plain) {sz : Size} {ea : EA} (ha : (s.locate sz ea).Aligned sz)
    (u : CCR → Long → CCR) :
    ∃ g, testOperand sz ea u s =
        .ok () (((s.afterMode sz ea).setFlags (u s.ccr (s.valueAt sz (s.locate sz ea)))).withFlow g) ∧
      s.flow.Done g s (extCount ea) := by
  obtain ⟨f, h1, p1⟩ := fetchOperand_plain h ha
  obtain ⟨g, h2, p2⟩ := lastFetch_of (m := s) (h.afterMode sz ea) (State.afterMode_mem ..) f
  refine ⟨g, ?_, p1.done p2⟩
  unfold testOperand
  rw [bind_of_ok h1, bind_of_ok h2]
  unfold getCcr setCcr
  rw [inspect_bind, update_run]
  simp only [State.withFlow_ccr, State.afterMode_ccr, State.withFlow_setFlags]

/-! ## Running an instruction -/

/-- An instruction whose body completes completes. -/
theorem runInstr_of_ok {adj : List Adjusted} {body : Exec Unit} {t : State} (h : body s.startInstr = .ok () t) :
    runInstr adj body s = .next t := by
  unfold runInstr
  rw [h]
  rfl

/-- The flow at the start of an instruction: the program counter at its second word, which is in the queue. -/
def State.startFlow (s : State) : Flow := s.startInstr.flow

theorem State.startInstr_flow : s.startInstr = s.withFlow s.startFlow := rfl

@[simp] theorem State.startFlow_pc : s.startFlow.pc = s.pc + BitVec.ofNat 32 (2 * 1) := rfl
@[simp] theorem State.startFlow_tracePending : s.startFlow.tracePending = s.trace := rfl
@[simp] theorem State.startFlow_q1 : s.startFlow.q1 = s.q1 := rfl

/-- The word after `n` extension words is word `n + 1` of the instruction stream. -/
theorem State.startFlow_wordAfter (n : Nat) : s.startFlow.wordAfter s n = s.streamWord (n + 1) := by
  unfold Flow.wordAfter
  cases n with
  | zero => rfl
  | succ n =>
    rw [if_neg (by omega), State.startFlow_pc, pc_add, Nat.add_comm 1 (n + 1)]
    rfl

/-- An instruction whose body ends in the expected state with `n` extension words used and the last fetch made completes. -/
theorem completes_of_body {i : Instr} {e : State} {adj : List Adjusted} {body : Exec Unit} {n : Nat} {g : Flow}
    (hi : exec i s = runInstr adj body s) (hn : (encode i).length = 1 + n)
    (h : body (s.withFlow s.startFlow) = .ok () (e.withFlow g)) (hg : s.startFlow.Done g s n) : Completes i s e := by
  refine ⟨e.withFlow g, hi.trans (runInstr_of_ok h), rfl, ?_, hg.trace_eq, ?_, ?_⟩
  · rw [State.withFlow_pc, hg.pc_eq, State.startFlow_pc, pc_add, hn]
  · rw [State.withFlow_q0, hg.q0_eq, State.startFlow_wordAfter, hn, Nat.add_comm 1 n]
  · rw [State.withFlow_q1, hg.q1_eq, State.startFlow_wordAfter, hn, Nat.add_comm 1 n]

/-- An instruction whose body ends in the expected state with the queue filled from a target transfers control there. -/
theorem transfers_of_body {i : Instr} {e : State} {adj : List Adjusted} {body : Exec Unit} {target : Long} {g : Flow}
    (hi : exec i s = runInstr adj body s) (h : body (s.withFlow s.startFlow) = .ok () (e.withFlow g))
    (hg : s.startFlow.Arrived g e target) : TransfersTo i s e target := by
  refine ⟨e.withFlow g, hi.trans (runInstr_of_ok h), rfl, hg.pc_eq, hg.trace_eq, ?_, ?_⟩
  · rw [State.withFlow_q0, hg.q0_eq, State.withFlow_pc, hg.pc_eq, State.withFlow_wordAt]
  · rw [State.withFlow_q1, hg.q1_eq, State.withFlow_pc, hg.pc_eq, State.withFlow_wordAt]

/-! ## The operations at word `k` of an instruction -/

section At

variable {f : Flow} {k : Nat} (hf : f.pc = s.pc + BitVec.ofNat 32 (2 * k))
include hf

/-- A source operand at word `k`. -/
theorem fetchOperand_at {sz : Size} {ea : EA} (h : s.Ready k sz ea) :
    ∃ g, fetchOperand sz ea (s.withFlow f) = .ok (s.operand k sz ea) ((s.afterMode sz ea).withFlow g) ∧
      f.Passed g s (extCount ea) := by
  have hl := State.withFlow_locate hf sz ea
  obtain ⟨g, h1, h2⟩ := fetchOperand_plain (h.1.withFlow f) (by rw [hl]; exact h.2)
  rw [hl, State.withFlow_valueAt, State.withFlow_afterMode, State.withFlow_withFlow] at h1
  exact ⟨g, h1, h2.congr rfl⟩

/-- An operand read, changed and written back at word `k`. -/
theorem modifyOperand_at {sz : Size} {ea : EA} (h : s.Ready k sz ea) (u : Alu) :
    ∃ g, modifyOperand sz ea u (s.withFlow f) =
        .ok () (((s.result k sz ea (u s.ccr (s.operand k sz ea)).1).setFlags (u s.ccr (s.operand k sz ea)).2).withFlow g) ∧
      f.Done g s (extCount ea) := by
  have hl := State.withFlow_locate hf sz ea
  obtain ⟨g, h1, h2⟩ := modifyOperand_plain (h.1.withFlow f) (sz := sz) (ea := ea) (by rw [hl]; exact h.2) u
  rw [hl, State.withFlow_valueAt, State.withFlow_ccr, State.withFlow_afterMode, State.withFlow_setFlags,
    State.withFlow_written, State.withFlow_withFlow] at h1
  refine ⟨g, h1.trans ?_, h2.congr rfl⟩
  unfold State.result
  rw [State.written_setFlags]
  rfl

/-- An operand written at word `k`. -/
theorem storeOperand_at {sz : Size} {ea : EA} (h : s.Ready k sz ea) (u : CCR → Long × CCR) :
    ∃ g, storeOperand sz ea u (s.withFlow f) =
        .ok () (((s.result k sz ea (u s.ccr).1).setFlags (u s.ccr).2).withFlow g) ∧ f.Done g s (extCount ea) := by
  have hl := State.withFlow_locate hf sz ea
  obtain ⟨g, h1, h2⟩ := storeOperand_plain (h.1.withFlow f) (sz := sz) (ea := ea) (by rw [hl]; exact h.2) u
  rw [hl, State.withFlow_ccr, State.withFlow_afterMode, State.withFlow_setFlags, State.withFlow_written,
    State.withFlow_withFlow] at h1
  refine ⟨g, h1.trans ?_, h2.congr rfl⟩
  unfold State.result
  rw [State.written_setFlags]

/-- A source operand at word `k` combined into a data register. -/
theorem combineReg_at {szS szD : Size} {src : EA} (h : s.Ready k szS src) (dn : RegNum) (u : Long → Alu) :
    ∃ g, combineReg szS szD src dn u (s.withFlow f) =
        .ok () ((((s.afterMode szS src).setDreg dn (merge szD s.d[dn.val]
          (u (s.operand k szS src) s.ccr (trunc szD s.d[dn.val])).1)).setFlags
          (u (s.operand k szS src) s.ccr (trunc szD s.d[dn.val])).2).withFlow g) ∧
      f.Done g s (extCount src) := by
  have hl := State.withFlow_locate hf szS src
  obtain ⟨g, h1, h2⟩ := combineReg_plain (h.1.withFlow f) (szD := szD) dn (by rw [hl]; exact h.2) u
  rw [hl, State.withFlow_valueAt, State.withFlow_ccr, State.withFlow_afterMode, State.withFlow_setFlags,
    State.withFlow_setDreg, State.withFlow_withFlow] at h1
  exact ⟨g, h1, h2.congr rfl⟩

/-- An operand tested at word `k`. -/
theorem testOperand_at {sz : Size} {ea : EA} (h : s.Ready k sz ea) (u : CCR → Long → CCR) :
    ∃ g, testOperand sz ea u (s.withFlow f) =
        .ok () (((s.afterMode sz ea).setFlags (u s.ccr (s.operand k sz ea))).withFlow g) ∧
      f.Done g s (extCount ea) := by
  have hl := State.withFlow_locate hf sz ea
  obtain ⟨g, h1, h2⟩ := testOperand_plain (h.1.withFlow f) (sz := sz) (ea := ea) (by rw [hl]; exact h.2) u
  rw [hl, State.withFlow_valueAt, State.withFlow_ccr, State.withFlow_afterMode, State.withFlow_setFlags,
    State.withFlow_withFlow] at h1
  exact ⟨g, h1, h2.congr rfl⟩

/-- The address of a control operand at word `k`. -/
theorem controlAddress_at (h : s.Plain) {ea : EA} {sp : Space} {x : Long} {p : Bool} (hx : s.locAt k .l ea = .mem sp x p) :
    ∃ g, controlAddress ea (s.withFlow f) = .ok x ((s.afterMode .l ea).withFlow g) ∧
      f.Passed g s (extCount ea) := by
  have hl := State.withFlow_locate hf .l ea
  obtain ⟨g, h1, h2⟩ := controlAddress_plain (h.withFlow f) (hl.trans hx)
  rw [State.withFlow_afterMode, State.withFlow_withFlow] at h1
  exact ⟨g, h1, h2.congr rfl⟩

/-- A data register combined into an operand at word `k`. -/
theorem combineEA_at {sz : Size} {ea : EA} (h : s.Ready k sz ea) (dn : RegNum) (u : Long → Alu) :
    ∃ g, combineEA sz dn ea u (s.withFlow f) =
        .ok () (((s.result k sz ea (u (trunc sz s.d[dn.val]) s.ccr (s.operand k sz ea)).1).setFlags
          (u (trunc sz s.d[dn.val]) s.ccr (s.operand k sz ea)).2).withFlow g) ∧
      f.Done g s (extCount ea) :=
  modifyOperand_at hf h (u (trunc sz s.d[dn.val]))

end At

/-- Extension words used. -/
theorem fetchExts_of {m : State} (h : s.Plain) (hm : s.mem = m.mem) (f : Flow) (n : Nat) :
    ∃ g, fetchExts n (s.withFlow f) = .ok () (s.withFlow g) ∧ f.Passed g m n := by
  obtain ⟨g, h1, h2⟩ := fetchExts_plain (h.withFlow f) n
  exact ⟨g, h1, h2.congr hm⟩

/-- A transfer of control from a state with any flow. -/
theorem jump_of (h : s.Plain) (f : Flow) {t : Long} (ht : t.getLsbD 0 = false) :
    ∃ g, jump t (s.withFlow f) = .ok () (s.withFlow g) ∧ f.Arrived g s t := by
  obtain ⟨g, h1, h2⟩ := jump_plain (h.withFlow f) ht
  exact ⟨g, h1, h2.congr rfl⟩

/-- Immediate data combined into an operand. -/
theorem combineImm_at {f : Flow} {k : Nat} (hf : f.pc = s.pc + BitVec.ofNat 32 (2 * k)) {i : Imm} {dst : EA}
    (h : s.Ready (k + immCount i) i.size dst) (u : Long → Alu) :
    ∃ g, combineImm i dst u (s.withFlow f) =
        .ok () (((s.result (k + immCount i) i.size dst
          (u (immValue i) s.ccr (s.operand (k + immCount i) i.size dst)).1).setFlags
          (u (immValue i) s.ccr (s.operand (k + immCount i) i.size dst)).2).withFlow g) ∧
      f.Done g s (immCount i + extCount dst) := by
  obtain ⟨g, h1, h2⟩ := fetchExts_of (m := s) h.1 rfl f (immCount i)
  obtain ⟨g', h3, h4⟩ := modifyOperand_at (by rw [h2.pc_eq, hf, pc_add]) h (u (immValue i))
  exact ⟨g', (bind_of_ok h1).trans h3, h2.done h4⟩

/-- The number of words of an instruction whose extension words are known. -/
theorem encode_length {i : Instr} {ws : List Word} {n : Nat} (h : extensionWords i = ws) (hn : ws.length = n) :
    (encode i).length = 1 + n := by
  unfold encode
  rw [List.length_cons, h, hn, Nat.add_comm]

theorem imm_and_ea_length (i : Imm) (ea : EA) : (i.words ++ ea.words).length = immCount i + extCount ea := by
  rw [List.length_append, Imm.words_length, EA.words_length]

theorem privileged_super {body : State → Outcome} (h : s.super = true) : privileged body s = body s := by
  unfold privileged
  rw [if_pos h]

theorem privileged_user {body : State → Outcome} (h : s.super = false) : privileged body s = refuseInstr 8 s := by
  unfold privileged
  rw [if_neg (by rw [h]; decide)]

end Sys2Proof.Machine
end

