-- ==== Sys2Proof/Laws/Entry.lean ====
section
/-! SUPPORT. What taking an exception does in plain memory. -/

namespace Sys2Proof.Machine

variable {s s' : State}

/-! ## Stack pointers -/

theorem State.areg7_super (h : s.super = true) : s.areg 7 = s.ssp := by
  unfold State.areg
  rw [dif_neg (by decide), if_pos h]

theorem State.areg7_user (h : s.super = false) : s.areg 7 = s.usp := by
  unfold State.areg
  rw [dif_neg (by decide), if_neg (by rw [h]; decide)]

theorem State.store_areg (sz : Size) (p : Bool) (x v : Long) (n : RegNum) : (s.store sz p x v).areg n = s.areg n := by
  cases sz
  case l => cases p <;> rfl
  all_goals rfl

@[simp] theorem State.store_super (sz : Size) (p : Bool) (x v : Long) : (s.store sz p x v).super = s.super := by
  cases sz
  case l => cases p <;> rfl
  all_goals rfl

@[simp] theorem State.store_ssp (sz : Size) (p : Bool) (x v : Long) : (s.store sz p x v).ssp = s.ssp := by
  cases sz
  case l => cases p <;> rfl
  all_goals rfl

theorem State.store_map (sz : Size) (p : Bool) (x v : Long) : (s.store sz p x v).map = s.map := by
  cases sz
  case l => cases p <;> rfl
  all_goals rfl

@[simp] theorem State.areg7_pushed32 (v : Long) : (s.pushed32 v).areg 7 = s.areg 7 - 4 := by
  unfold State.pushed32
  rw [State.store_areg, State.areg_setAreg_same]

@[simp] theorem State.areg7_pushed16 (v : Word) : (s.pushed16 v).areg 7 = s.areg 7 - 2 := by
  unfold State.pushed16
  rw [State.store_areg, State.areg_setAreg_same]

@[simp] theorem State.pushed32_super (v : Long) : (s.pushed32 v).super = s.super := by
  unfold State.pushed32
  rw [State.store_super, State.setAreg_super]

@[simp] theorem State.pushed16_super (v : Word) : (s.pushed16 v).super = s.super := by
  unfold State.pushed16
  rw [State.store_super, State.setAreg_super]

theorem State.Plain.pushed32 (h : s.Plain) (v : Long) : (s.pushed32 v).Plain := (h.setAreg _ _).store _ _ _ _

theorem State.Plain.pushed16 (h : s.Plain) (v : Word) : (s.pushed16 v).Plain := (h.setAreg _ _).store _ _ _ _

theorem State.Plain.entering (h : s.Plain) (l : Option (BitVec 3)) : (s.entering l).Plain := h

@[simp] theorem State.entering_super (l : Option (BitVec 3)) : (s.entering l).super = true := rfl
@[simp] theorem State.entering_ssp (l : Option (BitVec 3)) : (s.entering l).ssp = s.ssp := rfl

/-! ## Flow -/

@[simp] theorem State.withFlow_pushed32 (f : Flow) (v : Long) : (s.withFlow f).pushed32 v = (s.pushed32 v).withFlow f := by
  unfold State.pushed32
  rw [State.withFlow_setAreg, State.withFlow_store, State.withFlow_areg]

@[simp] theorem State.withFlow_pushed16 (f : Flow) (v : Word) : (s.withFlow f).pushed16 v = (s.pushed16 v).withFlow f := by
  unfold State.pushed16
  rw [State.withFlow_setAreg, State.withFlow_store, State.withFlow_areg]

@[simp] theorem State.withFlow_entering (f : Flow) (l : Option (BitVec 3)) :
    (s.withFlow f).entering l = (s.entering l).withFlow f := rfl

@[simp] theorem State.withFlow_entered (f : Flow) (p : Long) (w : Word) (l : Option (BitVec 3)) :
    (s.withFlow f).entered p w l = (s.entered p w l).withFlow f := by
  unfold State.entered
  rw [State.withFlow_entering, State.withFlow_pushed32, State.withFlow_pushed16]
  rfl

@[simp] theorem State.withFlow_handler (f : Flow) (vec : Nat) (p : Long) (w : Word) (l : Option (BitVec 3)) :
    (s.withFlow f).handler vec p w l = s.handler vec p w l := by
  unfold State.handler
  rw [State.withFlow_entered, State.withFlow_load]

@[simp] theorem State.withFlow_entryReady (f : Flow) (vec : Nat) (p : Long) (w : Word) (l : Option (BitVec 3)) :
    (s.withFlow f).EntryReady vec p w l ↔ s.EntryReady vec p w l := by
  unfold State.EntryReady
  rw [State.withFlow_handler]
  exact Iff.rfl

/-! ## The entry -/

theorem vectorAddress_even (vec : Nat) : (vectorAddress vec).getLsbD 0 = false := by
  unfold vectorAddress
  rw [BitVec.getLsbD_ofNat]
  have h : (4 * vec).testBit 0 = false := by
    rw [Nat.testBit_zero]
    simp only [decide_eq_false_iff_not]
    omega
  rw [h, Bool.and_false]

theorem State.setAreg_flow (n : RegNum) (v : Long) : (s.setAreg n v).flow = s.flow := by
  unfold State.setAreg
  split_ifs <;> rfl

theorem State.store_flow (sz : Size) (p : Bool) (x v : Long) : (s.store sz p x v).flow = s.flow := by
  cases sz
  case l => cases p <;> rfl
  all_goals rfl

@[simp] theorem State.pushed32_flow (v : Long) : (s.pushed32 v).flow = s.flow := by
  unfold State.pushed32
  rw [State.store_flow, State.setAreg_flow]

@[simp] theorem State.pushed16_flow (v : Word) : (s.pushed16 v).flow = s.flow := by
  unfold State.pushed16
  rw [State.store_flow, State.setAreg_flow]

theorem State.entered_flow (p : Long) (w : Word) (l : Option (BitVec 3)) : (s.entered p w l).flow = s.flow := by
  show (((s.entering l).pushed32 p).pushed16 w).flow = _
  rw [State.pushed16_flow, State.pushed32_flow]
  rfl

theorem State.entered_tracePending (p : Long) (w : Word) (l : Option (BitVec 3)) :
    (s.entered p w l).tracePending = s.tracePending := congrArg Flow.tracePending (State.entered_flow (s := s) p w l)

theorem Shown.congr {e t u : State} (h : Shown e t) (hu : Shown e u) : Shown t u := by
  obtain ⟨_, rfl⟩ := h
  obtain ⟨es, rfl⟩ := hu
  exact ⟨es, rfl⟩

theorem Shown.areg {e t : State} (h : Shown e t) (n : RegNum) : t.areg n = e.areg n := by
  obtain ⟨_, rfl⟩ := h
  rfl

/-- What is pushed after an event was shown. -/
theorem Shown.pushed16 {e t : State} (h : Shown e t) (v : Word) : Shown (e.pushed16 v) (t.pushed16 v) := by
  obtain ⟨f, rfl, -⟩ := h.flow e
  rw [State.withFlow_pushed16]
  obtain ⟨es, hes⟩ := h
  refine ⟨es, ?_⟩
  have hf : f = { e.flow with events := es } := congrArg State.flow hes
  rw [hf]
  have h7 : (e.pushed16 v).flow = e.flow := State.pushed16_flow v
  rw [← h7]
  rfl

/-- The frame of PC and SR is pushed in plain memory. -/
theorem pushFrame_plain (h : s.Plain) (ha : (s.areg 7).getLsbD 0 = false) (p : Long) (w : Word) :
    ∃ t u, push32 p s = .ok () t ∧ push16 w t = .ok () u ∧ Shown ((s.pushed32 p).pushed16 w) u := by
  obtain ⟨t, h1, h2⟩ := push32_plain h ha p
  obtain ⟨u, h3, h4⟩ := push16_plain (h2.plain (h.pushed32 p))
    (by rw [h2.areg, State.areg7_pushed32, getLsbD_zero_sub4]; exact ha) w
  exact ⟨t, u, h1, h3, (h2.pushed16 w).trans h4⟩

/-- The end of an entry, once the frame is pushed: the handler's address is read and the queue filled from there. -/
theorem enterHandler_plain {e u : State} (hp : e.Plain) (hu : Shown e u) (vec : Nat)
    (hh : (e.load .l (vectorAddress vec)).getLsbD 0 = false) :
    ∃ g, (do
        let handler ← memRead .l (vectorAddress vec) (vectorSpace vec)
        update fun s => { s with run := .running }
        jump handler : Exec Unit) u = .ok () (({ e with run := .running } : State).withFlow g) ∧
      e.flow.Arrived g e (e.load .l (vectorAddress vec)) := by
  obtain ⟨x, h4, h5⟩ := memRead_plain (hu.plain hp) (sz := .l) (addr := vectorAddress vec)
    (by simp only [misaligned, vectorAddress_even, Bool.and_false]) (vectorSpace vec)
  have hx : u.load .l (vectorAddress vec) = e.load .l (vectorAddress vec) := by
    obtain ⟨es, rfl⟩ := hu
    exact State.load_congr (s := e) (t := { e with events := es }) rfl _ _
  rw [hx] at h4
  obtain ⟨es, rfl⟩ := hu.trans h5
  have hr : ({ e with run := .running } : State).Plain := hp
  obtain ⟨g, h6, h7⟩ := jump_of hr { e.flow with events := es } hh
  refine ⟨g, ?_, h7.pc_eq, h7.q0_eq, h7.q1_eq, h7.trace_eq⟩
  rw [bind_of_ok h4, update_bind]
  exact h6

/-- In plain memory, with an even supervisor stack pointer and an even handler address, an exception is entered. -/
theorem takeException_plain {vec : Nat} {p : Long} {w : Word} {l : Option (BitVec 3)} (h : s.EntryReady vec p w l) :
    ∃ g, takeException (pure vec) p w l none s = .ok () ((s.entered p w l).withFlow g) ∧
      s.flow.Arrived g (s.entered p w l) (s.handler vec p w l) := by
  obtain ⟨hp, hs, hh⟩ := h
  have h7 : (s.entering l).areg 7 = s.ssp := State.areg7_super rfl
  obtain ⟨t, u, h1, h2, h3⟩ := pushFrame_plain (hp.entering l) (by rw [h7]; exact hs) p w
  have hq : (((s.entering l).pushed32 p).pushed16 w).Plain := ((hp.entering l).pushed32 p).pushed16 w
  have hl : s.handler vec p w l = (((s.entering l).pushed32 p).pushed16 w).load .l (vectorAddress vec) :=
    State.load_congr rfl _ _
  rw [hl] at hh
  obtain ⟨g, h4, h5⟩ := enterHandler_plain hq h3 vec hh
  rw [State.pushed16_flow, State.pushed32_flow] at h5
  refine ⟨g, ?_, ?_⟩
  · unfold takeException
    rw [update_bind]
    show (pushPc (pure vec) p >>= _) (s.entering l) = _
    have h8 : pushPc (pure vec) p (s.entering l) = .ok vec t := by
      rw [pushPc_pure, bind_of_ok h1]
      rfl
    rw [bind_of_ok h8, bind_of_ok h2]
    unfold pushExtra
    rw [pure_bind_run]
    exact h4
  · rw [hl]
    exact h5.congr rfl

/-- What arrives has the queue filled. -/
theorem Flow.Arrived.filled {f g : Flow} {e : State} {x : Long} (h : f.Arrived g e x) : (e.withFlow g).QueueFilled := by
  refine ⟨?_, ?_⟩
  · rw [State.withFlow_q0, h.q0_eq, State.withFlow_pc, h.pc_eq, State.withFlow_wordAt]
  · rw [State.withFlow_q1, h.q1_eq, State.withFlow_pc, h.pc_eq, State.withFlow_wordAt]

/-- A group 1 exception whose entry does not fault. -/
theorem takeGroup1_plain {vec : Nat} {p : Long} {w : Word} {l : Option (BitVec 3)} (h : s.EntryReady vec p w l) :
    Enters (takeGroup1 (pure vec) p w l s) s vec p w l s.tracePending := by
  obtain ⟨g, h1, h2⟩ := takeException_plain h
  refine ⟨(s.entered p w l).withFlow g, ?_, rfl, h2.pc_eq, h2.trace_eq, h2.filled⟩
  unfold takeGroup1
  rw [h1]
  rfl

/-- A trap of an instruction whose entry does not fault. -/
theorem trap2_plain {vec : Nat} (h : s.EntryReady vec s.pc s.sr none) :
    ∃ g, trap2 vec s = .ok () ((s.entered s.pc s.sr none).withFlow g) ∧
      s.flow.Arrived g (s.entered s.pc s.sr none) (s.handler vec s.pc s.sr none) := by
  obtain ⟨g, h1, h2⟩ := takeException_plain h
  refine ⟨g, ?_, h2⟩
  unfold trap2 getPc
  rw [inspect_bind, inspect_bind]
  exact relaid_of_ok h1

/-- An exception entered from a state with another flow. -/
theorem Enters.of_withFlow {o : Outcome} {f : Flow} {vec : Nat} {p : Long} {w : Word} {l : Option (BitVec 3)} {b : Bool}
    (h : Enters o (s.withFlow f) vec p w l b) : Enters o s vec p w l b := by
  obtain ⟨t, h1, h2, h3, h4⟩ := h
  exact ⟨t, h1, by rw [h2, State.withFlow_entered]; rfl, by rw [h3, State.withFlow_handler], h4⟩

/-- The two states in which STOP with S = 0 in its data takes its privilege violation, but for the flow. -/
theorem State.stopViolated_cases (data : Word) :
    ∃ f, (s.stopViolated data = s.withFlow f ∨ s.stopViolated data = (s.setSr data).withFlow f) ∧ f.tracePending = false := by
  refine ⟨{ s.startInstr.flow with pc := s.pc, tracePending := false, free := s.free + 1 }, ?_, rfl⟩
  unfold State.stopViolated
  split
  · exact .inl rfl
  · exact .inr rfl

/-- An instruction that is not started. -/
theorem refuseInstr_plain {vec : Nat} (h : s.EntryReady vec s.pc s.sr none) :
    Enters (refuseInstr vec s) s vec s.pc s.sr none false :=
  (takeGroup1_plain ((State.withFlow_entryReady (s := s)
    { s.flow with owl := s.pc, ir := s.q0, tracePending := false, stream := [] } vec s.pc s.sr none).mpr h)).of_withFlow

end Sys2Proof.Machine
end

