-- ==== Sys2Proof/Laws/Keeps.lean ====
section
/-! SUPPORT. What every shared operation keeps: a property of the state closed under the few ways in which an operation can
change it is kept by each of them, in every environment. -/

namespace Sys2Proof.Machine

variable {P E : State → Prop} {α β : Type}

/-- A property closed under the changes that operations make, apart from moving the program counter. -/
structure Closed (P : State → Prop) : Prop where
  dreg : ∀ {s n v}, P s → P (s.setDreg n v)
  areg : ∀ {s n v}, P s → P (s.setAreg n v)
  flags : ∀ {s f}, P s → P (s.setFlags f)
  byte : ∀ {s b x v}, P s → P (s.storeByte b x v)
  word : ∀ {s b x v}, P s → P (s.storeWord b x v)
  note : ∀ {s e}, P s → P (s.note e)
  spend : ∀ {s : State}, P s → P s.spend
  acts : ∀ {s : State} {o : List Outside}, P s → Later s.outside o → P { s with outside := o }
  queue : ∀ {s : State} {a b : Word}, P s → P { s with q0 := a, q1 := b }
  running : ∀ {s : State}, P s → P { s with run := .running }
  trace : ∀ {s : State} {b : Bool}, P s → P { s with tracePending := b }

/-- What a property `P` of the states between operations, and a property `E` of the states in which operations abort, need so
that operations keep them. -/
structure Kept (P E : State → Prop) : Prop where
  closed : Closed P
  closedE : Closed E
  toE : ∀ {s}, P s → E s
  extension : ∀ {s : State} {w : Word}, P s → P { s with q1 := w, pc := s.pc + 2, stream := s.stream ++ [w] }
  target : ∀ {s : State} {t : Long}, E s → E { s with pc := t }
  arrived : ∀ {s : State}, E s → s.pc.getLsbD 0 = false → P s
  entering : ∀ {s : State} {level : Option (BitVec 3)}, E s → E (s.entering level)

theorem Keeps.weaken {x : Exec α} (h : Keeps P P x) (hE : ∀ {s}, P s → E s) : Keeps P E x := fun s hs =>
  ⟨(h s hs).1, fun e s' he => hE ((h s hs).2 e s' he)⟩

/-! ## Registers and free values -/

section Closed

variable (c : Closed P)
include c

theorem keeps_setD (sz : Size) (n : RegNum) (v : Long) : Keeps P E (setD sz n v) := keeps_update fun _ h => c.dreg h

theorem keeps_setA (n : RegNum) (v : Long) : Keeps P E (setA n v) := keeps_update fun _ h => c.areg h

theorem keeps_setCcr (f : CCR) : Keeps P E (setCcr f) := keeps_update fun _ h => c.flags h

theorem keeps_setReg (r : Reg) (v : Long) : Keeps P E (setReg r v) := by
  cases r
  · exact keeps_setD c _ _ _
  · exact keeps_setA c _ _

/-- An operation that gives a value and counts a free value. -/
theorem keeps_counts {x : Exec α} {f : State → α} (h : ∀ s, x s = .ok (f s) s.spend) : Keeps P E x := by
  intro s hs
  rw [h]
  constructor
  · intro a s' hx; cases hx; exact c.spend hs
  · intro e s' hx; cases hx

theorem keeps_takeBit : Keeps P E takeBit := keeps_counts c (f := fun s => Config.freeBit s.free) fun _ => rfl

theorem keeps_takeWord : Keeps P E takeWord := keeps_counts c (f := fun s => Config.freeWord s.free) fun _ => rfl

theorem keeps_takeLong : Keeps P E takeLong := keeps_counts c (f := fun s => Config.freeLong s.free) fun _ => rfl

theorem keeps_takeIndex : Keeps P E takeIndex := keeps_counts c (f := fun s => s.free) fun _ => rfl

theorem keeps_takeBcdIndex : Keeps P E takeBcdIndex := by
  have h : Keeps P E takeIndex := keeps_takeIndex c
  exact h.bind fun _ => h.bind fun _ => h.bind fun _ => keeps_pure _ _ _

theorem keeps_takeDivideIndex : Keeps P E takeDivideIndex := by
  have h : Keeps P E takeIndex := keeps_takeIndex c
  exact h.bind fun _ => h.bind fun _ => h.bind fun _ => h.bind fun _ => keeps_pure _ _ _

theorem keeps_takeChkIndex : Keeps P E takeChkIndex := by
  have h : Keeps P E takeIndex := keeps_takeIndex c
  exact h.bind fun _ => h.bind fun _ => h.bind fun _ => h.bind fun _ => keeps_pure _ _ _

/-! ## Bus cycles -/

/-- The acts of other agents, taken in order from the end of those to come. -/
theorem performDue_keeps (again : Option Event) (l : List Outside) :
    ∀ s : State, P s → l <:+ s.outside →
      (∀ a s', performDue again l s = .ok a s' → P s') ∧ (∀ e s', performDue again l s = .error e s' → P s') := by
  induction l with
  | nil =>
    intro s hs _
    constructor
    · intro a s' h; cases h; exact c.acts hs (.inl rfl)
    · intro e s' h; cases h
  | cons o rest ih =>
    intro s hs hl
    have hr : rest <:+ s.outside := (List.suffix_cons o rest).trans hl
    obtain ⟨n, act⟩ := o
    cases n with
    | succ n =>
      constructor
      · intro a s' h; cases h; exact c.acts hs (.inr ⟨n, 1, act, rest, hl, rfl⟩)
      · intro e s' h; cases h
    | zero =>
      cases act with
      | dmaRead b x => exact ih _ (c.note hs) hr
      | dmaWrite b x v => exact ih _ (c.note (c.byte hs)) hr
      | rerun =>
        cases again with
        | none => exact ih _ hs hr
        | some e => exact ih _ (c.note hs) hr
      | reset =>
        have h1 : P { s with outside := rest } := by
          refine c.acts hs ?_
          cases rest with
          | nil => exact .inl rfl
          | cons o rest => exact .inr ⟨o.wait, 0, o.act, rest, hr, rfl⟩
        constructor
        · intro a s' h; cases h
        · intro e s' h; cases h; exact h1

theorem keeps_grantBus (again : Option Event) : Keeps P P (grantBus again) := fun s hs =>
  performDue_keeps c again s.outside s hs (List.suffix_refl _)

omit c in
/-- An operation that aborts where it is. -/
theorem keeps_error {f : State → Abort} : Keeps P P (fun s => .error (f s) s : Exec α) := by
  intro s hs
  constructor
  · intro a s' h; cases h
  · intro e s' h; cases h; exact hs

theorem keeps_performReadByte (x : Long) (fc : FC) : Keeps P P (performReadByte x fc) := by
  intro s hs
  constructor
  · intro a s' h
    rcases performReadByte_ok h with ⟨_, _, _, rfl⟩ | ⟨_, _, rfl⟩
    · exact c.note hs
    · exact c.note (c.spend hs)
  · intro e s' h
    rcases performReadByte_error h with ⟨_, _, rfl⟩ | ⟨_, _, rfl⟩
    · exact c.note hs
    · exact hs

theorem keeps_performReadWord (x : Long) (fc : FC) : Keeps P P (performReadWord x fc) := by
  intro s hs
  constructor
  · intro a s' h
    rcases performReadWord_ok h with ⟨_, _, _, rfl⟩ | ⟨_, _, rfl⟩
    · exact c.note hs
    · exact c.note (c.spend hs)
  · intro e s' h
    rcases performReadWord_error h with ⟨_, _, rfl⟩ | ⟨_, _, rfl⟩
    · exact c.note hs
    · exact hs

theorem keeps_performWriteByte (x : Long) (fc : FC) (v : Byte) : Keeps P P (performWriteByte x fc v) := by
  intro s hs
  constructor
  · intro a s' h
    rcases performWriteByte_ok h with ⟨_, _, rfl⟩ | ⟨_, rfl⟩
    · exact c.note (c.byte hs)
    · exact c.note hs
  · intro e s' h
    rcases performWriteByte_error h with ⟨_, _, rfl⟩ | ⟨_, _, rfl⟩
    · exact c.note hs
    · exact hs

theorem keeps_performWriteWord (x : Long) (fc : FC) (v : Word) : Keeps P P (performWriteWord x fc v) := by
  intro s hs
  constructor
  · intro a s' h
    rcases performWriteWord_ok h with ⟨_, _, rfl⟩ | ⟨_, rfl⟩
    · exact c.note (c.word hs)
    · exact c.note hs
  · intro e s' h
    rcases performWriteWord_error h with ⟨_, _, rfl⟩ | ⟨_, _, rfl⟩
    · exact c.note hs
    · exact hs

theorem keeps_readByteCycle (x : Long) (fc : FC) : Keeps P P (readByteCycle x fc) :=
  (keeps_grantBus c _).bind fun _ => keeps_performReadByte c _ _

theorem keeps_readWordCycle (x : Long) (fc : FC) : Keeps P P (readWordCycle x fc) :=
  (keeps_grantBus c _).bind fun _ => keeps_performReadWord c _ _

theorem keeps_writeByteCycle (x : Long) (fc : FC) (v : Byte) : Keeps P P (writeByteCycle x fc v) :=
  (keeps_grantBus c _).bind fun _ => keeps_performWriteByte c _ _ _

theorem keeps_writeWordCycle (x : Long) (fc : FC) (v : Word) : Keeps P P (writeWordCycle x fc v) :=
  (keeps_grantBus c _).bind fun _ => keeps_performWriteWord c _ _ _

theorem keeps_modifyRead (x : Long) (fc : FC) : Keeps P P (modifyRead x fc) := by
  intro s hs
  unfold modifyRead
  constructor
  · intro a s' h
    split at h
    · cases h; exact hs
    · cases h; exact c.spend hs
    · cases h
    · cases h
  · intro e s' h
    split at h
    · cases h
    · cases h
    · cases h; exact c.note hs
    · cases h; exact hs

theorem keeps_modifyWrite (x : Long) (fc : FC) (old new : Byte) : Keeps P P (modifyWrite x fc old new) := by
  intro s hs
  constructor
  · intro a s' h
    rcases modifyWrite_ok h with ⟨_, _, rfl⟩ | ⟨_, rfl⟩
    · exact c.note (c.byte hs)
    · exact c.note hs
  · intro e s' h
    unfold modifyWrite at h
    split at h
    · cases h
    · cases h
    · cases h; exact c.note hs
    · cases h; exact hs

theorem keeps_modifyByteCycle (x : Long) (fc : FC) {f : Byte → Exec Byte} (hf : ∀ b, Keeps P P (f b)) :
    Keeps P P (modifyByteCycle x fc f) :=
  (keeps_grantBus c _).bind fun _ => (keeps_modifyRead c _ _).bind fun _ => (hf _).bind fun _ =>
    keeps_modifyWrite c _ _ _ _

theorem keeps_memRead (sz : Size) (x : Long) (fc : FC) : Keeps P P (memRead sz x fc) := by
  unfold memRead
  refine Keeps.ite keeps_error ?_
  cases sz with
  | b => exact (keeps_readByteCycle c _ _).bind fun _ => keeps_pure _ _ _
  | w => exact (keeps_readWordCycle c _ _).bind fun _ => keeps_pure _ _ _
  | l => exact (keeps_readWordCycle c _ _).bind fun _ => (keeps_readWordCycle c _ _).bind fun _ => keeps_pure _ _ _

theorem keeps_memWrite (sz : Size) (p : Bool) (x : Long) (fc : FC) (v : Long) : Keeps P P (memWrite sz p x fc v) := by
  unfold memWrite
  refine Keeps.ite keeps_error ?_
  cases sz with
  | b => exact keeps_writeByteCycle c _ _ _
  | w => exact keeps_writeWordCycle c _ _ _
  | l =>
    exact Keeps.ite ((keeps_writeWordCycle c _ _ _).bind fun _ => keeps_writeWordCycle c _ _ _)
      ((keeps_writeWordCycle c _ _ _).bind fun _ => keeps_writeWordCycle c _ _ _)

theorem keeps_readData (sz : Size) (x : Long) : Keeps P P (readData sz x) :=
  (keeps_inspect _ _ _).bind fun _ => keeps_memRead c _ _ _

theorem keeps_writeData (sz : Size) (p : Bool) (x v : Long) : Keeps P P (writeData sz p x v) :=
  (keeps_inspect _ _ _).bind fun _ => keeps_memWrite c _ _ _ _ _

/-! ## Stack -/

theorem keeps_push16 (v : Word) : Keeps P P (push16 v) :=
  (keeps_inspect _ _ _).bind fun _ => (keeps_setA c _ _).bind fun _ => keeps_writeData c _ _ _ _

theorem keeps_push32 (v : Long) : Keeps P P (push32 v) :=
  (keeps_inspect _ _ _).bind fun _ => (keeps_setA c _ _).bind fun _ => keeps_writeData c _ _ _ _

theorem keeps_pop16 : Keeps P P pop16 :=
  (keeps_inspect _ _ _).bind fun _ => (keeps_readData c _ _).bind fun _ => (keeps_setA c _ _).bind fun _ =>
    keeps_pure _ _ _

theorem keeps_pop32 : Keeps P P pop32 :=
  (keeps_inspect _ _ _).bind fun _ => (keeps_readData c _ _).bind fun _ => (keeps_setA c _ _).bind fun _ =>
    keeps_pure _ _ _

theorem keeps_pushPc {vector : Exec Nat} (hv : Keeps P P vector) (v : Long) : Keeps P P (pushPc vector v) :=
  (keeps_inspect _ _ _).bind fun _ => (keeps_setA c _ _).bind fun _ => (keeps_inspect _ _ _).bind fun _ =>
    Keeps.ite keeps_error ((keeps_writeWordCycle c _ _ _).bind fun _ => hv.bind fun _ =>
      (keeps_writeWordCycle c _ _ _).bind fun _ => keeps_pure _ _ _)

/-! ## Operands -/

theorem keeps_lastFetch : Keeps P P lastFetch :=
  (keeps_inspect _ _ _).bind fun _ => (keeps_inspect _ _ _).bind fun _ => (keeps_readWordCycle c _ _).bind fun _ =>
    keeps_update fun _ h => c.queue h

omit c in
theorem keeps_spaceFC (sp : Space) : Keeps P E (spaceFC sp) := by
  cases sp
  · exact keeps_inspect _ _ _
  · exact keeps_inspect _ _ _

theorem keeps_readLoc (sz : Size) (loc : Loc) : Keeps P P (readLoc sz loc) := by
  cases loc with
  | dreg n => exact (keeps_inspect _ _ _).bind fun _ => keeps_pure _ _ _
  | areg n => exact (keeps_inspect _ _ _).bind fun _ => keeps_pure _ _ _
  | mem sp x p => exact (keeps_spaceFC sp).bind fun _ => keeps_memRead c _ _ _
  | imm v => exact keeps_pure _ _ _

theorem keeps_writeLoc (sz : Size) (loc : Loc) (v : Long) : Keeps P P (writeLoc sz loc v) := by
  cases loc with
  | dreg n => exact keeps_setD c _ _ _
  | areg n => exact keeps_setA c _ _
  | mem sp x p => exact keeps_writeData c _ _ _ _
  | imm w => exact keeps_pure _ _ _

theorem closed_afterMode {s : State} (sz : Size) (ea : EA) (h : P s) : P (s.afterMode sz ea) := by
  cases ea
  case postInc => exact c.areg h
  case preDec => exact c.areg h
  all_goals exact h

/-! ## MOVEM and MOVEP -/

theorem keeps_storeUp (sz : Size) (x : Long) (rs : List Reg) : Keeps P P (storeUp sz x rs) := by
  induction rs generalizing x with
  | nil => exact keeps_pure _ _ _
  | cons r rs ih => exact (keeps_inspect _ _ _).bind fun _ => (keeps_writeData c _ _ _ _).bind fun _ => ih _

theorem keeps_storeDown (sz : Size) (x : Long) (rs : List Reg) : Keeps P P (storeDown sz x rs) := by
  induction rs generalizing x with
  | nil => exact keeps_pure _ _ _
  | cons r rs ih => exact (keeps_inspect _ _ _).bind fun _ => (keeps_writeData c _ _ _ _).bind fun _ => ih _

theorem keeps_loadUp (sz : Size) (fc : FC) (x : Long) (rs : List Reg) : Keeps P P (loadUp sz fc x rs) := by
  induction rs generalizing x with
  | nil => exact keeps_pure _ _ _
  | cons r rs ih => exact (keeps_memRead c _ _ _).bind fun _ => (keeps_setReg c _ _).bind fun _ => ih _

omit c in
/-- A cycle that a program does not ask for keeps what it keeps when it is made. -/
theorem keeps_unasked {x : Exec Unit} (h : Keeps P P x) : Keeps P P (unasked x) := by
  intro s hs
  unfold unasked
  split
  · exact keeps_pure P P () s hs
  · exact h s hs

theorem keeps_discardLoc (sz : Size) (loc : Loc) : Keeps P P (discardLoc sz loc) :=
  (keeps_readLoc c _ _).bind fun _ => keeps_pure _ _ _

theorem keeps_extraRead (fc : FC) (x : Long) (rs : List Reg) : Keeps P P (extraRead fc x rs) := by
  cases rs
  · exact keeps_pure _ _ _
  · exact keeps_unasked ((keeps_readWordCycle c _ _).bind fun _ => keeps_pure _ _ _)

theorem keeps_storeAlternate (v : Long) (n : Nat) (x : Long) : Keeps P P (storeAlternate v n x) := by
  induction n generalizing x with
  | zero => exact keeps_pure _ _ _
  | succ n ih => exact (keeps_inspect _ _ _).bind fun _ => (keeps_writeByteCycle c _ _ _).bind fun _ => ih _

theorem keeps_loadAlternate (v : Long) (n : Nat) (x : Long) : Keeps P P (loadAlternate v n x) := by
  induction n generalizing v x with
  | zero => exact keeps_pure _ _ _
  | succ n ih => exact (keeps_inspect _ _ _).bind fun _ => (keeps_readByteCycle c _ _).bind fun _ => ih _ _

theorem keeps_linkValue (n : RegNum) : Keeps P P (linkValue n) :=
  Keeps.ite (keeps_takeLong c) (keeps_inspect _ _ _)

theorem keeps_unlinkValue (n : RegNum) (v : Long) : Keeps P P (unlinkValue n v) :=
  Keeps.ite (keeps_takeLong c) (keeps_pure _ _ _)

theorem keeps_movedValue (sz : Size) (src dst : EA) (v : Long) : Keeps P P (movedValue sz src dst v) := by
  unfold movedValue
  cases selfAdjusted sz src dst with
  | none => exact keeps_pure _ _ _
  | some n => exact (keeps_inspect _ _ _).bind fun _ => (keeps_takeBit c).bind fun _ => keeps_pure _ _ _

theorem keeps_testAndSet (b : Byte) : Keeps P P (testAndSet b) :=
  (keeps_inspect _ _ _).bind fun _ => (keeps_setCcr c _).bind fun _ => keeps_pure _ _ _

theorem keeps_testAndSetReg (loc : Loc) : Keeps P P (testAndSetReg loc) :=
  (keeps_readLoc c _ _).bind fun _ => (keeps_testAndSet c _).bind fun _ => keeps_writeLoc c _ _ _

theorem keeps_testAndSetLoc (loc : Loc) : Keeps P P (testAndSetLoc loc) := by
  cases loc with
  | dreg n => exact keeps_testAndSetReg c _
  | areg n => exact keeps_testAndSetReg c _
  | mem sp x p => exact (keeps_inspect _ _ _).bind fun _ => keeps_modifyByteCycle c _ _ (keeps_testAndSet c)
  | imm v => exact keeps_testAndSetReg c _

end Closed

/-- Nothing but the instruction stream moves the program counter. -/
theorem closed_pc (x : Long) : Closed fun s => s.pc = x where
  dreg h := h
  areg h := (State.setAreg_pc ..).trans h
  flags h := h
  byte h := h
  word h := h
  note h := h
  spend h := h
  acts h _ := h
  queue h := h
  running h := h
  trace h := h

/-! ## The instruction stream -/

section Kept

variable (k : Kept P E)
include k

theorem keeps_fetchExt : Keeps P E fetchExt := by
  intro s hs
  have c := k.closed
  constructor
  · intro a s' h
    obtain ⟨w, s1, h1, rfl⟩ := fetchExt_ok h
    have h2 := (keeps_readWordCycle c _ _).ok hs h1
    have h3 : s1.pc = s.pc := (keeps_readWordCycle (closed_pc s.pc) _ _).ok rfl h1
    rw [← h3]
    exact k.extension h2
  · intro e s' h
    rcases bind_error.mp (show (readWordCycle (s.pc + 2) s.programFC >>= _) s = _ from h) with h1 | ⟨_, s1, h1, h⟩
    · exact k.toE ((keeps_readWordCycle c _ _).error hs h1)
    · cases h

theorem keeps_fetchExts (n : Nat) : Keeps P E (fetchExts n) := by
  induction n with
  | zero => exact keeps_pure _ _ _
  | succ n ih => exact (keeps_fetchExt k).bind fun _ => ih

omit k in
/-- What an operation laid elsewhere keeps. -/
theorem relaid_arrives {g : BusFault → BusFault} {x : Exec α} {s : State}
    (h : (∀ a s', x s = .ok a s' → P s') ∧ (∀ e s', x s = .error e s' → E s')) :
    (∀ a s', relaid g x s = .ok a s' → P s') ∧ (∀ e s', relaid g x s = .error e s' → E s') := by
  constructor
  · intro a s' hx
    exact h.1 a s' (relaid_ok.mp hx)
  · intro e s' hx
    obtain ⟨e', he, -⟩ := relaid_error.mp hx
    exact h.2 e' s' he

/-- A transfer of control goes from a state with `E` to one with `P`. -/
theorem jump_arrives {t : Long} {s : State} (hs : E s) :
    (∀ a s', jump t s = .ok a s' → P s') ∧ (∀ e s', jump t s = .error e s' → E s') := by
  constructor
  · intro a s' h
    obtain ⟨ht, w0, w1, s1, s2, h1, h2, rfl⟩ := jump_ok h
    have hE := (keeps_readWordCycle k.closedE _ _).ok ((keeps_readWordCycle k.closedE _ _).ok (k.target (t := t) hs) h1) h2
    have hp : s2.pc = t :=
      (keeps_readWordCycle (closed_pc t) _ _).ok ((keeps_readWordCycle (closed_pc t) _ _).ok rfl h1) h2
    exact k.arrived (k.closedE.queue hE) (by show s2.pc.getLsbD 0 = false; rw [hp]; exact ht)
  · intro e s' h
    have key : Keeps E E (fetchTarget t) :=
      (keeps_inspect _ _ _).bind fun _ => (keeps_update fun _ h => k.target h).bind fun _ =>
        (Keeps.ite keeps_error (keeps_readWordCycle k.closedE _ _)).bind fun _ =>
          (keeps_readWordCycle k.closedE _ _).bind fun _ => keeps_update fun _ h => k.closedE.queue h
    obtain ⟨e', he, -⟩ := relaid_error.mp h
    exact key.error hs he

theorem keeps_jump (t : Long) : Keeps P E (jump t) := fun _ hs => jump_arrives k (k.toE hs)

theorem keeps_resolve (sz : Size) (ea : EA) : Keeps P E (resolve sz ea) :=
  (keeps_inspect _ _ _).bind fun _ => (keeps_update fun _ h => closed_afterMode k.closed sz ea h).bind fun _ =>
    (keeps_fetchExts k _).bind fun _ => keeps_pure _ _ _

theorem keeps_fetchOperand (sz : Size) (ea : EA) : Keeps P E (fetchOperand sz ea) :=
  (keeps_resolve k _ _).bind fun _ => (keeps_readLoc k.closed _ _).weaken k.toE

theorem keeps_controlAddress (ea : EA) : Keeps P E (controlAddress ea) := by
  refine (keeps_resolve k _ _).bind fun loc => ?_
  cases loc <;> exact keeps_pure _ _ _

theorem keeps_last : Keeps P E lastFetch := (keeps_lastFetch k.closed).weaken k.toE

theorem keeps_writeBack (sz : Size) (loc : Loc) (f : CCR → Long × CCR) : Keeps P E (writeBack sz loc f) :=
  (keeps_last k).bind fun _ => (keeps_inspect _ _ _).bind fun _ => (keeps_setCcr k.closed _).bind fun _ =>
    (keeps_writeLoc k.closed _ _ _).weaken k.toE

theorem keeps_modifyOperand (sz : Size) (dst : EA) (f : Alu) : Keeps P E (modifyOperand sz dst f) :=
  (keeps_resolve k _ _).bind fun _ => ((keeps_readLoc k.closed _ _).weaken k.toE).bind fun _ => keeps_writeBack k _ _ _

theorem keeps_storeOperand (sz : Size) (dst : EA) (f : CCR → Long × CCR) : Keeps P E (storeOperand sz dst f) :=
  (keeps_resolve k _ _).bind fun _ => ((keeps_unasked (keeps_discardLoc k.closed _ _)).weaken k.toE).bind fun _ =>
    keeps_writeBack k _ _ _

theorem keeps_combineReg (szS szD : Size) (src : EA) (dn : RegNum) (f : Long → Alu) :
    Keeps P E (combineReg szS szD src dn f) :=
  (keeps_fetchOperand k _ _).bind fun _ => (keeps_last k).bind fun _ => (keeps_inspect _ _ _).bind fun _ =>
    (keeps_inspect _ _ _).bind fun _ => (keeps_setCcr k.closed _).bind fun _ => keeps_setD k.closed _ _ _

theorem keeps_combineEA (sz : Size) (dn : RegNum) (dst : EA) (f : Long → Alu) : Keeps P E (combineEA sz dn dst f) :=
  (keeps_inspect _ _ _).bind fun _ => keeps_modifyOperand k _ _ _

theorem keeps_combineImm (i : Imm) (dst : EA) (f : Long → Alu) : Keeps P E (combineImm i dst f) :=
  (keeps_fetchExts k _).bind fun _ => keeps_modifyOperand k _ _ _

theorem keeps_testOperand (sz : Size) (ea : EA) (f : CCR → Long → CCR) : Keeps P E (testOperand sz ea f) :=
  (keeps_fetchOperand k _ _).bind fun _ => (keeps_last k).bind fun _ => (keeps_inspect _ _ _).bind fun _ =>
    keeps_setCcr k.closed _

theorem keeps_extended (sz : Size) (mem : Bool) (x y : RegNum) (f : Long → Alu) : Keeps P E (extended sz mem x y f) :=
  Keeps.ite ((keeps_fetchOperand k _ _).bind fun _ => keeps_modifyOperand k _ _ _) (keeps_combineReg k _ _ _ _ _)

/-! ## Exceptions -/

/-- The entry of an exception goes from a state with `E` to one with `P`. -/
theorem takeException_arrives {vector : Exec Nat} (hv : Keeps E E vector) {p : Long} {w : Word} {l : Option (BitVec 3)}
    {x : Option Group0Words} {s : State} (hs : E s) :
    (∀ a s', takeException vector p w l x s = .ok a s' → P s') ∧
      (∀ e s', takeException vector p w l x s = .error e s' → E s') := by
  have c := k.closedE
  have hx : Keeps E E (pushExtra x) := by
    cases x
    · exact keeps_pure _ _ _
    · exact (keeps_push16 c _).bind fun _ => (keeps_push32 c _).bind fun _ => keeps_push16 c _
  have last : ∀ {s t}, E s → (∀ a s', jump t s = .ok a s' → P s') ∧ (∀ e s', jump t s = .error e s' → E s') :=
    fun h => jump_arrives k h
  have pre : Keeps E E (do
      update fun s => { s with super := true, trace := false, mask := l.getD s.mask }
      let vec ← pushPc vector p
      push16 w
      pushExtra x
      let handler ← memRead .l (vectorAddress vec) (vectorSpace vec)
      update fun s => { s with run := .running }
      pure handler) :=
    (keeps_update fun _ h => k.entering h).bind fun _ => (keeps_pushPc c hv _).bind fun _ => (keeps_push16 c _).bind fun _ =>
      hx.bind fun _ => (keeps_memRead c _ _ _).bind fun _ => (keeps_update fun _ h => c.running h).bind fun _ =>
        keeps_pure _ _ _
  have split : takeException vector p w l x = (do
      let handler ← (do
        update fun s => { s with super := true, trace := false, mask := l.getD s.mask }
        let vec ← pushPc vector p
        push16 w
        pushExtra x
        let handler ← memRead .l (vectorAddress vec) (vectorSpace vec)
        update fun s => { s with run := .running }
        pure handler)
      jump handler) := by
    simp only [takeException, bind_assoc, pure_bind]
  rw [split]
  constructor
  · intro a s' h
    obtain ⟨t, s1, h1, h2⟩ := bind_ok.mp h
    exact (last (pre.ok hs h1)).1 _ _ h2
  · intro e s' h
    rcases bind_error.mp h with h1 | ⟨t, s1, h1, h2⟩
    · exact pre.error hs h1
    · exact (last (pre.ok hs h1)).2 _ _ h2

theorem keeps_trap2 (vec : Nat) : Keeps P E (trap2 vec) :=
  (keeps_inspect _ _ _).bind fun _ => (keeps_inspect _ _ _).bind fun _ => fun _ hs =>
    relaid_arrives (takeException_arrives k (keeps_pure _ _ _) (k.toE hs))

/-- Where a step can end: in a state with `P`, halted in one with `E`, or with a reset to serve in one with `E`. -/
def Ends (P E : State → Prop) (t : State) : Prop :=
  P t ∨ ∃ u, E u ∧ (t = { u with run := .halted } ∨ t = { u with resetRequest := true })

omit k in
/-- How an operation ends a step. -/
theorem concluded_arrives {onFault : BusFault → State → Outcome} {r : EStateM.Result Abort State Unit} {t : State}
    (hr : (∀ a s', r = .ok a s' → P s') ∧ (∀ e s', r = .error e s' → E s'))
    (hf : ∀ f u, E u → onFault f u = .next t → Ends P E t) (h : concluded onFault r = .next t) : Ends P E t := by
  rcases concluded_next h with h | ⟨f, u, h1, h2⟩ | ⟨u, h1, rfl⟩
  · exact .inl (hr.1 _ _ h)
  · exact hf f u (hr.2 _ _ h1) h2
  · exact .inr ⟨u, hr.2 _ _ h1, .inr rfl⟩

omit k in
theorem halt_arrives {s t : State} (hs : E s) (h : halt s = .next t) : Ends P E t := by
  cases h
  exact .inr ⟨s, hs, .inl rfl⟩

/-- A group 0 exception. -/
theorem takeGroup0_arrives {f : BusFault} {b : Bool} {s t : State} (hs : E s) (h : takeGroup0 f b s = .next t) :
    Ends P E t := by
  have c := k.closedE
  refine concluded_arrives ?_ (fun _ u hu hh => halt_arrives hu hh) h
  have h0 : E { s with tracePending := false } := c.trace hs
  have hl : Keeps E E takeLong := keeps_takeLong c
  have hw : Keeps E E takeWord := keeps_takeWord c
  constructor
  · intro a s' h
    obtain ⟨_, s1, h1, h⟩ := bind_ok.mp h
    obtain ⟨_, s2, h2, h⟩ := bind_ok.mp h
    obtain ⟨_, s3, h3, h⟩ := bind_ok.mp h
    exact (takeException_arrives k (keeps_pure _ _ _) (hw.ok (hw.ok (hl.ok h0 h1) h2) h3)).1 _ _ h
  · intro e s' h
    rcases bind_error.mp h with h | ⟨_, s1, h1, h⟩
    · cases h
    rcases bind_error.mp h with h | ⟨_, s2, h2, h⟩
    · cases h
    rcases bind_error.mp h with h | ⟨_, s3, h3, h⟩
    · cases h
    exact (takeException_arrives k (keeps_pure _ _ _) (hw.ok (hw.ok (hl.ok h0 h1) h2) h3)).2 _ _ h

theorem takeGroup1_arrives {vector : Exec Nat} (hv : Keeps E E vector) {p : Long} {w : Word} {l : Option (BitVec 3)}
    {s t : State} (hs : E s) (h : takeGroup1 vector p w l s = .next t) : Ends P E t :=
  concluded_arrives (takeException_arrives k hv hs) (fun _ _ hu hh => takeGroup0_arrives k hu hh) h

/-! ## Running an instruction -/

theorem unsettle_keeps (before : State) (rs : List Adjusted) : Keeps E E (unsettle before rs) := by
  have c := k.closedE
  have hp : ∀ (vs : List Long) (v : Long), Keeps E E (pick v vs) := by
    intro vs
    induction vs with
    | nil => exact fun v => keeps_pure _ _ _
    | cons w ws ih => exact fun v => (keeps_takeBit c).bind fun _ => Keeps.ite (keeps_pure _ _ _) (ih w)
  induction rs with
  | nil => exact (keeps_inspect _ _ _).bind fun _ => (keeps_takeBit c).bind fun _ => keeps_setCcr c _
  | cons r rs ih =>
    exact (keeps_inspect _ _ _).bind fun _ => (hp _ _).bind fun _ => (keeps_setA c _ _).bind fun _ => ih

theorem abandon_keeps {rs : List Adjusted} {f : BusFault} {before after : State} (h : E after) :
    E (abandon rs f before after) := by
  unfold abandon
  split
  · split
    · rename_i hm
      exact (unsettle_keeps k before rs).ok h hm
    · rename_i hm
      exact (unsettle_keeps k before rs).error h hm
  all_goals exact h

theorem takeFault_arrives {f : BusFault} {s t : State} (hs : E s) (h : takeFault f s = .next t) : Ends P E t := by
  unfold takeFault at h
  split at h
  all_goals exact takeGroup0_arrives k hs h

/-- Running a body that keeps `P` and aborts in `E`. -/
theorem runInstr_arrives {rs : List Adjusted} {body : Exec Unit} {s t : State} (hb : Keeps P E body) (hs : P s.startInstr)
    (h : runInstr rs body s = .next t) : Ends P E t :=
  concluded_arrives (hb s.startInstr hs) (fun _ _ hu hh => takeFault_arrives k (abandon_keeps k hu) hh) h

end Kept

end Sys2Proof.Machine
end

