-- ==== Sys2Proof/Laws/PerInstr.lean ====
section
/-! SUPPORT. The per-instruction family `EncodeLength`: an instruction has one to five words (30_encoding.md R100). -/

namespace Sys2Proof

theorem Imm.words_length_le (i : Imm) : i.words.length ≤ 2 := by cases i <;> simp [Imm.words, longWords]

theorem EA.words_length_le (ea : EA) : ea.words.length ≤ 2 := by
  cases ea <;> simp [EA.words, longWords, Imm.words_length_le]

theorem Disp.words_length_le (d : Disp) : d.words.length ≤ 1 := by cases d <;> simp [Disp.words]

end Sys2Proof

namespace Sys2Proof.Laws.EncodeLength

/-- An instruction is one operation word and at most four extension words (30_encoding.md R100). -/
def Statement (i : Instr) : Prop := 1 ≤ (encode i).length ∧ (encode i).length ≤ 5

/-- The statement from a bound on the extension words. -/
theorem of_extension {i : Instr} (h : (extensionWords i).length ≤ 4) : Statement i := by
  simp only [Statement, encode, List.length_cons]
  omega

/-- An instruction without extension words. -/
theorem of_none {i : Instr} (h : extensionWords i = []) : Statement i := of_extension (by simp [h])

/-- An instruction with one extension word. -/
theorem of_one {i : Instr} {w : Word} (h : extensionWords i = [w]) : Statement i := of_extension (by simp [h])

/-- An instruction whose extension words are those of its one effective address. -/
theorem of_ea {i : Instr} {ea : EA} (h : extensionWords i = ea.words) : Statement i :=
  of_extension (by have := ea.words_length_le; rw [h]; omega)

/-- An instruction with one word before those of its effective address. -/
theorem of_word_ea {i : Instr} {w : Word} {ea : EA} (h : extensionWords i = w :: ea.words) : Statement i :=
  of_extension (by have := ea.words_length_le; rw [h, List.length_cons]; omega)

/-- An instruction with immediate data before the words of its effective address. -/
theorem of_imm_ea {i : Instr} {n : Imm} {ea : EA} (h : extensionWords i = n.words ++ ea.words) : Statement i :=
  of_extension (by
    have := n.words_length_le
    have := ea.words_length_le
    rw [h, List.length_append]
    omega)

/-- An instruction with two effective addresses. -/
theorem of_ea_ea {i : Instr} {src dst : EA} (h : extensionWords i = src.words ++ dst.words) : Statement i :=
  of_extension (by
    have := src.words_length_le
    have := dst.words_length_le
    rw [h, List.length_append]
    omega)

/-- A branch. -/
theorem of_disp {i : Instr} {d : Disp} (h : extensionWords i = d.words) : Statement i :=
  of_extension (by have := d.words_length_le; rw [h]; omega)

theorem ori (imm : Imm) (dst : EA) : Statement (.ori imm dst) := of_imm_ea rfl

theorem andi (imm : Imm) (dst : EA) : Statement (.andi imm dst) := of_imm_ea rfl

theorem subi (imm : Imm) (dst : EA) : Statement (.subi imm dst) := of_imm_ea rfl

theorem addi (imm : Imm) (dst : EA) : Statement (.addi imm dst) := of_imm_ea rfl

theorem eori (imm : Imm) (dst : EA) : Statement (.eori imm dst) := of_imm_ea rfl

theorem cmpi (imm : Imm) (dst : EA) : Statement (.cmpi imm dst) := of_imm_ea rfl

theorem oriToCcr (data : Byte) : Statement (.oriToCcr data) := of_one rfl

theorem oriToSr (data : Word) : Statement (.oriToSr data) := of_one rfl

theorem andiToCcr (data : Byte) : Statement (.andiToCcr data) := of_one rfl

theorem andiToSr (data : Word) : Statement (.andiToSr data) := of_one rfl

theorem eoriToCcr (data : Byte) : Statement (.eoriToCcr data) := of_one rfl

theorem eoriToSr (data : Word) : Statement (.eoriToSr data) := of_one rfl

theorem btstImm (bit : Byte) (dst : EA) : Statement (.btstImm bit dst) := of_word_ea rfl

theorem btstReg (dn : RegNum) (dst : EA) : Statement (.btstReg dn dst) := of_ea rfl

theorem bchgImm (bit : Byte) (dst : EA) : Statement (.bchgImm bit dst) := of_word_ea rfl

theorem bchgReg (dn : RegNum) (dst : EA) : Statement (.bchgReg dn dst) := of_ea rfl

theorem bclrImm (bit : Byte) (dst : EA) : Statement (.bclrImm bit dst) := of_word_ea rfl

theorem bclrReg (dn : RegNum) (dst : EA) : Statement (.bclrReg dn dst) := of_ea rfl

theorem bsetImm (bit : Byte) (dst : EA) : Statement (.bsetImm bit dst) := of_word_ea rfl

theorem bsetReg (dn : RegNum) (dst : EA) : Statement (.bsetReg dn dst) := of_ea rfl

theorem movepToReg (sz : WSize) (dn : RegNum) (an : RegNum) (disp : Word) : Statement (.movepToReg sz dn an disp) := of_one rfl

theorem movepToMem (sz : WSize) (dn : RegNum) (an : RegNum) (disp : Word) : Statement (.movepToMem sz dn an disp) := of_one rfl

theorem moveB (src : EA) (dst : EA) : Statement (.moveB src dst) := of_ea_ea rfl

theorem moveW (src : EA) (dst : EA) : Statement (.moveW src dst) := of_ea_ea rfl

theorem moveL (src : EA) (dst : EA) : Statement (.moveL src dst) := of_ea_ea rfl

theorem moveaW (an : RegNum) (src : EA) : Statement (.moveaW an src) := of_ea rfl

theorem moveaL (an : RegNum) (src : EA) : Statement (.moveaL an src) := of_ea rfl

theorem negx (sz : Size) (dst : EA) : Statement (.negx sz dst) := of_ea rfl

theorem moveFromSr (dst : EA) : Statement (.moveFromSr dst) := of_ea rfl

theorem chk (dn : RegNum) (src : EA) : Statement (.chk dn src) := of_ea rfl

theorem lea (an : RegNum) (src : EA) : Statement (.lea an src) := of_ea rfl

theorem clr (sz : Size) (dst : EA) : Statement (.clr sz dst) := of_ea rfl

theorem neg (sz : Size) (dst : EA) : Statement (.neg sz dst) := of_ea rfl

theorem moveToCcr (src : EA) : Statement (.moveToCcr src) := of_ea rfl

theorem not (sz : Size) (dst : EA) : Statement (.not sz dst) := of_ea rfl

theorem moveToSr (src : EA) : Statement (.moveToSr src) := of_ea rfl

theorem nbcd (dst : EA) : Statement (.nbcd dst) := of_ea rfl

theorem swap (dn : RegNum) : Statement (.swap dn) := of_none rfl

theorem pea (src : EA) : Statement (.pea src) := of_ea rfl

theorem extW (dn : RegNum) : Statement (.extW dn) := of_none rfl

theorem extL (dn : RegNum) : Statement (.extL dn) := of_none rfl

theorem movemToMem (sz : WSize) (list : Word) (dst : EA) : Statement (.movemToMem sz list dst) := of_word_ea rfl

theorem movemToReg (sz : WSize) (list : Word) (src : EA) : Statement (.movemToReg sz list src) := of_word_ea rfl

theorem tst (sz : Size) (dst : EA) : Statement (.tst sz dst) := of_ea rfl

theorem tas (dst : EA) : Statement (.tas dst) := of_ea rfl

theorem illegal : Statement .illegal := of_none rfl

theorem trap (v : Fin 16) : Statement (.trap v) := of_none rfl

theorem link (an : RegNum) (disp : Word) : Statement (.link an disp) := of_one rfl

theorem unlk (an : RegNum) : Statement (.unlk an) := of_none rfl

theorem moveToUsp (an : RegNum) : Statement (.moveToUsp an) := of_none rfl

theorem moveFromUsp (an : RegNum) : Statement (.moveFromUsp an) := of_none rfl

theorem resetDevices : Statement .resetDevices := of_none rfl

theorem nop : Statement .nop := of_none rfl

theorem stop (data : Word) : Statement (.stop data) := of_one rfl

theorem rte : Statement .rte := of_none rfl

theorem rts : Statement .rts := of_none rfl

theorem trapv : Statement .trapv := of_none rfl

theorem rtr : Statement .rtr := of_none rfl

theorem jsr (dst : EA) : Statement (.jsr dst) := of_ea rfl

theorem jmp (dst : EA) : Statement (.jmp dst) := of_ea rfl

theorem addq (q : Fin 8) (sz : Size) (dst : EA) : Statement (.addq q sz dst) := of_ea rfl

theorem subq (q : Fin 8) (sz : Size) (dst : EA) : Statement (.subq q sz dst) := of_ea rfl

theorem scc (cond : Cond) (dst : EA) : Statement (.scc cond dst) := of_ea rfl

theorem dbcc (cond : Cond) (dn : RegNum) (disp : Word) : Statement (.dbcc cond dn disp) := of_one rfl

theorem bra (disp : Disp) : Statement (.bra disp) := of_disp rfl

theorem bsr (disp : Disp) : Statement (.bsr disp) := of_disp rfl

theorem bcc (cond : Cond) (disp : Disp) : Statement (.bcc cond disp) := of_disp rfl

theorem moveq (dn : RegNum) (data : Byte) : Statement (.moveq dn data) := of_none rfl

theorem orToReg (sz : Size) (src : EA) (dn : RegNum) : Statement (.orToReg sz src dn) := of_ea rfl

theorem orToMem (sz : Size) (dn : RegNum) (dst : EA) : Statement (.orToMem sz dn dst) := of_ea rfl

theorem divu (dn : RegNum) (src : EA) : Statement (.divu dn src) := of_ea rfl

theorem divs (dn : RegNum) (src : EA) : Statement (.divs dn src) := of_ea rfl

theorem sbcd (mem : Bool) (x : RegNum) (y : RegNum) : Statement (.sbcd mem x y) := of_none rfl

theorem subToReg (sz : Size) (src : EA) (dn : RegNum) : Statement (.subToReg sz src dn) := of_ea rfl

theorem subToMem (sz : Size) (dn : RegNum) (dst : EA) : Statement (.subToMem sz dn dst) := of_ea rfl

theorem suba (sz : WSize) (an : RegNum) (src : EA) : Statement (.suba sz an src) := of_ea rfl

theorem subx (sz : Size) (mem : Bool) (x : RegNum) (y : RegNum) : Statement (.subx sz mem x y) := of_none rfl

theorem line1010 (low : BitVec 12) : Statement (.line1010 low) := of_none rfl

theorem cmp (sz : Size) (src : EA) (dn : RegNum) : Statement (.cmp sz src dn) := of_ea rfl

theorem cmpa (sz : WSize) (an : RegNum) (src : EA) : Statement (.cmpa sz an src) := of_ea rfl

theorem eor (sz : Size) (dn : RegNum) (dst : EA) : Statement (.eor sz dn dst) := of_ea rfl

theorem cmpm (sz : Size) (x : RegNum) (y : RegNum) : Statement (.cmpm sz x y) := of_none rfl

theorem andToReg (sz : Size) (src : EA) (dn : RegNum) : Statement (.andToReg sz src dn) := of_ea rfl

theorem andToMem (sz : Size) (dn : RegNum) (dst : EA) : Statement (.andToMem sz dn dst) := of_ea rfl

theorem mulu (dn : RegNum) (src : EA) : Statement (.mulu dn src) := of_ea rfl

theorem muls (dn : RegNum) (src : EA) : Statement (.muls dn src) := of_ea rfl

theorem abcd (mem : Bool) (x : RegNum) (y : RegNum) : Statement (.abcd mem x y) := of_none rfl

theorem exgDD (x : RegNum) (y : RegNum) : Statement (.exgDD x y) := of_none rfl

theorem exgAA (x : RegNum) (y : RegNum) : Statement (.exgAA x y) := of_none rfl

theorem exgDA (x : RegNum) (y : RegNum) : Statement (.exgDA x y) := of_none rfl

theorem addToReg (sz : Size) (src : EA) (dn : RegNum) : Statement (.addToReg sz src dn) := of_ea rfl

theorem addToMem (sz : Size) (dn : RegNum) (dst : EA) : Statement (.addToMem sz dn dst) := of_ea rfl

theorem adda (sz : WSize) (an : RegNum) (src : EA) : Statement (.adda sz an src) := of_ea rfl

theorem addx (sz : Size) (mem : Bool) (x : RegNum) (y : RegNum) : Statement (.addx sz mem x y) := of_none rfl

theorem asrReg (sz : Size) (cnt : Count) (dn : RegNum) : Statement (.asrReg sz cnt dn) := of_none rfl

theorem asrMem (dst : EA) : Statement (.asrMem dst) := of_ea rfl

theorem aslReg (sz : Size) (cnt : Count) (dn : RegNum) : Statement (.aslReg sz cnt dn) := of_none rfl

theorem aslMem (dst : EA) : Statement (.aslMem dst) := of_ea rfl

theorem lsrReg (sz : Size) (cnt : Count) (dn : RegNum) : Statement (.lsrReg sz cnt dn) := of_none rfl

theorem lsrMem (dst : EA) : Statement (.lsrMem dst) := of_ea rfl

theorem lslReg (sz : Size) (cnt : Count) (dn : RegNum) : Statement (.lslReg sz cnt dn) := of_none rfl

theorem lslMem (dst : EA) : Statement (.lslMem dst) := of_ea rfl

theorem roxrReg (sz : Size) (cnt : Count) (dn : RegNum) : Statement (.roxrReg sz cnt dn) := of_none rfl

theorem roxrMem (dst : EA) : Statement (.roxrMem dst) := of_ea rfl

theorem roxlReg (sz : Size) (cnt : Count) (dn : RegNum) : Statement (.roxlReg sz cnt dn) := of_none rfl

theorem roxlMem (dst : EA) : Statement (.roxlMem dst) := of_ea rfl

theorem rorReg (sz : Size) (cnt : Count) (dn : RegNum) : Statement (.rorReg sz cnt dn) := of_none rfl

theorem rorMem (dst : EA) : Statement (.rorMem dst) := of_ea rfl

theorem rolReg (sz : Size) (cnt : Count) (dn : RegNum) : Statement (.rolReg sz cnt dn) := of_none rfl

theorem rolMem (dst : EA) : Statement (.rolMem dst) := of_ea rfl

theorem line1111 (low : BitVec 12) : Statement (.line1111 low) := of_none rfl

end Sys2Proof.Laws.EncodeLength
end

