-- ==== Sys2Proof/Tests/Slice0.lean ====
section
/-! SUPPORT. The model's own tests: the smoke test of `wellFormed`, one word of every row of the table decoded, one step per
instruction on a small state (expected values from 95_test_vectors.md, or by hand from the rule named), exceptions and
boundaries, and for every statement with hypotheses a state that meets them. -/

namespace Sys2Proof.Tests

-- One theorem after another: each asks the kernel, and those that wait for it would hold a thread each.
set_option Elab.async false

open Sys2Proof.Machine

/-! ## Well-formedness -/

/-- DATA ALTERABLE refuses an address register, a program-relative operand and immediate data. -/
theorem test_illformed_dataAlterable :
    [Instr.ori (.b 1) (.areg 0), .addi (.w 1) (.pcDisp 2), .cmpi (.b 1) (.imm (.b 2)), .bchgImm 1 (.areg 0),
      .bclrReg 1 (.pcIndex ⟨.d 0, false, 0⟩), .moveB (.dreg 0) (.areg 1), .clr .w (.areg 2), .tst .l (.pcDisp 0),
      .moveFromSr (.areg 0), .scc .t (.imm (.b 0)), .eor .b 0 (.areg 1)].all (fun i => !i.wellFormed) = true := by decide +kernel

/-- DATA (EXCLUDING IMMEDIATE), DATA, MEMORY ALTERABLE and CONTROL. -/
theorem test_illformed_categories :
    [Instr.btstImm 1 (.imm (.b 0)), .btstReg 1 (.areg 0), .chk 0 (.areg 1), .divu 0 (.areg 1), .orToReg .w (.areg 0) 1,
      .orToMem .b 0 (.dreg 1), .addToMem .w 0 (.pcDisp 0), .aslMem (.dreg 0), .lea 0 (.postInc 1), .pea (.dreg 0),
      .jmp (.imm (.w 0)), .jsr (.preDec 1), .movemToMem .w 1 (.postInc 0), .movemToMem .w 1 (.pcDisp 0),
      .movemToReg .l 1 (.preDec 0)].all (fun i => !i.wellFormed) = true := by decide +kernel

/-- An address register has no byte operand, immediate data stands at the operand's size, a short displacement is not 0, and
Bcc has no condition T or F. -/
theorem test_illformed_fields :
    [Instr.moveB (.areg 0) (.dreg 0), .addToReg .b (.areg 0) 1, .addq 1 .b (.areg 0), .moveW (.imm (.b 0)) (.dreg 0),
      .moveaL 0 (.imm (.w 0)), .suba .w 0 (.imm (.l 0)), .muls 0 (.imm (.b 0)), .cmp .l (.imm (.w 0)) 1, .bra (.short 0),
      .bsr (.short 0), .bcc .eq (.short 0), .bcc .t (.word 4), .bcc .f (.short 2)].all (fun i => !i.wellFormed) = true := by
  decide +kernel

/-! ## Decoding and encoding: a word of each row written out by its fields, before another word -/

/-- The words decode to the instruction, the word after them is left, and they are what the encoder gives. -/
def reads (ws : List Word) (i : Instr) : Bool :=
  encode i == ws &&
    match decodeWords (ws ++ [0xABCD]) with
    | .ok (j, rest) => j == i && rest == [0xABCD]
    | .error _ => false

/-- The immediate instructions of line 0000. -/
theorem test_decode_immediate :
    reads [0b00000000_00_000_101, 0x0080] (.ori (.b 0x80) (.dreg 5)) &&
    reads [0b00000010_01_101_010, 0x1234, 0x0010] (.andi (.w 0x1234) (.disp 2 0x10)) &&
    reads [0b00000100_10_111_000, 0x0001, 0x0002, 0x4000] (.subi (.l 0x00010002) (.absW 0x4000)) &&
    reads [0b00000110_01_100_110, 0xFFFF] (.addi (.w 0xFFFF) (.preDec 6)) &&
    reads [0b00001010_00_011_111, 0x000F] (.eori (.b 0x0F) (.postInc 7)) &&
    reads [0b00001100_10_000_001, 0x1234, 0x5678] (.cmpi (.l 0x12345678) (.dreg 1)) &&
    reads [0b0000000000111100, 0x001F] (.oriToCcr 0x1F) &&
    reads [0b0000000001111100, 0x0700] (.oriToSr 0x0700) &&
    reads [0b0000001000111100, 0x00EF] (.andiToCcr 0xEF) &&
    reads [0b0000001001111100, 0xDFFF] (.andiToSr 0xDFFF) &&
    reads [0b0000101000111100, 0x0001] (.eoriToCcr 0x01) &&
    reads [0b0000101001111100, 0x2000] (.eoriToSr 0x2000) := by decide +kernel

/-- The bit instructions and MOVEP. -/
theorem test_decode_bit :
    reads [0b0000100000_111_010, 0x0007, 0x0010] (.btstImm 7 (.pcDisp 0x10)) &&
    reads [0b0000_011_100_010_100] (.btstReg 3 (.ind 4)) &&
    reads [0b0000100001_000_110, 0x001F] (.bchgImm 31 (.dreg 6)) &&
    reads [0b0000_001_101_111_001, 0x0001, 0x2345] (.bchgReg 1 (.absL 0x00012345)) &&
    reads [0b0000100010_011_010, 0x0000] (.bclrImm 0 (.postInc 2)) &&
    reads [0b0000_111_110_000_000] (.bclrReg 7 (.dreg 0)) &&
    reads [0b0000100011_110_011, 0x0004, 0x50FE] (.bsetImm 4 (.index 3 ⟨.d 5, false, 0xFE⟩)) &&
    reads [0b0000_010_111_100_101] (.bsetReg 2 (.preDec 5)) &&
    reads [0b0000_010_10_1_001_101, 0x0004] (.movepToReg .l 2 5 0x0004) &&
    reads [0b0000_110_11_0_001_001, 0xFFFE] (.movepToMem .w 6 1 0xFFFE) := by decide +kernel

/-- MOVE and MOVEA. -/
theorem test_decode_move :
    reads [0b0001_001_010_111_100, 0x0080] (.moveB (.imm (.b 0x80)) (.ind 1)) &&
    reads [0b0011_001_000_010_011] (.moveW (.ind 3) (.dreg 1)) &&
    reads [0b0010_110_101_111_000, 0x1000, 0x0020] (.moveL (.absW 0x1000) (.disp 6 0x0020)) &&
    reads [0b0011_100_001_001_010] (.moveaW 4 (.areg 2)) &&
    reads [0b0010_111_001_111_011, 0xB808] (.moveaL 7 (.pcIndex ⟨.a 3, true, 0x08⟩)) := by decide +kernel

/-- Line 0100 below `$4E00`. -/
theorem test_decode_line4 :
    reads [0b01000000_10_000_011] (.negx .l (.dreg 3)) &&
    reads [0b0100000011_010_101] (.moveFromSr (.ind 5)) &&
    reads [0b0100_010_110_111_100, 0x0064] (.chk 2 (.imm (.w 0x0064))) &&
    reads [0b0100_010_111_110_000, 0x9891] (.lea 2 (.index 0 ⟨.a 1, true, 0x91⟩)) &&
    reads [0b01000010_01_101_010, 0x0012] (.clr .w (.disp 2 0x0012)) &&
    reads [0b01000100_00_100_001] (.neg .b (.preDec 1)) &&
    reads [0b0100010011_000_110] (.moveToCcr (.dreg 6)) &&
    reads [0b01000110_01_111_001, 0x00FF, 0x0000] (.not .w (.absL 0x00FF0000)) &&
    reads [0b0100011011_011_111] (.moveToSr (.postInc 7)) &&
    reads [0b0100100000_000_010] (.nbcd (.dreg 2)) &&
    reads [0b0100100001000_100] (.swap 4) &&
    reads [0b0100100001_010_110] (.pea (.ind 6)) &&
    reads [0b0100100010000_101] (.extW 5) &&
    reads [0b0100100011000_101] (.extL 5) &&
    reads [0b010010001_1_100_111, 0xC080] (.movemToMem .l 0xC080 (.preDec 7)) &&
    reads [0b010011001_0_101_110, 0x0103, 0x0008] (.movemToReg .w 0x0103 (.disp 6 0x0008)) &&
    reads [0b01001010_00_011_100] (.tst .b (.postInc 4)) &&
    reads [0b0100101011_111_000, 0xFFF0] (.tas (.absW 0xFFF0)) := by decide +kernel

/-- The rest of line 0100. -/
theorem test_decode_line4E :
    reads [0b0100101011111100] (.illegal) &&
    reads [0b010011100100_1101] (.trap 13) &&
    reads [0b0100111001010_110, 0xFFF8] (.link 6 0xFFF8) &&
    reads [0b0100111001011_110] (.unlk 6) &&
    reads [0b0100111001100_011] (.moveToUsp 3) &&
    reads [0b0100111001101_011] (.moveFromUsp 3) &&
    reads [0b0100111001110000] (.resetDevices) &&
    reads [0b0100111001110001] (.nop) &&
    reads [0b0100111001110010, 0x2500] (.stop 0x2500) &&
    reads [0b0100111001110011] (.rte) &&
    reads [0b0100111001110101] (.rts) &&
    reads [0b0100111001110110] (.trapv) &&
    reads [0b0100111001110111] (.rtr) &&
    reads [0b0100111010_111_001, 0x0000, 0x2000] (.jsr (.absL 0x00002000)) &&
    reads [0b0100111011_111_011, 0xB010] (.jmp (.pcIndex ⟨.a 3, false, 0x10⟩)) := by decide +kernel

/-- Lines 0101 to 0111. -/
theorem test_decode_lines5to7 :
    reads [0b0101_000_0_01_001_100] (.addq 0 .w (.areg 4)) &&
    reads [0b0101_101_1_00_000_010] (.subq 5 .b (.dreg 2)) &&
    reads [0b0101_1010_11_000_001] (.scc .pl (.dreg 1)) &&
    reads [0b0101_0001_11001_011, 0xFFFC] (.dbcc .f 3 0xFFFC) &&
    reads [0b01100000_11111110] (.bra (.short 0xFE)) &&
    reads [0b01100001_00000000, 0x0100] (.bsr (.word 0x0100)) &&
    reads [0b0110_0110_00001110] (.bcc .ne (.short 0x0E)) &&
    reads [0b0111_011_0_10000000] (.moveq 3 0x80) := by decide +kernel

/-- Lines 1000 and 1001. -/
theorem test_decode_lines8and9 :
    reads [0b1000_101_0_10_000_010] (.orToReg .l (.dreg 2) 5) &&
    reads [0b1000_100_1_00_010_110] (.orToMem .b 4 (.ind 6)) &&
    reads [0b1000_011_011_111_100, 0x0002] (.divu 3 (.imm (.w 2))) &&
    reads [0b1000_011_111_000_111] (.divs 3 (.dreg 7)) &&
    reads [0b1000_010_10000_1_101] (.sbcd true 2 5) &&
    reads [0b1001_001_0_01_001_011] (.subToReg .w (.areg 3) 1) &&
    reads [0b1001_111_1_10_011_010] (.subToMem .l 7 (.postInc 2)) &&
    reads [0b1001_100_1_11_000_001] (.suba .l 4 (.dreg 1)) := by decide +kernel

/-- Lines 1010 to 1100. -/
theorem test_decode_linesAtoC :
    reads [0b1001_011_1_00_00_0_110] (.subx .b false 3 6) &&
    reads [0b1010_101111001101] (.line1010 0xBCD) &&
    reads [0b1011_010_0_10_111_010, 0x0010] (.cmp .l (.pcDisp 0x0010) 2) &&
    reads [0b1011_101_0_11_111_100, 0x8000] (.cmpa .w 5 (.imm (.w 0x8000))) &&
    reads [0b1011_001_1_01_000_000] (.eor .w 1 (.dreg 0)) &&
    reads [0b1011_001_1_10_001_000] (.cmpm .l 1 0) &&
    reads [0b1100_110_0_00_111_000, 0x2000] (.andToReg .b (.absW 0x2000) 6) &&
    reads [0b1100_000_1_01_010_000] (.andToMem .w 0 (.ind 0)) &&
    reads [0b1100_000_011_111_100, 0x0002] (.mulu 0 (.imm (.w 2))) &&
    reads [0b1100_010_111_000_011] (.muls 2 (.dreg 3)) &&
    reads [0b1100_000_10000_0_001] (.abcd false 0 1) &&
    reads [0b1100_010_101000_111] (.exgDD 2 7) &&
    reads [0b1100_001_101001_110] (.exgAA 1 6) &&
    reads [0b1100_100_110001_101] (.exgDA 4 5) := by decide +kernel

/-- Line 1101. -/
theorem test_decode_lineD :
    reads [0b1101_010_0_01_111_100, 0x0064] (.addToReg .w (.imm (.w 0x0064)) 2) &&
    reads [0b1101_011_1_00_111_001, 0x0012, 0x3456] (.addToMem .b 3 (.absL 0x00123456)) &&
    reads [0b1101_000_1_11_111_100, 0x0001, 0x0000] (.adda .l 0 (.imm (.l 0x00010000))) &&
    reads [0b1101_001_1_10_00_1_000] (.addx .l true 1 0) := by decide +kernel

/-- Line 1110. -/
theorem test_decode_lineE :
    reads [0b1110_011_0_01_0_00_001] (.asrReg .w (.imm 3) 1) &&
    reads [0b1110000011_010_000] (.asrMem (.ind 0)) &&
    reads [0b1110_010_1_00_1_00_110] (.aslReg .b (.reg 2) 6) &&
    reads [0b1110000111_101_001, 0x0004] (.aslMem (.disp 1 0x0004)) &&
    reads [0b1110_000_0_10_0_01_111] (.lsrReg .l (.imm 0) 7) &&
    reads [0b1110001011_011_011] (.lsrMem (.postInc 3)) &&
    reads [0b1110_101_1_01_1_01_010] (.lslReg .w (.reg 5) 2) &&
    reads [0b1110001111_100_100] (.lslMem (.preDec 4)) &&
    reads [0b1110_001_0_00_0_10_000] (.roxrReg .b (.imm 1) 0) &&
    reads [0b1110010011_111_000, 0x1000] (.roxrMem (.absW 0x1000)) &&
    reads [0b1110_111_1_10_1_10_011] (.roxlReg .l (.reg 7) 3) &&
    reads [0b1110010111_111_001, 0x0000, 0x1000] (.roxlMem (.absL 0x00001000)) &&
    reads [0b1110_100_0_01_0_11_101] (.rorReg .w (.imm 4) 5) &&
    reads [0b1110011011_110_010, 0x087F] (.rorMem (.index 2 ⟨.d 0, true, 0x7F⟩)) &&
    reads [0b1110_001_1_10_1_11_100] (.rolReg .l (.reg 1) 4) &&
    reads [0b1110011111_010_111] (.rolMem (.ind 7)) := by decide +kernel

/-- Line 1111. -/
theorem test_decode_lineF :
    reads [0b1111_000100100011] (.line1111 0x123) := by decide +kernel

/-- Reserved bits are ignored: the high byte of byte data and bits 10 to 8 of an index word (log entry 27). -/
theorem test_decode_reserved :
    decodeWords [0x0000, 0xFF80] = .ok (.ori (.b 0x80) (.dreg 0), []) ∧
    decodeWords [0x43F0, 0x0710] = .ok (.lea 1 (.index 0 ⟨.d 0, false, 0x10⟩), []) := ⟨rfl, rfl⟩

/-- Words that are no instruction (95_test_vectors.md D.4 to D.9, D.20), and BTST D1,#$80 (B9.11, log entry 26). -/
theorem test_decode_rejects :
    [0x41C0, 0x4E74, 0x4E7A, 0x4E7B, 0x1040, 0x1008, 0x00FC, 0xE8D0].all
      (fun w => decodeWords [w, 0, 0, 0, 0] == .error .illegal) = true ∧
    decodeWords [0x033C, 0xFF80, 0, 0, 0] = .error (.btstImmediate 1 0x80) := by decide +kernel

/-- The words of the table's numbering: the first word in the low bits, read through bytes in memory order. -/
theorem test_decodeTableWord : decodeTableWord 32 0x0064D47C = some (.addToReg .w (.imm (.w 0x0064)) 2) := by decide +kernel

/-! ## One step of each instruction -/

/-- Supervisor state at the program counter 1000, with stacks at 8000 and 6000. -/
def boot : State := { State.reset with ssp := 0x8000, usp := 0x6000, pc := 0x1000, mask := 0 }

/-- The outcome is a next state with the property. -/
def goesTo (o : Outcome) (p : State → Bool) : Bool :=
  match o with
  | .next t => p t
  | .fault _ => false
  | .refused _ => false

/-- A step that runs the given words ends in a state with the property. -/
def runs (s : State) (ws : List Word) (p : State → Bool) : Bool := goesTo (step (s.placeInstr ws)) p

/-- 95_test_vectors.md B1.5. -/
theorem test_moveB : runs ((boot.setDreg 0 0xAA).storeByte 0 0x7FFF 0x55) [0x1F00] (fun t =>
    t.byteAt 0x7FFE == 0xAA && t.byteAt 0x7FFF == 0x55 && t.ssp == 0x7FFE && t.ccr.toByte == 0b01000) := by decide +kernel

/-- 95_test_vectors.md B1.4. -/
theorem test_moveB2 : runs (boot.storeByte 0 0x8000 0x7F) [0x101F] (fun t =>
    t.d[0] == 0x7F && t.ssp == 0x8002 && t.ccr.toByte == 0b00000) := by decide +kernel

/-- 95_test_vectors.md B1.10. -/
theorem test_moveW :
    runs (((boot.setAreg 0 0x2000).setDreg 1 0x18000).storeWord 0 0xFFA004 0x1234)
      [0x3030, 0x1004] (fun t =>
    t.d[0] == 0x1234 && t.ccr.toByte == 0b00000) := by decide +kernel

/-- 95_test_vectors.md B1.18. -/
theorem test_moveW2 : runs ((boot.setAreg 0 0x2000).storeWord 0 0x2000 0x1111) [0x30D8] (fun t =>
    t.wordAt 0 0x2002 == 0x1111 && t.areg 0 == 0x2004 && t.ccr.toByte == 0b00000) := by decide +kernel

/-- 95_test_vectors.md B1.7. -/
theorem test_moveL : runs ((boot.setAreg 0 0x2004).store .l false 0x2000 0xDEADBEEF) [0x2020] (fun t =>
    t.d[0] == 0xDEADBEEF && t.areg 0 == 0x2000 && t.ccr.toByte == 0b01000) := by decide +kernel

/-- 95_test_vectors.md B1.17. -/
theorem test_moveL2 : runs boot [0x203C, 0x1234, 0x5678] (fun t =>
    t.d[0] == 0x12345678 && t.pc == 0x1006 && t.ccr.toByte == 0b00000) := by decide +kernel

/-- 95_test_vectors.md B2.3. -/
theorem test_moveaW : runs (boot.setDreg 0 0x8000) [0x3040] (fun t =>
    t.areg 0 == 0xFFFF8000 && t.ccr.toByte == 0b00000) := by decide +kernel

/-- 95_test_vectors.md B2.4. -/
theorem test_moveaL : runs (boot.setDreg 0 0x8000) [0x2040] (fun t =>
    t.areg 0 == 0x8000 && t.ccr.toByte == 0b00000) := by decide +kernel

/-- 95_test_vectors.md B2.6. -/
theorem test_moveFromSr : runs ((boot.setSr 0x271F).setDreg 0 0xFFFFFFFF) [0x40C0] (fun t =>
    t.d[0] == 0xFFFF271F && t.ccr.toByte == 0b11111) := by decide +kernel

/-- 95_test_vectors.md B2.9. -/
theorem test_moveToCcr : runs (boot.setSr 0x0) [0x44FC, 0xFFFF] (fun t =>
    t.sr == 0x1F) := by decide +kernel

/-- 95_test_vectors.md B2.10. -/
theorem test_moveToSr : runs (boot.setSr 0x2700) [0x46FC, 0x0000] (fun t =>
    t.sr == 0x0 && t.areg 7 == 0x6000 && t.pc == 0x1004) := by decide +kernel

/-- 95_test_vectors.md B2.12. -/
theorem test_moveToSr2 : runs ((boot.setSr 0x0).store .l false 0x20 0xB00) [0x46FC, 0x2700] (fun t =>
    t.pc == 0xB00 && t.sr == 0x2000 && t.wordAt 0 0x7FFA == 0x0 && t.load .l 0x7FFC == 0x1000) := by decide +kernel

/-- 95_test_vectors.md B2.13. -/
theorem test_moveToUsp : runs (boot.setAreg 0 0x5000) [0x4E60] (fun t =>
    t.usp == 0x5000 && t.ssp == 0x8000 && t.ccr.toByte == 0b00000) := by decide +kernel

/-- 95_test_vectors.md B2.14. -/
theorem test_moveFromUsp : runs boot [0x4E69] (fun t =>
    t.areg 1 == 0x6000 && t.ccr.toByte == 0b00000) := by decide +kernel

/-- 95_test_vectors.md B2.19. -/
theorem test_moveq : runs boot [0x7E80] (fun t =>
    t.d[7] == 0xFFFFFF80 && t.ccr.toByte == 0b01000) := by decide +kernel

/-- 95_test_vectors.md B2.20. -/
theorem test_exgDA : runs ((boot.setDreg 0 0x1).setAreg 1 0x2) [0xC189] (fun t =>
    t.d[0] == 0x2 && t.areg 1 == 0x1 && t.ccr.toByte == 0b00000) := by decide +kernel

/-- 95_test_vectors.md B2.21. -/
theorem test_exgDD : runs ((boot.setDreg 0 0x1).setDreg 1 0x2) [0xC141] (fun t =>
    t.d[0] == 0x2 && t.d[1] == 0x1 && t.ccr.toByte == 0b00000) := by decide +kernel

/-- 95_test_vectors.md B2.22. -/
theorem test_exgAA : runs ((boot.setAreg 0 0x1).setAreg 1 0x2) [0xC149] (fun t =>
    t.areg 0 == 0x2 && t.areg 1 == 0x1 && t.ccr.toByte == 0b00000) := by decide +kernel

/-- 95_test_vectors.md B2.23. -/
theorem test_swap : runs (boot.setDreg 4 0x12348000) [0x4844] (fun t =>
    t.d[4] == 0x80001234 && t.ccr.toByte == 0b01000) := by decide +kernel

/-- 95_test_vectors.md B3.2. -/
theorem test_addToReg : runs ((boot.setDreg 0 0x123456FF).setDreg 1 0x1) [0xD001] (fun t =>
    t.d[0] == 0x12345600 && t.ccr.toByte == 0b10101) := by decide +kernel

/-- 95_test_vectors.md B3.3. -/
theorem test_addToReg2 : runs ((boot.setDreg 0 0x8000).setDreg 1 0x8000) [0xD041] (fun t =>
    t.d[0] == 0x0 && t.ccr.toByte == 0b10111) := by decide +kernel

/-- 95_test_vectors.md B3.5. -/
theorem test_addToMem : runs (((boot.setDreg 0 0x1).setAreg 0 0x2000).storeWord 0 0x2000 0xFFFF) [0xD150] (fun t =>
    t.wordAt 0 0x2000 == 0x0 && t.d[0] == 0x1 && t.ccr.toByte == 0b10101) := by decide +kernel

/-- 95_test_vectors.md B3.6. -/
theorem test_addi : runs (boot.setDreg 0 0xFF) [0x0600, 0x0001] (fun t =>
    t.d[0] == 0x0 && t.ccr.toByte == 0b10101) := by decide +kernel

/-- 95_test_vectors.md B3.7. -/
theorem test_adda : runs (boot.setAreg 1 0x10000) [0xD2FC, 0x8000] (fun t =>
    t.areg 1 == 0x8000 && t.ccr.toByte == 0b00000) := by decide +kernel

/-- 95_test_vectors.md B3.10. -/
theorem test_addq : runs (boot.setDreg 0 0x7FF8) [0x5040] (fun t =>
    t.d[0] == 0x8000 && t.ccr.toByte == 0b01010) := by decide +kernel

/-- 95_test_vectors.md B3.11. -/
theorem test_addq2 : runs (boot.setAreg 0 0xFFFF) [0x5248] (fun t =>
    t.areg 0 == 0x10000 && t.ccr.toByte == 0b00000) := by decide +kernel

/-- 95_test_vectors.md B3.15. -/
theorem test_subToReg : runs ((boot.setDreg 0 0x7FFF).setDreg 1 0xFFFF) [0x9041] (fun t =>
    t.d[0] == 0x8000 && t.ccr.toByte == 0b11011) := by decide +kernel

/-- 95_test_vectors.md B3.13. -/
theorem test_subToReg2 : runs ((boot.setDreg 0 0x80).setDreg 1 0x1) [0x9001] (fun t =>
    t.d[0] == 0x7F && t.ccr.toByte == 0b00010) := by decide +kernel

/-- SUB.W D1,(A0) by hand: 0 - 1 borrows, 42_integer_arithmetic.md R194, R199. -/
theorem test_subToMem : runs (((boot.setAreg 0 0x2000).setDreg 1 0x1).storeWord 0 0x2000 0x0) [0x9350] (fun t =>
    t.wordAt 0 0x2000 == 0xFFFF && t.d[1] == 0x1 && t.ccr.toByte == 0b11001) := by decide +kernel

/-- 95_test_vectors.md B3.16. -/
theorem test_subi : runs boot [0x0440, 0x0001] (fun t =>
    t.d[0] == 0xFFFF && t.ccr.toByte == 0b11001) := by decide +kernel

/-- 95_test_vectors.md B3.17. -/
theorem test_suba : runs (boot.setAreg 1 0x2000) [0x92FC, 0x0010] (fun t =>
    t.areg 1 == 0x1FF0 && t.ccr.toByte == 0b00000) := by decide +kernel

/-- 95_test_vectors.md B3.18. -/
theorem test_subq : runs (boot.setDreg 0 0x10000) [0x5340] (fun t =>
    t.d[0] == 0x1FFFF && t.ccr.toByte == 0b11001) := by decide +kernel

/-- 95_test_vectors.md B3.19. -/
theorem test_subq2 : runs boot [0x5388] (fun t =>
    t.areg 0 == 0xFFFFFFFF && t.ccr.toByte == 0b00000) := by decide +kernel

/-- 95_test_vectors.md B3.20. -/
theorem test_cmp : runs ((boot.setDreg 0 0x5).setDreg 1 0x10) [0xB041] (fun t =>
    t.d[0] == 0x5 && t.ccr.toByte == 0b01001) := by decide +kernel

/-- 95_test_vectors.md B3.23. -/
theorem test_cmpa : runs (boot.setAreg 0 0x8000) [0xB0FC, 0x8000] (fun t =>
    t.areg 0 == 0x8000 && t.ccr.toByte == 0b00001) := by decide +kernel

/-- 95_test_vectors.md B3.24. -/
theorem test_cmpi : runs (boot.setDreg 1 0x10) [0x0C41, 0x0010] (fun t =>
    t.d[1] == 0x10 && t.ccr.toByte == 0b00100) := by decide +kernel

/-- 95_test_vectors.md B3.26. -/
theorem test_cmpm :
    runs ((((boot.setAreg 0 0x2000).setAreg 1 0x3000).store .l false 0x2000 0x2).store .l false 0x3000 0x1)
      [0xB388] (fun t =>
    t.areg 0 == 0x2004 && t.areg 1 == 0x3004 && t.ccr.toByte == 0b01001) := by decide +kernel

/-- 95_test_vectors.md B3.28. -/
theorem test_tst : runs (boot.setSr 0x2003) [0x4A80] (fun t =>
    t.d[0] == 0x0 && t.ccr.toByte == 0b00100) := by decide +kernel

/-- 95_test_vectors.md B3.29. -/
theorem test_extW : runs (boot.setDreg 0 0x12340080) [0x4880] (fun t =>
    t.d[0] == 0x1234FF80 && t.ccr.toByte == 0b01000) := by decide +kernel

/-- 95_test_vectors.md B3.31. -/
theorem test_extL : runs (boot.setDreg 0 0x12348000) [0x48C0] (fun t =>
    t.d[0] == 0xFFFF8000 && t.ccr.toByte == 0b01000) := by decide +kernel

/-- 95_test_vectors.md B3.32. -/
theorem test_neg : runs (boot.setDreg 0 0x80) [0x4400] (fun t =>
    t.d[0] == 0x80 && t.ccr.toByte == 0b11011) := by decide +kernel

/-- 95_test_vectors.md B3.35. -/
theorem test_clr : runs ((boot.setDreg 0 0xFFFFFFFF).setSr 0x2010) [0x4280] (fun t =>
    t.d[0] == 0x0 && t.ccr.toByte == 0b10100) := by decide +kernel

/-- 95_test_vectors.md B3.40. -/
theorem test_mulu : runs ((boot.setDreg 0 0x1234FFFF).setDreg 1 0xFFFF) [0xC0C1] (fun t =>
    t.d[0] == 0xFFFE0001 && t.ccr.toByte == 0b01000) := by decide +kernel

/-- 95_test_vectors.md B3.44. -/
theorem test_muls : runs ((boot.setDreg 0 0x8000).setDreg 1 0x1) [0xC1C1] (fun t =>
    t.d[0] == 0xFFFF8000 && t.ccr.toByte == 0b01000) := by decide +kernel

/-- 95_test_vectors.md B3.45. -/
theorem test_divu : runs ((boot.setDreg 0 0x10003).setDreg 1 0x2) [0x80C1] (fun t =>
    t.d[0] == 0x18001 && t.ccr.toByte == 0b01000) := by decide +kernel

/-- 95_test_vectors.md B3.51. -/
theorem test_divs : runs ((boot.setDreg 0 0xFFFFFFF9).setDreg 1 0xFFFE) [0x81C1] (fun t =>
    t.d[0] == 0xFFFF0003 && t.ccr.toByte == 0b00000) := by decide +kernel

/-- 95_test_vectors.md B3.54. -/
theorem test_divs2 : runs ((boot.setDreg 0 0x80000000).setDreg 1 0xFFFF) [0x81C1] (fun t =>
    t.d[0] == 0x80000000 && t.ccr.x == false && t.ccr.v == true && t.ccr.c == false) := by decide +kernel

/-- 95_test_vectors.md B4.2. -/
theorem test_aslReg : runs (boot.setDreg 0 0x4000) [0xE540] (fun t =>
    t.d[0] == 0x0 && t.ccr.toByte == 0b10111) := by decide +kernel

/-- 95_test_vectors.md B4.8. -/
theorem test_aslReg2 : runs (((boot.setDreg 1 0x40).setDreg 0 0x80000000).setSr 0x2010) [0xE3A0] (fun t =>
    t.d[0] == 0x80000000 && t.ccr.toByte == 0b11000) := by decide +kernel

/-- 95_test_vectors.md B4.10. -/
theorem test_asrReg : runs (boot.setDreg 0 0x80) [0xE000] (fun t =>
    t.d[0] == 0xFF && t.ccr.toByte == 0b11001) := by decide +kernel

/-- 95_test_vectors.md B4.12. -/
theorem test_lslReg : runs (boot.setDreg 0 0xC000) [0xE348] (fun t =>
    t.d[0] == 0x8000 && t.ccr.toByte == 0b11001) := by decide +kernel

/-- 95_test_vectors.md B4.16. -/
theorem test_lsrReg : runs ((boot.setDreg 1 0x21).setDreg 0 0x80000000) [0xE2A8] (fun t =>
    t.d[0] == 0x0 && t.ccr.toByte == 0b00100) := by decide +kernel

/-- 95_test_vectors.md B4.17. -/
theorem test_rolReg : runs (boot.setDreg 1 0x1234) [0xE959] (fun t =>
    t.d[1] == 0x2341 && t.ccr.toByte == 0b00001) := by decide +kernel

/-- 95_test_vectors.md B4.19. -/
theorem test_rolReg2 : runs ((boot.setDreg 0 0x8000).setSr 0x2011) [0xE378] (fun t =>
    t.d[0] == 0x8000 && t.ccr.toByte == 0b11000) := by decide +kernel

/-- 95_test_vectors.md B4.20. -/
theorem test_rorReg : runs ((boot.setDreg 1 0x4).setDreg 0 0x12345678) [0xE2B8] (fun t =>
    t.d[0] == 0x81234567 && t.ccr.toByte == 0b01001) := by decide +kernel

/-- 95_test_vectors.md B4.22. -/
theorem test_roxlReg : runs (boot.setDreg 0 0x8000) [0xE350] (fun t =>
    t.d[0] == 0x0 && t.ccr.toByte == 0b10101) := by decide +kernel

/-- 95_test_vectors.md B4.25. -/
theorem test_roxrReg : runs (((boot.setDreg 1 0x9).setDreg 0 0xA5).setSr 0x2010) [0xE330] (fun t =>
    t.d[0] == 0xA5 && t.ccr.toByte == 0b11001) := by decide +kernel

/-- 95_test_vectors.md B4.27. -/
theorem test_rolMem : runs ((boot.setAreg 0 0x2000).storeWord 0 0x2000 0x8001) [0xE7D0] (fun t =>
    t.wordAt 0 0x2000 == 0x3 && t.ccr.toByte == 0b00001) := by decide +kernel

/-- 95_test_vectors.md B4.28. -/
theorem test_aslMem : runs ((boot.setAreg 0 0x2000).storeWord 0 0x2000 0x4000) [0xE1D0] (fun t =>
    t.wordAt 0 0x2000 == 0x8000 && t.ccr.toByte == 0b01010) := by decide +kernel

/-- 95_test_vectors.md B4.29. -/
theorem test_lsrMem : runs ((boot.setAreg 0 0x2000).storeWord 0 0x2000 0x1) [0xE2D0] (fun t =>
    t.wordAt 0 0x2000 == 0x0 && t.ccr.toByte == 0b10101) := by decide +kernel

/-- 95_test_vectors.md B4.30. -/
theorem test_roxrMem : runs ((boot.setAreg 0 0x2000).setSr 0x2010) [0xE4D0] (fun t =>
    t.wordAt 0 0x2000 == 0x8000 && t.ccr.toByte == 0b01000) := by decide +kernel

/-- ASR (A0) by hand, 43_shift_rotate.md R232, R237. -/
theorem test_asrMem : runs ((boot.setAreg 0 0x2000).storeWord 0 0x2000 0x8001) [0xE0D0] (fun t =>
    t.wordAt 0 0x2000 == 0xC000 && t.ccr.toByte == 0b11001) := by decide +kernel

/-- LSL (A0) by hand, 43_shift_rotate.md R233, R237. -/
theorem test_lslMem : runs ((boot.setAreg 0 0x2000).storeWord 0 0x2000 0xC000) [0xE3D0] (fun t =>
    t.wordAt 0 0x2000 == 0x8000 && t.ccr.toByte == 0b11001) := by decide +kernel

/-- ROXL (A0) by hand: X in, bit 15 out, 47_extended_precision_bcd.md R313. -/
theorem test_roxlMem : runs (((boot.setAreg 0 0x2000).storeWord 0 0x2000 0x8000).setSr 0x2010) [0xE5D0] (fun t =>
    t.wordAt 0 0x2000 == 0x1 && t.ccr.toByte == 0b10001) := by decide +kernel

/-- ROR (A0) by hand, 43_shift_rotate.md R236, R237. -/
theorem test_rorMem : runs ((boot.setAreg 0 0x2000).storeWord 0 0x2000 0x1) [0xE6D0] (fun t =>
    t.wordAt 0 0x2000 == 0x8000 && t.ccr.toByte == 0b01001) := by decide +kernel

/-- 95_test_vectors.md B5.1. -/
theorem test_andToReg : runs ((boot.setDreg 0 0xFFFFF0F0).setDreg 1 0xFF0) [0xC041] (fun t =>
    t.d[0] == 0xFFFF00F0 && t.ccr.toByte == 0b00000) := by decide +kernel

/-- 95_test_vectors.md B5.3. -/
theorem test_andi : runs (boot.setDreg 0 0x1234) [0x0240, 0x00FF] (fun t =>
    t.d[0] == 0x34 && t.ccr.toByte == 0b00000) := by decide +kernel

/-- 95_test_vectors.md B5.4. -/
theorem test_orToReg : runs ((boot.setDreg 0 0x8000).setDreg 1 0x1) [0x8041] (fun t =>
    t.d[0] == 0x8001 && t.ccr.toByte == 0b01000) := by decide +kernel

/-- 95_test_vectors.md B5.5. -/
theorem test_ori : runs (boot.setDreg 0 0x1) [0x0000, 0x0080] (fun t =>
    t.d[0] == 0x81 && t.ccr.toByte == 0b01000) := by decide +kernel

/-- 95_test_vectors.md B5.6. -/
theorem test_eor : runs ((boot.setDreg 0 0xFFFF).setDreg 1 0xFFFF) [0xB340] (fun t =>
    t.d[0] == 0x0 && t.ccr.toByte == 0b00100) := by decide +kernel

/-- 95_test_vectors.md B5.7. -/
theorem test_eori : runs (boot.setDreg 0 0x12345678) [0x0A80, 0xFFFF, 0xFFFF] (fun t =>
    t.d[0] == 0xEDCBA987 && t.pc == 0x1006 && t.ccr.toByte == 0b01000) := by decide +kernel

/-- 95_test_vectors.md B5.8. -/
theorem test_not : runs (boot.setDreg 0 0x1234FFFF) [0x4640] (fun t =>
    t.d[0] == 0x12340000 && t.ccr.toByte == 0b00100) := by decide +kernel

/-- 95_test_vectors.md B5.10. -/
theorem test_andiToCcr : runs (boot.setSr 0x1F) [0x023C, 0x00EF] (fun t =>
    t.sr == 0x0F) := by decide +kernel

/-- 95_test_vectors.md B5.12. -/
theorem test_andiToSr : runs (boot.setSr 0x2000) [0x027C, 0xDFFF] (fun t =>
    t.sr == 0x0 && t.areg 7 == 0x6000) := by decide +kernel

/-- 95_test_vectors.md B5.13. -/
theorem test_oriToCcr : runs (boot.setSr 0x0) [0x003C, 0x0004] (fun t =>
    t.sr == 0x4) := by decide +kernel

/-- 95_test_vectors.md B5.19. -/
theorem test_oriToSr : runs boot [0x007C, 0xFFFF] (fun t =>
    t.sr == 0xA71F) := by decide +kernel

/-- 95_test_vectors.md B5.15. -/
theorem test_oriToSr2 : runs ((boot.setSr 0x0).store .l false 0x20 0xB00) [0x007C, 0x0700] (fun t =>
    t.sr == 0x2000 && t.pc == 0xB00 && t.wordAt 0 0x7FFA == 0x0) := by decide +kernel

/-- 95_test_vectors.md B5.16. -/
theorem test_eoriToCcr : runs (boot.setSr 0x1) [0x0A3C, 0x0001] (fun t =>
    t.sr == 0x0) := by decide +kernel

/-- 95_test_vectors.md B5.17. -/
theorem test_eoriToSr : runs boot [0x0A7C, 0x2000] (fun t =>
    t.sr == 0x0) := by decide +kernel

/-- AND.W D1,(A0) by hand, 44_logic.md R250, R263. -/
theorem test_andToMem : runs (((boot.setAreg 0 0x2000).setDreg 1 0xF0F0).storeWord 0 0x2000 0x8FFF) [0xC350] (fun t =>
    t.wordAt 0 0x2000 == 0x80F0 && t.ccr.toByte == 0b01000) := by decide +kernel

/-- OR.B D1,(A0) by hand, 44_logic.md R252, R263. -/
theorem test_orToMem : runs (((boot.setAreg 0 0x2001).setDreg 1 0x0).storeByte 0 0x2001 0x0) [0x8310] (fun t =>
    t.byteAt 0x2001 == 0x0 && t.ccr.toByte == 0b00100) := by decide +kernel

/-- 95_test_vectors.md B6.5. -/
theorem test_bcc : runs boot [0x6600, 0x8000] (fun t =>
    t.pc == 0xFFFF9002) := by decide +kernel

/-- 95_test_vectors.md B6.2. -/
theorem test_bcc2 : runs boot [0x670E] (fun t =>
    t.pc == 0x1002) := by decide +kernel

/-- 95_test_vectors.md B6.3. -/
theorem test_bra : runs boot [0x6004] (fun t =>
    t.pc == 0x1006) := by decide +kernel

/-- 95_test_vectors.md B6.8. -/
theorem test_bsr : runs boot [0x611E] (fun t =>
    t.pc == 0x1020 && t.load .l 0x7FFC == 0x1002 && t.ssp == 0x7FFC) := by decide +kernel

/-- 95_test_vectors.md A2.7. -/
theorem test_jmp : runs (boot.setAreg 3 0xFFFF0008) [0x4EFB, 0xB010] (fun t =>
    t.pc == 0x101A) := by decide +kernel

/-- 95_test_vectors.md B6.12. -/
theorem test_jsr : runs boot [0x4EB8, 0x2000] (fun t =>
    t.pc == 0x2000 && t.load .l 0x7FFC == 0x1004 && t.ssp == 0x7FFC) := by decide +kernel

/-- 95_test_vectors.md B6.14. -/
theorem test_rts : runs ((boot.setAreg 7 0x7FFC).store .l false 0x7FFC 0x1004) [0x4E75] (fun t =>
    t.pc == 0x1004 && t.ssp == 0x8000) := by decide +kernel

/-- 95_test_vectors.md B6.16. -/
theorem test_nop : runs boot [0x4E71] (fun t =>
    t.pc == 0x1002 && t.ccr.toByte == 0b00000) := by decide +kernel

/-- 95_test_vectors.md B6.17. -/
theorem test_rtr :
    runs ((((boot.setAreg 7 0x7FFA).storeWord 0 0x7FFA 0xFF1F).store .l false 0x7FFC 0x1234).setSr 0x2700)
      [0x4E77] (fun t =>
    t.sr == 0x271F && t.pc == 0x1234 && t.ssp == 0x8000) := by decide +kernel

/-- 95_test_vectors.md B6.18. -/
theorem test_rte :
    runs (((boot.setAreg 7 0x7FFA).storeWord 0 0x7FFA 0x15).store .l false 0x7FFC 0x1002)
      [0x4E73] (fun t =>
    t.sr == 0x15 && t.pc == 0x1002 && t.ssp == 0x8000 && t.areg 7 == 0x6000) := by decide +kernel

/-- 95_test_vectors.md B11.13. -/
theorem test_rte2 :
    runs (((boot.setAreg 7 0x7FFA).storeWord 0 0x7FFA 0x8000).store .l false 0x7FFC 0x1002)
      [0x4E73] (fun t =>
    t.sr == 0x8000 && t.pc == 0x1002 && t.tracePending == false) := by decide +kernel

/-- 95_test_vectors.md B6.20. -/
theorem test_resetDevices : runs boot [0x4E70] (fun t =>
    t.pc == 0x1002 && t.ccr.toByte == 0b00000) := by decide +kernel

/-- 95_test_vectors.md B6.22. -/
theorem test_trap : runs ((boot.setSr 0x0).store .l false 0x8C 0x700) [0x4E43] (fun t =>
    t.wordAt 0 0x7FFA == 0x0 && t.load .l 0x7FFC == 0x1002 && t.ssp == 0x7FFA && t.usp == 0x6000 &&
    t.sr == 0x2000 && t.pc == 0x700) := by decide +kernel

/-- 95_test_vectors.md B6.25. -/
theorem test_trapv : runs ((boot.setSr 0x2002).store .l false 0x1C 0x700) [0x4E76] (fun t =>
    t.pc == 0x700 && t.wordAt 0 0x7FFA == 0x2002 && t.load .l 0x7FFC == 0x1002) := by decide +kernel

/-- 95_test_vectors.md B6.24. -/
theorem test_trapv2 : runs boot [0x4E76] (fun t =>
    t.pc == 0x1002 && t.ccr.toByte == 0b00000) := by decide +kernel

/-- 95_test_vectors.md A7. -/
theorem test_stop : runs boot [0x4E72, 0x2500] (fun t =>
    t.sr == 0x2500 && t.pc == 0x1004 && t.run == .stopped) := by decide +kernel

/-- 95_test_vectors.md B11.6. -/
theorem test_stop2 : runs ((boot.setSr 0x0).store .l false 0x20 0xB00) [0x4E72, 0x2000] (fun t =>
    t.wordAt 0 0x7FFA == 0x0 && t.load .l 0x7FFC == 0x1000 && t.sr == 0x2000 && t.pc == 0xB00 &&
    t.usp == 0x6000) := by decide +kernel

/-- 95_test_vectors.md A5.1. -/
theorem test_lea : runs ((boot.setAreg 0 0x11111111).setAreg 1 0x22222222) [0x45F0, 0x9891] (fun t =>
    t.areg 2 == 0x333332C4 && t.ccr.toByte == 0b00000) := by decide +kernel

/-- 95_test_vectors.md B7.3. -/
theorem test_lea2 : runs boot [0x41FA, 0xFFFE] (fun t =>
    t.areg 0 == 0x1000 && t.ccr.toByte == 0b00000) := by decide +kernel

/-- 95_test_vectors.md B7.6. -/
theorem test_pea : runs boot [0x4857] (fun t =>
    t.load .l 0x7FFC == 0x8000 && t.ssp == 0x7FFC && t.ccr.toByte == 0b00000) := by decide +kernel

/-- 95_test_vectors.md B8.4. -/
theorem test_addx :
    runs (((((boot.setAreg 0 0x2001).setAreg 1 0x3001).storeByte 0 0x2000 0xFF).storeByte 0 0x3000 0x1).setSr 0x2004)
      [0xD308] (fun t =>
    t.byteAt 0x3000 == 0x0 && t.areg 0 == 0x2000 && t.areg 1 == 0x3000 && t.ccr.toByte == 0b10101) := by decide +kernel

/-- 95_test_vectors.md B8.3. -/
theorem test_addx2 : runs ((boot.setDreg 0 0xFFFFFFFF).setSr 0x2010) [0xD181] (fun t =>
    t.d[0] == 0x0 && t.ccr.toByte == 0b10001) := by decide +kernel

/-- 95_test_vectors.md B8.5. -/
theorem test_subx : runs (boot.setSr 0x2014) [0x9141] (fun t =>
    t.d[0] == 0xFFFF && t.ccr.toByte == 0b11001) := by decide +kernel

/-- SUBX.B -(A0),-(A1) by hand, 47_extended_precision_bcd.md R311. -/
theorem test_subx2 :
    runs (((((boot.setAreg 0 0x2001).setAreg 1 0x3001).storeByte 0 0x2000 0x1).storeByte 0 0x3000 0x0).setSr 0x2004)
      [0x9308] (fun t =>
    t.byteAt 0x3000 == 0xFF && t.areg 0 == 0x2000 && t.areg 1 == 0x3000 && t.ccr.toByte == 0b11001) := by decide +kernel

/-- 95_test_vectors.md B8.7. -/
theorem test_negx : runs (boot.setSr 0x2014) [0x4040] (fun t =>
    t.d[0] == 0xFFFF && t.ccr.toByte == 0b11001) := by decide +kernel

/-- 95_test_vectors.md B8.11. -/
theorem test_abcd : runs (((boot.setDreg 0 0x49).setDreg 1 0x50).setSr 0x2010) [0xC101] (fun t =>
    t.d[0] == 0x0 && t.ccr.x == true && t.ccr.z == false && t.ccr.c == true) := by decide +kernel

/-- 95_test_vectors.md B8.13. -/
theorem test_sbcd : runs ((boot.setDreg 1 0x1).setSr 0x2004) [0x8101] (fun t =>
    t.d[0] == 0x99 && t.ccr.x == true && t.ccr.z == false && t.ccr.c == true) := by decide +kernel

/-- 95_test_vectors.md B8.14. -/
theorem test_nbcd : runs ((boot.setDreg 0 0x25).setSr 0x2004) [0x4800] (fun t =>
    t.d[0] == 0x75 && t.ccr.x == true && t.ccr.z == false && t.ccr.c == true) := by decide +kernel

/-- 95_test_vectors.md B9.4. -/
theorem test_btstImm : runs ((boot.setAreg 0 0x2000).storeByte 0 0x2000 0x2) [0x0810, 0x0009] (fun t =>
    t.ccr.toByte == 0b00000) := by decide +kernel

/-- 95_test_vectors.md B9.3. -/
theorem test_btstReg : runs ((boot.setDreg 1 0x23).setDreg 0 0x8) [0x0300] (fun t =>
    t.ccr.toByte == 0b00000) := by decide +kernel

/-- 95_test_vectors.md B9.6. -/
theorem test_bchgImm : runs (boot.setDreg 0 0x1) [0x0840, 0x0000] (fun t =>
    t.d[0] == 0x0 && t.ccr.toByte == 0b00000) := by decide +kernel

/-- BCHG D1,(A0) by hand: bit 15 mod 8 = 7, 48_bit_manipulation.md R331. -/
theorem test_bchgReg : runs (((boot.setAreg 0 0x2000).setDreg 1 0xF).storeByte 0 0x2000 0x80) [0x0350] (fun t =>
    t.byteAt 0x2000 == 0x0 && t.ccr.toByte == 0b00000) := by decide +kernel

/-- 95_test_vectors.md B9.7. -/
theorem test_bclrImm : runs ((boot.setAreg 0 0x2000).storeByte 0 0x2000 0xFF) [0x0890, 0x0007] (fun t =>
    t.byteAt 0x2000 == 0x7F && t.ccr.toByte == 0b00000) := by decide +kernel

/-- BCLR D1,D0 by hand: bit 63 mod 32 = 31, 48_bit_manipulation.md R332. -/
theorem test_bclrReg : runs ((boot.setDreg 1 0x3F).setDreg 0 0x80000001) [0x0380] (fun t =>
    t.d[0] == 0x1 && t.ccr.toByte == 0b00000) := by decide +kernel

/-- 95_test_vectors.md B9.10. -/
theorem test_bsetImm : runs boot [0x08C0, 0x001F] (fun t =>
    t.d[0] == 0x80000000 && t.ccr.toByte == 0b00100) := by decide +kernel

/-- 95_test_vectors.md B9.9. -/
theorem test_bsetReg : runs ((boot.setAreg 0 0x2000).setDreg 1 0x9) [0x03D0] (fun t =>
    t.byteAt 0x2000 == 0x2 && t.ccr.toByte == 0b00100) := by decide +kernel

/-- 95_test_vectors.md B10.1. -/
theorem test_movemToMem : runs (((boot.setDreg 0 0x1).setDreg 1 0x2).setAreg 0 0x3) [0x48E7, 0xC080] (fun t =>
    t.load .l 0x7FFC == 0x3 && t.load .l 0x7FF8 == 0x2 && t.load .l 0x7FF4 == 0x1 && t.ssp == 0x7FF4 &&
    t.ccr.toByte == 0b00000) := by decide +kernel

/-- 95_test_vectors.md B10.6. -/
theorem test_movemToMem2 :
    runs (((boot.setDreg 0 0x1234ABCD).setAreg 0 0x12000).setAreg 1 0x3000)
      [0x4891, 0x0101] (fun t =>
    t.wordAt 0 0x3000 == 0xABCD && t.wordAt 0 0x3002 == 0x2000 && t.areg 1 == 0x3000) := by decide +kernel

/-- 95_test_vectors.md B10.7. -/
theorem test_movemToReg :
    runs (((boot.setAreg 0 0x2000).storeWord 0 0x2000 0x1).storeWord 0 0x2002 0xFFFE)
      [0x4C98, 0x0201] (fun t =>
    t.d[0] == 0x1 && t.areg 1 == 0xFFFFFFFE && t.areg 0 == 0x2004) := by decide +kernel

/-- 95_test_vectors.md B10.9. -/
theorem test_link : runs (boot.setAreg 6 0xAAAAAAAA) [0x4E56, 0xFFF8] (fun t =>
    t.load .l 0x7FFC == 0xAAAAAAAA && t.areg 6 == 0x7FFC && t.ssp == 0x7FF4) := by decide +kernel

/-- 95_test_vectors.md B10.10. -/
theorem test_unlk : runs ((boot.setAreg 6 0x7FFC).store .l false 0x7FFC 0xAAAAAAAA) [0x4E5E] (fun t =>
    t.ssp == 0x8000 && t.areg 6 == 0xAAAAAAAA) := by decide +kernel

/-- 95_test_vectors.md B10.12. -/
theorem test_scc : runs ((boot.setSr 0x2004).setDreg 0 0x12345678) [0x57C0] (fun t =>
    t.d[0] == 0x123456FF && t.ccr.toByte == 0b00100) := by decide +kernel

/-- 95_test_vectors.md B10.17. -/
theorem test_dbcc : runs (boot.setDreg 0 0x50000) [0x51C8, 0xFFEE] (fun t =>
    t.d[0] == 0x5FFFF && t.pc == 0x1004) := by decide +kernel

/-- 95_test_vectors.md B10.16. -/
theorem test_dbcc2 : runs (boot.setDreg 0 0x50003) [0x51C8, 0xFFEE] (fun t =>
    t.d[0] == 0x50002 && t.pc == 0xFF0) := by decide +kernel

/-- 95_test_vectors.md B10.22. -/
theorem test_chk2 : runs ((boot.setDreg 0 0x10).setDreg 1 0x10) [0x4181] (fun t =>
    t.pc == 0x1002) := by decide +kernel

/-- 95_test_vectors.md B10.25. -/
theorem test_movepToMem : runs ((boot.setDreg 0 0x12345678).setAreg 0 0x10000) [0x01C8, 0x0000] (fun t =>
    t.byteAt 0x10000 == 0x12 && t.byteAt 0x10002 == 0x34 && t.byteAt 0x10004 == 0x56 &&
    t.byteAt 0x10006 == 0x78 && t.byteAt 0x10001 == 0x0) := by decide +kernel

/-- 95_test_vectors.md B10.26. -/
theorem test_movepToReg :
    runs ((((boot.setAreg 0 0x10000).storeByte 0 0x10000 0x12).storeByte 0 0x10002 0x34).setDreg 0 0xFFFFFFFF)
      [0x0108, 0x0000] (fun t =>
    t.d[0] == 0xFFFF1234) := by decide +kernel

/-- 95_test_vectors.md A6b. -/
theorem test_tas : runs ((boot.setAreg 0 0x2000).storeByte 0 0x2000 0x7F) [0x4AD0] (fun t =>
    t.byteAt 0x2000 == 0xFF && t.ccr.toByte == 0b00000) := by decide +kernel

/-- 95_test_vectors.md D.1. -/
theorem test_illegal : runs (boot.store .l false 0x10 0xB00) [0x4AFC] (fun t =>
    t.pc == 0xB00 && t.load .l 0x7FFC == 0x1000) := by decide +kernel

/-- 95_test_vectors.md B11.7a. -/
theorem test_line1010 : runs (boot.store .l false 0x28 0xB00) [0xA000] (fun t =>
    t.pc == 0xB00 && t.load .l 0x7FFC == 0x1000) := by decide +kernel

/-- 95_test_vectors.md B11.7b. -/
theorem test_line1111 : runs (boot.store .l false 0x2C 0xB00) [0xFFFF] (fun t =>
    t.pc == 0xB00 && t.load .l 0x7FFC == 0x1000) := by decide +kernel

/-- 95_test_vectors.md B11.5. -/
theorem test_doubleFault : runs ((boot.setAreg 0 0x2001).setAreg 7 0x8001) [0x3010] (fun t =>
    t.run == .halted) := by decide +kernel

/-- 95_test_vectors.md D.4. -/
theorem test_illegalWord : runs (boot.store .l false 0x10 0xB00) [0x41C0] (fun t =>
    t.pc == 0xB00 && t.load .l 0x7FFC == 0x1000) := by decide +kernel

/-- 95_test_vectors.md B11.8. -/
theorem test_traced : runs (boot.setSr 0x8000) [0x4E71] (fun t =>
    t.pc == 0x1002 && t.tracePending == true) := by decide +kernel

/-! ## Exceptions and boundaries -/

/-- Why an outcome is no next state. -/
def stopOf (o : Outcome) : Option (Fault ⊕ Refusal) :=
  match o with
  | .next _ => none
  | .fault f => some (.inl f)
  | .refused r => some (.inr r)

/-- 95_test_vectors.md B3.46: the quotient does not fit, N and Z are free. -/
theorem test_divideOverflow : runs ((boot.setDreg 0 0x20000).setDreg 1 1) [0x80C1] (fun t =>
    t.d[0] == 0x20000 && t.ccr.v && !t.ccr.c && t.pc == 0x1002) := by decide +kernel

/-- 95_test_vectors.md B11.10: an autovectored interrupt of level 5 above mask 3. -/
theorem test_interrupt :
    goesTo (step { (boot.setSr 0x2300).store .l false 0x74 0xD00 with irqLevel := 5 }) (fun t =>
      t.pc == 0xD00 && t.sr == 0x2500 && t.wordAt 0 0x7FFA == 0x2300 && t.load .l 0x7FFC == 0x1000) := by decide +kernel

/-- 95_test_vectors.md B11.11: the device's byte is the vector; a bus error at the acknowledge is vector 24. -/
theorem test_interruptVectors :
    goesTo (step { (boot.setSr 0x2300).store .l false 0x100 0xD00 with irqLevel := 5, ack := .vector 0x40 })
      (fun t => t.pc == 0xD00) &&
    goesTo (step { (boot.setSr 0x2300).store .l false 0x60 0xE00 with irqLevel := 5, ack := .busError })
      (fun t => t.pc == 0xE00) := by decide +kernel

/-- 95_test_vectors.md B11.12: level 7 is accepted once per rise, at mask 7 as well. -/
theorem test_level7 :
    goesTo (step { (boot.setSr 0x2700).store .l false 0x7C 0xD00 with irqLevel := 7 })
      (fun t => t.pc == 0xD00 && t.sr == 0x2700 && t.l7Seen) &&
    goesTo (step { boot.setSr 0x2700 with irqLevel := 7, l7Seen := true, q0 := 0x4E71 }) (fun t => t.pc == 0x1002) &&
    goesTo (step { boot.setSr 0x2700 with irqLevel := 6, l7Seen := true, q0 := 0x4E71 }) (fun t => !t.l7Seen) := by decide +kernel

/-- 95_test_vectors.md B11.8: the trace exception after the traced instruction. -/
theorem test_traceEntry :
    goesTo (step { (boot.setSr 0x8000).store .l false 0x24 0xC00 with pc := 0x1002, tracePending := true }) (fun t =>
      t.pc == 0xC00 && t.sr == 0x2000 && t.wordAt 0 0x7FFA == 0x8000 && t.load .l 0x7FFC == 0x1002) := by decide +kernel

/-- 95_test_vectors.md B12.1, B12.3: reset, from the halted state as well. -/
theorem test_reset :
    goesTo (step { (boot.store .l false 0 0x8000).store .l false 4 0x400 with resetRequest := true, run := .halted })
      (fun t => t.ssp == 0x8000 && t.pc == 0x400 && t.super && !t.trace && t.mask == 7 && t.run == .running && !t.l7Seen &&
        !t.resetRequest) := by decide +kernel

/-- 95_test_vectors.md B12.2: an odd initial PC halts the processor. -/
theorem test_resetOdd :
    goesTo (step { boot.store .l false 4 0x401 with resetRequest := true }) (fun t => t.run == .halted) := by decide +kernel

/-- 20_memory.md R75, log entry 8: a device write does not reach memory; it is the last of four cycles shown. -/
theorem test_device :
    goesTo (step ({ boot with map := [⟨0x2000, 2, none, none, none, .device⟩] }.placeInstr [0x31FC, 0x1234, 0x2000])) (fun t =>
      t.events.head? == some (.write 0x2000 .superData .word 0x1234) && t.events.length == 4 &&
        t.mem.readByte 0x2000 == 0) := by decide +kernel

/-- 20_memory.md R66: the third word of `MOVE.L #imm,D0` is a device's; the instruction runs on the value it gives. -/
theorem test_deviceCode :
    goesTo (step ({ boot with map := [⟨0x1004, 2, none, none, none, .device⟩] }.placeInstr [0x203C, 0x1234])) (fun t =>
      t.pc == 0x1006 && t.free == 1 && t.events.length == 3) := by decide +kernel

/-- 92_eei_decisions.md part 2, `MEM_MAP`: a region may refuse byte cycles alone. -/
theorem test_width :
    let s : State := { boot with map := [⟨0x2000, 2, none, none, some .byte, .berr⟩] }
    s.answer 0x2000 .superData .read .byte = .berr ∧ s.answer 0x2000 .superData .read .word = .memory 0 := by decide +kernel

/-- 20_memory.md R80: another master writes between the fetch and the operand read of `MOVE.W $2000,D0`. -/
theorem test_dma :
    goesTo (step { boot.placeInstr [0x3038, 0x2000] with outside := [⟨1, .dmaWrite 0 0x2001 0x55⟩] }) (fun t =>
      t.d[0] == 0x55 && t.outside == []) := by decide +kernel

/-- 20_memory.md R85: the fetch of NOP is made in vain and repeated. -/
theorem test_rerun :
    goesTo (step { boot.placeInstr [0x4E71] with outside := [⟨0, .rerun⟩] }) (fun t =>
      t.pc == 0x1002 &&
        t.events == [.read 0x1004 .superProgram .word 0, .aborted 0x1004 .superProgram .word none true]) := by decide +kernel

/-- 60_exceptions.md R404: RESET and HALT asserted in the middle of `MOVE.W #$1234,$2000`, before its write. -/
theorem test_resetMidway :
    goesTo (step { boot.placeInstr [0x31FC, 0x1234, 0x2000] with outside := [⟨3, .reset⟩] }) (fun t =>
      t.resetRequest && t.mem.readByte 0x2000 == 0 && t.events.length == 3) := by decide +kernel

/-- 20_memory.md R73: TAS is one read-modify-write cycle. -/
theorem test_tasCycle :
    goesTo (step ((boot.setAreg 0 0x2000).placeInstr [0x4AD0])) (fun t =>
      t.events.head? == some (.modify 0x2000 .superData 0 0x80) && t.events.length == 2) := by decide +kernel

/-- 70_reset_and_hazards.md R472, log entry 42: RESET may put another map in place. -/
theorem test_resetLine :
    goesTo (step { boot.placeInstr [0x4E70] with resetLine := some [⟨0, 8, none, none, none, .device⟩] }) (fun t =>
      t.map.length == 1 && t.pc == 0x1002) := by decide +kernel

/-- 70_reset_and_hazards.md R480, R485: MOVE D0,SR fetches the queue again only where S changes. -/
theorem test_srQueue :
    goesTo (step { (boot.setDreg 0 0x2700).placeInstr [0x46C0, 0x4E71] with q1 := 0x7001 }) (fun t => t.q0 == 0x7001) &&
    goesTo (step { (boot.setDreg 0 0).placeInstr [0x46C0, 0x4E71] with q1 := 0x7001 }) (fun t => t.q0 == 0x4E71) := by
  decide +kernel

/-- 60_exceptions.md R432, 92_eei_decisions.md D27: a fault in the entry of a trap has I/N = 1. -/
theorem test_trapEntryFault (k : FaultKind) (x t : Long) (s : State) :
    takeFault ⟨k, x, .read, .superProgram, .handler t⟩ s =
      takeGroup0 ⟨k, x, .read, .superProgram, .handler t⟩ true s := rfl

/-- Log entry 9: what stops the model, which is a cycle that nobody answers. -/
theorem test_stops :
    stopOf (step ({ boot with map := [⟨0x2000, 2, none, none, none, .noAnswer⟩] }.placeInstr [0x3038, 0x2000])) =
      some (.inl .noAnswer) := by decide +kernel

/-- 93_implementation_defined.md U4, the chip's behaviour: BTST D0,#1 with D0 = 9 tests bit 1 of the byte (log entry 26). -/
theorem test_btstImmediate :
    goesTo (exec (.btstReg 0 (.imm (.b 1))) ((boot.setDreg 0 9).placeInstr [0x013C, 0x0001])) (fun t =>
      t.ccr.z && t.pc == 0x1004) := by decide +kernel

/-- 92_eei_decisions.md D10: CLR.W (A0) reads before it writes only where the map holds more than plain memory. -/
theorem test_unasked :
    goesTo (step ((boot.setAreg 0 0x2000).placeInstr [0x4250])) (fun t => t.events.length == 2) &&
    goesTo (step ({ boot.setAreg 0 0x2000 with map := [⟨0x9000, 2, none, none, none, .device⟩] }.placeInstr [0x4250]))
      (fun t => t.events.length == 3) := by decide +kernel

/-- 42_integer_arithmetic.md R209: over plain memory the address error of CLR.W at an odd address is that of its write. -/
theorem test_clrOdd :
    (match storeOperand .w (.ind 0) clearResult ((boot.setAreg 0 0x2001).startInstr) with
      | .error (.group0 f) _ => f.dir == .write && f.addr == 0x2001
      | _ => false) = true := by decide +kernel

/-! ## The hypotheses of the statements are met -/

/-- A memory in its canonical form whose vectors are 0, all or those below an address. -/
structure Blank (s : State) (lim : Nat := 0x400) : Prop where
  canonical : s.mem.wf = true
  vectors : ∀ k < lim, s.mem.readByte k = 0

theorem blank_boot : Blank boot := ⟨rfl, fun _ _ => rfl⟩

theorem blank_storeWord {s : State} {lim : Nat} (h : Blank s lim) {x : Long} (v : Word) (h1 : lim ≤ byteKey 0 x)
    (h2 : lim ≤ byteKey 0 (x + 1)) : Blank (s.storeWord 0 x v) lim := by
  have key : ∀ y : Long, byteKey 0 y < memoryKeys := by
    intro y
    simp only [byteKey, physical, memoryKeys]
    have : y.toNat % 2 ^ 24 < 2 ^ 24 := Nat.mod_lt _ (by decide)
    have h0 : (0 : Fin 4).val = 0 := rfl
    omega
  have h3 : (s.mem.writeByte (byteKey 0 x) ((v >>> 8).setWidth 8)).wf = true := Memory.wf_writeByte h.canonical (key x)
  refine ⟨Memory.wf_writeByte h3 (key _), fun k hk => ?_⟩
  show (Memory.writeByte _ _ _).readByte k = 0
  rw [Memory.readByte_writeByte h3, if_neg (by omega), Memory.readByte_writeByte h.canonical, if_neg (by omega)]
  exact h.vectors k hk

/-- A stack pointer in ordinary memory. -/
def Roomy (x : Long) (n : Nat) : Prop := 0x1000 + n ≤ x.toNat ∧ x.toNat < 2 ^ 24

theorem byteKey_of_lt {x : Long} (h : x.toNat < 2 ^ 24) : byteKey 0 x = x.toNat := by
  have h0 : (0 : Fin 4).val = 0 := rfl
  simp only [byteKey, physical, Nat.mod_eq_of_lt h]
  omega

theorem blank_pushed32 {s : State} {lim : Nat} (h : Blank s lim) {n : Nat} (hr : Roomy (s.areg 7) (n + 4)) (v : Long) (hl : lim ≤ 0x400 := by omega) :
    Blank (s.pushed32 v) lim ∧ Roomy ((s.pushed32 v).areg 7) n := by
  obtain ⟨h1, h2⟩ := hr
  have e : ∀ j : Nat, j < 4 → (s.areg 7 - 4 + BitVec.ofNat 32 j).toNat = (s.areg 7).toNat - 4 + j := by
    intro j hj
    have t4 : (4 : Long).toNat = 4 := rfl
    simp only [BitVec.toNat_add, BitVec.toNat_sub, BitVec.toNat_ofNat, t4]
    omega
  have e0 : byteKey 0 (s.areg 7 - 4) = (s.areg 7).toNat - 4 := by
    have := e 0 (by decide)
    rw [show s.areg 7 - 4 + BitVec.ofNat 32 0 = s.areg 7 - 4 from by simp] at this
    rw [byteKey_of_lt (by omega)]; omega
  have e1 : byteKey 0 (s.areg 7 - 4 + 1) = (s.areg 7).toNat - 4 + 1 := by
    have := e 1 (by decide)
    rw [byteKey_of_lt (by show (s.areg 7 - 4 + BitVec.ofNat 32 1).toNat < _; omega)]; exact this
  have e2 : byteKey 0 (s.areg 7 - 4 + 2) = (s.areg 7).toNat - 4 + 2 := by
    have := e 2 (by decide)
    rw [byteKey_of_lt (by show (s.areg 7 - 4 + BitVec.ofNat 32 2).toNat < _; omega)]; exact this
  have e3 : byteKey 0 (s.areg 7 - 4 + 2 + 1) = (s.areg 7).toNat - 4 + 3 := by
    have := e 3 (by decide)
    rw [show s.areg 7 - 4 + 2 + 1 = s.areg 7 - 4 + BitVec.ofNat 32 3 from by bv_omega]
    rw [byteKey_of_lt (by omega)]; exact this
  have hb : Blank (s.setAreg 7 (s.areg 7 - 4)) lim := ⟨by simpa using h.canonical, by simpa using h.vectors⟩
  refine ⟨?_, ?_⟩
  · show Blank (((s.setAreg 7 (s.areg 7 - 4)).storeWord 0 (s.areg 7 - 4 + 2) _).storeWord 0 (s.areg 7 - 4) _) lim
    exact blank_storeWord (blank_storeWord hb _ (by omega) (by omega)) _ (by omega) (by omega)
  · rw [State.areg7_pushed32]
    have := e 0 (by decide)
    rw [show s.areg 7 - 4 + BitVec.ofNat 32 0 = s.areg 7 - 4 from by simp] at this
    exact ⟨by omega, by omega⟩

theorem blank_pushed16 {s : State} {lim : Nat} (h : Blank s lim) {n : Nat} (hr : Roomy (s.areg 7) (n + 2)) (v : Word) (hl : lim ≤ 0x400 := by omega) :
    Blank (s.pushed16 v) lim ∧ Roomy ((s.pushed16 v).areg 7) n := by
  obtain ⟨h1, h2⟩ := hr
  have e0 : (s.areg 7 - 2).toNat = (s.areg 7).toNat - 2 := by
    have t2 : (2 : Long).toNat = 2 := rfl
    simp only [BitVec.toNat_sub, t2]
    omega
  have e1 : (s.areg 7 - 2 + 1).toNat = (s.areg 7).toNat - 1 := by
    have t1 : (1 : Long).toNat = 1 := rfl
    simp only [BitVec.toNat_add, e0, t1]
    omega
  have hb : Blank (s.setAreg 7 (s.areg 7 - 2)) lim := ⟨by simpa using h.canonical, by simpa using h.vectors⟩
  refine ⟨?_, ?_⟩
  · show Blank ((s.setAreg 7 (s.areg 7 - 2)).storeWord 0 (s.areg 7 - 2) _) lim
    refine blank_storeWord hb _ ?_ ?_
    · rw [byteKey_of_lt (by omega)]; omega
    · rw [byteKey_of_lt (by omega)]; omega
  · rw [State.areg7_pushed16]
    exact ⟨by omega, by omega⟩

theorem blank_load {s : State} {lim : Nat} (h : Blank s lim) {vec : Nat} (hv : 4 * vec + 4 ≤ lim) (hl : lim ≤ 0x400 := by omega) : s.load .l (vectorAddress vec) = 0 := by
  have e : ∀ j : Nat, j < 4 → s.mem.readByte (byteKey 0 (vectorAddress vec + BitVec.ofNat 32 j)) = 0 := by
    intro j hj
    apply h.vectors
    have : (vectorAddress vec + BitVec.ofNat 32 j).toNat = 4 * vec + j := by
      simp only [vectorAddress, BitVec.toNat_add, BitVec.toNat_ofNat]
      omega
    rw [byteKey_of_lt (by omega)]
    omega
  have e0 := e 0 (by decide)
  rw [show vectorAddress vec + BitVec.ofNat 32 0 = vectorAddress vec from by simp] at e0
  have e1 : s.mem.readByte (byteKey 0 (vectorAddress vec + 1)) = 0 := e 1 (by decide)
  have e2 : s.mem.readByte (byteKey 0 (vectorAddress vec + 2)) = 0 := e 2 (by decide)
  have e3 := e 3 (by decide)
  rw [show vectorAddress vec + BitVec.ofNat 32 3 = vectorAddress vec + 2 + 1 from by bv_omega] at e3
  simp only [State.load, State.wordAt, e0, e1, e2, e3]
  rfl

/-- Over blank vectors and a roomy, even supervisor stack, every entry is ready, whatever it saves. -/
theorem entryReady_of_blank {s : State} (hp : s.Plain) (h : Blank s) (hr : Roomy s.ssp 6) (he : s.ssp.getLsbD 0 = false)
    {vec : Nat} (hv : vec < 256) (p : Long) (w : Word) (l : Option (BitVec 3)) : s.EntryReady vec p w l := by
  refine ⟨hp, he, ?_⟩
  have h0 : Blank (s.entering l) := ⟨h.canonical, h.vectors⟩
  have hr0 : Roomy ((s.entering l).areg 7) (2 + 4) := by
    rw [State.areg7_super rfl]
    exact hr
  obtain ⟨h1, hr1⟩ := blank_pushed32 h0 (n := 2) hr0 p
  obtain ⟨h2, -⟩ := blank_pushed16 h1 (n := 0) hr1 w
  have h3 : Blank (s.entered p w l) := ⟨h2.canonical, h2.vectors⟩
  rw [State.handler, blank_load h3 (by omega)]
  rfl

theorem handler0_even_of_blank {s : State} {lim : Nat} (h : Blank s lim) (hr : Roomy s.ssp 14) {vec : Nat} (hv : 4 * vec + 4 ≤ lim) (p : Long)
    (w ir : Word) (addr : Long) (st : Word) (hl : lim ≤ 0x400 := by omega) : (s.handler0 vec p w ir addr st).getLsbD 0 = false := by
  have h0 : Blank (s.entering none) lim := ⟨h.canonical, h.vectors⟩
  have hr0 : Roomy ((s.entering none).areg 7) (10 + 4) := by
    rw [State.areg7_super rfl]
    exact hr
  obtain ⟨h1, hr1⟩ := blank_pushed32 h0 (n := 10) hr0 p
  obtain ⟨h2, hr2⟩ := blank_pushed16 h1 (n := 8) hr1 w
  obtain ⟨h3, hr3⟩ := blank_pushed16 h2 (n := 6) hr2 ir
  obtain ⟨h4, hr4⟩ := blank_pushed32 h3 (n := 2) hr3 addr
  obtain ⟨h5, -⟩ := blank_pushed16 h4 (n := 0) hr4 st
  have h6 : Blank (s.entered0 p w ir addr st) lim := ⟨h5.canonical, h5.vectors⟩
  rw [State.handler0, blank_load h6 hv]
  rfl

/-- Over blank vectors and a roomy, even supervisor stack, every group 0 entry is ready. -/
theorem ready0_of_blank {s : State} {lim : Nat} (h : Blank s lim) (hr : Roomy s.ssp 14) (he : s.ssp.getLsbD 0 = false) {vec : Nat}
    (hv : 4 * vec + 4 ≤ lim) (ir : Word) (addr : Long) (hl : lim ≤ 0x400 := by omega) : s.Ready0 vec ir addr :=
  ⟨he, fun _ _ => handler0_even_of_blank h hr hv _ _ _ _ _⟩

/-- The same of a state with the memory and the supervisor stack of another. -/
theorem ready0_like {s t : State} {lim : Nat} (h : Blank s lim) (hr : Roomy s.ssp 14) (he : s.ssp.getLsbD 0 = false) (hm : t.mem = s.mem)
    (hs : t.ssp = s.ssp) {vec : Nat} (hv : 4 * vec + 4 ≤ lim) (ir : Word) (addr : Long) (hl : lim ≤ 0x400 := by omega) : t.Ready0 vec ir addr :=
  ready0_of_blank ⟨by rw [hm]; exact h.canonical, by rw [hm]; exact h.vectors⟩ (by rw [hs]; exact hr)
    (by rw [hs]; exact he) hv ir addr

/-- Whether a location is aligned. -/
def alignedLoc (sz : Size) : Loc → Bool
  | .mem _ addr _ => !misaligned sz addr
  | .dreg _ | .areg _ | .imm _ => true

theorem ready_of {s : State} {k : Nat} {sz : Size} {ea : EA} (hm : s.map = [])
    (h : alignedLoc sz (s.locAt k sz ea) = true) (ho : s.outside = [] := by rfl) : s.Ready k sz ea := by
  refine ⟨State.plain_of_map hm ho, ?_⟩
  cases hl : s.locAt k sz ea with
  | mem sp x p => rw [hl] at h; simpa [alignedLoc, Loc.Aligned] using h
  | _ => trivial

theorem boot_ready (vec : Nat) (hv : vec < 256) (p : Long) (w : Word) (l : Option (BitVec 3)) :
    boot.EntryReady vec p w l :=
  entryReady_of_blank (State.plain_of_map rfl rfl) blank_boot ⟨by decide, by decide⟩ rfl hv p w l

/-- User state. -/
def user : State := { boot with super := false }

theorem user_ready (vec : Nat) (hv : vec < 256) (p : Long) (w : Word) (l : Option (BitVec 3)) :
    user.EntryReady vec p w l :=
  entryReady_of_blank (State.plain_of_map rfl rfl) ⟨rfl, fun _ _ => rfl⟩ ⟨by decide, by decide⟩ rfl hv p w l

/-- A state with A0 at an even address, A1 at an odd one, A2 at the top of memory. -/
def aimed : State := ((boot.setAreg 0 0x2000).setAreg 1 0x2001).setAreg 2 0xFFFFFFFE

theorem aimed_plain : aimed.Plain := State.plain_of_map rfl rfl

theorem aimed_roomy : Roomy aimed.ssp 6 := ⟨by decide, by decide⟩

theorem next_of_goesTo {o : Outcome} (h : goesTo o (fun _ => true) = true) : ∃ t, o = .next t := by
  cases o with
  | next t => exact ⟨t, rfl⟩
  | fault f => cases h
  | refused r => cases h

theorem witness_DecodeEncode : (Instr.movemToMem .l 0xC080 (.preDec 7)).wellFormed = true := rfl

theorem witness_DecodeWellFormed : decodeWords [0x3213, 0x4E71] = .ok (.moveW (.ind 3) (.dreg 1), [0x4E71]) := rfl

/-- With no request, at a mask equal to the level, and at level 7 already seen. -/
theorem witness_StepRunsDecoded :
    (∀ s ∈ [boot.placeInstr [0x4E71], { boot.placeInstr [0x4E71] with irqLevel := 3, mask := 3 },
        { boot.placeInstr [0x4E71] with irqLevel := 7, mask := 7, l7Seen := true }],
      s.resetRequest = false ∧ s.haltPin = false ∧ s.run = .running ∧ s.tracePending = false ∧ s.irqLevel ≤ s.mask ∧
        ¬ (s.irqLevel = 7 ∧ s.l7Seen = false) ∧ s.pc.getLsbD 0 = false ∧
        decodeWords ({ s with l7Seen := s.l7Seen && s.irqLevel == 7 } : State).instrWords = .ok (.nop, [0, 0, 0, 0])) ∧
    boot.Plain := ⟨by decide, State.plain_of_map rfl rfl⟩

theorem witness_IllegalWordTraps_btst :
    let s := { boot with q0 := 0x033C, q1 := 0x0080 }
    s.resetRequest = false ∧ s.haltPin = false ∧ s.run = .running ∧ s.tracePending = false ∧ s.irqLevel ≤ s.mask ∧
      ¬ (s.irqLevel = 7 ∧ s.l7Seen = false) ∧ s.pc.getLsbD 0 = false ∧
      decodeWords ({ s with l7Seen := s.l7Seen && s.irqLevel == 7 } : State).instrWords = .error (.btstImmediate 1 0x80) ∧
      ({ s with l7Seen := s.l7Seen && s.irqLevel == 7 } : State).EntryReady 4 s.pc s.sr none :=
  ⟨rfl, rfl, rfl, rfl, by decide, by decide, rfl, rfl,
    entryReady_of_blank (State.plain_of_map rfl rfl) ⟨rfl, fun _ _ => rfl⟩ ⟨by decide, by decide⟩ rfl (by decide) _ _ _⟩

theorem witness_IllegalWordTraps :
    let s := { boot with q0 := 0x4E74 }
    s.resetRequest = false ∧ s.haltPin = false ∧ s.run = .running ∧ s.tracePending = false ∧ s.irqLevel ≤ s.mask ∧
      ¬ (s.irqLevel = 7 ∧ s.l7Seen = false) ∧ s.pc.getLsbD 0 = false ∧
      decodeWords ({ s with l7Seen := s.l7Seen && s.irqLevel == 7 } : State).instrWords = .error .illegal ∧
      ({ s with l7Seen := s.l7Seen && s.irqLevel == 7 } : State).EntryReady 4 s.pc s.sr none :=
  ⟨rfl, rfl, rfl, rfl, by decide, by decide, rfl, rfl,
    entryReady_of_blank (State.plain_of_map rfl rfl) ⟨rfl, fun _ _ => rfl⟩ ⟨by decide, by decide⟩ rfl (by decide) _ _ _⟩

/-- A level just above the mask, with each answer, also from the stopped state; and the edge of level 7 at mask 7. -/
theorem witness_InterruptEntry :
    ∀ s ∈ [{ boot with irqLevel := 1 }, { boot with irqLevel := 7, mask := 6, l7Seen := true, ack := .vector 255 },
        { boot with irqLevel := 1, run := .stopped, ack := .busError }, { boot with irqLevel := 7, mask := 7 }],
      s.resetRequest = false ∧ s.haltPin = false ∧ s.run ≠ .halted ∧ s.tracePending = false ∧
        (s.mask < s.irqLevel ∨ (s.irqLevel = 7 ∧ s.l7Seen = false)) ∧
        ∃ vec, vec = (match s.ack with | .vector n => n.toNat | .autovector => 24 + s.irqLevel.toNat | .busError => 24) ∧
          ({ s with l7Seen := s.irqLevel == 7 } : State).EntryReady vec s.pc s.sr (some s.irqLevel) := by
  intro s hs
  simp only [List.mem_cons, List.not_mem_nil, or_false] at hs
  rcases hs with rfl | rfl | rfl | rfl <;>
    exact ⟨rfl, rfl, by decide, rfl, by decide, _, rfl,
      entryReady_of_blank (State.plain_of_map rfl rfl) ⟨rfl, fun _ _ => rfl⟩ ⟨by decide, by decide⟩ rfl (by decide) _ _ _⟩

theorem witness_TraceEntry :
    let s := { boot with tracePending := true }
    s.resetRequest = false ∧ s.haltPin = false ∧ s.run ≠ .halted ∧ s.tracePending = true ∧ s.EntryReady 9 s.pc s.sr none :=
  ⟨rfl, rfl, by decide, rfl,
    entryReady_of_blank (State.plain_of_map rfl rfl) ⟨rfl, fun _ _ => rfl⟩ ⟨by decide, by decide⟩ rfl (by decide) _ _ _⟩

/-- An even initial PC, and an odd one. -/
theorem witness_ResetProcessing :
    (let s := { boot.store .l false 4 0x400 with resetRequest := true }
     s.resetRequest = true ∧ s.Plain ∧ (s.load .l 4).getLsbD 0 = false) ∧
    (let s := { boot.store .l false 4 0x401 with resetRequest := true }
     s.resetRequest = true ∧ s.Plain ∧ (s.load .l 4).getLsbD 0 = true) :=
  ⟨⟨rfl, State.plain_of_map rfl rfl, by decide⟩, rfl, State.plain_of_map rfl rfl, by decide⟩

theorem witness_Conditions : (Instr.bcc .hi (.short 2)).wellFormed = true := rfl

/-- Halted; held by the HALT pin while running; stopped at a mask equal to the level; another master at the last byte; and its write
inside a long word that is read. -/
theorem witness_WaitingStates :
    let h := { boot with run := .halted, irqLevel := 7 }
    let p := { boot with haltPin := true }
    let s := { boot with run := .stopped, irqLevel := 4, mask := 4 }
    let m := { p with outside := [⟨0, .dmaWrite 0 0xFFFFFFFF 1⟩] }
    let l := { boot with outside := [⟨1, .dmaWrite 0 0x2003 1⟩] }
    (h.resetRequest = false ∧ h.run = .halted ∧ h.outside = []) ∧ (p.resetRequest = false ∧ p.haltPin = true ∧ p.outside = []) ∧
      (s.resetRequest = false ∧ s.outside = [] ∧ s.run = .stopped ∧ s.haltPin = false ∧ s.tracePending = false ∧
        s.irqLevel ≤ s.mask ∧ ¬ (s.irqLevel = 7 ∧ s.l7Seen = false)) ∧
      (m.resetRequest = false ∧ m.haltPin = true ∧ m.outside = [⟨0, .dmaWrite 0 0xFFFFFFFF 1⟩]) ∧
      l.map = [] ∧ l.outside = [⟨1, .dmaWrite 0 0x2003 1⟩] ∧ (0x2000 : Long).getLsbD 0 = false := by decide +kernel

theorem witness_StepKeepsMemory :
    let s := (boot.setDreg 0 0x55).placeInstr [0x11C0, 0x2000]
    s.MemoryCanonical ∧ ∃ t, step s = .next t := ⟨by unfold State.MemoryCanonical; decide, next_of_goesTo (by decide)⟩

theorem witness_StepKeepsPcEven :
    let s := boot.placeInstr [0x6004]
    s.PcEven ∧ ∃ t, step s = .next t := ⟨fun _ _ => rfl, next_of_goesTo (by decide)⟩

theorem witness_UserIsolation :
    let s := user.placeInstr [0x44FC, 0x001F]
    s.super = false ∧ ∃ t, step s = .next t := ⟨rfl, next_of_goesTo (by decide)⟩

theorem witness_InputsKept : ∃ t, step (boot.placeInstr [0x4E71]) = .next t := next_of_goesTo (by decide)

theorem witness_StoreFrame : boot.MemoryCanonical := rfl

/-- An even address for each mode in memory, at the ends of memory for the modes that adjust, and A7 for a byte. -/
theorem witness_OperandModes :
    aimed.Plain ∧ misaligned .w (aimed.areg 0) = false ∧ misaligned .l (aimed.areg 2) = false ∧
      misaligned .b (aimed.areg 1) = false ∧ misaligned .b (aimed.areg 7 - 2) = false ∧
      misaligned .w (aimed.areg 0 - BitVec.ofNat 32 Size.w.bytes) = false ∧
      misaligned .w (aimed.areg 1 + (0x7FFF : Word).signExtend 32) = false ∧
      misaligned .w (aimed.areg 0 + aimed.indexValue ⟨.a 1, true, 0xFF⟩) = false ∧
      misaligned .w ((0x8000 : Word).signExtend 32) = false ∧ misaligned .l 0xFFFFFE = false ∧
      misaligned .w (aimed.pc + (0xFFFE : Word).signExtend 32) = false ∧
      misaligned .w (aimed.pc + aimed.indexValue ⟨.d 0, false, 0x80⟩) = false ∧ (Imm.l 0).size = .l :=
  ⟨aimed_plain, by decide⟩

/-- A count of 0, one below the width, and the places at both ends. -/
theorem witness_ShiftMeaning : 0 < 1 ∧ 7 < Size.b.bits ∧ 31 < Size.l.bits ∧ 0 = 0 ∧ ShiftOp.lsl ≠ .asl := by decide +kernel

theorem witness_AddSub :
    aimed.Ready 1 .w (.postInc 0) ∧ aimed.Ready 1 .b (.ind 1) ∧ aimed.Ready 1 .l (.dreg 3) ∧
      aimed.Ready 1 .l (.imm (.l 0xFFFFFFFF)) :=
  ⟨ready_of rfl (by decide), ready_of rfl (by decide), ready_of rfl (by decide), ready_of rfl (by decide)⟩

theorem witness_AddSubCmpImm :
    aimed.Ready (1 + (Imm.w 1).words.length) (Imm.w 1).size (.preDec 2) ∧
      aimed.Ready (1 + (Imm.l 1).words.length) (Imm.l 1).size (.absL 0x2000) :=
  ⟨ready_of rfl (by decide), ready_of rfl (by decide)⟩

/-- The address register clause and the other one, with a constant of 8 written 0. -/
theorem witness_Quick :
    (aimed.Ready 1 .w (.areg 0) ∧ EA.areg 0 = .areg 0) ∧
      aimed.Ready 1 .l (.ind 0) ∧ ∀ n, EA.ind 0 ≠ .areg n :=
  ⟨⟨ready_of rfl (by decide), rfl⟩, ready_of rfl (by decide), fun _ h => nomatch h⟩

theorem witness_AddressArithmetic : aimed.Ready 1 WSize.w.size (.imm (.w 0x8000)) ∧ aimed.Ready 1 WSize.l.size (.postInc 0) :=
  ⟨ready_of rfl (by decide), ready_of rfl (by decide)⟩

theorem witness_CompareAndTest :
    aimed.Plain ∧ aimed.Ready 1 .w (.ind 0) ∧ aimed.Ready 1 .l (.postInc 0) ∧
      (aimed.afterMode .l (.postInc 0)).Ready 1 .l (.postInc 0) :=
  ⟨aimed_plain, ready_of rfl (by decide), ready_of rfl (by decide), ready_of rfl (by decide)⟩

theorem witness_OneOperand : aimed.Ready 1 .b (.preDec 7) ∧ aimed.Ready 1 .l (.dreg 0) :=
  ⟨ready_of rfl (by decide), ready_of rfl (by decide)⟩

theorem witness_Multiply : aimed.Ready 1 .w (.imm (.w 0x8000)) := ready_of rfl (by decide)

/-- A quotient of `$FFFF` fits and one of `$10000` does not. -/
theorem witness_DivideUnsigned :
    let s := aimed.setDreg 0 0x1FFFF
    s.Ready 1 .w (.imm (.w 2)) ∧ s.operand 1 .w (.imm (.w 2)) ≠ 0 ∧
      s.d[0].toNat / (s.operand 1 .w (.imm (.w 2))).toNat = 0xFFFF ∧
      (s.setDreg 0 0x20000).d[0].toNat / (s.operand 1 .w (.imm (.w 2))).toNat = 0x10000 :=
  ⟨ready_of rfl (by decide), by decide, by decide, by decide⟩

/-- Quotients at and just outside both ends of the range. -/
theorem witness_DivideSigned :
    let s := aimed
    s.Ready 1 .w (.imm (.w 1)) ∧ s.operand 1 .w (.imm (.w 1)) ≠ 0 ∧
      [32767, 32768, -32768, -32769].all (fun n => (BitVec.ofInt 32 n).toInt.tdiv
        (lowWord (s.operand 1 .w (.imm (.w 1)))).toInt == n) = true :=
  ⟨ready_of rfl (by decide), by decide, by decide⟩

theorem flags_ready (f : CCR) (vec : Nat) (hv : vec < 256) (p : Long) (w : Word) :
    (aimed.setFlags f).EntryReady vec p w none :=
  entryReady_of_blank (State.plain_of_map rfl rfl) ⟨rfl, fun _ _ => rfl⟩ aimed_roomy rfl hv p w none

theorem witness_DivideByZero :
    aimed.Ready 1 .w (.imm (.w 0)) ∧ aimed.operand 1 .w (.imm (.w 0)) = 0 ∧
      ∀ f p, ((aimed.afterMode .w (.imm (.w 0))).setFlags f).EntryReady 5 p
        ((aimed.afterMode .w (.imm (.w 0))).setFlags f).sr none :=
  ⟨ready_of rfl (by decide), by decide, fun f p => flags_ready f 5 (by decide) p _⟩

theorem witness_ExtendedArithmetic :
    aimed.Plain ∧ aimed.Ready 1 .l (.preDec 0) ∧ (aimed.afterMode .l (.preDec 0)).Ready 1 .l (.preDec 0) :=
  ⟨aimed_plain, ready_of rfl (by decide), ready_of rfl (by decide)⟩

theorem witness_Decimal : aimed.Plain ∧ validBcd 0x99 = true ∧ validBcd 0x9A = false := ⟨aimed_plain, by decide⟩

theorem witness_Logic :
    aimed.Ready 1 .b (.ind 1) ∧ aimed.Ready 1 .l (.dreg 0) ∧
      aimed.Ready (1 + (Imm.b 1).words.length) (Imm.b 1).size (.index 0 ⟨.d 0, false, 1⟩) :=
  ⟨ready_of rfl (by decide), ready_of rfl (by decide), ready_of rfl (by decide)⟩

theorem witness_StatusRegister : aimed.Plain ∧ aimed.Ready 1 .w (.preDec 0) ∧ aimed.SrReads 0x2000 :=
  ⟨aimed_plain, ready_of rfl (by decide), by unfold State.SrReads; decide⟩

/-- Words with S set and with S clear. -/
theorem witness_SupervisorMoves :
    aimed.super = true ∧ aimed.Plain ∧ aimed.SrReads 0x2000 ∧ aimed.pc.getLsbD 0 = false ∧
      aimed.Ready 1 .w (.imm (.w 0)) ∧ (lowWord (aimed.operand 1 .w (.imm (.w 0)))).getLsbD 13 = false ∧
      aimed.Ready 1 .w (.imm (.w 0x2000)) ∧ (lowWord (aimed.operand 1 .w (.imm (.w 0x2000)))).getLsbD 13 = true ∧
      (0x2000 ||| 0x0700 : Word).getLsbD 13 = true ∧ (0x2000 &&& 0xDFFF : Word).getLsbD 13 = false :=
  ⟨rfl, aimed_plain, by unfold State.SrReads; decide, rfl, ready_of rfl (by decide), by decide, ready_of rfl (by decide),
    by decide, by decide, by decide⟩

/-- The same register adjusted by both operands, and a long move of an address register elsewhere. -/
theorem witness_Move :
    (aimed.Ready 1 .w (.postInc 0) ∧ (aimed.afterMode .w (.postInc 0)).Ready 1 .w (.preDec 0) ∧
      ¬ (Size.w = .l ∧ ∃ n, EA.postInc 0 = .areg n ∧ (EA.preDec 0 = .postInc n ∨ EA.preDec 0 = .preDec n))) ∧
    aimed.Ready 1 .l (.areg 1) ∧ aimed.Ready 1 .l (.preDec 0) ∧
      ¬ (Size.l = .l ∧ ∃ n, EA.areg 1 = .areg n ∧ (EA.preDec 0 = .postInc n ∨ EA.preDec 0 = .preDec n)) := by
  refine ⟨⟨ready_of rfl (by decide), ready_of rfl (by decide), fun h => nomatch h.1⟩, ready_of rfl (by decide),
    ready_of rfl (by decide), ?_⟩
  rintro ⟨-, n, h, h' | h'⟩
  · cases h'
  · have h1 : (1 : RegNum) = n := by injection h
    have h0 : (0 : RegNum) = n := by injection h'
    exact absurd (h1.trans h0.symm) (by decide)

theorem witness_MoveSelfAdjusted :
    aimed.Ready 1 .l (.postInc 0) ∧ aimed.Ready 1 .l (.preDec 0) := ⟨ready_of rfl (by decide), ready_of rfl (by decide)⟩

theorem witness_RegisterOnly : aimed.Plain := aimed_plain

/-- An odd address for LEA; and an even stack for PEA, through the stack pointer itself. -/
theorem witness_LoadAddress :
    aimed.Plain ∧ (EA.disp 1 0).mode.isControl = true ∧ aimed.locAt 1 .l (.disp 1 0) = .mem .data 0x2001 false ∧
      (EA.ind 7).mode.isControl = true ∧ aimed.locAt 1 .l (.ind 7) = .mem .data 0x8000 false ∧
      (aimed.areg 7).getLsbD 0 = false := ⟨aimed_plain, by decide⟩

theorem witness_Shifts : aimed.Plain ∧ aimed.Ready 1 .w (.ind 2) := ⟨aimed_plain, ready_of rfl (by decide)⟩

theorem witness_BitInstructions :
    aimed.Plain ∧ aimed.Ready 2 .l (.dreg 0) ∧ aimed.Ready 2 .b (.ind 1) ∧ aimed.Ready 1 .b (.absW 0xFFFF) :=
  ⟨aimed_plain, ready_of rfl (by decide), ready_of rfl (by decide), ready_of rfl (by decide)⟩

theorem witness_TestAndSet :
    aimed.Ready 1 .b (.ind 1) ∧ aimed.Ready 1 .b (.dreg 0) ∧ aimed.locAt 1 .b (.ind 1) = .mem .data 0x2001 false :=
  ⟨ready_of rfl (by decide), ready_of rfl (by decide), by decide⟩

/-- A taken branch to an even target, at both ends of the word displacement, and one not taken. -/
theorem witness_Branches :
    boot.Plain ∧ (boot.pc + 2 + (0x8000 : Word).signExtend 32).getLsbD 0 = false ∧
      (boot.pc + 2 + (0x7FFE : Word).signExtend 32).getLsbD 0 = false ∧ (boot.areg 7).getLsbD 0 = false ∧
      condHolds boot.ccr .ne = true ∧ condHolds boot.ccr .eq = false := ⟨State.plain_of_map rfl rfl, by decide⟩

theorem witness_Jumps :
    aimed.Plain ∧ (EA.absL 0x2000).mode.isControl = true ∧ aimed.locAt 1 .l (.absL 0x2000) = .mem .data 0x2000 false ∧
      (0x2000 : Long).getLsbD 0 = false ∧ (aimed.areg 7).getLsbD 0 = false := ⟨aimed_plain, by decide⟩

theorem witness_Returns :
    let s := boot.setAreg 7 0x7FF0
    s.Plain ∧ (s.areg 7).getLsbD 0 = false ∧ (s.load .l (s.areg 7)).getLsbD 0 = false ∧
      (s.load .l (s.areg 7 + 2)).getLsbD 0 = false ∧ s.super = true := ⟨State.plain_of_map rfl rfl, by decide⟩

/-- The condition true; false with the counter at 0; false with the counter at 1 and an even target. -/
theorem witness_DecrementAndBranch :
    boot.Plain ∧ condHolds boot.ccr .t = true ∧ condHolds boot.ccr .f = false ∧ lowWord boot.d[0] = 0 ∧
      lowWord (boot.setDreg 0 1).d[0] ≠ 0 ∧ (boot.pc + 2 + (0xFFEE : Word).signExtend 32).getLsbD 0 = false :=
  ⟨State.plain_of_map rfl rfl, by decide⟩

theorem witness_NopAdvancesPc : boot.Plain := State.plain_of_map rfl rfl

/-- With the map as it is, and with one that RESET puts in place of a device's. -/
theorem witness_ResetInstruction :
    (({ boot with map := boot.resetLine.getD boot.map } : State).Plain ∧ boot.super = true) ∧
    (let s : State := { boot with map := [⟨0, 8, none, none, none, .device⟩], resetLine := some [] }
     ({ s with map := s.resetLine.getD s.map } : State).Plain ∧ s.super = true) :=
  ⟨⟨State.plain_of_map rfl rfl, rfl⟩, State.plain_of_map rfl rfl, rfl⟩

theorem witness_Stop :
    boot.super = true ∧ (0x2500 : Word).getLsbD 13 = true ∧ (0x0500 : Word).getLsbD 13 = false ∧
      ∀ w, boot.EntryReady 8 boot.pc w none := ⟨rfl, by decide, by decide, fun w => boot_ready 8 (by decide) _ w none⟩

theorem witness_Traps :
    boot.EntryReady 47 (boot.pc + 2) boot.sr none ∧ boot.ccr.v = false ∧ boot.Plain ∧
      (let s := boot.setFlags ⟨false, false, false, true, false⟩
       s.ccr.v = true ∧ s.EntryReady 7 (s.pc + 2) s.sr none) :=
  ⟨boot_ready 47 (by decide) _ _ _, rfl, State.plain_of_map rfl rfl, rfl,
    entryReady_of_blank (State.plain_of_map rfl rfl) ⟨rfl, fun _ _ => rfl⟩ ⟨by decide, by decide⟩ rfl (by decide) _ _ _⟩

theorem check_ready (v : Long) (f : CCR) (p : Long) (w : Word) :
    (((aimed.setDreg 0 v).afterMode .w (.imm (.w 0x10))).setFlags f).EntryReady 6 p w none :=
  entryReady_of_blank (s := (aimed.setDreg 0 v).setFlags f) (State.plain_of_map rfl rfl) ⟨rfl, fun _ _ => rfl⟩ aimed_roomy
    (show aimed.ssp.getLsbD 0 = false from rfl) (by decide) p w none

/-- The value 0 and the bound itself are inside; -1 and the bound plus 1 are outside. -/
theorem witness_CheckBounds :
    aimed.Ready 1 .w (.imm (.w 0x10)) ∧ (lowWord (aimed.operand 1 .w (.imm (.w 0x10)))).toInt = 16 ∧
      [0, 0x10, 0xFFFF, 0x11].map (fun v => (lowWord (aimed.setDreg 0 v).d[0]).toInt) = [0, 16, -1, 17] ∧
      ∀ v f p, (((aimed.setDreg 0 v).afterMode .w (.imm (.w 0x10))).setFlags f).EntryReady 6 p
        (((aimed.setDreg 0 v).afterMode .w (.imm (.w 0x10))).setFlags f).sr none :=
  ⟨ready_of rfl (by decide), by decide, by decide, fun v f p => check_ready v f p _⟩

theorem witness_NotStarted :
    boot.EntryReady 4 boot.pc boot.sr none ∧ boot.EntryReady 10 boot.pc boot.sr none ∧
      boot.EntryReady 11 boot.pc boot.sr none :=
  ⟨boot_ready 4 (by decide) _ _ _, boot_ready 10 (by decide) _ _ _, boot_ready 11 (by decide) _ _ _⟩

theorem witness_PrivilegeViolation :
    Instr.rte ∈ [.resetDevices, .rte, .stop 0x2000, .oriToSr 0x2000, .moveToUsp 0, .moveFromUsp 0, .andiToSr 0x2000,
        .eoriToSr 0x2000, .moveToSr (.dreg 0)] ∧
      user.super = false ∧ user.EntryReady 8 user.pc user.sr none :=
  ⟨by decide, rfl, user_ready 8 (by decide) _ _ _⟩

theorem witness_SixByteFrame : boot.MemoryCanonical := rfl

/-- A stack whose top holds an odd address, below it another. -/
def stacked : State := ((aimed.storeWord 0 0x8000 0x2700).storeWord 0 0x8002 0x0001).storeWord 0 0x8004 0x3001

theorem blank_aimed : Blank aimed := ⟨rfl, fun _ _ => rfl⟩

theorem blank_stacked : Blank stacked :=
  blank_storeWord (blank_storeWord (blank_storeWord blank_aimed _ (by decide) (by decide)) _ (by decide) (by decide)) _
    (by decide) (by decide)

/-- A state with the memory and the supervisor stack pointer of `aimed`. -/
def Aimed (t : State) : Prop := t.mem = [] ∧ t.ssp = 0x8000

theorem Aimed.ready0 {t : State} (h : Aimed t) {vec : Nat} (hv : vec < 256) (ir : Word) (addr : Long) : t.Ready0 vec ir addr :=
  ready0_of_blank (lim := 0x400) ⟨by rw [h.1]; rfl, fun _ _ => by rw [h.1]; rfl⟩ (by rw [h.2]; exact ⟨by decide, by decide⟩)
    (by rw [h.2]; decide) (by omega) ir addr

theorem Aimed.setFlags {t : State} (h : Aimed t) (f : CCR) : Aimed (t.setFlags f) := h

theorem Aimed.setAreg {t : State} (h : Aimed t) (n : RegNum) (hn : n ≠ 7) (v : Long) : Aimed (t.setAreg n v) :=
  ⟨by rw [State.setAreg_mem]; exact h.1, by
    have : n.val < 7 := by have := n.isLt; have : n.val ≠ 7 := fun e => hn (Fin.ext e); omega
    rw [State.setAreg, dif_pos this]; exact h.2⟩

theorem aimed_aimed : Aimed aimed := ⟨by decide +kernel, by decide +kernel⟩

theorem crooked_aimed : Aimed { aimed with super := false, usp := 0x6001 } := aimed_aimed

/-- A state of every addressing mode's fault: `aimed` in user state with an odd user stack pointer. -/
def crooked : State := { aimed with super := false, usp := 0x6001 }

/-- The accesses: odd addresses in data space, at a mode that adjusts, and in program space; in either privilege state. -/
theorem witness_AddressError :
    ∀ s ∈ [aimed, crooked],
      s.Plain ∧ Size.w ≠ .b ∧ Size.l ≠ .b ∧
      s.locAt 1 .w (.postInc 1) = .mem .data 0x2001 false ∧ (0x2001 : Long).getLsbD 0 = true ∧
      s.locAt 1 .l (.pcDisp 1) = .mem .program 0x1003 false ∧ (0x1003 : Long).getLsbD 0 = true ∧
      s.locAt 1 .l (.preDec 1) = .mem .data 0x1FFD true ∧ (0x1FFD : Long).getLsbD 0 = true ∧
      ∀ (f : CCR) (addr : Long),
        (s.afterMode .w (.postInc 1)).Ready0 3 s.q0 addr ∧
        ∀ s', s' ∈ [s, s.afterMode .l (.preDec 1), s.setFlags f, (s.afterMode .l (.preDec 1)).setFlags f] →
          s'.Ready0 3 s.q0 addr := by
  intro s hs
  simp only [List.mem_cons, List.not_mem_nil, or_false] at hs
  have h : Aimed s := by rcases hs with rfl | rfl; exacts [aimed_aimed, crooked_aimed]
  have h1 : Aimed (s.afterMode .w (.postInc 1)) := h.setAreg 1 (by decide) _
  have h2 : Aimed (s.afterMode .l (.preDec 1)) := h.setAreg 1 (by decide) _
  refine ⟨?_, by decide, by decide, ?_, by decide, ?_, by decide, ?_, by decide, fun f addr =>
    ⟨h1.ready0 (by decide) _ _, fun s' m => ?_⟩⟩
  · rcases hs with rfl | rfl <;> exact State.plain_of_map rfl rfl
  · rcases hs with rfl | rfl <;> decide +kernel
  · rcases hs with rfl | rfl <;> decide +kernel
  · rcases hs with rfl | rfl <;> decide +kernel
  · simp only [List.mem_cons, List.not_mem_nil, or_false] at m
    rcases m with rfl | rfl | rfl | rfl
    exacts [h.ready0 (by decide) _ _, h2.ready0 (by decide) _ _, (h.setFlags f).ready0 (by decide) _ _,
      (h2.setFlags f).ready0 (by decide) _ _]

/-- The stack in user state. -/
theorem witness_AddressError_stack :
    crooked.Plain ∧ crooked.super = false ∧ (crooked.areg 7).getLsbD 0 = true ∧
      (EA.ind 0).mode.isControl = true ∧ crooked.locAt 1 .l (.ind 0) = .mem .data 0x2000 false ∧
      ∀ addr, crooked.Ready0 3 crooked.q0 addr ∧
        (crooked.setAreg 7 (crooked.areg 7 - 4)).Ready0 3 crooked.q0 addr :=
  ⟨State.plain_of_map rfl rfl, rfl, by decide +kernel, by decide, by decide +kernel, fun addr =>
    ⟨crooked_aimed.ready0 (by decide) _ _, Aimed.ready0 ⟨rfl, rfl⟩ (by decide) _ _⟩⟩

theorem stacked_super : stacked.super = true := by decide +kernel
theorem stacked_ssp : stacked.ssp = 0x8000 := by decide +kernel
theorem stacked_plain : stacked.Plain := State.plain_of_map (by decide +kernel) (by decide +kernel)
theorem stacked_areg7 : stacked.areg 7 = 0x8000 := by decide +kernel

/-- The memory of `stacked` with an even, roomy supervisor stack pointer. -/
theorem stacked_ready0 {t : State} (hm : t.mem = stacked.mem) (v : Long) (hv : t.ssp = v) (r : Roomy v 14)
    (e : v.getLsbD 0 = false) (addr : Long) : t.Ready0 3 stacked.q0 addr :=
  ready0_of_blank (lim := 0x400) ⟨by rw [hm]; exact blank_stacked.canonical, by rw [hm]; exact blank_stacked.vectors⟩ (by rw [hv]; exact r)
    (by rw [hv]; exact e) (by decide) _ _

theorem stacked_setAreg7 (v : Long) : (stacked.setAreg 7 v).ssp = v := by
  rw [← State.areg7_super (by rw [State.setAreg_super]; exact stacked_super)]
  simp [State.setAreg, State.areg, stacked_super]

/-- The odd targets: of a branch at both displacements, of DBcc, of a jump, and on the stack. -/
theorem witness_AddressError_targets :
    stacked.Plain ∧ (stacked.areg 7).getLsbD 0 = false ∧ stacked.super = true ∧
      (stacked.pc + 2 + (0x7F : Byte).signExtend 32).getLsbD 0 = true ∧
      (stacked.pc + 2 + (0x8001 : Word).signExtend 32).getLsbD 0 = true ∧ condHolds stacked.ccr .ne = true ∧
      condHolds stacked.ccr .f = false ∧ lowWord (stacked.setDreg 0 1).d[0] ≠ 0 ∧
      (EA.ind 1).mode.isControl = true ∧ stacked.locAt 1 .l (.ind 1) = .mem .data 0x2001 false ∧
      (0x2001 : Long).getLsbD 0 = true ∧ (stacked.load .l 0x8000).getLsbD 0 = true ∧
      (stacked.load .l 0x8002).getLsbD 0 = true := by
  refine ⟨stacked_plain, by rw [stacked_areg7]; decide, stacked_super, ?_, ?_, ?_, ?_, ?_, ?_, ?_, ?_, ?_, ?_⟩ <;>
    decide +kernel

theorem withSr_mem (s : State) (w : Word) : (s.withSr w).mem = s.mem := rfl
theorem withSr_ssp (s : State) (w : Word) : (s.withSr w).ssp = s.ssp := rfl

/-- The states after those transfers are ready for the address error. -/
theorem witness_AddressError_landed (addr v : Long) (f : CCR) (w : Word) :
    stacked.Ready0 3 stacked.q0 addr ∧ (stacked.setDreg 0 v).Ready0 3 stacked.q0 addr ∧
      (stacked.pushed32 v).Ready0 3 stacked.q0 addr ∧ (stacked.setAreg 7 0x8004).Ready0 3 stacked.q0 addr ∧
      ((stacked.setAreg 7 0x8006).setFlags f).Ready0 3 stacked.q0 addr ∧
      ((stacked.setAreg 7 0x8006).withSr w).Ready0 3 stacked.q0 addr := by
  have hp := blank_pushed32 blank_stacked (n := 14) (by rw [stacked_areg7]; exact ⟨by decide, by decide⟩) v
  have hs : (stacked.pushed32 v).ssp = (stacked.pushed32 v).areg 7 := by
    rw [State.areg7_super]
    simp [State.pushed32, State.store, State.storeWord, stacked_super]
  refine ⟨stacked_ready0 rfl 0x8000 stacked_ssp ⟨by decide, by decide⟩ (by decide) _,
    stacked_ready0 (State.setDreg_mem ..) 0x8000 (by rw [State.setDreg_ssp]; exact stacked_ssp) ⟨by decide, by decide⟩ (by decide) _,
    ready0_of_blank hp.1 (by rw [hs]; exact hp.2) (by rw [hs, State.areg7_pushed32, stacked_areg7]; decide) (by decide) _ _,
    stacked_ready0 (State.setAreg_mem ..) 0x8004 (stacked_setAreg7 _) ⟨by decide, by decide⟩ (by decide) _,
    stacked_ready0 ?_ 0x8006 ?_ ⟨by decide, by decide⟩ (by decide) _,
    stacked_ready0 ?_ 0x8006 ?_ ⟨by decide, by decide⟩ (by decide) _⟩
  · rw [State.setFlags_mem, State.setAreg_mem]
  · rw [State.setFlags_ssp]; exact stacked_setAreg7 _
  · rw [withSr_mem, State.setAreg_mem]
  · rw [withSr_ssp]; exact stacked_setAreg7 _

/-- In user state: data from 2000 on may not be read, from 3000 on not be written, and no word at 1004 nor from 1080 on be
fetched. -/
def guarded : State :=
  { user.setAreg 0 0x2000 with
    map := [⟨0x2000, 0x1000, some .userData, some .read, none, .berr⟩, ⟨0x3000, 0x1000, some .userData, some .write, none, .berr⟩,
      ⟨0x1004, 2, some .userProgram, none, none, .berr⟩, ⟨0x1080, 2, some .userProgram, none, none, .berr⟩] }

/-- The same with every fetch granted. -/
def guardedData : State := { guarded with map := guarded.map.take 2 }

theorem witness_BusError :
    (∀ s ∈ [guarded, guardedData], s.super = false ∧ s.outside = [] ∧
      (∀ a dir w, s.answer a .superData dir w = .memory 0) ∧ ∀ a dir w, s.answer a .superProgram dir w = .memory 0) ∧
    (∀ a, guardedData.answer a .userProgram .read .word = .memory 0) ∧
    guarded.answer (guarded.pc + 4) .userProgram .read .word = .berr ∧
    guarded.answer (guarded.pc + 2 + (0x7E : Byte).signExtend 32) .userProgram .read .word = .berr := by
  refine ⟨fun s hs => ?_, fun a => ?_, by decide, by decide⟩
  · simp only [List.mem_cons, List.not_mem_nil, or_false] at hs
    rcases hs with rfl | rfl <;> refine ⟨rfl, rfl, fun a dir w => ?_, fun a dir w => ?_⟩ <;>
      simp [State.answer, guarded, guardedData, lookup, Region.covers]
  · simp [State.answer, guarded, guardedData, lookup, Region.covers]

/-- A byte, a word, and each half of a long word refused, for a read and for a write in either order of the halves. -/
theorem witness_BusError_data :
    let s := guardedData
    let r (a : Long) : Answer := s.answer a .userData .read .word
    let w (a : Long) : Answer := s.answer a .userData .write .word
    (s.locAt 1 .b (.disp 0 1) = .mem .data 0x2001 false ∧ misaligned .b 0x2001 = false ∧
      s.answer 0x2001 .userData .read .byte = .berr) ∧
    (s.locAt 1 .l (.disp 0 0xFFFE) = .mem .data 0x1FFE false ∧ misaligned .l 0x1FFE = false ∧ r 0x1FFE = .memory 0 ∧
      r (0x1FFE + 2) = .berr ∧ r 0x2000 = .berr) ∧
    (s.locAt 1 .l (.absW 0x2FFE) = .mem .data 0x2FFE false ∧ w 0x2FFE = .memory 0 ∧ w (0x2FFE + 2) = .berr) ∧
    (let u := s.setAreg 0 0x4002
     u.locAt 1 .l (.preDec 0) = .mem .data 0x3FFE true ∧ u.answer (0x3FFE + 2) .userData .write .word = .memory 0 ∧
       u.answer 0x3FFE .userData .write .word = .berr) ∧
    ∀ (v : Long) (half : Word) (f : CCR) (ir : Word) (addr : Long),
      (∀ s', s' ∈ [s, s.setAreg 0 v, s.setFlags f, (s.setAreg 0 v).setFlags f] → s'.Ready0 2 ir addr) ∧
      (s.storeWord 0 0x2FFE half).Ready0 2 ir addr := by
  have h : Aimed guardedData := ⟨by decide +kernel, by decide +kernel⟩
  have b : Blank guardedData := ⟨by rw [h.1]; rfl, fun _ _ => by rw [h.1]; rfl⟩
  refine ⟨by decide +kernel, by decide +kernel, by decide +kernel, by decide +kernel, fun v half f ir addr =>
    ⟨fun s' m => ?_, ready0_of_blank (blank_storeWord b _ (by decide) (by decide)) ?_ ?_ (by decide) _ _⟩⟩
  · have h0 := h.setAreg 0 (by decide) v
    simp only [List.mem_cons, List.not_mem_nil, or_false] at m
    rcases m with rfl | rfl | rfl | rfl
    exacts [h.ready0 (by decide) _ _, h0.ready0 (by decide) _ _, (h.setFlags f).ready0 (by decide) _ _,
      (h0.setFlags f).ready0 (by decide) _ _]
  · show Roomy guardedData.ssp 14
    rw [h.2]; exact ⟨by decide, by decide⟩
  · show guardedData.ssp.getLsbD 0 = false
    rw [h.2]; decide

/-- A trap through a vector that holds an odd address. -/
def oddTrap : State := boot.storeWord 0 0xBE 0x3001

theorem oddTrap_blank : Blank oddTrap 0xBC :=
  blank_storeWord (lim := 0xBC) ⟨blank_boot.canonical, fun _ _ => rfl⟩ _ (by decide) (by decide)

theorem oddTrap_entering : Blank (oddTrap.entering none) 0xBC := by
  have e : ∀ s : State, Blank s 0xBC → Blank (s.entering none) 0xBC := fun _ h => ⟨h.canonical, h.vectors⟩
  exact e _ oddTrap_blank

theorem oddTrap_entered {p : Long} {w : Word} (h : Blank (((oddTrap.entering none).pushed32 p).pushed16 w) 0xBC) :
    Blank (oddTrap.entered p w none) 0xBC := ⟨h.canonical, h.vectors⟩

theorem witness_DoubleFault : (boot.setAreg 7 0x8001).ssp.getLsbD 0 = true := by decide +kernel

theorem witness_DoubleFault_trap (ir : Word) :
    oddTrap.Plain ∧ oddTrap.ssp.getLsbD 0 = false ∧
      (oddTrap.handler 47 (oddTrap.pc + 2) oddTrap.sr none).getLsbD 0 = true ∧
      (oddTrap.entered (oddTrap.pc + 2) oddTrap.sr none).Ready0 3 ir
        (oddTrap.handler 47 (oddTrap.pc + 2) oddTrap.sr none) := by
  have hs : (oddTrap.entering none).areg 7 = 0x8000 := by decide +kernel
  have hp := blank_pushed32 (s := oddTrap.entering none) (lim := 0xBC) oddTrap_entering (n := 16) (by rw [hs]; exact ⟨by decide, by decide⟩) (oddTrap.pc + 2)
  have hq := blank_pushed16 hp.1 (n := 14) hp.2 oddTrap.sr
  have ha : (oddTrap.entered (oddTrap.pc + 2) oddTrap.sr none).ssp = 0x7FFA := by decide +kernel
  have hr : Roomy (oddTrap.entered (oddTrap.pc + 2) oddTrap.sr none).ssp 14 :=
    ha.symm ▸ ⟨by decide, by decide⟩
  have he : (oddTrap.entered (oddTrap.pc + 2) oddTrap.sr none).ssp.getLsbD 0 = false := ha.symm ▸ by decide +kernel
  exact ⟨State.plain_of_map (by decide +kernel) (by decide +kernel), by decide +kernel, by decide +kernel,
    ready0_of_blank (lim := 0xBC) (oddTrap_entered hq.1) hr he (by decide) _ _⟩

/-- A list of registers at an even address; the empty list at an odd one. -/
theorem witness_MovemStore :
    aimed.Plain ∧ (EA.disp 0 4).mode.isControl = true ∧
      aimed.locAt 2 WSize.l.size (.disp 0 4) = .mem .data 0x2004 false ∧ (0x2004 : Long).getLsbD 0 = false ∧
      aimed.locAt 2 WSize.l.size (.ind 1) = .mem .data 0x2001 false ∧
      (List.finRange 16).filterMap (fun i => if (0 : Word).getLsbD i.val then some (regOfIndex i) else none) = [] ∧
      (aimed.areg 0).getLsbD 0 = false := ⟨aimed_plain, by decide⟩

theorem witness_MovemLoad :
    aimed.Plain ∧ (EA.pcDisp 4).mode.isControl = true ∧
      aimed.locAt 2 WSize.w.size (.pcDisp 4) = .mem .program 0x1008 false ∧ (0x1008 : Long).getLsbD 0 = false ∧
      (aimed.areg 0).getLsbD 0 = false := ⟨aimed_plain, by decide⟩

theorem witness_MovePeripheral : aimed.Plain := aimed_plain

theorem witness_LinkUnlink :
    aimed.Plain ∧ (aimed.areg 7).getLsbD 0 = false ∧ (aimed.areg 0).getLsbD 0 = false ∧ (0 : RegNum) ≠ 7 :=
  ⟨aimed_plain, by decide⟩

end Sys2Proof.Tests
end

section
/-! PROOFS. The sign and the number of an operand at a size, the flags of a comparison, and the sixteen conditions
(45_program_control.md R271). -/

namespace Sys2Proof.Machine

/-! ## Signs and numbers at a size -/

/-- The range at a size is two halves: the values without and with the sign bit. -/
theorem two_pow_bits (sz : Size) : 2 ^ sz.bits = 2 * 2 ^ (sz.bits - 1) := by
  cases sz <;> rfl

theorem two_pow_bits_le (sz : Size) : 2 ^ sz.bits ≤ 2 ^ 32 := by
  cases sz <;> decide

theorem msb_trunc (sz : Size) (v : Long) : msb sz (trunc sz v) = msb sz v := by
  cases sz with
  | b => simp [msb, trunc, Size.bits]
  | w => simp [msb, trunc, Size.bits]
  | l => rfl

/-- A value below the range of a size has its sign bit set just in the upper half. -/
theorem msb_of_lt {sz : Size} {v : Long} (h : v.toNat < 2 ^ sz.bits) : msb sz v = decide (2 ^ (sz.bits - 1) ≤ v.toNat) := by
  rw [two_pow_bits] at h
  rw [msb, BitVec.getLsbD, Nat.testBit_eq_decide_div_mod_eq, decide_eq_decide]
  generalize 2 ^ (sz.bits - 1) = half at h ⊢
  rw [Nat.mod_eq_of_lt (Nat.div_lt_of_lt_mul (by omega)), Nat.div_eq_iff (by omega)]
  omega

theorem msb_eq_decide (sz : Size) (v : Long) : msb sz v = decide (2 ^ (sz.bits - 1) ≤ (trunc sz v).toNat) := by
  rw [← msb_trunc, msb_of_lt (trunc_lt sz v)]

theorem signedOf_eq_toInt (sz : Size) (v : Long) : signedOf sz v = (v.setWidth sz.bits).toInt := by
  cases sz with
  | b => exact BitVec.toInt_signExtend_of_le (by decide)
  | w => exact BitVec.toInt_signExtend_of_le (by decide)
  | l => rw [signedOf, Size.bits, BitVec.setWidth_eq]; rfl

/-- The upper half of the range stands for the negative numbers. -/
theorem signedOf_eq (sz : Size) (v : Long) :
    signedOf sz v = (trunc sz v).toNat - (if 2 ^ (sz.bits - 1) ≤ (trunc sz v).toNat then 2 ^ sz.bits else 0 : Nat) := by
  rw [signedOf_eq_toInt, BitVec.toInt_eq_toNat_cond, BitVec.toNat_setWidth, ← trunc_toNat, two_pow_bits]
  split <;> split <;> omega

/-- At a size, equal numbers are equal values. -/
theorem signedOf_eq_iff (sz : Size) (d a : Long) : signedOf sz d = signedOf sz a ↔ (trunc sz d).toNat = (trunc sz a).toNat := by
  have hd := trunc_lt sz d
  have ha := trunc_lt sz a
  rw [two_pow_bits] at hd ha
  rw [signedOf_eq, signedOf_eq, two_pow_bits]
  split <;> split <;> omega

/-! ## The flags of a comparison -/

section
variable (sz : Size) (f : CCR) (d a : Long)

/-- The difference is exact but for a borrow of the whole range. -/
theorem subAt_toNat : (subAt sz (trunc sz d) (trunc sz a) false).r.toNat =
    if (trunc sz a).toNat ≤ (trunc sz d).toNat then (trunc sz d).toNat - (trunc sz a).toNat
    else 2 ^ sz.bits + (trunc sz d).toNat - (trunc sz a).toNat := by
  have hd := trunc_lt sz d
  have ha := trunc_lt sz a
  have hr := two_pow_bits_le sz
  show (BitVec.ofNat 32 ((2 ^ sz.bits + (trunc sz d).toNat - ((trunc sz a).toNat + 0)) % 2 ^ sz.bits)).toNat = _
  rw [BitVec.toNat_ofNat, Nat.add_zero, Nat.mod_eq_of_lt ((Nat.mod_lt _ (by omega)).trans_le hr)]
  split
  · rw [Nat.add_sub_assoc ‹_›, Nat.add_mod_left, Nat.mod_eq_of_lt (by omega)]
  · exact Nat.mod_eq_of_lt (by omega)

theorem subAt_toNat_lt : (subAt sz (trunc sz d) (trunc sz a) false).r.toNat < 2 ^ sz.bits := by
  have hd := trunc_lt sz d
  rw [subAt_toNat]
  split <;> omega

/-- C is the order of the operands as unsigned numbers. -/
theorem compareFlags_c : (compareFlags sz f (trunc sz d) (trunc sz a)).c = decide ((trunc sz d).toNat < (trunc sz a).toNat) := rfl

/-- Z is the equality of the operands. -/
theorem compareFlags_z : (compareFlags sz f (trunc sz d) (trunc sz a)).z = decide ((trunc sz d).toNat = (trunc sz a).toNat) := by
  have hd := trunc_lt sz d
  have ha := trunc_lt sz a
  show decide ((subAt sz (trunc sz d) (trunc sz a) false).r = 0) = _
  rw [decide_eq_decide, ← BitVec.toNat_inj, subAt_toNat]
  show _ = 0 ↔ _
  split <;> omega

/-- V of a comparison: the operands differ in sign, and so do the difference and the destination. -/
theorem compareFlags_v :
    (compareFlags sz f (trunc sz d) (trunc sz a)).v =
      (msb sz d != msb sz a && (compareFlags sz f (trunc sz d) (trunc sz a)).n != msb sz d) := by
  rw [← msb_trunc sz d, ← msb_trunc sz a]
  rfl

/-- The difference of two operands of one sign does not overflow: N says whether it is negative. -/
theorem compareFlags_n_of_msb_eq (h : msb sz d = msb sz a) :
    (compareFlags sz f (trunc sz d) (trunc sz a)).n = decide (signedOf sz d < signedOf sz a) := by
  have hd := trunc_lt sz d
  have ha := trunc_lt sz a
  show msb sz (subAt sz (trunc sz d) (trunc sz a) false).r = _
  rw [msb_of_lt (subAt_toNat_lt sz d a), subAt_toNat, decide_eq_decide, signedOf_eq, signedOf_eq]
  rw [msb_eq_decide, msb_eq_decide, decide_eq_decide] at h
  rw [two_pow_bits] at hd ha ⊢
  simp only [h]
  split <;> split <;> omega

/-- Of two operands of different signs the one with the sign bit is the lesser. -/
theorem msb_of_msb_ne (h : msb sz d ≠ msb sz a) : msb sz d = decide (signedOf sz d < signedOf sz a) := by
  have hd := trunc_lt sz d
  have ha := trunc_lt sz a
  rw [msb_eq_decide, msb_eq_decide, ne_eq, decide_eq_decide] at h
  rw [msb_eq_decide, decide_eq_decide, signedOf_eq, signedOf_eq]
  rw [two_pow_bits] at hd ha ⊢
  split <;> split <;> omega

/-- N and V differ just when the destination is the lesser as a signed number. -/
theorem compareFlags_n_ne_v :
    ((compareFlags sz f (trunc sz d) (trunc sz a)).n != (compareFlags sz f (trunc sz d) (trunc sz a)).v) =
      decide (signedOf sz d < signedOf sz a) := by
  rw [compareFlags_v]
  by_cases h : msb sz d = msb sz a
  · rw [← compareFlags_n_of_msb_eq sz f d a h, h]
    simp
  · rw [← msb_of_msb_ne sz d a h]
    generalize (compareFlags sz f (trunc sz d) (trunc sz a)).n = n
    rw [bne_iff_ne.mpr h, Bool.true_and, Bool.bne_self_left]

/-! ## What the conditions say after a comparison

Each condition stands in the table beside its negation; EQ, LS, CS, LE and LT are read from the flags, and the others follow. -/

theorem compare_eq :
    condHolds (compareFlags sz f (trunc sz d) (trunc sz a)) .eq = decide ((trunc sz d).toNat = (trunc sz a).toNat) :=
  compareFlags_z sz f d a

theorem compare_cs :
    condHolds (compareFlags sz f (trunc sz d) (trunc sz a)) .cs = decide ((trunc sz d).toNat < (trunc sz a).toNat) :=
  compareFlags_c sz f d a

theorem compare_ls :
    condHolds (compareFlags sz f (trunc sz d) (trunc sz a)) .ls = decide ((trunc sz d).toNat ≤ (trunc sz a).toNat) := by
  rw [condHolds, compareFlags_c, compareFlags_z, ← Bool.decide_or, decide_eq_decide]
  exact Nat.le_iff_lt_or_eq.symm

theorem compare_lt :
    condHolds (compareFlags sz f (trunc sz d) (trunc sz a)) .lt = decide (signedOf sz d < signedOf sz a) :=
  compareFlags_n_ne_v sz f d a

theorem compare_le :
    condHolds (compareFlags sz f (trunc sz d) (trunc sz a)) .le = decide (signedOf sz d ≤ signedOf sz a) := by
  rw [condHolds, compareFlags_n_ne_v, compareFlags_z, ← Bool.decide_or, decide_eq_decide, ← signedOf_eq_iff, or_comm]
  exact Int.le_iff_lt_or_eq.symm

end

section
variable (f : CCR)

theorem condHolds_ne : condHolds f .ne = !condHolds f .eq := rfl

theorem condHolds_hi : condHolds f .hi = !condHolds f .ls := (Bool.not_or f.c f.z).symm

theorem condHolds_cc : condHolds f .cc = !condHolds f .cs := rfl

theorem condHolds_ge : condHolds f .ge = !condHolds f .lt := (Bool.not_not (f.n == f.v)).symm

theorem condHolds_gt : condHolds f .gt = !condHolds f .le := by
  rw [condHolds, condHolds, Bool.not_or, bne, Bool.not_not]

end

/-- A branch on T or F is no encoding of Bcc. -/
theorem bcc_wellFormed_cond {cond : Cond} {d : Disp} (h : (Instr.bcc cond d).wellFormed = true) : cond ≠ .t ∧ cond ≠ .f := by
  obtain ⟨hc, -⟩ := Bool.and_eq_true_iff.mp h
  constructor <;> rintro rfl <;> cases hc

/-- Settles O18: the codes and the words by evaluation, the tests by the table, and the orderings by the flags of a comparison. -/
theorem conditions : Obligations.Conditions := by
  refine ⟨rfl, fun f => ?tests, fun _ _ => bcc_wellFormed_cond, rfl, rfl, fun sz f d a => ⟨rfl, ?orders⟩⟩
  case tests => simp [condHolds]
  case orders =>
    simp only [condHolds_ne, condHolds_hi, condHolds_cc, condHolds_ge, condHolds_gt, compare_eq, compare_ls, compare_cs, compare_lt,
      compare_le, ← decide_not, Nat.not_le, Nat.not_lt, Int.not_le, Int.not_lt, ne_eq, and_self]

end Sys2Proof.Machine
end

section
/-! PROOFS. The operation words of lines 1010 and 1111, and the instructions that do nothing but enter their vector (49_special.md
R349, 60_exceptions.md R414). -/

namespace Sys2Proof.Machine

/-! ## An operation word as its line and its low twelve bits -/

theorem toNat_line_append (line : BitVec 4) (low : BitVec 12) : (line ++ low).toNat = line.toNat * 4096 + low.toNat := by
  have hlow := low.isLt
  rw [BitVec.toNat_append, ← Nat.shiftLeft_add_eq_or_of_lt hlow, Nat.shiftLeft_eq]

theorem fieldsOf_line (line : BitVec 4) (low : BitVec 12) : (fieldsOf (line ++ low)).line = line.toFin := by
  apply Fin.ext
  have hlow := low.isLt
  show (line ++ low).toNat / 4096 = line.toNat
  rw [toNat_line_append]
  omega

theorem fieldsOf_low12 (line : BitVec 4) (low : BitVec 12) : (fieldsOf (line ++ low)).low12 = low := by
  apply BitVec.eq_of_toNat_eq
  have hlow := low.isLt
  rw [Fields.low12, BitVec.toNat_ofNat]
  simp only [fieldsOf, toNat_line_append]
  omega

/-! ## The two lines in the decoder -/

/-- An operation word whose fields alone give its instruction takes no other word. -/
theorem decodeWords_of_decodeFields {w : Word} {i : Instr} (h : decodeFields (fieldsOf w) = pure i) (rest : List Word) :
    decodeWords (w :: rest) = .ok (i, rest) := by
  have hparse : parseInstr (w :: rest) = .ok i rest := by
    show decodeFields (fieldsOf w) rest = .ok i rest
    rw [h]
    rfl
  rw [decodeWords, hparse]

theorem decodeFields_line1010 {f : Fields} (h : f.line = 10) : decodeFields f = pure (.line1010 f.low12) := by
  rw [decodeFields, h]
  rfl

theorem decodeFields_line1111 {f : Fields} (h : f.line = 15) : decodeFields f = pure (.line1111 f.low12) := by
  rw [decodeFields, h]
  rfl

theorem decodeWords_line1010 (low : BitVec 12) (rest : List Word) :
    decodeWords ((0xA#4 ++ low) :: rest) = .ok (.line1010 low, rest) := by
  have h := decodeFields_line1010 (fieldsOf_line 0xA#4 low)
  rw [fieldsOf_low12] at h
  exact decodeWords_of_decodeFields h rest

theorem decodeWords_line1111 (low : BitVec 12) (rest : List Word) :
    decodeWords ((0xF#4 ++ low) :: rest) = .ok (.line1111 low, rest) := by
  have h := decodeFields_line1111 (fieldsOf_line 0xF#4 low)
  rw [fieldsOf_low12] at h
  exact decodeWords_of_decodeFields h rest

/-! ## What the three instructions do -/

theorem exec_illegal (s : State) : exec .illegal s = refuseInstr 4 s := rfl

theorem exec_line1010 (low : BitVec 12) (s : State) : exec (.line1010 low) s = refuseInstr 10 s := rfl

theorem exec_line1111 (low : BitVec 12) (s : State) : exec (.line1111 low) s = refuseInstr 11 s := rfl

/-- Settles O51: the words through the fields of the operation word, the meanings as instructions that are not started. -/
theorem notStarted : Obligations.NotStarted := by
  refine ⟨rfl, fun low => ⟨decodeWords_line1010 low [], decodeWords_line1111 low []⟩, fun s low => ⟨?ill, ?lineA, ?lineF⟩⟩
  case ill => rw [exec_illegal]; exact refuseInstr_plain
  case lineA => rw [exec_line1010]; exact refuseInstr_plain
  case lineF => rw [exec_line1111]; exact refuseInstr_plain

end Sys2Proof.Machine
end

section
/-! PROOFS. The privileged instructions in user state (60_exceptions.md R415, R452). -/

namespace Sys2Proof.Machine

/-- The privileged instructions of R452, over their register, their immediate word and their operand. -/
def privilegedInstrs (n : RegNum) (w : Word) (ea : EA) : List Instr :=
  [.resetDevices, .rte, .stop w, .oriToSr w, .moveToUsp n, .moveFromUsp n, .andiToSr w, .eoriToSr w, .moveToSr ea]

/-- Whatever a privileged instruction does, it does behind the test of S: no operand is resolved before it. -/
theorem exec_of_mem_privilegedInstrs {i : Instr} {n : RegNum} {w : Word} {ea : EA} (hi : i ∈ privilegedInstrs n w ea) :
    ∃ body, ∀ s, exec i s = privileged body s := by
  simp only [privilegedInstrs, List.mem_cons, List.not_mem_nil, or_false] at hi
  rcases hi with rfl | rfl | rfl | rfl | rfl | rfl | rfl | rfl | rfl
  all_goals exact ⟨_, fun _ => rfl⟩

/-- In user state a privileged instruction is one that is not started. -/
theorem exec_privileged_user {i : Instr} {n : RegNum} {w : Word} {ea : EA} (hi : i ∈ privilegedInstrs n w ea) {s : State}
    (hu : s.super = false) : exec i s = refuseInstr 8 s := by
  obtain ⟨body, hbody⟩ := exec_of_mem_privilegedInstrs hi
  rw [hbody, privileged_user hu]

/-- Settles O52: in user state the test of S refuses the instruction, and a refused instruction enters its vector. -/
theorem privilegeViolation : Obligations.PrivilegeViolation := by
  intro s i n w ea hi hu hready
  rw [exec_privileged_user hi hu]
  exact refuseInstr_plain hready

end Sys2Proof.Machine
end

section
/-! PROOFS. The encoder and the decoder against each other (30_encoding.md): what is encoded decodes to itself, and what decodes is
well formed. -/

namespace Sys2Proof

/-! ## Parsers in sequence -/

variable {α β : Type}

theorem parse_bind {p : Parse α} {q : α → Parse β} {ws rest : List Word} {a : α} (h : p ws = .ok a rest) :
    (p >>= q) ws = q a rest := by
  show EStateM.bind p q ws = _
  unfold EStateM.bind
  rw [h]

/-- Whatever words a parser accepts, its value has the property. -/
def Yields (p : Parse α) (Q : α → Prop) : Prop := ∀ ws a rest, p ws = .ok a rest → Q a

theorem Yields.bind {p : Parse α} {q : α → Parse β} {Q : α → Prop} {R : β → Prop} (hp : Yields p Q)
    (hq : ∀ a, Q a → Yields (q a) R) : Yields (p >>= q) R := by
  intro ws b rest h
  cases hx : p ws with
  | ok a ws' =>
    rw [parse_bind hx] at h
    exact hq a (hp ws a ws' hx) ws' b rest h
  | error r ws' =>
    have herr : (p >>= q) ws = .error r ws' := by
      show EStateM.bind p q ws = _
      unfold EStateM.bind
      rw [hx]
    rw [herr] at h
    cases h

theorem yields_pure {Q : α → Prop} {a : α} (h : Q a) : Yields (pure a) Q := by
  intro ws b rest hb
  cases hb
  exact h

theorem yields_reject {Q : α → Prop} (r : Reject) : Yields (reject r) Q := by
  intro ws a rest h
  cases h

/-- A parser followed by a function of its value. -/
theorem Yields.map {p : Parse α} {Q : α → Prop} {R : β → Prop} {make : α → β} (hp : Yields p Q) (h : ∀ a, Q a → R (make a)) :
    Yields (do pure (make (← p))) R := hp.bind fun a ha => yields_pure (h a ha)

theorem yields_any (p : Parse α) : Yields p fun _ => True := fun _ _ _ _ => trivial

/-! ## The fields of the operation word -/

theorem fieldsOf_word (f : Fields) : fieldsOf f.word = f := by
  obtain ⟨⟨l, hl⟩, ⟨a, ha⟩, ⟨b, hb⟩, ⟨c, hc⟩, ⟨d, hd⟩⟩ := f
  simp only [fieldsOf, Fields.word, BitVec.toNat_ofNat, Fields.mk.injEq, Fin.mk.injEq]
  omega

/-- The fields hold the mode and the register of an effective address. -/
def Fields.Names (f : Fields) (ea : EA) : Prop := f.f3 = ea.modeField ∧ f.f0 = ea.regField

theorem modeOf_fields (ea : EA) : modeOf ea.modeField ea.regField = some ea.mode := by cases ea <;> rfl

theorem allowed_fields {ok : Mode → Bool} {ea : EA} (h : ok ea.mode = true) :
    allowed ok ea.modeField ea.regField = pure ea.mode := by
  unfold allowed
  rw [modeOf_fields]
  exact if_pos h

theorem yields_allowed (ok : Mode → Bool) (m r : Fin 8) : Yields (allowed ok m r) fun mode => ok mode = true := by
  unfold allowed
  split
  · split
    · exact yields_pure ‹_›
    · exact yields_reject _
  · exact yields_reject _

/-! ## Extension words -/

theorem joined_longWords (l : Long) : ((l >>> 16).setWidth 16 ++ l.setWidth 16 : Long) = l := Machine.join_halves l

theorem lowByte_setWidth (b : Byte) : lowByte (b.setWidth 16) = b := by
  apply BitVec.eq_of_toNat_eq
  have hb := b.isLt
  simp only [lowByte, BitVec.toNat_setWidth]
  omega

theorem nextLong_longWords (l : Long) (rest : List Word) : nextLong (longWords l ++ rest) = .ok l rest :=
  congrArg (EStateM.Result.ok · rest) (joined_longWords l)

theorem nextImm_words (i : Imm) (rest : List Word) : nextImm i.size (i.words ++ rest) = .ok i rest := by
  cases i with
  | b v => exact congrArg (fun b => EStateM.Result.ok (Imm.b b) rest) (lowByte_setWidth v)
  | w v => rfl
  | l v => exact parse_bind (nextLong_longWords v rest)

theorem yields_nextImm (sz : Size) : Yields (nextImm sz) fun i => i.size = sz := by
  cases sz with
  | b => exact (yields_any _).map fun _ _ => rfl
  | w => exact (yields_any _).map fun _ _ => rfl
  | l => exact (yields_any _).map fun _ _ => rfl

theorem Index.word_toNat_d (n : RegNum) (long : Bool) (disp : Byte) :
    (Index.word ⟨.d n, long, disp⟩).toNat = n.val * 4096 + (if long then 2048 else 0) + disp.toNat := by
  have hd := disp.isLt
  rw [Index.word, BitVec.toNat_ofNat]
  cases long <;> simp <;> omega

theorem Index.word_toNat_a (n : RegNum) (long : Bool) (disp : Byte) :
    (Index.word ⟨.a n, long, disp⟩).toNat = 32768 + n.val * 4096 + (if long then 2048 else 0) + disp.toNat := by
  have hd := disp.isLt
  rw [Index.word, BitVec.toNat_ofNat]
  cases long <;> simp <;> omega

theorem lowByte_eq {w : Word} {b : Byte} (h : w.toNat % 256 = b.toNat) : lowByte w = b := by
  apply BitVec.eq_of_toNat_eq
  rw [lowByte, BitVec.toNat_setWidth]
  exact h

/-- An index extension word reads back (30_encoding.md R106). -/
theorem indexOf_word (x : Index) : indexOf x.word = x := by
  obtain ⟨reg, long, disp⟩ := x
  have hd := disp.isLt
  cases reg with
  | d n =>
    have hw := Index.word_toNat_d n long disp
    cases long
    all_goals
      simp only [if_true, if_false, Bool.false_eq_true] at hw
      unfold indexOf
      rw [Index.mk.injEq]
      refine ⟨?_, ?_, lowByte_eq (by omega)⟩
      · rw [if_pos (by omega)]
        exact congrArg Reg.d (Fin.ext (by show _ / 4096 % 8 = _; omega))
      · simp
        omega
  | a n =>
    have hw := Index.word_toNat_a n long disp
    cases long
    all_goals
      simp only [if_true, if_false, Bool.false_eq_true] at hw
      unfold indexOf
      rw [Index.mk.injEq]
      refine ⟨?_, ?_, lowByte_eq (by omega)⟩
      · rw [if_neg (by omega)]
        exact congrArg Reg.a (Fin.ext (by show _ / 4096 % 8 = _; omega))
      · simp
        omega

/-- The extension words of an effective address read back, if its immediate data has the instruction's size (R103). -/
theorem nextEA_words {sz : Size} {ea : EA} (h : ea.fits sz = true) (rest : List Word) :
    nextEA sz ea.mode ea.regField (ea.words ++ rest) = .ok ea rest := by
  cases ea with
  | index n x => exact congrArg (fun y => EStateM.Result.ok (EA.index n y) rest) (indexOf_word x)
  | pcIndex x => exact congrArg (fun y => EStateM.Result.ok (EA.pcIndex y) rest) (indexOf_word x)
  | absL l => exact parse_bind (nextLong_longWords l rest)
  | imm i =>
    obtain rfl : i.size = sz := by simpa [EA.fits] using h
    exact parse_bind (nextImm_words i rest)
  | _ => rfl

theorem yields_nextEA (sz : Size) (mode : Mode) (r : RegNum) :
    Yields (nextEA sz mode r) fun ea => ea.mode = mode ∧ ea.fits sz = true := by
  cases mode with
  | imm => exact (yields_nextImm sz).map fun i hi => ⟨rfl, by simp [EA.fits, hi]⟩
  | dreg | areg | ind | postInc | preDec => exact yields_pure ⟨rfl, rfl⟩
  | disp | index | absW | absL | pcDisp | pcIndex => exact (yields_any _).map fun _ _ => ⟨rfl, rfl⟩

theorem eaField_words {ok : Mode → Bool} {sz : Size} {f : Fields} {ea : EA} (hf : f.Names ea) (hok : ok ea.mode = true)
    (hfit : ea.fits sz = true) (rest : List Word) : eaField ok sz f (ea.words ++ rest) = .ok ea rest := by
  obtain ⟨hm, hr⟩ := hf
  unfold eaField
  rw [hm, hr, allowed_fields hok]
  exact nextEA_words hfit rest

/-- An operand that `ok` allows and whose immediate data has the size. -/
def Fits (ok : Mode → Bool) (sz : Size) (ea : EA) : Prop := ok ea.mode = true ∧ ea.fits sz = true

theorem yields_mode_then_EA {ok : Mode → Bool} {mode : Mode} (h : ok mode = true) (sz : Size) (r : RegNum) :
    Yields (nextEA sz mode r) (Fits ok sz) := fun ws ea rest hx => by
  obtain ⟨hm, hfit⟩ := yields_nextEA sz mode r ws ea rest hx
  exact ⟨by rw [hm]; exact h, hfit⟩

theorem yields_eaField (ok : Mode → Bool) (sz : Size) (f : Fields) : Yields (eaField ok sz f) (Fits ok sz) :=
  (yields_allowed ok _ _).bind fun _ h => yields_mode_then_EA h sz f.f0

theorem sizeField_of {f : Fields} {sz : Size} (h : sizeOf2 (f.f6.val % 4) = some sz) : sizeField f = pure sz := by
  unfold sizeField
  rw [h]

@[simp] theorem sizeOf2_low (sz : Size) : sizeOf2 (sz.low.val % 4) = some sz := by cases sz <;> rfl

@[simp] theorem sizeOf2_high (sz : Size) : sizeOf2 (sz.high.val % 4) = some sz := by cases sz <;> rfl

end Sys2Proof
end

section
/-! PROOFS. Decoding what is encoded: the fields of an operation word lead every line of the opcode map back to the instruction's
form, and each form reads its extension words back (30_encoding.md R103, R113 to R116). -/

namespace Sys2Proof

/-! ## What a category says of the fields -/

theorem modeField_eq_zero_iff (ea : EA) : ea.modeField = 0 ↔ ea.mode = .dreg := by cases ea <;> simp [EA.modeField, EA.mode]

theorem modeField_eq_one_iff (ea : EA) : ea.modeField = 1 ↔ ea.mode = .areg := by cases ea <;> simp [EA.modeField, EA.mode]

theorem fields_imm_iff (ea : EA) : (ea.modeField = 7 ∧ ea.regField = 4) ↔ ea.mode = .imm := by
  cases ea <;> simp [EA.modeField, EA.regField, EA.mode]

theorem fits_of_ne_imm {ea : EA} (h : ea.mode ≠ .imm) (sz : Size) : ea.fits sz = true := by
  cases ea
  case imm => exact absurd rfl h
  all_goals rfl

variable {m : Mode}

theorem Mode.ne_of_dataAlterable (h : m.dataAlterable = true) : m ≠ .areg ∧ m ≠ .imm := by
  constructor <;> rintro rfl <;> cases h

theorem Mode.ne_of_memoryAlterable (h : m.memoryAlterable = true) : m ≠ .dreg ∧ m ≠ .areg ∧ m ≠ .imm := by
  refine ⟨?_, ?_, ?_⟩ <;> rintro rfl <;> cases h

theorem Mode.ne_of_isControl (h : m.isControl = true) : m ≠ .dreg ∧ m ≠ .imm := by
  constructor <;> rintro rfl <;> cases h

theorem Mode.ne_of_dataNotImm (h : m.dataNotImm = true) : m ≠ .areg ∧ m ≠ .imm := by
  constructor <;> rintro rfl <;> cases h

theorem Mode.ne_of_movemDst (h : m.movemDst = true) : m ≠ .dreg ∧ m ≠ .imm := by
  constructor <;> rintro rfl <;> cases h

theorem Mode.ne_imm_of_movemSrc (h : m.movemSrc = true) : m ≠ .imm := by
  rintro rfl
  cases h

theorem Mode.ne_imm_of_alterableFor {sz : Size} (h : m.alterableFor sz = true) : m ≠ .imm := by
  rintro rfl
  cases h

/-- No address register is a byte operand, and no other size excludes one. -/
theorem Mode.allFor_of_wsize (sz : WSize) (m : Mode) : m.allFor sz.size = true := by cases sz <;> rfl

/-! ## The forms read their words back -/

section Forms

variable {f : Fields} {ea : EA} {sz : Size} {ok : Mode → Bool} (hf : f.Names ea) (rest : List Word)
include hf

theorem oneEA_words {make : EA → Instr} (hok : ok ea.mode = true) (hfit : ea.fits sz = true) :
    oneEA ok sz f make (ea.words ++ rest) = .ok (make ea) rest := parse_bind (eaField_words hf hok hfit rest)

theorem sizedEA_words {make : Size → EA → Instr} (hsz : sizeOf2 (f.f6.val % 4) = some sz)
    (hok : ea.mode.dataAlterable = true) : sizedEA f make (ea.words ++ rest) = .ok (make sz ea) rest := by
  unfold sizedEA
  rw [sizeField_of hsz]
  exact parse_bind (eaField_words hf hok (fits_of_ne_imm (Mode.ne_of_dataAlterable hok).2 sz) rest)

theorem quickForm_words {make : Fin 8 → Size → EA → Instr} (hsz : sizeOf2 (f.f6.val % 4) = some sz)
    (hok : ea.mode.alterableFor sz = true) : quickForm f make (ea.words ++ rest) = .ok (make f.f9 sz ea) rest := by
  unfold quickForm
  rw [sizeField_of hsz]
  exact parse_bind (eaField_words hf hok (fits_of_ne_imm (Mode.ne_imm_of_alterableFor hok) sz) rest)

theorem toRegForm_words {okFor : Size → Mode → Bool} {make : Size → EA → RegNum → Instr}
    (hsz : sizeOf2 (f.f6.val % 4) = some sz) (hok : okFor sz ea.mode = true) (hfit : ea.fits sz = true) :
    toRegForm okFor f make (ea.words ++ rest) = .ok (make sz ea f.f9) rest := by
  unfold toRegForm
  rw [sizeField_of hsz]
  exact parse_bind (eaField_words hf hok hfit rest)

theorem toMemForm_words {make : Size → RegNum → EA → Instr} (hsz : sizeOf2 (f.f6.val % 4) = some sz)
    (hok : ok ea.mode = true) (himm : ea.mode ≠ .imm) : toMemForm ok f make (ea.words ++ rest) = .ok (make sz f.f9 ea) rest := by
  unfold toMemForm
  rw [sizeField_of hsz]
  exact parse_bind (eaField_words hf hok (fits_of_ne_imm himm sz) rest)

theorem addrForm_words {make : WSize → RegNum → EA → Instr} {ws : WSize} (hsz : wsizeOf (f.f6.val / 4) = ws)
    (hfit : ea.fits ws.size = true) : addrForm f make (ea.words ++ rest) = .ok (make ws f.f9 ea) rest := by
  unfold addrForm
  rw [hsz]
  exact parse_bind (eaField_words hf (Mode.allFor_of_wsize ws _) hfit rest)

theorem dynamicBit_words {make : RegNum → EA → Instr} (hok : ok ea.mode = true) (himm : ea.mode ≠ .imm) :
    dynamicBit ok f make (ea.words ++ rest) = .ok (make f.f9 ea) rest :=
  parse_bind (eaField_words hf hok (fits_of_ne_imm himm .b) rest)

theorem staticBit_words {make : Byte → EA → Instr} (hok : ok ea.mode = true) (himm : ea.mode ≠ .imm) (b : Byte) :
    staticBit ok f make (b.setWidth 16 :: ea.words ++ rest) = .ok (make b ea) rest := by
  obtain ⟨hm, hr⟩ := hf
  unfold staticBit
  rw [hm, hr, allowed_fields hok]
  show (nextEA .b ea.mode ea.regField >>= fun dst => pure (make (lowByte (b.setWidth 16)) dst)) (ea.words ++ rest) = _
  rw [lowByte_setWidth]
  exact parse_bind (nextEA_words (fits_of_ne_imm himm .b) rest)

theorem movemForm_words {make : WSize → Word → EA → Instr} {ws : WSize} (hsz : wsizeOf (f.f6.val % 2) = ws)
    (hok : ok ea.mode = true) (himm : ea.mode ≠ .imm) (list : Word) :
    movemForm ok f make (list :: ea.words ++ rest) = .ok (make ws list ea) rest := by
  obtain ⟨hm, hr⟩ := hf
  unfold movemForm
  rw [hm, hr, hsz, allowed_fields hok]
  exact parse_bind (nextEA_words (fits_of_ne_imm himm .w) rest)

theorem immForm_words {make : Imm → EA → Instr} {i : Imm} (hsz : sizeOf2 (f.f6.val % 4) = some i.size)
    (hok : ea.mode.dataAlterable = true) : immForm f make (i.words ++ ea.words ++ rest) = .ok (make i ea) rest := by
  obtain ⟨hm, hr⟩ := hf
  unfold immForm
  rw [sizeField_of hsz, hm, hr, allowed_fields hok, List.append_assoc]
  exact (parse_bind (nextImm_words i _)).trans
    (parse_bind (nextEA_words (fits_of_ne_imm (Mode.ne_of_dataAlterable hok).2 i.size) rest))

theorem logicImmForm_words {make : Imm → EA → Instr} {toCcr : Byte → Instr} {toSr : Word → Instr} {i : Imm}
    (hsz : sizeOf2 (f.f6.val % 4) = some i.size) (hok : ea.mode.dataAlterable = true) :
    logicImmForm f make toCcr toSr (i.words ++ ea.words ++ rest) = .ok (make i ea) rest := by
  have himm : ¬ (f.f3 = 7 ∧ f.f0 = 4) := by
    rw [hf.1, hf.2, fields_imm_iff]
    exact (Mode.ne_of_dataAlterable hok).2
  unfold logicImmForm
  rw [if_neg fun h => himm ⟨h.1, h.2.1⟩, if_neg fun h => himm ⟨h.1, h.2.1⟩]
  exact immForm_words hf rest hsz hok

theorem moveaForm_words {make : RegNum → EA → Instr} (hok : ea.mode.allFor sz = true) (hfit : ea.fits sz = true) :
    moveaForm sz f make (ea.words ++ rest) = .ok (make f.f9 ea) rest := parse_bind (eaField_words hf hok hfit rest)

theorem moveForm_words {make : EA → EA → Instr} {dst : EA} (h6 : f.f6 = dst.modeField) (h9 : f.f9 = dst.regField)
    (hok : (ea.mode.allFor sz && ea.fits sz && dst.mode.dataAlterable) = true) :
    moveForm sz f make (ea.words ++ dst.words ++ rest) = .ok (make ea dst) rest := by
  simp only [Bool.and_eq_true] at hok
  obtain ⟨⟨hall, hfit⟩, hdst⟩ := hok
  unfold moveForm
  rw [hf.1, hf.2, h6, h9, allowed_fields hall, allowed_fields hdst, List.append_assoc]
  exact (parse_bind (nextEA_words hfit _)).trans
    (parse_bind (nextEA_words (fits_of_ne_imm (Mode.ne_of_dataAlterable hdst).2 sz) rest))

end Forms

theorem logicImmForm_ccr {f : Fields} {make : Imm → EA → Instr} {toCcr : Byte → Instr} {toSr : Word → Instr} (h3 : f.f3 = 7)
    (h0 : f.f0 = 4) (h6 : f.f6 = 0) (b : Byte) (rest : List Word) :
    logicImmForm f make toCcr toSr (b.setWidth 16 :: rest) = .ok (toCcr b) rest := by
  unfold logicImmForm
  rw [if_pos ⟨h3, h0, h6⟩]
  exact congrArg (fun b => EStateM.Result.ok (toCcr b) rest) (lowByte_setWidth b)

theorem withEA_names (line : Fin 16) (f9 f6 : Fin 8) (ea : EA) : (withEA line f9 f6 ea).Names ea := ⟨rfl, rfl⟩

theorem withEA_imm_iff {line : Fin 16} {f9 f6 : Fin 8} {ea : EA} :
    ((withEA line f9 f6 ea).f3 = 7 ∧ (withEA line f9 f6 ea).f0 = 4) ↔ ea.mode = .imm := fields_imm_iff ea

/-! ## Lines that look at the mode field -/

section Lines

variable {f : Fields} {ea : EA} (hf : f.Names ea)
include hf

theorem f3_ne_zero (h : ea.mode ≠ .dreg) : f.f3 ≠ 0 := by rwa [hf.1, ne_eq, modeField_eq_zero_iff]

theorem f3_ne_one (h : ea.mode ≠ .areg) : f.f3 ≠ 1 := by rwa [hf.1, ne_eq, modeField_eq_one_iff]

theorem not_imm_fields (h : ea.mode ≠ .imm) : ¬ (f.f3 = 7 ∧ f.f0 = 4) := by rwa [hf.1, hf.2, fields_imm_iff]

theorem not_f3_le_one (h : ea.mode.memoryAlterable = true) : ¬ f.f3.val ≤ 1 := by
  obtain ⟨hd, ha, -⟩ := Mode.ne_of_memoryAlterable h
  have h0 := f3_ne_zero hf hd
  have h1 := f3_ne_one hf ha
  simp only [ne_eq, Fin.ext_iff] at h0 h1
  show ¬ f.f3.val ≤ 1
  have e0 : f.f3.val ≠ 0 := h0
  have e1 : f.f3.val ≠ 1 := h1
  omega

end Lines

theorem line0_dynamic {f : Fields} (h6 : 4 ≤ f.f6.val) (h3 : f.f3 ≠ 1) (himm : ¬ (f.f3 = 7 ∧ f.f0 = 4)) :
    (f.f6 = 4 → line0 f = dynamicBit Mode.dataNotImm f .btstReg) ∧
    (f.f6 = 5 → line0 f = dynamicBit Mode.dataAlterable f .bchgReg) ∧
    (f.f6 = 6 → line0 f = dynamicBit Mode.dataAlterable f .bclrReg) ∧
    (f.f6 = 7 → line0 f = dynamicBit Mode.dataAlterable f .bsetReg) := by
  unfold line0
  rw [if_pos h6, if_neg h3]
  refine ⟨fun h => ?_, fun h => ?_, fun h => ?_, fun h => ?_⟩
  · rw [h]
    exact if_neg himm
  all_goals
    rw [h]
    rfl

/-- The place of a size bit beside its base, read back. -/
theorem wsizeOf_field_even (ws : WSize) : wsizeOf ((ws.field 2 1).val % 2) = ws := by cases ws <;> rfl

theorem wsizeOf_field_quarter (ws : WSize) : wsizeOf ((ws.field 3 4).val / 4) = ws := by cases ws <;> rfl

/-! ## Lines that look at the size field -/

theorem Size.low_lt (sz : Size) : sz.low.val < 3 := by cases sz <;> decide

theorem Size.high_range (sz : Size) : 4 ≤ sz.high.val ∧ sz.high.val < 7 := by cases sz <;> decide

theorem WSize.field_quarter (ws : WSize) : (ws.field 3 4).val % 4 = 3 := by cases ws <;> rfl

section SizeLines

variable {f : Fields}

theorem line9_cases :
    (f.f6.val % 4 = 3 → line9 f = addrForm f .suba) ∧
    (f.f6.val < 3 → line9 f = toRegForm Mode.allFor f .subToReg) ∧
    (4 ≤ f.f6.val ∧ f.f6.val < 7 → f.f3.val ≤ 1 → line9 f = extendForm f .subx) ∧
    (4 ≤ f.f6.val ∧ f.f6.val < 7 → ¬ f.f3.val ≤ 1 → line9 f = toMemForm Mode.memoryAlterable f .subToMem) := by
  unfold line9
  refine ⟨fun h => if_pos h, fun h => ?_, fun h h3 => ?_, fun h h3 => ?_⟩
  · rw [if_neg (by omega), if_pos (by omega)]
  · rw [if_neg (by omega), if_neg (by omega), if_pos h3]
  · rw [if_neg (by omega), if_neg (by omega), if_neg h3]

theorem lineB_cases :
    (f.f6.val % 4 = 3 → lineB f = addrForm f .cmpa) ∧
    (f.f6.val < 3 → lineB f = toRegForm Mode.allFor f .cmp) ∧
    (4 ≤ f.f6.val ∧ f.f6.val < 7 → f.f3 = 1 → lineB f = do
      let sz ← sizeField f
      pure (.cmpm sz f.f9 f.f0)) ∧
    (4 ≤ f.f6.val ∧ f.f6.val < 7 → f.f3 ≠ 1 → lineB f = toMemForm Mode.dataAlterable f .eor) := by
  unfold lineB
  refine ⟨fun h => if_pos h, fun h => ?_, fun h h3 => ?_, fun h h3 => ?_⟩
  · rw [if_neg (by omega), if_pos (by omega)]
  · rw [if_neg (by omega), if_neg (by omega), if_pos h3]
  · rw [if_neg (by omega), if_neg (by omega), if_neg h3]

theorem lineD_cases :
    (f.f6.val % 4 = 3 → lineD f = addrForm f .adda) ∧
    (f.f6.val < 3 → lineD f = toRegForm Mode.allFor f .addToReg) ∧
    (4 ≤ f.f6.val ∧ f.f6.val < 7 → f.f3.val ≤ 1 → lineD f = extendForm f .addx) ∧
    (4 ≤ f.f6.val ∧ f.f6.val < 7 → ¬ f.f3.val ≤ 1 → lineD f = toMemForm Mode.memoryAlterable f .addToMem) := by
  unfold lineD
  refine ⟨fun h => if_pos h, fun h => ?_, fun h h3 => ?_, fun h h3 => ?_⟩
  · rw [if_neg (by omega), if_pos (by omega)]
  · rw [if_neg (by omega), if_neg (by omega), if_pos h3]
  · rw [if_neg (by omega), if_neg (by omega), if_neg h3]

theorem line5_cases :
    (f.f6.val % 4 = 3 → f.f3 = 1 → line5 f = do pure (.dbcc f.cond f.f0 (← nextWord))) ∧
    (f.f6.val % 4 = 3 → f.f3 ≠ 1 → line5 f = oneEA Mode.dataAlterable .b f (.scc f.cond)) ∧
    (f.f6.val < 3 → line5 f = quickForm f .addq) ∧ (4 ≤ f.f6.val ∧ f.f6.val < 7 → line5 f = quickForm f .subq) := by
  unfold line5
  refine ⟨fun h h3 => ?_, fun h h3 => ?_, fun h => ?_, fun h => ?_⟩
  · rw [if_pos h, if_pos h3]
  · rw [if_pos h, if_neg h3]
  · rw [if_neg (by omega), if_pos (by omega)]
  · rw [if_neg (by omega), if_neg (by omega)]

theorem lineE_mem (h : f.f6.val % 4 = 3) : lineE f = shiftMem f := if_pos h

theorem lineE_reg (h : f.f6.val % 4 ≠ 3) : lineE f = shiftReg f := if_neg h

theorem extendForm_words {make : Size → Bool → RegNum → RegNum → Instr} {sz : Size} {mem : Bool}
    (hsz : sizeOf2 (f.f6.val % 4) = some sz) (h3 : f.f3 = memBit mem) (rest : List Word) :
    extendForm f make rest = .ok (make sz mem f.f9 f.f0) rest := by
  unfold extendForm
  rw [sizeField_of hsz, h3]
  cases mem <;> rfl

end SizeLines

theorem memBit_le (mem : Bool) : (memBit mem).val ≤ 1 := by cases mem <;> decide

/-! ## Conditions and displacements -/

theorem condOf_code (c : Cond) : condOf c.code.val = c := by cases c <;> rfl

theorem condFields_cond (line : Fin 16) (c : Cond) (two : Fin 4) (f3 f0 : Fin 8) : (condFields line c two f3 f0).cond = c := by
  have h : c.code.val / 2 * 2 + (c.code.val % 2 * 4 + two.val) / 4 = c.code.val := by omega
  show condOf (c.code.val / 2 * 2 + (c.code.val % 2 * 4 + two.val) / 4) = c
  rw [h, condOf_code]

theorem branchFields_low8 (c : Cond) (b : Byte) : (branchFields c b).low8 = b := by
  apply BitVec.eq_of_toNat_eq
  have hb := b.isLt
  show (BitVec.ofNat 8 ((c.code.val % 2 * 4 + b.toNat / 64) % 4 * 64 + b.toNat / 8 % 8 * 8 + b.toNat % 8)).toNat = b.toNat
  rw [BitVec.toNat_ofNat]
  omega

theorem branchDisp_words {f : Fields} {d : Disp} (hf : f.low8 = d.byte) (h : d.wellFormed = true) (rest : List Word) :
    branchDisp f (d.words ++ rest) = .ok d rest := by
  unfold branchDisp
  cases d with
  | short b =>
    have hb : b ≠ 0 := by simpa [Disp.wellFormed] using h
    have hf : f.low8 = b := hf
    rw [if_neg (by rwa [hf]), hf]
    rfl
  | word w =>
    have hf : f.low8 = 0 := hf
    rw [if_pos hf]
    rfl

theorem lowFields_low12 (line : Fin 16) (v : BitVec 12) : (lowFields line v).low12 = v := by
  apply BitVec.eq_of_toNat_eq
  have hv := v.isLt
  show (BitVec.ofNat 12 (v.toNat / 512 * 512 + v.toNat / 64 % 8 * 64 + v.toNat / 8 % 8 * 8 + v.toNat % 8)).toNat = v.toNat
  rw [BitVec.toNat_ofNat]
  omega

theorem condFields_quarter (line : Fin 16) (c : Cond) (f3 f0 : Fin 8) : (condFields line c 3 f3 f0).f6.val % 4 = 3 := by
  show (c.code.val % 2 * 4 + 3) % 4 = 3
  omega

theorem branchFields_cond (c : Cond) (b : Byte) : (branchFields c b).cond = c := condFields_cond ..

theorem line7_moveq (f : Fields) (h : f.f6.val < 4) : line7 f = pure (.moveq f.f9 f.low8) := if_pos h

theorem moveq_low8 (dn : RegNum) (b : Byte) : (encodeFields (.moveq dn b)).low8 = b := by
  apply BitVec.eq_of_toNat_eq
  have hb := b.isLt
  show (BitVec.ofNat 8 (b.toNat / 64 % 4 * 64 + b.toNat / 8 % 8 * 8 + b.toNat % 8)).toNat = b.toNat
  rw [BitVec.toNat_ofNat]
  omega

theorem Size.low_not_quarter (sz : Size) : sz.low.val % 4 ≠ 3 := by cases sz <;> decide

theorem Size.high_not_quarter (sz : Size) : sz.high.val % 4 ≠ 3 := by cases sz <;> decide

/-- TRAP has its vector in four bits, over two fields. -/
theorem line4E_trap (v : Fin 16) : line4 (encodeFields (.trap v)) = pure (.trap v) := by
  fin_cases v <;> rfl

theorem shiftMem_words {k f6 : Fin 8} {dst : EA} {make : EA → Instr} (h6 : f6.val % 4 = 3)
    (hl : shiftMem (withEA 14 k f6 dst) = oneEA Mode.memoryAlterable .w (withEA 14 k f6 dst) make)
    (h : dst.mode.memoryAlterable = true) (rest : List Word) :
    lineE (withEA 14 k f6 dst) (dst.words ++ rest) = .ok (make dst) rest := by
  rw [lineE_mem (f := withEA 14 k f6 dst) h6, hl]
  exact oneEA_words (withEA_names ..) rest h (fits_of_ne_imm (Mode.ne_of_memoryAlterable h).2.2 _)

/-- A shift to the right has bit 8 clear. -/
theorem shiftReg_low (sz : Size) (cnt : Count) (dn : RegNum) :
    shiftReg (shiftFields sz.low 0 cnt dn) = pure (.asrReg sz cnt dn) ∧
    shiftReg (shiftFields sz.low 1 cnt dn) = pure (.lsrReg sz cnt dn) ∧
    shiftReg (shiftFields sz.low 2 cnt dn) = pure (.roxrReg sz cnt dn) ∧
    shiftReg (shiftFields sz.low 3 cnt dn) = pure (.rorReg sz cnt dn) := by
  cases sz <;> cases cnt <;> simp [shiftReg, shiftFields, Size.low, sizeField, sizeOf2]

/-- A shift to the left has bit 8 set. -/
theorem shiftReg_high (sz : Size) (cnt : Count) (dn : RegNum) :
    shiftReg (shiftFields sz.high 0 cnt dn) = pure (.aslReg sz cnt dn) ∧
    shiftReg (shiftFields sz.high 1 cnt dn) = pure (.lslReg sz cnt dn) ∧
    shiftReg (shiftFields sz.high 2 cnt dn) = pure (.roxlReg sz cnt dn) ∧
    shiftReg (shiftFields sz.high 3 cnt dn) = pure (.rolReg sz cnt dn) := by
  cases sz <;> cases cnt <;> simp [shiftReg, shiftFields, Size.high, sizeField, sizeOf2]

theorem shiftReg_words {size : Fin 8} {tt : Fin 4} {cnt : Count} {dn : RegNum} {i : Instr} (h6 : size.val % 4 ≠ 3)
    (hl : shiftReg (shiftFields size tt cnt dn) = pure i) (rest : List Word) :
    decodeFields (shiftFields size tt cnt dn) rest = .ok i rest := by
  cases cnt <;> exact (congrFun ((lineE_reg h6).trans hl) rest)

/-! ## Every instruction -/

theorem line6_words {f : Fields} {d : Disp} {i : Instr} (hf : f.low8 = d.byte) (hd : d.wellFormed = true)
    (hi : (match f.cond with | .t => pure (.bra d) | .f => pure (.bsr d) | c => pure (.bcc c d) : Parse Instr) = pure i)
    (rest : List Word) : line6 f (d.words ++ rest) = .ok i rest := by
  unfold line6
  rw [parse_bind (branchDisp_words hf hd rest)]
  exact congrFun hi rest

theorem decodeFields_encodeFields (i : Instr) (h : i.wellFormed = true) (rest : List Word) :
    decodeFields (encodeFields i) (extensionWords i ++ rest) = .ok i rest := by
  have names := withEA_names
  cases i
  case ori i dst => cases i <;> exact logicImmForm_words (names ..) rest rfl h
  case andi i dst => cases i <;> exact logicImmForm_words (names ..) rest rfl h
  case eori i dst => cases i <;> exact logicImmForm_words (names ..) rest rfl h
  case subi i dst => cases i <;> exact immForm_words (names ..) rest rfl h
  case addi i dst => cases i <;> exact immForm_words (names ..) rest rfl h
  case cmpi i dst => cases i <;> exact immForm_words (names ..) rest rfl h
  case oriToCcr b => exact logicImmForm_ccr (f := ⟨0, 0, 0, 7, 4⟩) (make := .ori) (toSr := .oriToSr) rfl rfl rfl b rest
  case andiToCcr b => exact logicImmForm_ccr (f := ⟨0, 1, 0, 7, 4⟩) (make := .andi) (toSr := .andiToSr) rfl rfl rfl b rest
  case eoriToCcr b => exact logicImmForm_ccr (f := ⟨0, 5, 0, 7, 4⟩) (make := .eori) (toSr := .eoriToSr) rfl rfl rfl b rest
  case oriToSr w => rfl
  case andiToSr w => rfl
  case eoriToSr w => rfl
  case btstImm b dst => exact staticBit_words (names ..) rest h (Mode.ne_of_dataNotImm h).2 b
  case bchgImm b dst => exact staticBit_words (names ..) rest h (Mode.ne_of_dataAlterable h).2 b
  case bclrImm b dst => exact staticBit_words (names ..) rest h (Mode.ne_of_dataAlterable h).2 b
  case bsetImm b dst => exact staticBit_words (names ..) rest h (Mode.ne_of_dataAlterable h).2 b
  case btstReg dn dst =>
    obtain ⟨ha, hi⟩ := Mode.ne_of_dataNotImm h
    obtain ⟨hl, -, -, -⟩ := line0_dynamic (f := withEA 0 dn 4 dst) (Nat.le_of_ble_eq_true rfl) (f3_ne_one (names ..) ha) (not_imm_fields (names ..) hi)
    exact (congrFun (hl rfl) _).trans (dynamicBit_words (names ..) rest h hi)
  case bchgReg dn dst =>
    obtain ⟨ha, hi⟩ := Mode.ne_of_dataAlterable h
    obtain ⟨-, hl, -, -⟩ := line0_dynamic (f := withEA 0 dn 5 dst) (Nat.le_of_ble_eq_true rfl) (f3_ne_one (names ..) ha) (not_imm_fields (names ..) hi)
    exact (congrFun (hl rfl) _).trans (dynamicBit_words (names ..) rest h hi)
  case bclrReg dn dst =>
    obtain ⟨ha, hi⟩ := Mode.ne_of_dataAlterable h
    obtain ⟨-, -, hl, -⟩ := line0_dynamic (f := withEA 0 dn 6 dst) (Nat.le_of_ble_eq_true rfl) (f3_ne_one (names ..) ha) (not_imm_fields (names ..) hi)
    exact (congrFun (hl rfl) _).trans (dynamicBit_words (names ..) rest h hi)
  case bsetReg dn dst =>
    obtain ⟨ha, hi⟩ := Mode.ne_of_dataAlterable h
    obtain ⟨-, -, -, hl⟩ := line0_dynamic (f := withEA 0 dn 7 dst) (Nat.le_of_ble_eq_true rfl) (f3_ne_one (names ..) ha) (not_imm_fields (names ..) hi)
    exact (congrFun (hl rfl) _).trans (dynamicBit_words (names ..) rest h hi)
  case movepToReg sz dn an d => cases sz <;> rfl
  case movepToMem sz dn an d => cases sz <;> rfl
  case moveB src dst => exact moveForm_words ⟨rfl, rfl⟩ rest rfl rfl h
  case moveL src dst =>
    have ha : dst.mode ≠ .areg := (Mode.ne_of_dataAlterable (Bool.and_eq_true_iff.mp h).2).1
    have h6 : (moveFields 2 src dst).f6 ≠ 1 := by rwa [moveFields, ne_eq, modeField_eq_one_iff]
    exact (congrFun (if_neg h6 : line2 (moveFields 2 src dst) = _) _).trans (moveForm_words ⟨rfl, rfl⟩ rest rfl rfl h)
  case moveW src dst =>
    have ha : dst.mode ≠ .areg := (Mode.ne_of_dataAlterable (Bool.and_eq_true_iff.mp h).2).1
    have h6 : (moveFields 3 src dst).f6 ≠ 1 := by rwa [moveFields, ne_eq, modeField_eq_one_iff]
    exact (congrFun (if_neg h6 : line3 (moveFields 3 src dst) = _) _).trans (moveForm_words ⟨rfl, rfl⟩ rest rfl rfl h)
  case moveaL an src => exact moveaForm_words (names ..) rest rfl h
  case moveaW an src => exact moveaForm_words (names ..) rest rfl h
  case negx sz dst => cases sz <;> exact sizedEA_words (names ..) rest rfl h
  case clr sz dst => cases sz <;> exact sizedEA_words (names ..) rest rfl h
  case neg sz dst => cases sz <;> exact sizedEA_words (names ..) rest rfl h
  case not sz dst => cases sz <;> exact sizedEA_words (names ..) rest rfl h
  case tst sz dst => cases sz <;> exact sizedEA_words (names ..) rest rfl h
  case moveFromSr dst => exact oneEA_words (names ..) rest h (fits_of_ne_imm (Mode.ne_of_dataAlterable h).2 _)
  case nbcd dst => exact oneEA_words (names ..) rest h (fits_of_ne_imm (Mode.ne_of_dataAlterable h).2 _)
  case tas dst =>
    have hi := (Mode.ne_of_dataAlterable h).2
    have hl : line4 (withEA 4 5 3 dst) = oneEA Mode.dataAlterable .b (withEA 4 5 3 dst) .tas := if_neg (not_imm_fields (names ..) hi)
    exact (congrFun hl _).trans (oneEA_words (names ..) rest h (fits_of_ne_imm hi _))
  case chk dn src =>
    obtain ⟨hd, hfit⟩ := Bool.and_eq_true_iff.mp h
    exact oneEA_words (names ..) rest hd hfit
  case moveToCcr src =>
    obtain ⟨hd, hfit⟩ := Bool.and_eq_true_iff.mp h
    exact oneEA_words (names ..) rest hd hfit
  case moveToSr src =>
    obtain ⟨hd, hfit⟩ := Bool.and_eq_true_iff.mp h
    exact oneEA_words (names ..) rest hd hfit
  case divu dn src =>
    obtain ⟨hd, hfit⟩ := Bool.and_eq_true_iff.mp h
    exact oneEA_words (names ..) rest hd hfit
  case divs dn src =>
    obtain ⟨hd, hfit⟩ := Bool.and_eq_true_iff.mp h
    exact oneEA_words (names ..) rest hd hfit
  case mulu dn src =>
    obtain ⟨hd, hfit⟩ := Bool.and_eq_true_iff.mp h
    exact oneEA_words (names ..) rest hd hfit
  case muls dn src =>
    obtain ⟨hd, hfit⟩ := Bool.and_eq_true_iff.mp h
    exact oneEA_words (names ..) rest hd hfit
  case lea an src => exact oneEA_words (names ..) rest h (fits_of_ne_imm (Mode.ne_of_isControl h).2 _)
  case jsr src => exact oneEA_words (names ..) rest h (fits_of_ne_imm (Mode.ne_of_isControl h).2 _)
  case jmp src => exact oneEA_words (names ..) rest h (fits_of_ne_imm (Mode.ne_of_isControl h).2 _)
  case pea src =>
    obtain ⟨hd, hi⟩ := Mode.ne_of_isControl h
    have hl : line4 (withEA 4 4 1 src) = oneEA Mode.isControl .l (withEA 4 4 1 src) .pea := if_neg (f3_ne_zero (names ..) hd)
    exact (congrFun hl _).trans (oneEA_words (names ..) rest h (fits_of_ne_imm hi _))
  case movemToMem sz list dst =>
    obtain ⟨hd, hi⟩ := Mode.ne_of_movemDst h
    have hl : line4 (withEA 4 4 (sz.field 2 1) dst) = movemForm Mode.movemDst (withEA 4 4 (sz.field 2 1) dst) .movemToMem := by
      cases sz <;> exact if_neg (f3_ne_zero (names ..) hd)
    exact (congrFun hl _).trans (movemForm_words (names ..) rest (wsizeOf_field_even sz) h hi list)
  case movemToReg sz list src =>
    have hl : line4 (withEA 4 6 (sz.field 2 1) src) = movemForm Mode.movemSrc (withEA 4 6 (sz.field 2 1) src) .movemToReg := by
      cases sz <;> rfl
    exact (congrFun hl _).trans (movemForm_words (names ..) rest (wsizeOf_field_even sz) h (Mode.ne_imm_of_movemSrc h) list)
  case trap v =>
    exact (congrFun (line4E_trap v) _).trans rfl
  case addq q sz dst =>
    exact (congrFun (line5_cases.2.2.1 sz.low_lt) _).trans (quickForm_words (names ..) rest (sizeOf2_low sz) h)
  case subq q sz dst =>
    exact (congrFun (line5_cases.2.2.2 sz.high_range) _).trans (quickForm_words (names ..) rest (sizeOf2_high sz) h)
  case scc cond dst =>
    obtain ⟨ha, hi⟩ := Mode.ne_of_dataAlterable h
    have hf : (encodeFields (.scc cond dst)).Names dst := ⟨rfl, rfl⟩
    have hl := line5_cases.2.1 (condFields_quarter 5 cond dst.modeField dst.regField) (f3_ne_one hf ha)
    rw [condFields_cond] at hl
    exact (congrFun hl _).trans (oneEA_words hf rest h (fits_of_ne_imm hi _))
  case dbcc cond dn d =>
    have hl := line5_cases.1 (condFields_quarter 5 cond 1 dn) rfl
    rw [condFields_cond] at hl
    exact congrFun hl (d :: rest)
  case bra d => exact line6_words (branchFields_low8 .t _) h (by rw [branchFields_cond]) rest
  case bsr d => exact line6_words (branchFields_low8 .f _) h (by rw [branchFields_cond]) rest
  case bcc cond d =>
    obtain ⟨hc, hd⟩ := Bool.and_eq_true_iff.mp h
    refine line6_words (branchFields_low8 cond _) hd ?_ rest
    rw [branchFields_cond]
    cases cond
    case t => cases hc
    case f => cases hc
    all_goals rfl
  case moveq dn b =>
    have hl := line7_moveq (encodeFields (.moveq dn b)) (by have := b.isLt; show b.toNat / 64 < 4; omega)
    rw [moveq_low8] at hl
    exact congrFun hl rest
  case orToReg sz src dn =>
    obtain ⟨hd, hfit⟩ := Bool.and_eq_true_iff.mp h
    cases sz <;> exact toRegForm_words (names ..) rest rfl hd hfit
  case andToReg sz src dn =>
    obtain ⟨hd, hfit⟩ := Bool.and_eq_true_iff.mp h
    cases sz <;> exact toRegForm_words (names ..) rest rfl hd hfit
  case subToReg sz src dn =>
    obtain ⟨hall, hfit⟩ := Bool.and_eq_true_iff.mp h
    exact (congrFun (line9_cases.2.1 sz.low_lt) _).trans (toRegForm_words (names ..) rest (sizeOf2_low sz) hall hfit)
  case addToReg sz src dn =>
    obtain ⟨hall, hfit⟩ := Bool.and_eq_true_iff.mp h
    exact (congrFun (lineD_cases.2.1 sz.low_lt) _).trans (toRegForm_words (names ..) rest (sizeOf2_low sz) hall hfit)
  case cmp sz src dn =>
    obtain ⟨hall, hfit⟩ := Bool.and_eq_true_iff.mp h
    exact (congrFun (lineB_cases.2.1 sz.low_lt) _).trans (toRegForm_words (names ..) rest (sizeOf2_low sz) hall hfit)
  case line1010 v => exact congrArg (fun v => EStateM.Result.ok (Instr.line1010 v) rest) (lowFields_low12 10 v)
  case line1111 v => exact congrArg (fun v => EStateM.Result.ok (Instr.line1111 v) rest) (lowFields_low12 15 v)
  case suba sz an src =>
    exact (congrFun (line9_cases.1 sz.field_quarter) _).trans (addrForm_words (names ..) rest (wsizeOf_field_quarter sz) h)
  case cmpa sz an src =>
    exact (congrFun (lineB_cases.1 sz.field_quarter) _).trans (addrForm_words (names ..) rest (wsizeOf_field_quarter sz) h)
  case adda sz an src =>
    exact (congrFun (lineD_cases.1 sz.field_quarter) _).trans (addrForm_words (names ..) rest (wsizeOf_field_quarter sz) h)
  case sbcd mem x y => cases mem <;> rfl
  case abcd mem x y => cases mem <;> rfl
  case subx sz mem x y =>
    exact (congrFun (line9_cases.2.2.1 sz.high_range (memBit_le mem)) _).trans (extendForm_words (sizeOf2_high sz) rfl rest)
  case addx sz mem x y =>
    exact (congrFun (lineD_cases.2.2.1 sz.high_range (memBit_le mem)) _).trans (extendForm_words (sizeOf2_high sz) rfl rest)
  case cmpm sz x y =>
    refine (congrFun (lineB_cases.2.2.1 sz.high_range rfl) _).trans ?_
    rw [sizeField_of (sz := sz) (sizeOf2_high sz)]
    rfl
  case asrReg sz cnt dn =>
    obtain ⟨hl, -, -, -⟩ := shiftReg_low sz cnt dn
    exact shiftReg_words sz.low_not_quarter hl rest
  case asrMem dst => exact shiftMem_words (make := .asrMem) rfl (by simp [shiftMem, withEA]) h rest
  case aslReg sz cnt dn =>
    obtain ⟨hl, -, -, -⟩ := shiftReg_high sz cnt dn
    exact shiftReg_words sz.high_not_quarter hl rest
  case aslMem dst => exact shiftMem_words (make := .aslMem) rfl (by simp [shiftMem, withEA]) h rest
  case lsrReg sz cnt dn =>
    obtain ⟨-, hl, -, -⟩ := shiftReg_low sz cnt dn
    exact shiftReg_words sz.low_not_quarter hl rest
  case lsrMem dst => exact shiftMem_words (make := .lsrMem) rfl (by simp [shiftMem, withEA]) h rest
  case lslReg sz cnt dn =>
    obtain ⟨-, hl, -, -⟩ := shiftReg_high sz cnt dn
    exact shiftReg_words sz.high_not_quarter hl rest
  case lslMem dst => exact shiftMem_words (make := .lslMem) rfl (by simp [shiftMem, withEA]) h rest
  case roxrReg sz cnt dn =>
    obtain ⟨-, -, hl, -⟩ := shiftReg_low sz cnt dn
    exact shiftReg_words sz.low_not_quarter hl rest
  case roxrMem dst => exact shiftMem_words (make := .roxrMem) rfl (by simp [shiftMem, withEA]) h rest
  case roxlReg sz cnt dn =>
    obtain ⟨-, -, hl, -⟩ := shiftReg_high sz cnt dn
    exact shiftReg_words sz.high_not_quarter hl rest
  case roxlMem dst => exact shiftMem_words (make := .roxlMem) rfl (by simp [shiftMem, withEA]) h rest
  case rorReg sz cnt dn =>
    obtain ⟨-, -, -, hl⟩ := shiftReg_low sz cnt dn
    exact shiftReg_words sz.low_not_quarter hl rest
  case rorMem dst => exact shiftMem_words (make := .rorMem) rfl (by simp [shiftMem, withEA]) h rest
  case rolReg sz cnt dn =>
    obtain ⟨-, -, -, hl⟩ := shiftReg_high sz cnt dn
    exact shiftReg_words sz.high_not_quarter hl rest
  case rolMem dst => exact shiftMem_words (make := .rolMem) rfl (by simp [shiftMem, withEA]) h rest
  case orToMem sz dn dst =>
    have hf := names 8 dn sz.high dst
    have hl : line8 (withEA 8 dn sz.high dst) = 
        toMemForm Mode.memoryAlterable (withEA 8 dn sz.high dst) .orToMem := by
      have h3 := not_f3_le_one hf h
      cases sz
      case b => exact if_neg h3
      all_goals rfl
    exact (congrFun hl _).trans (toMemForm_words hf rest (sizeOf2_high sz) h (Mode.ne_of_memoryAlterable h).2.2)
  case andToMem sz dn dst =>
    have hf := names 12 dn sz.high dst
    have hl : lineC (withEA 12 dn sz.high dst) = 
        toMemForm Mode.memoryAlterable (withEA 12 dn sz.high dst) .andToMem := by
      have h3 := not_f3_le_one hf h
      cases sz
      case b => exact if_neg h3
      case w => exact (if_neg fun h0 => h3 (by rw [h0]; decide)).trans (if_neg fun h1 => h3 (by rw [h1]; decide))
      case l => exact if_neg fun h1 => h3 (by rw [h1]; decide)
    exact (congrFun hl _).trans (toMemForm_words hf rest (sizeOf2_high sz) h (Mode.ne_of_memoryAlterable h).2.2)
  case subToMem sz dn dst =>
    have hl := (line9_cases (f := withEA 9 dn sz.high dst)).2.2.2 sz.high_range (not_f3_le_one (names ..) h)
    exact (congrFun hl _).trans (toMemForm_words (names ..) rest (sizeOf2_high sz) h (Mode.ne_of_memoryAlterable h).2.2)
  case addToMem sz dn dst =>
    have hl := (lineD_cases (f := withEA 13 dn sz.high dst)).2.2.2 sz.high_range (not_f3_le_one (names ..) h)
    exact (congrFun hl _).trans (toMemForm_words (names ..) rest (sizeOf2_high sz) h (Mode.ne_of_memoryAlterable h).2.2)
  case eor sz dn dst =>
    obtain ⟨ha, hi⟩ := Mode.ne_of_dataAlterable h
    have hl := (lineB_cases (f := withEA 11 dn sz.high dst)).2.2.2 sz.high_range (f3_ne_one (names ..) ha)
    exact (congrFun hl _).trans (toMemForm_words (names ..) rest (sizeOf2_high sz) h hi)
  all_goals rfl

/-- Settles O2: the operation word gives its fields back, and the fields lead to the form that reads the extension words. -/
theorem decodeEncode : Obligations.DecodeEncode := by
  intro i rest h
  have hparse : parseInstr (encode i ++ rest) = .ok i rest := by
    show decodeFields (fieldsOf (encodeFields i).word) (extensionWords i ++ rest) = _
    rw [fieldsOf_word, decodeFields_encodeFields i h]
  rw [decodeWords, hparse]

end Sys2Proof
end

section
/-! PROOFS. What decodes is well formed (30_encoding.md R116 to R118): each form checks the category of its operand, and each line
gives a form the category of its row. -/

namespace Sys2Proof

/-! ## The forms -/

section Forms

variable (f : Fields)

/-- An instruction is well formed. -/
def WellFormed (i : Instr) : Prop := i.wellFormed = true

theorem yields_oneEA {ok : Mode → Bool} {sz : Size} {make : EA → Instr} (h : ∀ ea, Fits ok sz ea → WellFormed (make ea)) :
    Yields (oneEA ok sz f make) WellFormed := (yields_eaField ok sz f).map h

theorem yields_sizedEA {make : Size → EA → Instr} (h : ∀ sz ea, ea.mode.dataAlterable = true → WellFormed (make sz ea)) :
    Yields (sizedEA f make) WellFormed :=
  (yields_any _).bind fun sz _ => (yields_eaField _ sz f).map fun ea hea => h sz ea hea.1

theorem yields_quickForm {make : Fin 8 → Size → EA → Instr}
    (h : ∀ q sz ea, ea.mode.alterableFor sz = true → WellFormed (make q sz ea)) : Yields (quickForm f make) WellFormed :=
  (yields_any _).bind fun sz _ => (yields_eaField _ sz f).map fun ea hea => h _ sz ea hea.1

theorem yields_toRegForm {ok : Size → Mode → Bool} {make : Size → EA → RegNum → Instr}
    (h : ∀ sz ea dn, Fits (ok sz) sz ea → WellFormed (make sz ea dn)) : Yields (toRegForm ok f make) WellFormed :=
  (yields_any _).bind fun sz _ => (yields_eaField _ sz f).map fun ea hea => h sz ea _ hea

theorem yields_toMemForm {ok : Mode → Bool} {make : Size → RegNum → EA → Instr}
    (h : ∀ sz dn ea, ok ea.mode = true → WellFormed (make sz dn ea)) : Yields (toMemForm ok f make) WellFormed :=
  (yields_any _).bind fun sz _ => (yields_eaField _ sz f).map fun ea hea => h sz _ ea hea.1

theorem yields_addrForm {make : WSize → RegNum → EA → Instr}
    (h : ∀ sz an ea, ea.fits sz.size = true → WellFormed (make sz an ea)) : Yields (addrForm f make) WellFormed :=
  (yields_eaField _ _ f).map fun ea hea => h _ _ ea hea.2

theorem yields_extendForm {make : Size → Bool → RegNum → RegNum → Instr} (h : ∀ sz mem x y, WellFormed (make sz mem x y)) :
    Yields (extendForm f make) WellFormed := (yields_any _).map fun _ _ => h _ _ _ _

theorem yields_dynamicBit {ok : Mode → Bool} {make : RegNum → EA → Instr}
    (h : ∀ dn ea, ok ea.mode = true → WellFormed (make dn ea)) : Yields (dynamicBit ok f make) WellFormed :=
  (yields_eaField ok .b f).map fun ea hea => h _ ea hea.1

theorem yields_staticBit {ok : Mode → Bool} {make : Byte → EA → Instr}
    (h : ∀ b ea, ok ea.mode = true → WellFormed (make b ea)) : Yields (staticBit ok f make) WellFormed :=
  (yields_allowed ok _ _).bind fun _ hok => (yields_any _).bind fun _ _ =>
    (yields_mode_then_EA hok _ _).map fun ea hea => h _ ea hea.1

theorem yields_movemForm {ok : Mode → Bool} {make : WSize → Word → EA → Instr}
    (h : ∀ sz w ea, ok ea.mode = true → WellFormed (make sz w ea)) : Yields (movemForm ok f make) WellFormed :=
  (yields_allowed ok _ _).bind fun _ hok => (yields_any _).bind fun _ _ =>
    (yields_mode_then_EA hok _ _).map fun ea hea => h _ _ ea hea.1

theorem yields_immForm {make : Imm → EA → Instr} (h : ∀ i ea, ea.mode.dataAlterable = true → WellFormed (make i ea)) :
    Yields (immForm f make) WellFormed :=
  (yields_any _).bind fun _ _ => (yields_allowed _ _ _).bind fun _ hok => (yields_any _).bind fun i _ =>
    (yields_mode_then_EA hok _ _).map fun ea hea => h i ea hea.1

theorem yields_logicImmForm {make : Imm → EA → Instr} {toCcr : Byte → Instr} {toSr : Word → Instr}
    (h : ∀ i ea, ea.mode.dataAlterable = true → WellFormed (make i ea)) (hc : ∀ b, WellFormed (toCcr b))
    (hs : ∀ w, WellFormed (toSr w)) : Yields (logicImmForm f make toCcr toSr) WellFormed := by
  unfold logicImmForm
  split
  · exact (yields_any _).map fun _ _ => hc _
  · split
    · exact (yields_any _).map fun _ _ => hs _
    · exact yields_immForm f h

theorem yields_moveaForm {sz : Size} {make : RegNum → EA → Instr} (h : ∀ an ea, ea.fits sz = true → WellFormed (make an ea)) :
    Yields (moveaForm sz f make) WellFormed := (yields_eaField _ sz f).map fun ea hea => h _ ea hea.2

theorem yields_moveForm {sz : Size} {make : EA → EA → Instr}
    (h : ∀ src dst, Fits (Mode.allFor sz) sz src → dst.mode.dataAlterable = true → WellFormed (make src dst)) :
    Yields (moveForm sz f make) WellFormed :=
  (yields_allowed _ _ _).bind fun _ hsrc => (yields_allowed _ _ _).bind fun _ hdst =>
    (yields_mode_then_EA hsrc _ _).bind fun src hs => (yields_mode_then_EA hdst _ _).map fun dst hd => h src dst hs hd.1

theorem yields_movepForm : Yields (movepForm f) WellFormed := by
  refine (yields_any _).bind fun d _ => ?_
  split <;> exact yields_pure rfl

theorem yields_btstImmediateForm : Yields (btstImmediateForm f) WellFormed := (yields_any _).bind fun _ _ => yields_reject _

theorem yields_branchDisp : Yields (branchDisp f) fun d => d.wellFormed = true := by
  unfold branchDisp
  split
  · exact (yields_any _).map fun _ _ => rfl
  · rename_i h
    exact yields_pure (by simpa [Disp.wellFormed] using h)

end Forms

theorem wellFormed_of_fits {ok : Mode → Bool} {sz : Size} {ea : EA} (h : Fits ok sz ea) :
    (ok ea.mode && ea.fits sz) = true := Bool.and_eq_true_iff.mpr h

/-! ## The lines -/

section Lines

variable (f : Fields)

theorem yields_line0 : Yields (line0 f) WellFormed := by
  unfold line0
  split
  · split
    · exact yields_movepForm f
    · split
      · split
        · exact yields_btstImmediateForm f
        · exact yields_dynamicBit f fun _ _ h => h
      all_goals exact yields_dynamicBit f fun _ _ h => h
  · split
    · exact yields_logicImmForm f (fun _ _ h => h) (fun _ => rfl) fun _ => rfl
    · exact yields_logicImmForm f (fun _ _ h => h) (fun _ => rfl) fun _ => rfl
    · exact yields_immForm f fun _ _ h => h
    · exact yields_immForm f fun _ _ h => h
    · split <;> exact yields_staticBit f fun _ _ h => h
    · exact yields_logicImmForm f (fun _ _ h => h) (fun _ => rfl) fun _ => rfl
    · exact yields_immForm f fun _ _ h => h
    · exact yields_reject _

/-- The three lines of MOVE check both operands. -/
theorem wellFormed_move {sz : Size} {src dst : EA} (hs : Fits (Mode.allFor sz) sz src) (hd : dst.mode.dataAlterable = true) :
    (src.mode.allFor sz && src.fits sz && dst.mode.dataAlterable) = true := by
  rw [wellFormed_of_fits hs, hd]
  rfl

theorem yields_line1 : Yields (line1 f) WellFormed := yields_moveForm f fun _ _ => wellFormed_move

theorem yields_line2 : Yields (line2 f) WellFormed := by
  unfold line2
  split
  · exact yields_moveaForm f fun _ _ h => h
  · exact yields_moveForm f fun _ _ => wellFormed_move

theorem yields_line3 : Yields (line3 f) WellFormed := by
  unfold line3
  split
  · exact yields_moveaForm f fun _ _ h => h
  · exact yields_moveForm f fun _ _ => wellFormed_move

theorem yields_line4E : Yields (line4E f) WellFormed := by
  unfold line4E
  split
  case h_3 => exact (yields_any _).map fun _ _ => rfl
  case h_7 =>
    split
    case h_3 => exact (yields_any _).map fun _ _ => rfl
    case h_8 => exact yields_reject _
    all_goals exact yields_pure rfl
  case h_8 => exact yields_reject _
  all_goals exact yields_pure rfl

theorem yields_line4Low : Yields (line4Low f) WellFormed := by
  unfold line4Low
  split
  · split
    · exact yields_oneEA f fun _ h => h.1
    · exact yields_sizedEA f fun _ _ h => h
  · exact yields_sizedEA f fun _ _ h => h
  · split
    · exact yields_oneEA f fun _ => wellFormed_of_fits
    · exact yields_sizedEA f fun _ _ h => h
  · split
    · exact yields_oneEA f fun _ => wellFormed_of_fits
    · exact yields_sizedEA f fun _ _ h => h
  · split
    · exact yields_oneEA f fun _ h => h.1
    · split
      · exact yields_pure rfl
      · exact yields_oneEA f fun _ h => h.1
    all_goals
      split
      · exact yields_pure rfl
      · exact yields_movemForm f fun _ _ _ h => h
  · split
    · split
      · exact yields_pure rfl
      · exact yields_oneEA f fun _ h => h.1
    · exact yields_sizedEA f fun _ _ h => h
  · split
    · exact yields_movemForm f fun _ _ _ h => h
    · exact yields_reject _
  · split
    · exact yields_reject _
    · exact yields_line4E f
    all_goals exact yields_oneEA f fun _ h => h.1

theorem yields_line4 : Yields (line4 f) WellFormed := by
  unfold line4
  split
  · exact yields_oneEA f fun _ h => h.1
  · exact yields_oneEA f fun _ => wellFormed_of_fits
  · exact yields_reject _
  · exact yields_reject _
  · exact yields_line4Low f

theorem yields_line5 : Yields (line5 f) WellFormed := by
  unfold line5
  split
  · split
    · exact (yields_any _).map fun _ _ => rfl
    · exact yields_oneEA f fun _ h => h.1
  · split <;> exact yields_quickForm f fun _ _ _ h => h

theorem yields_line6 : Yields (line6 f) WellFormed := by
  refine (yields_branchDisp f).bind fun d hd => ?_
  split
  · exact yields_pure hd
  · exact yields_pure hd
  · rename_i hT hF
    refine yields_pure ?_
    cases hc : f.cond
    case t => exact absurd hc hT
    case f => exact absurd hc hF
    all_goals exact hd

theorem yields_line7 : Yields (line7 f) WellFormed := by
  unfold line7
  split
  · exact yields_pure rfl
  · exact yields_reject _

theorem yields_line8 : Yields (line8 f) WellFormed := by
  unfold line8
  split
  · exact yields_oneEA f fun _ => wellFormed_of_fits
  · exact yields_oneEA f fun _ => wellFormed_of_fits
  · split
    · exact yields_pure rfl
    · exact yields_toMemForm f fun _ _ _ h => h
  · exact yields_toMemForm f fun _ _ _ h => h
  · exact yields_toMemForm f fun _ _ _ h => h
  · exact yields_toRegForm f fun _ _ _ => wellFormed_of_fits

theorem yields_line9 : Yields (line9 f) WellFormed := by
  unfold line9
  split
  · exact yields_addrForm f fun _ _ _ h => h
  · split
    · exact yields_toRegForm f fun _ _ _ => wellFormed_of_fits
    · split
      · exact yields_extendForm f fun _ _ _ _ => rfl
      · exact yields_toMemForm f fun _ _ _ h => h

theorem yields_lineB : Yields (lineB f) WellFormed := by
  unfold lineB
  split
  · exact yields_addrForm f fun _ _ _ h => h
  · split
    · exact yields_toRegForm f fun _ _ _ => wellFormed_of_fits
    · split
      · exact (yields_any _).map fun _ _ => rfl
      · exact yields_toMemForm f fun _ _ _ h => h

theorem yields_lineC : Yields (lineC f) WellFormed := by
  unfold lineC
  split
  · exact yields_oneEA f fun _ => wellFormed_of_fits
  · exact yields_oneEA f fun _ => wellFormed_of_fits
  · split
    · exact yields_pure rfl
    · exact yields_toMemForm f fun _ _ _ h => h
  · split
    · exact yields_pure rfl
    · split
      · exact yields_pure rfl
      · exact yields_toMemForm f fun _ _ _ h => h
  · split
    · exact yields_pure rfl
    · exact yields_toMemForm f fun _ _ _ h => h
  · exact yields_toRegForm f fun _ _ _ => wellFormed_of_fits

theorem yields_lineD : Yields (lineD f) WellFormed := by
  unfold lineD
  split
  · exact yields_addrForm f fun _ _ _ h => h
  · split
    · exact yields_toRegForm f fun _ _ _ => wellFormed_of_fits
    · split
      · exact yields_extendForm f fun _ _ _ _ => rfl
      · exact yields_toMemForm f fun _ _ _ h => h

theorem yields_lineE : Yields (lineE f) WellFormed := by
  unfold lineE
  split
  · unfold shiftMem
    split
    case h_9 => exact yields_reject _
    all_goals exact yields_oneEA f fun _ h => h.1
  · refine (yields_any _).bind fun sz _ => ?_
    generalize (if f.f3.val < 4 then Count.imm f.f9 else Count.reg f.f9) = cnt
    dsimp only
    split <;> exact yields_pure rfl

theorem yields_decodeFields : Yields (decodeFields f) WellFormed := by
  unfold decodeFields
  split
  · exact yields_line0 f
  · exact yields_line1 f
  · exact yields_line2 f
  · exact yields_line3 f
  · exact yields_line4 f
  · exact yields_line5 f
  · exact yields_line6 f
  · exact yields_line7 f
  · exact yields_line8 f
  · exact yields_line9 f
  · exact yields_pure rfl
  · exact yields_lineB f
  · exact yields_lineC f
  · exact yields_lineD f
  · exact yields_lineE f
  · exact yields_pure rfl

end Lines

/-- Settles O3: every line of the opcode map yields well-formed instructions. -/
theorem decodeWellFormed : Obligations.DecodeWellFormed := by
  intro ws rest i h
  have hparse : Yields parseInstr WellFormed := (yields_any _).bind fun w _ => yields_decodeFields (fieldsOf w)
  unfold decodeWords at h
  cases hp : parseInstr ws with
  | ok j r =>
    rw [hp] at h
    cases h
    exact hparse ws i rest hp
  | error e r =>
    rw [hp] at h
    cases h

end Sys2Proof
end

section
/-! PROOFS. What an instruction is made of: every body is a sequence of the shared operations, so a property of operations that the
shared ones have and that sequences keep is a property of every body. Used twice: for what operations keep, and for which of them a
reset can end. -/

namespace Sys2Proof.Machine

/-! ## Properties of operations -/

/-- A property of operations that sequences keep and that the operations on registers and on the bus have. -/
structure AdmitsBus (A : {α : Type} → Exec α → Prop) : Prop where
  pure : ∀ {α : Type} (a : α), A (Pure.pure a : Exec α)
  bind : ∀ {α β : Type} {x : Exec α} {f : α → Exec β}, A x → (∀ a, A (f a)) → A (x >>= f)
  inspect : ∀ {α : Type} (f : State → α), A (Machine.inspect f)
  setD : ∀ sz n v, A (Machine.setD sz n v)
  setA : ∀ n v, A (Machine.setA n v)
  setCcr : ∀ f, A (Machine.setCcr f)
  takeBit : A Machine.takeBit
  takeWord : A Machine.takeWord
  takeLong : A Machine.takeLong
  takeIndex : A Machine.takeIndex
  addressError : ∀ {α : Type} x dir fc, A (Machine.addressError x dir fc : Exec α)
  readByteCycle : ∀ x fc, A (Machine.readByteCycle x fc)
  readWordCycle : ∀ x fc, A (Machine.readWordCycle x fc)
  writeByteCycle : ∀ x fc v, A (Machine.writeByteCycle x fc v)
  writeWordCycle : ∀ x fc v, A (Machine.writeWordCycle x fc v)
  modifyByteCycle : ∀ x fc {f}, (∀ b, A (f b)) → A (Machine.modifyByteCycle x fc f)
  unasked : ∀ {x}, A x → A (Machine.unasked x)

/-- And that the operations on the instruction stream have, up to an instruction's own trap. -/
structure Admits (A : {α : Type} → Exec α → Prop) : Prop extends AdmitsBus A where
  afterMode : ∀ sz ea, A (update fun s => s.afterMode sz ea)
  fetchExt : A Machine.fetchExt
  lastFetch : A Machine.lastFetch
  jump : ∀ t, A (Machine.jump t)
  trap2 : ∀ vec, A (Machine.trap2 vec)

/-- And that the operations of privileged instructions have. -/
structure AdmitsPrivileged (A : {α : Type} → Exec α → Prop) : Prop extends Admits A where
  setSr : ∀ w, A (update fun s => s.setSr w)
  setUsp : ∀ v, A (update fun s => { s with usp := v })
  fromUsp : ∀ n, A (update fun s => s.setAreg n s.usp)
  resetOut : A (update fun s => { s.note .resetOut with map := s.resetLine.getD s.map })

variable {A : {α : Type} → Exec α → Prop} {α : Type}

theorem admits_ite {p : Prop} [Decidable p] {x y : Exec α} (hx : A x) (hy : A y) : A (if p then x else y) := by
  split
  · exact hx
  · exact hy

/-! ## Registers, memory and the stack -/

section Bus

variable (c : AdmitsBus A)
include c

theorem AdmitsBus.setReg (r : Reg) (v : Long) : A (setReg r v) := by
  cases r
  · exact c.setD _ _ _
  · exact c.setA _ _

theorem AdmitsBus.takeBcdIndex : A takeBcdIndex :=
  c.bind c.takeIndex fun _ => c.bind c.takeIndex fun _ => c.bind c.takeIndex fun _ => c.pure _

theorem AdmitsBus.takeDivideIndex : A takeDivideIndex :=
  c.bind c.takeIndex fun _ => c.bind c.takeIndex fun _ => c.bind c.takeIndex fun _ => c.bind c.takeIndex fun _ => c.pure _

theorem AdmitsBus.takeChkIndex : A takeChkIndex :=
  c.bind c.takeIndex fun _ => c.bind c.takeIndex fun _ => c.bind c.takeIndex fun _ => c.bind c.takeIndex fun _ => c.pure _

theorem AdmitsBus.memRead (sz : Size) (x : Long) (fc : FC) : A (memRead sz x fc) := by
  unfold Machine.memRead
  refine admits_ite (c.addressError _ _ _) ?_
  cases sz with
  | b => exact c.bind (c.readByteCycle _ _) fun _ => c.pure _
  | w => exact c.bind (c.readWordCycle _ _) fun _ => c.pure _
  | l => exact c.bind (c.readWordCycle _ _) fun _ => c.bind (c.readWordCycle _ _) fun _ => c.pure _

theorem AdmitsBus.memWrite (sz : Size) (p : Bool) (x : Long) (fc : FC) (v : Long) : A (memWrite sz p x fc v) := by
  unfold Machine.memWrite
  refine admits_ite (c.addressError _ _ _) ?_
  cases sz with
  | b => exact c.writeByteCycle _ _ _
  | w => exact c.writeWordCycle _ _ _
  | l =>
    exact admits_ite (c.bind (c.writeWordCycle _ _ _) fun _ => c.writeWordCycle _ _ _)
      (c.bind (c.writeWordCycle _ _ _) fun _ => c.writeWordCycle _ _ _)

theorem AdmitsBus.readData (sz : Size) (x : Long) : A (readData sz x) := c.bind (c.inspect _) fun _ => c.memRead _ _ _

theorem AdmitsBus.writeData (sz : Size) (p : Bool) (x v : Long) : A (writeData sz p x v) :=
  c.bind (c.inspect _) fun _ => c.memWrite _ _ _ _ _

theorem AdmitsBus.push16 (v : Word) : A (push16 v) :=
  c.bind (c.inspect _) fun _ => c.bind (c.setA _ _) fun _ => c.writeData _ _ _ _

theorem AdmitsBus.push32 (v : Long) : A (push32 v) :=
  c.bind (c.inspect _) fun _ => c.bind (c.setA _ _) fun _ => c.writeData _ _ _ _

theorem AdmitsBus.pop16 : A pop16 :=
  c.bind (c.inspect _) fun _ => c.bind (c.readData _ _) fun _ => c.bind (c.setA _ _) fun _ => c.pure _

theorem AdmitsBus.pop32 : A pop32 :=
  c.bind (c.inspect _) fun _ => c.bind (c.readData _ _) fun _ => c.bind (c.setA _ _) fun _ => c.pure _

theorem AdmitsBus.pushPc {vector : Exec Nat} (hv : A vector) (v : Long) : A (pushPc vector v) :=
  c.bind (c.inspect _) fun _ => c.bind (c.setA _ _) fun _ => c.bind (c.inspect _) fun _ =>
    admits_ite (c.addressError _ _ _) (c.bind (c.writeWordCycle _ _ _) fun _ => c.bind hv fun _ =>
      c.bind (c.writeWordCycle _ _ _) fun _ => c.pure _)

theorem AdmitsBus.pushExtra (e : Option Group0Words) : A (pushExtra e) := by
  cases e
  · exact c.pure _
  · exact c.bind (c.push16 _) fun _ => c.bind (c.push32 _) fun _ => c.push16 _

theorem AdmitsBus.spaceFC (sp : Space) : A (spaceFC sp) := by cases sp <;> exact c.inspect _

theorem AdmitsBus.readLoc (sz : Size) (loc : Loc) : A (readLoc sz loc) := by
  cases loc with
  | dreg n => exact c.bind (c.inspect _) fun _ => c.pure _
  | areg n => exact c.bind (c.inspect _) fun _ => c.pure _
  | mem sp x p => exact c.bind (c.spaceFC sp) fun _ => c.memRead _ _ _
  | imm v => exact c.pure _

theorem AdmitsBus.writeLoc (sz : Size) (loc : Loc) (v : Long) : A (writeLoc sz loc v) := by
  cases loc with
  | dreg n => exact c.setD _ _ _
  | areg n => exact c.setA _ _
  | mem sp x p => exact c.writeData _ _ _ _
  | imm w => exact c.pure _

theorem AdmitsBus.storeUp (sz : Size) (x : Long) (rs : List Reg) : A (storeUp sz x rs) := by
  induction rs generalizing x with
  | nil => exact c.pure _
  | cons r rs ih => exact c.bind (c.inspect _) fun _ => c.bind (c.writeData _ _ _ _) fun _ => ih _

theorem AdmitsBus.storeDown (sz : Size) (x : Long) (rs : List Reg) : A (storeDown sz x rs) := by
  induction rs generalizing x with
  | nil => exact c.pure _
  | cons r rs ih => exact c.bind (c.inspect _) fun _ => c.bind (c.writeData _ _ _ _) fun _ => ih _

theorem AdmitsBus.loadUp (sz : Size) (fc : FC) (x : Long) (rs : List Reg) : A (loadUp sz fc x rs) := by
  induction rs generalizing x with
  | nil => exact c.pure _
  | cons r rs ih => exact c.bind (c.memRead _ _ _) fun _ => c.bind (c.setReg _ _) fun _ => ih _

theorem AdmitsBus.extraRead (fc : FC) (x : Long) (rs : List Reg) : A (extraRead fc x rs) := by
  cases rs
  · exact c.pure _
  · exact c.unasked (c.bind (c.readWordCycle _ _) fun _ => c.pure _)

theorem AdmitsBus.storeAlternate (v : Long) (n : Nat) (x : Long) : A (storeAlternate v n x) := by
  induction n generalizing x with
  | zero => exact c.pure _
  | succ n ih => exact c.bind (c.inspect _) fun _ => c.bind (c.writeByteCycle _ _ _) fun _ => ih _

theorem AdmitsBus.loadAlternate (v : Long) (n : Nat) (x : Long) : A (loadAlternate v n x) := by
  induction n generalizing v x with
  | zero => exact c.pure _
  | succ n ih => exact c.bind (c.inspect _) fun _ => c.bind (c.readByteCycle _ _) fun _ => ih _ _

theorem AdmitsBus.movedValue (sz : Size) (src dst : EA) (v : Long) : A (movedValue sz src dst v) := by
  unfold Machine.movedValue
  cases selfAdjusted sz src dst with
  | none => exact c.pure _
  | some n => exact c.bind (c.inspect _) fun _ => c.bind c.takeBit fun _ => c.pure _

theorem AdmitsBus.testAndSet (b : Byte) : A (testAndSet b) :=
  c.bind (c.inspect _) fun _ => c.bind (c.setCcr _) fun _ => c.pure _

theorem AdmitsBus.testAndSetLoc (loc : Loc) : A (testAndSetLoc loc) := by
  have reg : ∀ loc, A (testAndSetReg loc) := fun loc =>
    c.bind (c.readLoc _ _) fun _ => c.bind (c.testAndSet _) fun _ => c.writeLoc _ _ _
  cases loc with
  | mem sp x p => exact c.bind (c.inspect _) fun _ => c.modifyByteCycle _ _ c.testAndSet
  | _ => exact reg _

end Bus

/-! ## The common shapes of instructions -/

section Shapes

variable (c : Admits A)
include c

theorem Admits.fetchExts (n : Nat) : A (fetchExts n) := by
  induction n with
  | zero => exact c.pure _
  | succ n ih => exact c.bind c.fetchExt fun _ => ih

theorem Admits.resolve (sz : Size) (ea : EA) : A (resolve sz ea) :=
  c.bind (c.inspect _) fun _ => c.bind (c.afterMode sz ea) fun _ => c.bind (c.fetchExts _) fun _ => c.pure _

theorem Admits.fetchOperand (sz : Size) (ea : EA) : A (fetchOperand sz ea) := c.bind (c.resolve _ _) fun _ => c.readLoc _ _

theorem Admits.controlAddress (ea : EA) : A (controlAddress ea) := by
  refine c.bind (c.resolve _ _) fun loc => ?_
  cases loc <;> exact c.pure _

theorem Admits.writeBack (sz : Size) (loc : Loc) (f : CCR → Long × CCR) : A (writeBack sz loc f) :=
  c.bind c.lastFetch fun _ => c.bind (c.inspect _) fun _ => c.bind (c.setCcr _) fun _ => c.writeLoc _ _ _

theorem Admits.modifyOperand (sz : Size) (dst : EA) (f : Alu) : A (modifyOperand sz dst f) :=
  c.bind (c.resolve _ _) fun _ => c.bind (c.readLoc _ _) fun _ => c.writeBack _ _ _

theorem Admits.storeOperand (sz : Size) (dst : EA) (f : CCR → Long × CCR) : A (storeOperand sz dst f) :=
  c.bind (c.resolve _ _) fun _ => c.bind (c.unasked (c.bind (c.readLoc _ _) fun _ => c.pure _)) fun _ => c.writeBack _ _ _

theorem Admits.combineReg (szS szD : Size) (src : EA) (dn : RegNum) (f : Long → Alu) : A (combineReg szS szD src dn f) :=
  c.bind (c.fetchOperand _ _) fun _ => c.bind c.lastFetch fun _ => c.bind (c.inspect _) fun _ => c.bind (c.inspect _) fun _ =>
    c.bind (c.setCcr _) fun _ => c.setD _ _ _

theorem Admits.combineEA (sz : Size) (dn : RegNum) (dst : EA) (f : Long → Alu) : A (combineEA sz dn dst f) :=
  c.bind (c.inspect _) fun _ => c.modifyOperand _ _ _

theorem Admits.combineImm (i : Imm) (dst : EA) (f : Long → Alu) : A (combineImm i dst f) :=
  c.bind (c.fetchExts _) fun _ => c.modifyOperand _ _ _

theorem Admits.testOperand (sz : Size) (ea : EA) (f : CCR → Long → CCR) : A (testOperand sz ea f) :=
  c.bind (c.fetchOperand _ _) fun _ => c.bind c.lastFetch fun _ => c.bind (c.inspect _) fun _ => c.setCcr _

theorem Admits.extended (sz : Size) (mem : Bool) (x y : RegNum) (f : Long → Alu) : A (extended sz mem x y f) :=
  admits_ite (c.bind (c.fetchOperand _ _) fun _ => c.modifyOperand _ _ _) (c.combineReg _ _ _ _ _)

theorem Admits.addressOp (sz : Size) (an : RegNum) (src : EA) (f : Long → Long → Long) : A (addressOp sz an src f) :=
  c.bind (c.fetchOperand _ _) fun _ => c.bind c.lastFetch fun _ => c.bind (c.inspect _) fun _ => c.setA _ _

theorem Admits.quickOp (q : Fin 8) (sz : Size) (dst : EA) (g : Long → Long → Long) (f : Long → Alu) :
    A (quickOp q sz dst g f) := by
  cases dst with
  | areg n => exact c.bind c.lastFetch fun _ => c.bind (c.inspect _) fun _ => c.setA _ _
  | _ => exact c.modifyOperand _ _ _

theorem Admits.divideBody (dn : RegNum) (src : EA) (f : Nat → Long → Alu) : A (divideBody dn src f) :=
  c.bind (c.fetchOperand _ _) fun _ => c.bind c.takeDivideIndex fun _ =>
    admits_ite (c.bind (c.inspect _) fun _ => c.bind (c.setCcr _) fun _ => c.trap2 _)
      (c.bind c.lastFetch fun _ => c.bind (c.inspect _) fun _ => c.bind (c.inspect _) fun _ => c.bind (c.setCcr _) fun _ =>
        c.setD _ _ _)

theorem Admits.testBit (dst : EA) (b : Long) : A (testBit dst b) := c.testOperand _ _ _

theorem Admits.changeBit (dst : EA) (b : Long) (f : Long → Long → Long) : A (changeBit dst b f) := c.modifyOperand _ _ _

theorem Admits.staticBitForm (b : Byte) {body : Long → Exec Unit} (h : ∀ v, A (body v)) : A (staticBitForm b body) :=
  c.bind (c.fetchExts _) fun _ => h _

theorem Admits.dynamicBitForm (dn : RegNum) {body : Long → Exec Unit} (h : ∀ v, A (body v)) : A (dynamicBitForm dn body) :=
  c.bind (c.inspect _) fun _ => h _

theorem Admits.branchTarget (d : Disp) : A (branchTarget d) := by
  refine c.bind (c.inspect _) fun _ => ?_
  cases d
  · exact c.pure _
  · exact c.bind c.fetchExt fun _ => c.pure _

theorem Admits.moveBody (sz : Size) (src dst : EA) : A (moveBody sz src dst) :=
  c.bind (c.fetchOperand _ _) fun _ => c.bind (c.resolve _ _) fun _ => c.bind (c.movedValue _ _ _ _) fun _ =>
    c.bind c.lastFetch fun _ => c.bind (c.inspect _) fun _ => c.bind (c.setCcr _) fun _ => c.writeLoc _ _ _

theorem Admits.moveaBody (sz : Size) (an : RegNum) (src : EA) : A (moveaBody sz an src) :=
  c.bind (c.fetchOperand _ _) fun _ => c.bind c.lastFetch fun _ => c.setA _ _

theorem Admits.exchange (x y : Reg) : A (exchange x y) :=
  c.bind c.lastFetch fun _ => c.bind (c.inspect _) fun _ => c.bind (c.inspect _) fun _ => c.bind (c.setReg _ _) fun _ =>
    c.setReg _ _

theorem Admits.onCcr (f : Byte → Byte) : A (onCcr f) :=
  c.bind (c.fetchExts _) fun _ => c.bind c.lastFetch fun _ => c.bind (c.inspect _) fun _ => c.setCcr _

theorem Admits.shiftRegBody (op : ShiftOp) (sz : Size) (cnt : Count) (dn : RegNum) : A (shiftRegBody op sz cnt dn) :=
  c.bind (c.inspect _) fun _ => c.modifyOperand _ _ _

theorem Admits.movemToMemBody (sz : Size) (mask : Word) (dst : EA) : A (movemToMemBody sz mask dst) := by
  refine c.bind (c.fetchExts _) fun _ => ?_
  cases dst with
  | preDec n =>
    exact c.bind (c.inspect _) fun _ => c.bind c.lastFetch fun _ => c.bind (c.storeDown _ _ _) fun _ => c.setA _ _
  | _ => exact c.bind (c.controlAddress _) fun _ => c.bind c.lastFetch fun _ => c.storeUp _ _ _

theorem Admits.movemToRegBody (sz : Size) (mask : Word) (src : EA) : A (movemToRegBody sz mask src) := by
  refine c.bind (c.fetchExts _) fun _ => ?_
  cases src with
  | postInc n =>
    exact c.bind (c.inspect _) fun _ => c.bind (c.inspect _) fun _ => c.bind (c.loadUp _ _ _ _) fun _ =>
      c.bind (c.extraRead _ _ _) fun _ => c.bind (c.setA _ _) fun _ => c.lastFetch
  | _ =>
    refine c.bind (c.resolve _ _) fun loc => ?_
    cases loc with
    | mem sp x p =>
      exact c.bind (c.spaceFC _) fun _ => c.bind (c.loadUp _ _ _ _) fun _ => c.bind (c.extraRead _ _ _) fun _ => c.lastFetch
    | _ => exact c.lastFetch

end Shapes

theorem AdmitsPrivileged.writeSr (c : AdmitsPrivileged A) (f : Word → Word) : A (writeSr f) :=
  c.bind (c.inspect _) fun _ => c.bind (c.inspect _) fun _ => admits_ite (c.bind c.lastFetch fun _ => c.setSr _)
    (c.bind (c.setSr _) fun _ => c.bind (c.inspect _) fun _ => c.jump _)

/-! ## Every instruction -/

/-- An instruction runs a body with the property. -/
def RunsBody (A : {α : Type} → Exec α → Prop) (i : Instr) (s : State) : Prop :=
  ∃ adj body, exec i s = runInstr adj body s ∧ A body

/-- What an instruction is: a body over the shared operations, an instruction that is not started, or a privileged one. -/
theorem exec_cases (c : Admits A) (i : Instr) (s : State) :
    RunsBody A i s ∨ (∃ vec, exec i s = refuseInstr vec s) ∨ ∃ n w ea, i ∈ privilegedInstrs n w ea := by
  cases i
  case ori | andi | subi | addi | eori =>
    exact .inl ⟨_, _, rfl, c.combineImm _ _ _⟩
  case cmpi =>
    exact .inl ⟨_, _, rfl, c.bind (c.fetchExts _) fun _ => c.testOperand _ _ _⟩
  case oriToCcr | andiToCcr | eoriToCcr =>
    exact .inl ⟨_, _, rfl, c.onCcr _⟩
  case btstImm =>
    exact .inl ⟨_, _, rfl, c.staticBitForm _ fun _ => c.testBit _ _⟩
  case btstReg =>
    exact .inl ⟨_, _, rfl, c.dynamicBitForm _ fun _ => c.testBit _ _⟩
  case bchgImm | bclrImm | bsetImm =>
    exact .inl ⟨_, _, rfl, c.staticBitForm _ fun _ => c.changeBit _ _ _⟩
  case bchgReg | bclrReg | bsetReg =>
    exact .inl ⟨_, _, rfl, c.dynamicBitForm _ fun _ => c.changeBit _ _ _⟩
  case movepToReg =>
    exact .inl ⟨_, _, rfl, c.bind (c.fetchExts _) fun _ => c.bind (c.inspect _) fun _ => c.bind (c.loadAlternate _ _ _) fun _ =>
      c.bind c.lastFetch fun _ => c.setD _ _ _⟩
  case movepToMem =>
    exact .inl ⟨_, _, rfl, c.bind (c.fetchExts _) fun _ => c.bind (c.inspect _) fun _ => c.bind (c.inspect _) fun _ =>
      c.bind c.lastFetch fun _ => c.storeAlternate _ _ _⟩
  case moveB | moveW | moveL =>
    exact .inl ⟨_, _, rfl, c.moveBody _ _ _⟩
  case moveaW | moveaL =>
    exact .inl ⟨_, _, rfl, c.moveaBody _ _ _⟩
  case negx | neg | not | swap | extW | extL | moveq | asrMem | aslMem | lsrMem | lslMem | roxrMem | roxlMem | rorMem | rolMem =>
    exact .inl ⟨_, _, rfl, c.modifyOperand _ _ _⟩
  case moveFromSr | clr | scc =>
    exact .inl ⟨_, _, rfl, c.storeOperand _ _ _⟩
  case moveToCcr | tst =>
    exact .inl ⟨_, _, rfl, c.testOperand _ _ _⟩
  case nbcd =>
    exact .inl ⟨_, _, rfl, c.bind c.takeBcdIndex fun _ => c.modifyOperand _ _ _⟩
  case abcd | sbcd =>
    exact .inl ⟨_, _, rfl, c.bind c.takeBcdIndex fun _ => c.extended _ _ _ _ _⟩
  case addx | subx =>
    exact .inl ⟨_, _, rfl, c.extended _ _ _ _ _⟩
  case chk =>
    exact .inl ⟨_, _, rfl, c.bind (c.fetchOperand _ _) fun _ => c.bind c.takeChkIndex fun _ => c.bind (c.inspect _) fun _ =>
      c.bind (c.inspect _) fun _ => admits_ite (c.bind (c.setCcr _) fun _ => c.trap2 _)
        (admits_ite (c.bind (c.setCcr _) fun _ => c.trap2 _) (c.bind c.lastFetch fun _ => c.setCcr _))⟩
  case lea =>
    exact .inl ⟨_, _, rfl, c.bind (c.controlAddress _) fun _ => c.bind c.lastFetch fun _ => c.setA _ _⟩
  case pea =>
    exact .inl ⟨_, _, rfl, c.bind (c.controlAddress _) fun _ => c.bind c.lastFetch fun _ => c.push32 _⟩
  case movemToMem =>
    exact .inl ⟨_, _, rfl, c.movemToMemBody _ _ _⟩
  case movemToReg =>
    exact .inl ⟨_, _, rfl, c.movemToRegBody _ _ _⟩
  case tas =>
    exact .inl ⟨_, _, rfl, c.bind (c.resolve _ _) fun _ => c.bind c.lastFetch fun _ => c.testAndSetLoc _⟩
  case trap =>
    exact .inl ⟨_, _, rfl, c.trap2 _⟩
  case trapv =>
    exact .inl ⟨_, _, rfl, c.bind (c.inspect _) fun _ => admits_ite (c.trap2 _) c.lastFetch⟩
  case link =>
    exact .inl ⟨_, _, rfl, c.bind (c.fetchExts _) fun _ => c.bind c.lastFetch fun _ =>
      c.bind (admits_ite c.takeLong (c.inspect _)) fun _ => c.bind (c.push32 _) fun _ => c.bind (c.inspect _) fun _ =>
        c.bind (c.setA _ _) fun _ => c.setA _ _⟩
  case unlk =>
    exact .inl ⟨_, _, rfl, c.bind (c.inspect _) fun _ => c.bind (c.setA _ _) fun _ => c.bind c.pop32 fun _ =>
      c.bind c.lastFetch fun _ => c.bind (admits_ite c.takeLong (c.pure _)) fun _ => c.setA _ _⟩
  case nop =>
    exact .inl ⟨_, _, rfl, c.lastFetch⟩
  case rts =>
    exact .inl ⟨_, _, rfl, c.bind c.pop32 fun _ => c.jump _⟩
  case rtr =>
    exact .inl ⟨_, _, rfl, c.bind c.pop16 fun _ => c.bind (c.setCcr _) fun _ => c.bind c.pop32 fun _ => c.jump _⟩
  case jsr =>
    exact .inl ⟨_, _, rfl, c.bind (c.controlAddress _) fun _ => c.bind (c.inspect _) fun _ => c.bind (c.push32 _) fun _ => c.jump _⟩
  case jmp =>
    exact .inl ⟨_, _, rfl, c.bind (c.controlAddress _) fun _ => c.jump _⟩
  case addq | subq =>
    exact .inl ⟨_, _, rfl, c.quickOp _ _ _ _ _⟩
  case dbcc =>
    exact .inl ⟨_, _, rfl, c.bind (c.inspect _) fun _ => c.bind (c.fetchExts _) fun _ => c.bind (c.inspect _) fun _ => admits_ite c.lastFetch
      (c.bind (c.inspect _) fun _ => c.bind (c.setD _ _ _) fun _ => admits_ite c.lastFetch (c.jump _))⟩
  case bra =>
    exact .inl ⟨_, _, rfl, c.bind (c.branchTarget _) fun _ => c.jump _⟩
  case bsr =>
    exact .inl ⟨_, _, rfl, c.bind (c.branchTarget _) fun _ => c.bind (c.inspect _) fun _ => c.bind (c.push32 _) fun _ => c.jump _⟩
  case bcc =>
    exact .inl ⟨_, _, rfl, c.bind (c.branchTarget _) fun _ => c.bind (c.inspect _) fun _ => admits_ite (c.jump _) c.lastFetch⟩
  case orToReg | andToReg | subToReg | addToReg | mulu | muls =>
    exact .inl ⟨_, _, rfl, c.combineReg _ _ _ _ _⟩
  case orToMem | andToMem | eor | subToMem | addToMem =>
    exact .inl ⟨_, _, rfl, c.combineEA _ _ _ _⟩
  case divu | divs =>
    exact .inl ⟨_, _, rfl, c.divideBody _ _ _⟩
  case suba | adda =>
    exact .inl ⟨_, _, rfl, c.addressOp _ _ _ _⟩
  case cmp =>
    exact .inl ⟨_, _, rfl, c.bind (c.inspect _) fun _ => c.testOperand _ _ _⟩
  case cmpa =>
    exact .inl ⟨_, _, rfl, c.bind (c.fetchOperand _ _) fun _ => c.bind c.lastFetch fun _ => c.bind (c.inspect _) fun _ =>
      c.bind (c.inspect _) fun _ => c.setCcr _⟩
  case cmpm =>
    exact .inl ⟨_, _, rfl, c.bind (c.fetchOperand _ _) fun _ => c.testOperand _ _ _⟩
  case exgDD | exgAA | exgDA =>
    exact .inl ⟨_, _, rfl, c.exchange _ _⟩
  case asrReg | aslReg | lsrReg | lslReg | roxrReg | roxlReg | rorReg | rolReg =>
    exact .inl ⟨_, _, rfl, c.shiftRegBody _ _ _ _⟩
  case illegal | line1010 | line1111 =>
    exact .inr (.inl ⟨_, rfl⟩)
  case resetDevices => exact .inr (.inr ⟨0, 0, .dreg 0, by simp [privilegedInstrs]⟩)
  case rte => exact .inr (.inr ⟨0, 0, .dreg 0, by simp [privilegedInstrs]⟩)
  case stop w => exact .inr (.inr ⟨0, w, .dreg 0, by simp [privilegedInstrs]⟩)
  case oriToSr w => exact .inr (.inr ⟨0, w, .dreg 0, by simp [privilegedInstrs]⟩)
  case andiToSr w => exact .inr (.inr ⟨0, w, .dreg 0, by simp [privilegedInstrs]⟩)
  case eoriToSr w => exact .inr (.inr ⟨0, w, .dreg 0, by simp [privilegedInstrs]⟩)
  case moveToUsp n => exact .inr (.inr ⟨n, 0, .dreg 0, by simp [privilegedInstrs]⟩)
  case moveFromUsp n => exact .inr (.inr ⟨n, 0, .dreg 0, by simp [privilegedInstrs]⟩)
  case moveToSr ea => exact .inr (.inr ⟨0, 0, ea, by simp [privilegedInstrs]⟩)

/-- A privileged instruction but STOP, in supervisor state. -/
theorem exec_privileged_cases (c : AdmitsPrivileged A) {i : Instr} {n : RegNum} {w : Word} {ea : EA} {s : State}
    (hi : i ∈ privilegedInstrs n w ea) (hs : s.super = true) : RunsBody A i s ∨ i = .stop w := by
  have onSr : ∀ f, A (onSr f) := fun f => c.bind (c.fetchExts _) fun _ => c.writeSr f
  simp only [privilegedInstrs, List.mem_cons, List.not_mem_nil, or_false] at hi
  rcases hi with rfl | rfl | rfl | rfl | rfl | rfl | rfl | rfl | rfl
  · exact .inl ⟨_, _, privileged_super hs, c.bind c.resetOut fun _ => c.lastFetch⟩
  · exact .inl ⟨_, _, privileged_super hs, c.bind c.pop16 fun _ => c.bind c.pop32 fun _ => c.bind (c.setSr _) fun _ => c.jump _⟩
  · exact .inr rfl
  · exact .inl ⟨_, _, privileged_super hs, onSr _⟩
  · exact .inl ⟨_, _, privileged_super hs, c.bind c.lastFetch fun _ => c.bind (c.inspect _) fun _ => c.setUsp _⟩
  · exact .inl ⟨_, _, privileged_super hs, c.bind c.lastFetch fun _ => c.fromUsp _⟩
  · exact .inl ⟨_, _, privileged_super hs, onSr _⟩
  · exact .inl ⟨_, _, privileged_super hs, onSr _⟩
  · exact .inl ⟨_, _, privileged_super hs, c.bind (c.fetchOperand _ _) fun _ => c.writeSr _⟩

end Sys2Proof.Machine
end

section
/-! PROOFS. What every step keeps: the canonical form of memory, an even program counter, the supervisor's part of the state in
user state. A step is one of a few sequences, each made of operations that keep the property. -/

namespace Sys2Proof.Machine

variable {P E : State → Prop}

/-! ## The operations keep what is kept -/

theorem admits_keeps (k : Kept P E) : Admits fun x => Keeps P E x where
  pure := keeps_pure P E
  bind := Keeps.bind
  inspect := keeps_inspect P E
  setD := keeps_setD k.closed
  setA := keeps_setA k.closed
  setCcr := keeps_setCcr k.closed
  takeBit := keeps_takeBit k.closed
  takeWord := keeps_takeWord k.closed
  takeLong := keeps_takeLong k.closed
  takeIndex := keeps_takeIndex k.closed
  addressError _ _ _ := keeps_error.weaken k.toE
  readByteCycle x fc := (keeps_readByteCycle k.closed x fc).weaken k.toE
  readWordCycle x fc := (keeps_readWordCycle k.closed x fc).weaken k.toE
  writeByteCycle x fc v := (keeps_writeByteCycle k.closed x fc v).weaken k.toE
  writeWordCycle x fc v := (keeps_writeWordCycle k.closed x fc v).weaken k.toE
  modifyByteCycle x fc f h := by
    refine ((keeps_grantBus k.closed _).weaken k.toE).bind fun _ => ((keeps_modifyRead k.closed x fc).weaken k.toE).bind
      fun old => (h old).bind fun new => (keeps_modifyWrite k.closed x fc old new).weaken k.toE
  unasked h := fun s hs => by
    unfold unasked
    split
    · exact keeps_pure P E () s hs
    · exact h s hs
  afterMode sz ea := keeps_update fun _ h => closed_afterMode k.closed sz ea h
  fetchExt := keeps_fetchExt k
  lastFetch := keeps_last k
  jump := keeps_jump k
  trap2 := keeps_trap2 k

/-- What a property needs beyond `Kept` for the privileged instructions, in supervisor state. -/
structure KeptBySupervisor (P E : State → Prop) : Prop extends Kept P E where
  setSr : ∀ {s : State} {w}, P s → P (s.setSr w)
  setSrE : ∀ {s : State} {w}, E s → E (s.setSr w)
  setUsp : ∀ {s : State} {v}, P s → P { s with usp := v }
  remap : ∀ {s : State}, P s → P { s with map := s.resetLine.getD s.map }
  stopped : ∀ {s : State} {w}, P s → P ({ s.startInstr.setSr w with pc := s.pc + 4, run := .stopped })

theorem admitsPrivileged_keeps (k : KeptBySupervisor P E) : AdmitsPrivileged fun x => Keeps P E x where
  toAdmits := admits_keeps k.toKept
  setSr _ := keeps_update fun _ h => k.setSr h
  setUsp _ := keeps_update fun _ h => k.setUsp h
  fromUsp _ := keeps_update fun _ h => k.closed.areg h
  resetOut := keeps_update fun _ h => k.remap (k.closed.note h)

/-! ## Every instruction -/

/-- What a property needs beyond `Kept` at the boundaries of instructions. -/
structure KeptAtBoundary (P E : State → Prop) : Prop extends Kept P E where
  start : ∀ {s : State}, P s → P s.startInstr
  flow : ∀ {s : State} {f : Flow}, E s → E (s.withFlow f)

theorem refuseInstr_arrives (k : KeptAtBoundary P E) {vec : Nat} {s t : State} (hs : E s) (h : refuseInstr vec s = .next t) :
    Ends P E t :=
  takeGroup1_arrives k.toKept (keeps_pure E E vec)
    (k.flow (f := { s.flow with owl := s.pc, ir := s.q0, tracePending := false, stream := [] }) hs) h

/-- In user state, or for an instruction that is not privileged. -/
theorem exec_arrives_user (k : KeptAtBoundary P E) {i : Instr} {s t : State} (hu : s.super = false) (hs : P s)
    (h : exec i s = .next t) : Ends P E t := by
  rcases exec_cases (admits_keeps k.toKept) i s with ⟨adj, body, hi, hb⟩ | ⟨vec, hi⟩ | ⟨n, w, ea, hi⟩
  · exact runInstr_arrives k.toKept hb (k.start hs) (hi ▸ h)
  · exact refuseInstr_arrives k (k.toE hs) (hi ▸ h)
  · rw [exec_privileged_user hi hu] at h
    exact refuseInstr_arrives k (k.toE hs) h

/-- STOP in supervisor state: it stops, or it is a privilege violation from one of two states. -/
theorem execStop_super {s : State} (hs : s.super = true) (w : Word) :
    exec (.stop w) s = .next { s.startInstr.setSr w with pc := s.pc + 4, run := .stopped } ∨
    exec (.stop w) s = takeGroup1 (pure 8) s.pc (s.stopViolated w).sr none (s.stopViolated w) := by
  have h : exec (.stop w) s = if w.getLsbD 13 then
      runInstr [] (update fun s => { s.setSr w with pc := s.owl + 4, run := .stopped }) s
    else takeGroup1 (pure 8) s.pc (s.stopViolated w).sr none (s.stopViolated w) := by
    unfold exec execStop
    exact privileged_super hs
  rw [h]
  split
  · exact .inl rfl
  · exact .inr rfl

theorem exec_arrives (k : KeptAtBoundary P E) (ks : KeptBySupervisor P E) {i : Instr} {s t : State} (hs : P s)
    (h : exec i s = .next t) : Ends P E t := by
  cases hu : s.super with
  | false => exact exec_arrives_user k hu hs h
  | true =>
    have run : RunsBody (fun x => Keeps P E x) i s → Ends P E t := fun ⟨_, _, hi, hb⟩ =>
      runInstr_arrives k.toKept hb (k.start hs) (hi ▸ h)
    rcases exec_cases (admits_keeps k.toKept) i s with hi | ⟨vec, hi⟩ | ⟨n, w, ea, hi⟩
    · exact run hi
    · exact refuseInstr_arrives k (k.toE hs) (hi ▸ h)
    · rcases exec_privileged_cases (admitsPrivileged_keeps ks) hi hu with hr | rfl
      · exact run hr
      · rcases execStop_super hu w with he | he
        · rw [he] at h
          cases h
          exact .inl (ks.stopped hs)
        · rw [he] at h
          have hv : E (s.stopViolated w) := by
            obtain ⟨f, hf | hf, -⟩ := State.stopViolated_cases (s := s) w
            · exact hf ▸ k.flow (k.toE hs)
            · exact hf ▸ k.flow (ks.setSrE (k.toE hs))
          exact takeGroup1_arrives k.toKept (keeps_pure E E 8) hv h

/-! ## Every step -/

/-- A step that answers a next state is one of these. -/
theorem step_cases {s t : State} (h : step s = .next t) :
    (s.resetRequest = true ∧ processReset s = .next t) ∨
    (s.resetRequest = false ∧ (waitOnBus s = .next t ∨ waitOnBus s.sampled = .next t ∨ takeTrace s = .next t ∨
      takeInterrupt s.sampled = .next t ∨
      takeGroup0 ⟨.addressError, s.pc, .read, s.programFC, .target s.pc⟩ false { s.sampled with tracePending := false } = .next t ∨
      refuseInstr 4 s.sampled = .next t ∨ (s.run ≠ .halted ∧ s.pc.getLsbD 0 = false ∧ ∃ i, exec i s.sampled = .next t))) := by
  have h : stepOnce s = .next t := h
  unfold stepOnce at h
  split at h
  · exact .inl ⟨‹_›, h⟩
  rename_i hr
  refine .inr ⟨by simpa using hr, ?_⟩
  split at h
  · exact .inl h
  rename_i hw
  split at h
  · exact .inr (.inr (.inl h))
  unfold atBoundary at h
  dsimp only at h
  split at h
  · exact .inr (.inr (.inr (.inl h)))
  split at h
  · exact .inr (.inl h)
  unfold runNext at h
  split at h
  · exact .inr (.inr (.inr (.inr (.inl h))))
  rename_i hpc
  have hpc : s.pc.getLsbD 0 = false := by simpa [State.sampled] using hpc
  have hrun : s.run ≠ .halted := by
    intro hh
    simp [hh] at hw
  unfold runDecoded at h
  split at h
  · exact .inr (.inr (.inr (.inr (.inr (.inr ⟨hrun, hpc, _, h⟩)))))
  · exact .inr (.inr (.inr (.inr (.inr (.inl h)))))
  · split at h
    · exact .inr (.inr (.inr (.inr (.inr (.inr ⟨hrun, hpc, _, h⟩)))))
    · exact .inr (.inr (.inr (.inr (.inr (.inl h)))))
  · exact .inr (.inr (.inr (.inr (.inr (.inl h)))))

/-- Reset processing goes from a state with `E` to one with `P`. -/
theorem processReset_arrives (k : Kept P E) (hssp : ∀ {s : State} {v}, E s → E { s with ssp := v }) {s t : State}
    (hs : E { s with
      super := true, trace := false, mask := 7, run := .running, l7Seen := false, tracePending := false, resetRequest := false })
    (h : processReset s = .next t) : Ends P E t := by
  have read : ∀ a, Keeps E E (memRead .l a .superProgram) := fun a => keeps_memRead k.closedE _ _ _
  refine concluded_arrives ⟨?_, ?_⟩ (fun _ u hu hh => halt_arrives hu hh) h
  · intro a s' hx
    obtain ⟨v, s1, h1, hx⟩ := bind_ok.mp hx
    obtain ⟨p, s2, h2, hx⟩ := bind_ok.mp (show (memRead .l 4 .superProgram >>= _) { s1 with ssp := v } = _ from hx)
    exact (jump_arrives k ((read 4).ok (hssp ((read 0).ok hs h1)) h2)).1 _ _ hx
  · intro e s' hx
    rcases bind_error.mp hx with h1 | ⟨v, s1, h1, hx⟩
    · exact (read 0).error hs h1
    rcases bind_error.mp (show (memRead .l 4 .superProgram >>= _) { s1 with ssp := v } = _ from hx) with h2 | ⟨p, s2, h2, hx⟩
    · exact (read 4).error (hssp ((read 0).ok hs h1)) h2
    · exact (jump_arrives k ((read 4).ok (hssp ((read 0).ok hs h1)) h2)).2 _ _ hx

theorem keeps_acknowledgeCycle (c : Closed E) (level : BitVec 3) : Keeps E E (acknowledgeCycle level) :=
  (keeps_grantBus c _).bind fun _ => (keeps_update fun _ h => c.note h).bind fun _ => keeps_inspect _ _ _

theorem takeTrace_arrives (k : Kept P E) {s t : State} (hs : E s) (h : takeTrace s = .next t) : Ends P E t :=
  takeGroup1_arrives k (keeps_pure E E 9) (k.closedE.trace hs) h

theorem takeInterrupt_arrives (k : Kept P E) (hl : ∀ {s : State} {b}, E s → E { s with l7Seen := b }) {s t : State} (hs : E s)
    (h : takeInterrupt s = .next t) : Ends P E t :=
  takeGroup1_arrives k (keeps_acknowledgeCycle k.closedE _) (hl hs) h

/-- A step in which the processor makes no cycle. -/
theorem waitOnBus_arrives (c : Closed P) (hE : ∀ {s}, P s → E s) {s t : State} (hs : P s) (h : waitOnBus s = .next t) :
    Ends P E t :=
  concluded_arrives ((keeps_grantBus c none).weaken hE s hs) (fun _ _ hu hh => halt_arrives hu hh) h

/-- What a property needs so that every step from a state with it ends as `Ends` says, apart from reset processing and from what the
processor does in supervisor state. -/
structure KeptByStep (P E : State → Prop) : Prop extends KeptAtBoundary P E where
  level7 : ∀ {s : State} {b}, P s → P { s with l7Seen := b }
  level7E : ∀ {s : State} {b}, E s → E { s with l7Seen := b }

/-- A step that is no reset: what is left is the instructions. -/
theorem step_arrives (k : KeptByStep P E) {s t : State} (hs : P s) (h : step s = .next t)
    (hreset : processReset s = .next t → Ends P E t)
    (hexec : ∀ i, exec i s.sampled = .next t → Ends P E t) : Ends P E t := by
  rcases step_cases h with ⟨-, h⟩ | ⟨-, h | h | h | h | h | h | ⟨-, -, i, h⟩⟩
  · exact hreset h
  · exact waitOnBus_arrives k.closed k.toE hs h
  · exact waitOnBus_arrives k.closed k.toE (k.level7 hs) h
  · exact takeTrace_arrives k.toKept (k.toE hs) h
  · exact takeInterrupt_arrives k.toKept (fun h => k.level7E h) (k.toE (k.level7 hs)) h
  · exact takeGroup0_arrives k.toKept (k.closedE.trace (k.toE (k.level7 hs))) h
  · exact refuseInstr_arrives k.toKeptAtBoundary (k.toE (k.level7 hs)) h
  · exact hexec i h

/-! ## Memory -/

theorem byteKey_lt (b : Fin 4) (x : Long) : byteKey b x < memoryKeys := by
  have hb := b.isLt
  have hx : physical x < 2 ^ 24 := Nat.mod_lt _ (by decide)
  unfold byteKey memoryKeys
  omega

theorem closed_memoryCanonical : Closed State.MemoryCanonical where
  dreg h := h
  areg h := (congrArg Memory.wf (State.setAreg_mem ..)).trans h
  flags h := h
  byte h := Memory.wf_writeByte h (byteKey_lt _ _)
  word h := Memory.wf_writeByte (Memory.wf_writeByte h (byteKey_lt _ _)) (byteKey_lt _ _)
  note h := h
  spend h := h
  acts h _ := h
  queue h := h
  running h := h
  trace h := h

theorem kept_memoryCanonical : KeptByStep State.MemoryCanonical State.MemoryCanonical where
  closed := closed_memoryCanonical
  closedE := closed_memoryCanonical
  toE h := h
  extension h := h
  target h := h
  arrived h _ := h
  entering h := h
  start h := h
  flow h := h
  level7 h := h
  level7E h := h

theorem keptBySupervisor_memoryCanonical : KeptBySupervisor State.MemoryCanonical State.MemoryCanonical where
  toKept := kept_memoryCanonical.toKept
  setSr h := h
  setSrE h := h
  setUsp h := h
  remap h := h
  stopped h := h

/-- Settles O11: only stores change memory, and a store keeps the canonical form. -/
theorem stepKeepsMemory : Obligations.StepKeepsMemory := by
  intro s t hs h
  have k := kept_memoryCanonical
  rcases step_arrives k hs h (processReset_arrives k.toKept (fun h => h) hs)
      (fun i => exec_arrives k.toKeptAtBoundary keptBySupervisor_memoryCanonical hs) with ht | ⟨u, hu, rfl | rfl⟩
  · exact ht
  · exact hu
  · exact hu

/-! ## The program counter -/

/-- The program counter is even, whatever the processor does. -/
def State.EvenPc (s : State) : Prop := s.pc.getLsbD 0 = false

theorem closed_evenPc : Closed State.EvenPc where
  dreg h := h
  areg h := (congrArg (fun p : Long => p.getLsbD 0) (State.setAreg_pc ..)).trans h
  flags h := h
  byte h := h
  word h := h
  note h := h
  spend h := h
  acts h _ := h
  queue h := h
  running h := h
  trace h := h

theorem closed_true : Closed fun _ => True where
  dreg _ := trivial
  areg _ := trivial
  flags _ := trivial
  byte _ := trivial
  word _ := trivial
  note _ := trivial
  spend _ := trivial
  acts _ _ := trivial
  queue _ := trivial
  running _ := trivial
  trace _ := trivial

theorem evenPc_add {x y : Long} (hy : y.getLsbD 0 = false) (hx : x.getLsbD 0 = false) : (x + y).getLsbD 0 = false :=
  (getLsbD_zero_add x y hy).trans hx

/-- An operation may abort at an odd program counter: what takes the fault loads another. -/
theorem kept_evenPc : KeptByStep State.EvenPc fun _ => True where
  closed := closed_evenPc
  closedE := closed_true
  toE _ := trivial
  extension h := evenPc_add (y := 2) (by decide) h
  target _ := trivial
  arrived _ h := h
  entering _ := trivial
  start h := evenPc_add (y := 2) (by decide) h
  flow _ := trivial
  level7 h := h
  level7E _ := trivial

theorem keptBySupervisor_evenPc : KeptBySupervisor State.EvenPc fun _ => True where
  toKept := kept_evenPc.toKept
  setSr h := h
  setSrE _ := trivial
  setUsp h := h
  remap h := h
  stopped h := evenPc_add (y := 4) (by decide) h

theorem pcEven_of_ends {t : State} (h : Ends State.EvenPc (fun _ => True) t) : t.PcEven := by
  intro hrun hreset
  rcases h with h | ⟨u, -, rfl | rfl⟩
  · exact h
  · exact absurd rfl hrun
  · cases hreset

/-- Other agents change no more than memory, the events and the acts to come. -/
theorem performDue_leaves (again : Option Event) (l : List Outside) (s : State) :
    (∀ a s', performDue again l s = .ok a s' → ∃ m o es, s' = { s with mem := m, outside := o, events := es }) ∧
    (∀ e s', performDue again l s = .error e s' → e = .reset) := by
  induction l generalizing s with
  | nil => exact ⟨fun a s' h => by cases h; exact ⟨_, _, _, rfl⟩, fun e s' h => (by cases h)⟩
  | cons o rest ih =>
    obtain ⟨n, act⟩ := o
    cases n with
    | succ n => exact ⟨fun a s' h => by cases h; exact ⟨_, _, _, rfl⟩, fun e s' h => (by cases h)⟩
    | zero =>
      have via : ∀ u : State, (∃ m es, u = { s with mem := m, events := es }) →
          (∀ a s', performDue again rest u = .ok a s' → ∃ m o es, s' = { s with mem := m, outside := o, events := es }) ∧
          (∀ e s', performDue again rest u = .error e s' → e = .reset) := by
        rintro u ⟨m, es, rfl⟩
        refine ⟨fun a s' h => ?_, (ih _).2⟩
        obtain ⟨m', o, es', rfl⟩ := (ih _).1 a s' h
        exact ⟨m', o, es', rfl⟩
      cases act with
      | dmaRead b x => exact via _ ⟨_, _, rfl⟩
      | dmaWrite b x v => exact via _ ⟨_, _, rfl⟩
      | rerun =>
        cases again with
        | none => exact via _ ⟨_, _, rfl⟩
        | some e => exact via _ ⟨_, _, rfl⟩
      | reset => exact ⟨fun a s' h => (by cases h), fun e s' h => by cases h; rfl⟩

/-- A waiting processor keeps its program counter and its processing state, or has a reset to serve. -/
theorem waitOnBus_pcEven {s t : State} (hs : s.PcEven) (h : waitOnBus s = .next t) : t.PcEven := by
  rcases concluded_next h with h | ⟨f, u, h, -⟩ | ⟨u, -, rfl⟩
  · obtain ⟨m, o, es, rfl⟩ := (performDue_leaves none s.outside s).1 () t h
    exact hs
  · cases (performDue_leaves none s.outside s).2 _ u h
  · intro _ hr
    cases hr

/-- Settles O12: a step ends at an even program counter, halts, or leaves a reset to be served. -/
theorem stepKeepsPcEven : Obligations.StepKeepsPcEven := by
  intro s t hs h
  have k := kept_evenPc
  rcases step_cases h with ⟨-, h⟩ | ⟨-, h | h | h | h | h | h | ⟨hrun, hpc, i, h⟩⟩
  · exact pcEven_of_ends (processReset_arrives k.toKept (fun h => h) trivial h)
  · exact waitOnBus_pcEven hs h
  · exact waitOnBus_pcEven (s := s.sampled) hs h
  · exact pcEven_of_ends (takeTrace_arrives k.toKept trivial h)
  · exact pcEven_of_ends (takeInterrupt_arrives k.toKept (fun _ => trivial) trivial h)
  · exact pcEven_of_ends (takeGroup0_arrives k.toKept trivial h)
  · exact pcEven_of_ends (refuseInstr_arrives k.toKeptAtBoundary trivial h)
  · exact pcEven_of_ends (exec_arrives (s := s.sampled) k.toKeptAtBoundary keptBySupervisor_evenPc hpc h)

/-! ## User state -/

/-- Supervisor state, or the supervisor's part of the state as it was. -/
def State.Isolated (s0 s : State) : Prop := s.super = true ∨ s0.SupervisorPart s

theorem closed_isolated (s0 : State) : Closed s0.Isolated where
  dreg h := h
  areg {s n v} h := by
    rcases h with h | ⟨ht, hm, hp⟩
    · exact .inl ((State.setAreg_super ..).trans h)
    · cases hs : s.super with
      | true => exact .inl ((State.setAreg_super ..).trans hs)
      | false =>
        refine .inr ⟨(State.setAreg_trace ..).trans ht, (State.setAreg_mask ..).trans hm, Eq.trans ?_ hp⟩
        unfold State.setAreg
        split_ifs <;> simp_all
  flags h := h
  byte h := h
  word h := h
  note h := h
  spend h := h
  acts h _ := h
  queue h := h
  running h := h
  trace h := h

theorem kept_isolated (s0 : State) : KeptByStep s0.Isolated s0.Isolated where
  closed := closed_isolated s0
  closedE := closed_isolated s0
  toE h := h
  extension h := h
  target h := h
  arrived h _ := h
  entering _ := .inl rfl
  start h := h
  flow h := h
  level7 h := h
  level7E h := h

theorem closed_super : Closed fun s => s.super = true where
  dreg h := h
  areg h := (State.setAreg_super ..).trans h
  flags h := h
  byte h := h
  word h := h
  note h := h
  spend h := h
  acts h _ := h
  queue h := h
  running h := h
  trace h := h

theorem kept_super : Kept (fun s => s.super = true) fun s => s.super = true where
  closed := closed_super
  closedE := closed_super
  toE h := h
  extension h := h
  target h := h
  arrived h _ := h
  entering _ := rfl

/-- Settles O13: what leaves user state enters supervisor state, and no other operation touches the supervisor's part. -/
theorem userIsolation : Obligations.UserIsolation := by
  intro s t hu h
  have k := kept_isolated s
  have hs : s.Isolated s := .inr ⟨rfl, rfl, rfl⟩
  have hreset : processReset s = .next t → Ends s.Isolated s.Isolated t := by
    intro hp
    rcases processReset_arrives kept_super (fun h => h) rfl hp with ht | ⟨u, hu, ht⟩
    · exact .inl (.inl ht)
    · exact .inr ⟨u, .inl hu, ht⟩
  have ends : Ends s.Isolated s.Isolated t :=
    step_arrives k hs h hreset fun i => exec_arrives_user (s := s.sampled) k.toKeptAtBoundary hu hs
  rcases ends with ht | ⟨u, hu, rfl | rfl⟩
  · exact ht
  · exact hu
  · exact hu

end Sys2Proof.Machine
end

section
/-! PROOFS. Integer arithmetic and logic: each instruction is one of the common shapes, which completes with the state its rule
names. -/

namespace Sys2Proof.Machine

variable {s : State} {i : Instr} {adj : List Adjusted}

/-! ## Instructions of one shape -/

theorem completes_combineReg {szS szD : Size} {src : EA} {dn : RegNum} (u : Long → Alu)
    (hi : exec i s = runInstr adj (combineReg szS szD src dn u) s) (hx : extensionWords i = src.words)
    (h : s.Ready 1 szS src) :
    Completes i s (((s.afterMode szS src).setDreg dn (merge szD s.d[dn.val]
      (u (s.operand 1 szS src) s.ccr (trunc szD s.d[dn.val])).1)).setFlags
      (u (s.operand 1 szS src) s.ccr (trunc szD s.d[dn.val])).2) := by
  obtain ⟨g, hr, hg⟩ := combineReg_at State.startFlow_pc h (szD := szD) dn u
  exact completes_of_body hi (encode_length hx (EA.words_length _)) hr hg

theorem completes_modifyOperand {sz : Size} {ea : EA} (u : Alu) (hi : exec i s = runInstr adj (modifyOperand sz ea u) s)
    (hx : extensionWords i = ea.words) (h : s.Ready 1 sz ea) :
    Completes i s ((s.result 1 sz ea (u s.ccr (s.operand 1 sz ea)).1).setFlags (u s.ccr (s.operand 1 sz ea)).2) := by
  obtain ⟨g, hr, hg⟩ := modifyOperand_at State.startFlow_pc h u
  exact completes_of_body hi (encode_length hx (EA.words_length _)) hr hg

theorem completes_combineEA {sz : Size} {ea : EA} {dn : RegNum} (u : Long → Alu)
    (hi : exec i s = runInstr adj (combineEA sz dn ea u) s) (hx : extensionWords i = ea.words) (h : s.Ready 1 sz ea) :
    Completes i s ((s.result 1 sz ea (u (trunc sz s.d[dn.val]) s.ccr (s.operand 1 sz ea)).1).setFlags
      (u (trunc sz s.d[dn.val]) s.ccr (s.operand 1 sz ea)).2) := by
  obtain ⟨g, hr, hg⟩ := combineEA_at State.startFlow_pc h dn u
  exact completes_of_body hi (encode_length hx (EA.words_length _)) hr hg

theorem completes_storeOperand {sz : Size} {ea : EA} (u : CCR → Long × CCR)
    (hi : exec i s = runInstr adj (storeOperand sz ea u) s) (hx : extensionWords i = ea.words) (h : s.Ready 1 sz ea) :
    Completes i s ((s.result 1 sz ea (u s.ccr).1).setFlags (u s.ccr).2) := by
  obtain ⟨g, hr, hg⟩ := storeOperand_at State.startFlow_pc h u
  exact completes_of_body hi (encode_length hx (EA.words_length _)) hr hg

theorem completes_testOperand {sz : Size} {ea : EA} (u : CCR → Long → CCR)
    (hi : exec i s = runInstr adj (testOperand sz ea u) s) (hx : extensionWords i = ea.words) (h : s.Ready 1 sz ea) :
    Completes i s ((s.afterMode sz ea).setFlags (u s.ccr (s.operand 1 sz ea))) := by
  obtain ⟨g, hr, hg⟩ := testOperand_at State.startFlow_pc h u
  exact completes_of_body hi (encode_length hx (EA.words_length _)) hr hg

theorem completes_combineImm {n : Imm} {dst : EA} (u : Long → Alu) (hi : exec i s = runInstr adj (combineImm n dst u) s)
    (hx : extensionWords i = n.words ++ dst.words) (h : s.Ready (1 + n.words.length) n.size dst) :
    Completes i s ((s.result (1 + n.words.length) n.size dst
      (u (immValue n) s.ccr (s.operand (1 + n.words.length) n.size dst)).1).setFlags
      (u (immValue n) s.ccr (s.operand (1 + n.words.length) n.size dst)).2) := by
  rw [Imm.words_length] at h ⊢
  obtain ⟨g, hr, hg⟩ := combineImm_at State.startFlow_pc h u
  exact completes_of_body hi (encode_length hx (imm_and_ea_length n dst)) hr hg

/-! ## Addition, subtraction and comparison -/

/-- Settles O20: both directions are one operand combined into another. -/
theorem addSub : Obligations.AddSub := by
  intro s sz ea dn h
  exact ⟨completes_combineReg (aluAdd sz) rfl rfl h, completes_combineReg (aluSub sz) rfl rfl h,
    completes_combineEA (aluAdd sz) rfl rfl h, completes_combineEA (aluSub sz) rfl rfl h⟩

theorem completes_cmpi {n : Imm} {dst : EA} (h : s.Ready (1 + n.words.length) n.size dst) :
    Completes (.cmpi n dst) s ((s.afterMode n.size dst).setFlags
      (compareFlags n.size s.ccr (s.operand (1 + n.words.length) n.size dst) (immValue n))) := by
  rw [Imm.words_length] at h ⊢
  obtain ⟨f, h1, p1⟩ := fetchExts_of (m := s) h.1 rfl s.startFlow (immCount n)
  obtain ⟨g, h2, p2⟩ := testOperand_at (f := f) (by rw [p1.pc_eq, State.startFlow_pc, pc_add]) h
    fun flags v => compareFlags n.size flags v (immValue n)
  exact completes_of_body rfl (encode_length rfl (imm_and_ea_length n dst)) ((bind_of_ok h1).trans h2) (p1.done p2)

/-- Settles O21: the immediate's words are used before the destination is resolved. -/
theorem addSubCmpImm : Obligations.AddSubCmpImm := by
  intro s n dst h
  exact ⟨completes_combineImm (aluAdd n.size) rfl rfl h, completes_combineImm (aluSub n.size) rfl rfl h, completes_cmpi h⟩

theorem quickValue_eq (q : Fin 8) : quickValue q = if q = 0 then 8 else BitVec.ofNat 32 q.val := by
  unfold quickValue
  simp only [Fin.ext_iff, Fin.val_zero]

/-- ADDQ and SUBQ to anything but an address register are ADD and SUB of the constant. -/
theorem quickOp_of_ne_areg {dst : EA} (hd : ∀ n, dst ≠ .areg n) (q : Fin 8) (sz : Size) (onAddr : Long → Long → Long)
    (f : Long → Alu) : quickOp q sz dst onAddr f = modifyOperand sz dst (f (quickValue q)) := by
  cases dst
  case areg n => exact absurd rfl (hd n)
  all_goals rfl

/-- ADDQ and SUBQ to an address register change it whole, at any size. -/
theorem completes_quickOp_areg (hs : s.Plain) {q : Fin 8} {sz : Size} {n : RegNum} {onAddr : Long → Long → Long}
    {f : Long → Alu} (hi : exec i s = runInstr adj (quickOp q sz (.areg n) onAddr f) s) (hx : extensionWords i = []) :
    Completes i s (s.setAreg n (onAddr (s.areg n) (quickValue q))) := by
  obtain ⟨g, h1, p1⟩ := lastFetch_of (m := s) hs rfl s.startFlow
  refine completes_of_body (g := g) hi (encode_length hx rfl) ?_ p1
  show (lastFetch >>= _) _ = _
  rw [bind_of_ok h1]
  exact congrArg (EStateM.Result.ok ()) (State.withFlow_setAreg g n _)

/-- Settles O22: the case split is the one of the destination's mode. -/
theorem quick : Obligations.Quick := by
  intro s q sz dst h
  dsimp only
  rw [← quickValue_eq]
  constructor
  · rintro n rfl
    exact ⟨completes_quickOp_areg h.1 rfl rfl, completes_quickOp_areg h.1 rfl rfl⟩
  · intro hd
    exact ⟨completes_modifyOperand (aluAdd sz (quickValue q))
        (congrArg (runInstr (adjusts1 sz dst) · s) (quickOp_of_ne_areg hd q sz (fun a v => a + v) (aluAdd sz))) rfl h,
      completes_modifyOperand (aluSub sz (quickValue q))
        (congrArg (runInstr (adjusts1 sz dst) · s) (quickOp_of_ne_areg hd q sz (fun a v => a - v) (aluSub sz))) rfl h⟩

/-! ## Address registers -/

theorem completes_addressOp {sz : Size} {an : RegNum} {src : EA} {f : Long → Long → Long}
    (hi : exec i s = runInstr adj (addressOp sz an src f) s) (hx : extensionWords i = src.words) (h : s.Ready 1 sz src) :
    Completes i s ((s.afterMode sz src).setAreg an (f ((s.afterMode sz src).areg an) (sext sz (s.operand 1 sz src)))) := by
  obtain ⟨f1, h1, p1⟩ := fetchOperand_at State.startFlow_pc h
  obtain ⟨g, h2, p2⟩ := lastFetch_of (m := s) (h.1.afterMode sz src) (State.afterMode_mem ..) f1
  refine completes_of_body (g := g) hi (encode_length hx (EA.words_length _)) ?_ (p1.done p2)
  unfold addressOp
  rw [bind_of_ok h1, bind_of_ok h2]
  exact congrArg (EStateM.Result.ok ()) (State.withFlow_setAreg g an _)

theorem completes_cmpa {sz : WSize} {an : RegNum} {src : EA} (h : s.Ready 1 sz.size src) :
    Completes (.cmpa sz an src) s ((s.afterMode sz.size src).setFlags
      (compareFlags .l s.ccr ((s.afterMode sz.size src).areg an) (sext sz.size (s.operand 1 sz.size src)))) := by
  obtain ⟨f1, h1, p1⟩ := fetchOperand_at State.startFlow_pc h
  obtain ⟨g, h2, p2⟩ := lastFetch_of (m := s) (h.1.afterMode sz.size src) (State.afterMode_mem ..) f1
  refine completes_of_body (g := g) rfl (encode_length rfl (EA.words_length _)) ?_ (p1.done p2)
  rw [bind_of_ok h1, bind_of_ok h2]
  exact congrArg (fun c => EStateM.Result.ok () (((s.afterMode sz.size src).withFlow g).setFlags (compareFlags .l c _ _)))
    (State.afterMode_ccr ..)

/-- Settles O23: the source is read and sign-extended before the address register is looked at. -/
theorem addressArithmetic : Obligations.AddressArithmetic := by
  intro s sz an src h
  refine ⟨completes_addressOp rfl rfl h, completes_addressOp rfl rfl h, ?_, ?_⟩
  · exact completes_cmpa h
  · cases sz
    · exact completes_addressOp (f := fun _ v => v) rfl rfl h
    · exact completes_addressOp (f := fun _ v => v) rfl rfl h

/-! ## Comparison and test -/

theorem completes_cmp {sz : Size} {src : EA} {dn : RegNum} (h : s.Ready 1 sz src) :
    Completes (.cmp sz src dn) s ((s.afterMode sz src).setFlags
      (compareFlags sz s.ccr (trunc sz s.d[dn.val]) (s.operand 1 sz src))) := by
  obtain ⟨g, h1, p1⟩ := testOperand_at State.startFlow_pc h fun flags v => compareFlags sz flags (trunc sz s.d[dn.val]) v
  exact completes_of_body rfl (encode_length rfl (EA.words_length _)) h1 p1

/-- An operand is fetched, then a second one in the state that its mode leaves. -/
theorem completes_cmpm {sz : Size} {x y : RegNum} (h : s.Ready 1 sz (.postInc y))
    (hx : (s.afterMode sz (.postInc y)).Ready 1 sz (.postInc x)) :
    Completes (.cmpm sz x y) s (((s.afterMode sz (.postInc y)).afterMode sz (.postInc x)).setFlags
      (compareFlags sz s.ccr ((s.afterMode sz (.postInc y)).operand 1 sz (.postInc x)) (s.operand 1 sz (.postInc y)))) := by
  obtain ⟨f, h1, p1⟩ := fetchOperand_at State.startFlow_pc h
  obtain ⟨g, h2, p2⟩ := testOperand_at (f := f) (k := 1) (by rw [p1.pc_same, State.startFlow_pc, State.afterMode_pc]) hx
    fun flags d => compareFlags sz flags d (s.operand 1 sz (.postInc y))
  rw [State.afterMode_ccr] at h2
  exact completes_of_body rfl (encode_length rfl rfl) ((bind_of_ok h1).trans h2)
    (p1.done (p2.congr (State.afterMode_mem ..)))

/-- Settles O24: the operands are fetched and nothing is written but the condition codes. -/
theorem compareAndTest : Obligations.CompareAndTest := by
  intro s sz _
  exact ⟨fun src dn h => completes_cmp h, fun x y h hx => completes_cmpm h hx,
    fun dst h => completes_testOperand (logicFlags sz) rfl rfl h⟩

/-! ## One operand -/

/-- A subtraction from zero borrows just when the operand is not zero. -/
theorem subAt_zero_carry (sz : Size) (d : Long) : (subAt sz 0 d false).carry = decide (d ≠ 0) := by
  show decide ((0 : Long).toNat < d.toNat + 0) = _
  refine decide_eq_decide.mpr ?_
  rw [Ne, ← BitVec.toNat_inj]
  show 0 < _ ↔ ¬ d.toNat = 0
  omega

/-- Settles O25: NEG and NEGX subtract from zero, CLR stores. -/
theorem oneOperand : Obligations.OneOperand := by
  intro s sz dst h
  dsimp only
  rw [← subAt_zero_carry sz]
  exact ⟨completes_modifyOperand (aluNeg sz) rfl rfl h, completes_modifyOperand (aluNegx sz) rfl rfl h,
    completes_storeOperand clearResult rfl rfl h⟩

/-! ## Extended arithmetic -/

theorem ready_dreg (hs : s.Plain) (k : Nat) (sz : Size) (n : RegNum) : s.Ready k sz (.dreg n) := ⟨hs, trivial⟩

/-- The memory form of the extended instructions, from any flow at the second word. -/
theorem extended_mem_at {f : Flow} (hf : f.pc = s.pc + BitVec.ofNat 32 (2 * 1)) {sz : Size} {x y : RegNum} (u : Long → Alu)
    (h : s.Ready 1 sz (.preDec y)) (hx : (s.afterMode sz (.preDec y)).Ready 1 sz (.preDec x)) :
    let s' := s.afterMode sz (.preDec y)
    let r := u (s.operand 1 sz (.preDec y)) s.ccr (s'.operand 1 sz (.preDec x))
    ∃ g, extended sz true x y u (s.withFlow f) = .ok () (((s'.result 1 sz (.preDec x) r.1).setFlags r.2).withFlow g) ∧
      f.Done g s 0 := by
  obtain ⟨f1, h1, p1⟩ := fetchOperand_at hf h
  obtain ⟨g, h2, p2⟩ := modifyOperand_at (f := f1) (k := 1) (by rw [p1.pc_same, hf, State.afterMode_pc]) hx
    (u (s.operand 1 sz (.preDec y)))
  rw [State.afterMode_ccr] at h2
  exact ⟨g, (bind_of_ok h1).trans h2, p1.done (p2.congr (State.afterMode_mem ..))⟩

/-- The register form of the extended instructions, from any flow at the second word. -/
theorem extended_reg_at {f : Flow} (hf : f.pc = s.pc + BitVec.ofNat 32 (2 * 1)) (hs : s.Plain) {sz : Size} {x y : RegNum}
    (u : Long → Alu) :
    let r := u (trunc sz s.d[y.val]) s.ccr (trunc sz s.d[x.val])
    ∃ g, extended sz false x y u (s.withFlow f) = .ok () (((s.setDreg x (merge sz s.d[x.val] r.1)).setFlags r.2).withFlow g) ∧
      f.Done g s 0 :=
  combineReg_at hf (src := .dreg y) (ready_dreg hs ..) x u

theorem completes_extended_mem {sz : Size} {x y : RegNum} (u : Long → Alu)
    (hi : exec i s = runInstr adj (extended sz true x y u) s) (hw : extensionWords i = [])
    (h : s.Ready 1 sz (.preDec y)) (hx : (s.afterMode sz (.preDec y)).Ready 1 sz (.preDec x)) :
    let s' := s.afterMode sz (.preDec y)
    let r := u (s.operand 1 sz (.preDec y)) s.ccr (s'.operand 1 sz (.preDec x))
    Completes i s ((s'.result 1 sz (.preDec x) r.1).setFlags r.2) := by
  obtain ⟨g, hr, hg⟩ := extended_mem_at State.startFlow_pc u h hx
  exact completes_of_body hi (encode_length hw rfl) hr hg

theorem completes_extended_reg (hs : s.Plain) {sz : Size} {x y : RegNum} (u : Long → Alu)
    (hi : exec i s = runInstr adj (extended sz false x y u) s) (hw : extensionWords i = []) :
    let r := u (trunc sz s.d[y.val]) s.ccr (trunc sz s.d[x.val])
    Completes i s ((s.setDreg x (merge sz s.d[x.val] r.1)).setFlags r.2) := by
  obtain ⟨g, hr, hg⟩ := extended_reg_at State.startFlow_pc hs u
  exact completes_of_body hi (encode_length hw rfl) hr hg

/-- Settles O30: the extended instructions in their two forms. -/
theorem extendedArithmetic : Obligations.ExtendedArithmetic := by
  intro s sz x y hs
  exact ⟨⟨completes_extended_reg hs (aluAddx sz) rfl rfl, completes_extended_reg hs (aluSubx sz) rfl rfl⟩,
    fun h hx => ⟨completes_extended_mem (aluAddx sz) rfl rfl h hx, completes_extended_mem (aluSubx sz) rfl rfl h hx⟩⟩

/-! ## Logic -/

/-- Settles O32: each logical instruction is one of the common shapes. -/
theorem logic : Obligations.Logic := by
  intro s
  constructor
  · intro sz ea dn h
    exact ⟨completes_combineReg (aluAnd sz) rfl rfl h, completes_combineReg (aluOr sz) rfl rfl h,
      completes_combineEA (aluAnd sz) rfl rfl h, completes_combineEA (aluOr sz) rfl rfl h,
      completes_combineEA (aluEor sz) rfl rfl h, completes_modifyOperand (aluNot sz) rfl rfl h⟩
  · intro n dst h
    exact ⟨completes_combineImm (aluAnd n.size) rfl rfl h, completes_combineImm (aluOr n.size) rfl rfl h,
      completes_combineImm (aluEor n.size) rfl rfl h⟩

end Sys2Proof.Machine
end

section
/-! PROOFS. Multiplication, division, CHK and decimal arithmetic: the results as numbers, and the traps of an instruction. -/

namespace Sys2Proof.Machine

variable {s : State} {i : Instr} {adj : List Adjusted}

/-! ## Numbers -/

theorem lowWord_toNat (v : Long) : (lowWord v).toNat = v.toNat % 2 ^ 16 := BitVec.toNat_setWidth ..

theorem load_lt (s : State) (sz : Size) (x : Long) : (s.load sz x).toNat < 2 ^ sz.bits := by
  cases sz with
  | b =>
    show ((s.mem.readByte (byteKey 0 x)).setWidth 32).toNat < 2 ^ 8
    have h := (s.mem.readByte (byteKey 0 x)).isLt
    rw [BitVec.toNat_setWidth]
    omega
  | w =>
    show ((s.wordAt 0 x).setWidth 32).toNat < 2 ^ 16
    have h := (s.wordAt 0 x).isLt
    rw [BitVec.toNat_setWidth]
    omega
  | l => exact (s.load .l x).isLt

/-- An operand is below `2^bits`. -/
theorem operand_lt (s : State) (k : Nat) (sz : Size) (ea : EA) : (s.operand k sz ea).toNat < 2 ^ sz.bits := by
  unfold State.operand State.valueAt
  split
  · exact trunc_lt ..
  · exact trunc_lt ..
  · exact load_lt ..
  · exact trunc_lt ..

theorem lowWord_operand_toNat (s : State) (k : Nat) (ea : EA) :
    (lowWord (s.operand k .w ea)).toNat = (s.operand k .w ea).toNat := by
  rw [lowWord_toNat]
  exact Nat.mod_eq_of_lt (operand_lt s k .w ea)

/-! ## Multiplication -/

theorem mulu_exact (x y : Word) : (BitVec.ofNat 32 (x.toNat * y.toNat)).toNat = x.toNat * y.toNat := by
  have h : x.toNat * y.toNat < 2 ^ 16 * 2 ^ 16 := Nat.mul_lt_mul'' x.isLt y.isLt
  rw [BitVec.toNat_ofNat]
  exact Nat.mod_eq_of_lt h

theorem word_toInt_abs (x : Word) : |x.toInt| ≤ 32768 := by
  have h1 := BitVec.le_toInt x
  have h2 := BitVec.toInt_lt (x := x)
  rw [abs_le]
  omega

theorem muls_exact (x y : Word) : (BitVec.ofInt 32 (x.toInt * y.toInt)).toInt = x.toInt * y.toInt := by
  have h : |x.toInt * y.toInt| ≤ 32768 * 32768 := by
    rw [abs_mul]
    exact mul_le_mul (word_toInt_abs x) (word_toInt_abs y) (abs_nonneg _) (by decide)
  rw [abs_le] at h
  exact BitVec.toInt_ofInt_eq_self (by decide) (by omega) (by omega)

/-- Settles O26: the product of two words fits a long word. -/
theorem multiply : Obligations.Multiply := by
  intro s dn src h
  refine ⟨⟨_, mulu_exact _ _, ?_⟩, ⟨_, muls_exact _ _, ?_⟩⟩
  · rw [← msb_long]
    exact completes_combineReg (i := .mulu dn src) aluMulu rfl rfl h
  · rw [← msb_long]
    exact completes_combineReg (i := .muls dn src) aluMuls rfl rfl h

/-! ## Free values and traps -/

/-- The flow after some free values are used. -/
def Flow.spent (f : Flow) (n : Nat) : Flow := { f with free := f.free + n }

theorem Flow.spent_passed (f : Flow) (n : Nat) (m : State) : f.Passed (f.spent n) m 0 := ⟨by simp [Flow.spent], rfl, rfl, rfl⟩

theorem takeDivideIndex_run (f : Flow) : takeDivideIndex (s.withFlow f) = .ok f.free (s.withFlow (f.spent 4)) := rfl

theorem takeChkIndex_run (f : Flow) : takeChkIndex (s.withFlow f) = .ok f.free (s.withFlow (f.spent 4)) := rfl

theorem takeBcdIndex_run (f : Flow) : takeBcdIndex (s.withFlow f) = .ok f.free (s.withFlow (f.spent 3)) := rfl

/-- An instruction whose body ends in a trap after `n` extension words enters the exception with the next PC. -/
theorem enters_of_trap {e : State} {body : Exec Unit} {n vec : Nat} {g : Flow} {next : Long}
    (hi : exec i s = runInstr adj body s) (hb : body (s.withFlow s.startFlow) = trap2 vec (e.withFlow g))
    (hg : s.startFlow.Passed g s n) (hnext : next = s.pc + BitVec.ofNat 32 (2 * (1 + n)))
    (h : e.EntryReady vec next e.sr none) : Enters (exec i s) e vec next e.sr none s.trace := by
  have hpc : (e.withFlow g).pc = next := by rw [State.withFlow_pc, hg.pc_eq, State.startFlow_pc, pc_add, hnext]
  obtain ⟨g', h1, h2⟩ := trap2_plain (s := e.withFlow g) (vec := vec) (by
    rw [hpc]
    exact (State.withFlow_entryReady ..).mpr h)
  rw [hpc] at h1 h2
  refine Enters.of_withFlow (f := g) ⟨_, hi.trans (runInstr_of_ok (hb.trans h1)), rfl, h2.pc_eq, ?_, h2.filled⟩
  exact h2.trace_eq.trans hg.trace_eq

/-! ## Division -/

/-- A division by a divisor that is not zero. -/
theorem completes_divideBody {dn : RegNum} {src : EA} {f : Nat → Long → Alu} (hi : exec i s = runInstr adj (divideBody dn src f) s)
    (hx : extensionWords i = src.words) (h : s.Ready 1 .w src) (hv : s.operand 1 .w src ≠ 0) :
    ∃ k, Completes i s (((s.afterMode .w src).setDreg dn (f k (s.operand 1 .w src) s.ccr s.d[dn.val]).1).setFlags
      (f k (s.operand 1 .w src) s.ccr s.d[dn.val]).2) := by
  obtain ⟨f1, h1, p1⟩ := fetchOperand_at State.startFlow_pc h
  obtain ⟨g, h2, p2⟩ := lastFetch_of (m := s) (h.1.afterMode .w src) (State.afterMode_mem ..) (f1.spent 4)
  refine ⟨f1.free, completes_of_body (g := g) hi (encode_length hx (EA.words_length _)) ?_
    ((p1.same (f1.spent_passed 4 s)).done p2)⟩
  unfold divideBody
  rw [bind_of_ok h1, bind_of_ok (takeDivideIndex_run f1), if_neg hv, bind_of_ok h2]
  unfold getD getCcr setCcr setD
  rw [inspect_bind, inspect_bind, update_bind, update_run]
  simp only [State.withFlow_ccr, State.afterMode_ccr, State.withFlow_d, State.afterMode_d, State.withFlow_setFlags,
    State.withFlow_setDreg]
  rfl

/-- A division by zero. -/
theorem enters_divideBody {dn : RegNum} {src : EA} {f : Nat → Long → Alu} (hi : exec i s = runInstr adj (divideBody dn src f) s)
    (h : s.Ready 1 .w src) (hv : s.operand 1 .w src = 0) {next : Long}
    (hnext : next = s.pc + BitVec.ofNat 32 (2 * (1 + extCount src)))
    (he : ∀ c, ((s.afterMode .w src).setFlags c).EntryReady 5 next ((s.afterMode .w src).setFlags c).sr none) :
    ∃ c : CCR, c.x = s.ccr.x ∧ Enters (exec i s) ((s.afterMode .w src).setFlags c) 5 next
      ((s.afterMode .w src).setFlags c).sr none s.trace := by
  obtain ⟨f1, h1, p1⟩ := fetchOperand_at State.startFlow_pc h
  refine ⟨zeroDivideFlags f1.free s.ccr, rfl, enters_of_trap (g := f1.spent 4) hi ?_ (p1.same (f1.spent_passed 4 s)) hnext (he _)⟩
  unfold divideBody
  rw [bind_of_ok h1, bind_of_ok (takeDivideIndex_run f1), if_pos hv]
  unfold getCcr setCcr
  rw [inspect_bind, update_bind]
  simp only [State.withFlow_ccr, State.afterMode_ccr, State.withFlow_setFlags]

/-- Settles O29: the operand is fetched, the flags are freed, and the trap is taken. -/
theorem divideByZero : Obligations.DivideByZero := by
  intro s dn src h hv
  dsimp only
  rw [EA.words_length]
  exact fun he => ⟨enters_divideBody rfl h hv rfl he, enters_divideBody rfl h hv rfl he⟩

/-- A register written with its own value. -/
theorem State.setDreg_self (s : State) (n : RegNum) : s.setDreg n s.d[n.val] = s := by
  unfold State.setDreg
  rw [Vector.set_getElem_self]

theorem aluDivu_of_overflow {k : Nat} {v d : Long} {c : CCR} (h : 0xFFFF < d.toNat / v.toNat) :
    aluDivu k v c d = (d, ⟨c.x, Config.freeBit k, Config.freeBit (k + 1), true, false⟩) := if_pos (decide_eq_true h)

theorem aluDivu_of_fits {k : Nat} {v d : Long} {c : CCR} {q rem : Word} (h : d.toNat / v.toNat ≤ 0xFFFF)
    (hq : q = BitVec.ofNat 16 (d.toNat / v.toNat)) (hr : rem = BitVec.ofNat 16 (d.toNat % v.toNat)) :
    aluDivu k v c d = (rem ++ q, ⟨c.x, q.msb, q == 0, false, false⟩) := by
  subst hq hr
  exact if_neg (by rw [decide_eq_true_iff]; omega)

theorem aluDivs_of_overflow {k : Nat} {v d : Long} {c : CCR} {q : Int} (hq : q = d.toInt.tdiv (lowWord v).toInt)
    (h : q < -32768 ∨ 32767 < q) :
    aluDivs k v c d = (d, ⟨c.x, Config.freeBit k, Config.freeBit (k + 1), true, false⟩) := by
  subst hq
  exact if_pos (by rwa [Bool.or_eq_true, decide_eq_true_iff, decide_eq_true_iff])

theorem aluDivs_of_fits {k : Nat} {v d : Long} {c : CCR} {n m : Int} {q rem : Word} (hn : n = d.toInt)
    (hm : m = (lowWord v).toInt) (hq : q = BitVec.ofInt 16 (n.tdiv m)) (hr : rem = BitVec.ofInt 16 (n - n.tdiv m * m))
    (h : -32768 ≤ n.tdiv m ∧ n.tdiv m ≤ 32767) :
    aluDivs k v c d = (rem ++ q, ⟨c.x, q.msb, q == 0, false, false⟩) := by
  subst hn hm hq hr
  exact if_neg (by rw [Bool.or_eq_true, decide_eq_true_iff, decide_eq_true_iff]; omega)

/-- What a division leaves on overflow: the register as it was. -/
theorem completes_of_overflow {dn : RegNum} {src : EA} {fn fz : Bool}
    (h : Completes i s (((s.afterMode .w src).setDreg dn s.d[dn.val]).setFlags ⟨s.ccr.x, fn, fz, true, false⟩)) :
    ∃ fn fz, Completes i s ((s.afterMode .w src).setFlags ⟨s.ccr.x, fn, fz, true, false⟩) := by
  have hd : (s.afterMode .w src).setDreg dn s.d[dn.val] = s.afterMode .w src := by
    simpa only [State.afterMode_d] using State.setDreg_self (s.afterMode .w src) dn
  exact ⟨fn, fz, hd ▸ h⟩

/-- Settles O27: quotient and remainder of the two numbers, or the overflow. -/
theorem divideUnsigned : Obligations.DivideUnsigned := by
  intro s dn src h hv m n s'
  obtain ⟨k, hk⟩ := completes_divideBody (f := aluDivu) (i := .divu dn src) rfl rfl h hv
  have hm : m < 65536 := operand_lt s 1 .w src
  have hm0 : 0 < m := Nat.pos_of_ne_zero fun h0 => hv (BitVec.eq_of_toNat_eq h0)
  constructor
  · intro hq
    rw [aluDivu_of_overflow hq] at hk
    exact completes_of_overflow hk
  · intro hq
    rw [aluDivu_of_fits hq rfl rfl] at hk
    have hr : n % m < m := Nat.mod_lt _ hm0
    have hqn : (BitVec.ofNat 16 (n / m)).toNat = n / m := Nat.mod_eq_of_lt (by omega)
    have hrn : (BitVec.ofNat 16 (n % m)).toNat = n % m := Nat.mod_eq_of_lt (by omega)
    refine ⟨BitVec.ofNat 16 (n / m), BitVec.ofNat 16 (n % m), ?_, ?_, hk⟩
    · rw [hqn, hrn]
      exact Nat.div_add_mod' n m
    · rw [hrn]
      exact hr

/-- The remainder of a division rounded toward zero is smaller than the divisor and has the sign of the dividend. -/
theorem tmod_bounds {m n : Int} (hm : m ≠ 0) (hb : |m| ≤ 32768) :
    -32768 < n.tmod m ∧ n.tmod m < 32768 ∧ (n.tmod m = 0 ∨ (n.tmod m < 0 ↔ n < 0)) := by
  have habs : (n.tmod m).natAbs < m.natAbs := by
    rw [Int.natAbs_tmod]
    exact Nat.mod_lt _ (Int.natAbs_pos.mpr hm)
  rw [abs_le] at hb
  refine ⟨by omega, by omega, ?_⟩
  rcases Int.lt_or_le n 0 with hn | hn
  · have hneg : 0 ≤ (-n).tmod m := Int.tmod_nonneg m (by omega)
    rw [Int.neg_tmod] at hneg
    omega
  · have hpos : 0 ≤ n.tmod m := Int.tmod_nonneg m hn
    omega

/-- Settles O28: the quotient rounded toward zero and its remainder, or the overflow. -/
theorem divideSigned : Obligations.DivideSigned := by
  intro s dn src h hv m n s'
  obtain ⟨k, hk⟩ := completes_divideBody (f := aluDivs) (i := .divs dn src) rfl rfl h hv
  have hm : m ≠ 0 := by
    intro h0
    have hz : lowWord (s.operand 1 .w src) = 0 := BitVec.eq_of_toInt_eq h0
    refine hv (BitVec.eq_of_toNat_eq ?_)
    rw [← lowWord_operand_toNat, hz]
    rfl
  have hrem : n - n.tdiv m * m = n.tmod m := by
    have := Int.tdiv_mul_add_tmod n m
    omega
  constructor
  · intro hq
    rw [aluDivs_of_overflow rfl hq] at hk
    exact completes_of_overflow hk
  · rintro ⟨hlo, hhi⟩
    rw [aluDivs_of_fits rfl rfl rfl rfl ⟨hlo, hhi⟩] at hk
    obtain ⟨h1, h2, h3⟩ := tmod_bounds (n := n) hm (word_toInt_abs _)
    have hq : (BitVec.ofInt 16 (n.tdiv m)).toInt = n.tdiv m := BitVec.toInt_ofInt_eq_self (by decide) hlo (by omega)
    have hr : (BitVec.ofInt 16 (n - n.tdiv m * m)).toInt = n.tmod m := by
      rw [hrem]
      exact BitVec.toInt_ofInt_eq_self (by decide) (by omega) (by omega)
    refine ⟨BitVec.ofInt 16 (n.tdiv m), BitVec.ofInt 16 (n - n.tdiv m * m), hq, ?_, ?_, hk⟩
    · rw [hr, hq, hrem]
    · rw [hr]
      exact h3

/-! ## CHK -/

/-- What CHK does once the bound is read: trap below zero or above the bound, else go on. -/
theorem chk_body {dn : RegNum} {src : EA} (h : s.Ready 1 .w src) :
    ∃ (body : Exec Unit) (f : Flow), exec (.chk dn src) s = runInstr (adjusts1 .w src) body s ∧
      s.startFlow.Passed f s (extCount src) ∧
      body (s.withFlow s.startFlow) =
        (if (lowWord s.d[dn.val]).toInt < 0 then
          trap2 6 (((s.afterMode .w src).setFlags (chkFlags f.free (some true) s.ccr)).withFlow (f.spent 4))
        else if (lowWord (s.operand 1 .w src)).toInt < (lowWord s.d[dn.val]).toInt then
          trap2 6 (((s.afterMode .w src).setFlags (chkFlags f.free (some false) s.ccr)).withFlow (f.spent 4))
        else (do lastFetch; setCcr (chkFlags f.free none s.ccr) : Exec Unit) ((s.afterMode .w src).withFlow (f.spent 4))) := by
  obtain ⟨f, h1, p1⟩ := fetchOperand_at State.startFlow_pc h
  refine ⟨_, f, rfl, p1, ?_⟩
  rw [bind_of_ok h1, bind_of_ok (takeChkIndex_run f)]
  unfold getD getCcr
  rw [inspect_bind, inspect_bind]
  simp only [State.withFlow_ccr, State.afterMode_ccr, State.withFlow_d, State.afterMode_d]
  split
  · rfl
  · split <;> rfl

/-- Settles O50: the comparisons decide between the traps and going on. -/
theorem checkBounds : Obligations.CheckBounds := by
  intro s dn src h
  obtain ⟨body, f, hi, p1, hb⟩ := chk_body (dn := dn) h
  have p2 := p1.same (f.spent_passed 4 s)
  dsimp only
  rw [EA.words_length]
  constructor
  · intro h0 hle
    rw [if_neg (by omega), if_neg (by omega)] at hb
    obtain ⟨g, h2, p3⟩ := lastFetch_of (m := s) (h.1.afterMode .w src) (State.afterMode_mem ..) (f.spent 4)
    exact ⟨chkFlags f.free none s.ccr, rfl,
      completes_of_body (g := g) hi (encode_length rfl (EA.words_length _)) (hb.trans (bind_of_ok h2)) (p2.done p3)⟩
  · intro hout he
    by_cases hneg : (lowWord s.d[dn.val]).toInt < 0
    · rw [if_pos hneg] at hb
      exact ⟨chkFlags f.free (some true) s.ccr, rfl, (decide_eq_true hneg).symm, enters_of_trap hi hb p2 rfl (he _)⟩
    · rw [if_neg hneg, if_pos (by omega)] at hb
      exact ⟨chkFlags f.free (some false) s.ccr, rfl, (decide_eq_false hneg).symm, enters_of_trap hi hb p2 rfl (he _)⟩

/-! ## Decimal arithmetic -/

theorem bcdByte_toNat {t : Nat} (h : t < 100) : (bcdByte t).toNat = t / 10 * 16 + t % 10 := by
  unfold bcdByte
  rw [BitVec.toNat_ofNat]
  omega

/-- The byte of a number below 100 has valid digits, which stand for it. -/
theorem bcdByte_valid {t : Nat} (h : t < 100) :
    validBcd (bcdByte t) = true ∧ decOf (bcdByte t) = t ∧ (bcdByte t).toNat < 256 := by
  unfold validBcd decOf
  rw [bcdByte_toNat h, Bool.and_eq_true, decide_eq_true_iff, decide_eq_true_iff]
  omega

theorem decOf_lt {v : Long} (h : validBcd v = true) : decOf v < 100 := by
  unfold validBcd at h
  rw [Bool.and_eq_true, decide_eq_true_iff, decide_eq_true_iff] at h
  unfold decOf
  omega

/-- The outcome of a decimal instruction from its result: `sum` is the exact sum or difference of the digits. -/
theorem bcd_outcome {write : Long → State} {k : Nat} {valid : Bool} {r : Nat} {carry : Bool} {sum : Int}
    (hc : Completes i s ((write (bcdResult k valid s.ccr (bcdByte r) carry).1).setFlags
      (bcdResult k valid s.ccr (bcdByte r) carry).2))
    (hv : valid = true → (r : Int) = sum % 100 ∧ carry = decide (sum < 0 ∨ 99 < sum)) :
    ∃ (r : Long) (n v c : Bool), Completes i s ((write r).setFlags ⟨c, n, s.ccr.z && r == 0, v, c⟩) ∧
      (valid = true → validBcd r = true ∧ (decOf r : Int) = sum % 100 ∧ r.toNat < 256 ∧ c = decide (sum < 0 ∨ 99 < sum)) := by
  refine ⟨_, _, _, _, hc, ?_⟩
  rintro rfl
  obtain ⟨hr, hcarry⟩ := hv rfl
  obtain ⟨h1, h2, h3⟩ := bcdByte_valid (t := r) (by omega)
  exact ⟨h1, (congrArg Nat.cast h2).trans hr, h3, hcarry⟩

theorem aluAbcd_exact (d a : Long) (x : Bool) :
    (((decOf d + decOf a + x.toNat) % 100 : Nat) : Int) = ((decOf d : Int) + decOf a + x.toNat) % 100 ∧
      decide (99 < decOf d + decOf a + x.toNat) =
        decide ((decOf d : Int) + decOf a + x.toNat < 0 ∨ 99 < (decOf d : Int) + decOf a + x.toNat) := by
  refine ⟨by omega, decide_eq_decide.mpr (by omega)⟩

theorem aluSbcd_valid {d a : Long} {x : Bool} (h : (validBcd d && validBcd a) = true) :
    (((100 + decOf d - (decOf a + x.toNat)) % 100 : Nat) : Int) = ((decOf d : Int) - decOf a - x.toNat) % 100 ∧
      decide (decOf d < decOf a + x.toNat) =
        decide ((decOf d : Int) - decOf a - x.toNat < 0 ∨ 99 < (decOf d : Int) - decOf a - x.toNat) := by
  rw [Bool.and_eq_true] at h
  have hd := decOf_lt h.1
  have ha := decOf_lt h.2
  have hx := x.toNat_le
  refine ⟨by omega, decide_eq_decide.mpr (by omega)⟩

theorem aluNbcd_valid {d : Long} {x : Bool} (h : validBcd d = true) :
    (((100 - (decOf d + x.toNat)) % 100 : Nat) : Int) = (0 - (decOf d : Int) - x.toNat) % 100 ∧
      decide (0 < decOf d + x.toNat) = decide (0 - (decOf d : Int) - x.toNat < 0 ∨ 99 < 0 - (decOf d : Int) - x.toNat) := by
  have hd := decOf_lt h
  have hx := x.toNat_le
  refine ⟨by omega, decide_eq_decide.mpr (by omega)⟩

/-- A byte operand is aligned anywhere. -/
theorem ready_byte (hs : s.Plain) (k : Nat) (ea : EA) : s.Ready k .b ea := by
  refine ⟨hs, ?_⟩
  cases s.locAt k .b ea
  case mem => rfl
  all_goals trivial

/-- A decimal instruction on registers. -/
theorem completes_bcd_reg (hs : s.Plain) {x y : RegNum} (u : Nat → Long → Alu)
    (hi : exec i s = runInstr adj (do let k ← takeBcdIndex; extended .b false x y (u k)) s) (hw : extensionWords i = []) :
    let r := u s.free (trunc .b s.d[y.val]) s.ccr (trunc .b s.d[x.val])
    Completes i s ((s.setDreg x (merge .b s.d[x.val] r.1)).setFlags r.2) := by
  obtain ⟨g, hr, hg⟩ := extended_reg_at (f := s.startFlow.spent 3) State.startFlow_pc hs (x := x) (y := y) (u s.free)
  exact completes_of_body hi (encode_length hw rfl) ((bind_of_ok (takeBcdIndex_run _)).trans hr)
    ((s.startFlow.spent_passed 3 s).done hg)

/-- A decimal instruction on predecremented memory. -/
theorem completes_bcd_mem (hs : s.Plain) {x y : RegNum} (u : Nat → Long → Alu)
    (hi : exec i s = runInstr adj (do let k ← takeBcdIndex; extended .b true x y (u k)) s) (hw : extensionWords i = []) :
    let s' := s.afterMode .b (.preDec y)
    let r := u s.free (s.operand 1 .b (.preDec y)) s.ccr (s'.operand 1 .b (.preDec x))
    Completes i s ((s'.result 1 .b (.preDec x) r.1).setFlags r.2) := by
  obtain ⟨g, hr, hg⟩ := extended_mem_at (f := s.startFlow.spent 3) State.startFlow_pc (x := x) (y := y) (u s.free)
    (ready_byte hs ..) (ready_byte (hs.afterMode ..) ..)
  exact completes_of_body hi (encode_length hw rfl) ((bind_of_ok (takeBcdIndex_run _)).trans hr)
    ((s.startFlow.spent_passed 3 s).done hg)

theorem completes_nbcd (hs : s.Plain) (dst : EA) :
    let r := aluNbcd s.free s.ccr (s.operand 1 .b dst)
    Completes (.nbcd dst) s ((s.result 1 .b dst r.1).setFlags r.2) := by
  obtain ⟨g, hr, hg⟩ := modifyOperand_at (f := s.startFlow.spent 3) State.startFlow_pc (ready_byte hs 1 dst) (aluNbcd s.free)
  exact completes_of_body rfl (encode_length rfl (EA.words_length _)) ((bind_of_ok (takeBcdIndex_run _)).trans hr)
    (Nat.zero_add (extCount dst) ▸ (s.startFlow.spent_passed 3 s).done hg)

/-- Settles O31: the decimal result of valid digits, in both forms. -/
theorem decimal : Obligations.Decimal := by
  intro s hs
  refine ⟨fun x y => ⟨?_, ?_⟩, fun x y => ⟨?_, ?_⟩, fun dst => ?_⟩
  · exact bcd_outcome (completes_bcd_reg hs aluAbcd rfl rfl) fun _ => aluAbcd_exact ..
  · exact bcd_outcome (completes_bcd_reg hs aluSbcd rfl rfl) aluSbcd_valid
  · exact bcd_outcome (completes_bcd_mem hs aluAbcd rfl rfl) fun _ => aluAbcd_exact ..
  · exact bcd_outcome (completes_bcd_mem hs aluSbcd rfl rfl) aluSbcd_valid
  · exact bcd_outcome (completes_nbcd hs dst) aluNbcd_valid

end Sys2Proof.Machine
end

section
/-! PROOFS. Data movement: MOVE, the instructions on registers alone, the status register, LEA and PEA; with the pieces of
instructions, from any flow, that they share with program control. -/

namespace Sys2Proof.Machine

variable {s e m : State} {i : Instr} {adj : List Adjusted} {f : Flow}

/-! ## Pieces of instructions from any flow -/

/-- A long word pushed. -/
theorem push32_of (h : s.Plain) (ha : (s.areg 7).getLsbD 0 = false) (m : State) (f : Flow) (v : Long) :
    ∃ g, push32 v (s.withFlow f) = .ok () ((s.pushed32 v).withFlow g) ∧ f.Passed g m 0 := by
  obtain ⟨t, h1, h2⟩ := push32_plain (h.withFlow f) ha v
  obtain ⟨g, rfl, h3⟩ := h2.flow m
  rw [State.withFlow_pushed32] at h1 h3
  exact ⟨g, h1, h3⟩

theorem State.setAreg_withFlow_flow (f : Flow) (n : RegNum) (v : Long) : ((s.withFlow f).setAreg n v).flow = f :=
  State.setAreg_flow n v

/-- A long word popped. -/
theorem pop32_of (h : s.Plain) (ha : (s.areg 7).getLsbD 0 = false) (m : State) (f : Flow) :
    ∃ g, pop32 (s.withFlow f) = .ok (s.load .l (s.areg 7)) ((s.setAreg 7 (s.areg 7 + 4)).withFlow g) ∧ f.Passed g m 0 := by
  obtain ⟨t, h1, h2⟩ := pop32_plain (h.withFlow f) ha
  obtain ⟨g, rfl, h3⟩ := h2.flow m
  rw [State.setAreg_withFlow_flow] at h3
  rw [State.withFlow_setAreg, State.withFlow_withFlow, State.withFlow_load] at h1
  exact ⟨g, h1, h3⟩

/-- A word popped. -/
theorem pop16_of (h : s.Plain) (ha : (s.areg 7).getLsbD 0 = false) (m : State) (f : Flow) :
    ∃ g, pop16 (s.withFlow f) = .ok (lowWord (s.load .w (s.areg 7))) ((s.setAreg 7 (s.areg 7 + 2)).withFlow g) ∧
      f.Passed g m 0 := by
  obtain ⟨t, h1, h2⟩ := pop16_plain (h.withFlow f) ha
  obtain ⟨g, rfl, h3⟩ := h2.flow m
  rw [State.setAreg_withFlow_flow] at h3
  rw [State.withFlow_setAreg, State.withFlow_withFlow, State.withFlow_load] at h1
  exact ⟨g, h1, h3⟩

/-- An operand resolved at word `k`. -/
theorem resolve_at {k : Nat} (hf : f.pc = s.pc + BitVec.ofNat 32 (2 * k)) (h : s.Plain) (sz : Size) (ea : EA) :
    ∃ g, resolve sz ea (s.withFlow f) = .ok (s.locAt k sz ea) ((s.afterMode sz ea).withFlow g) ∧ f.Passed g s (extCount ea) := by
  obtain ⟨g, h1, h2⟩ := resolve_plain (h.withFlow f) sz ea
  rw [State.withFlow_locate hf, State.withFlow_afterMode, State.withFlow_withFlow] at h1
  exact ⟨g, h1, h2.congr rfl⟩

/-- The state is written with condition codes before or after. -/
theorem State.result_setFlags (k : Nat) (sz : Size) (ea : EA) (v : Long) (c : CCR) :
    ((s.afterMode sz ea).setFlags c).written sz (s.locAt k sz ea) v = (s.result k sz ea v).setFlags c :=
  State.written_setFlags ..

/-- An operand written with the condition codes as they were. -/
theorem State.result_setFlags_self (k : Nat) (sz : Size) (ea : EA) (v : Long) :
    (s.result k sz ea v).setFlags s.ccr = s.result k sz ea v := by
  rw [← State.result_setFlags, ← State.afterMode_ccr (s := s) sz ea]
  rfl

/-! ## MOVE -/

/-- Only MOVE.L of an address register through itself adjusted has a free value. -/
theorem selfAdjusted_eq_none {sz : Size} {src dst : EA}
    (h : ¬ (sz = .l ∧ ∃ n, src = .areg n ∧ (dst = .postInc n ∨ dst = .preDec n))) : selfAdjusted sz src dst = none := by
  unfold selfAdjusted
  split
  · exact if_neg fun hn => h ⟨rfl, _, rfl, .inl (congrArg EA.postInc hn.symm)⟩
  · exact if_neg fun hn => h ⟨rfl, _, rfl, .inr (congrArg EA.preDec hn.symm)⟩
  · rfl

/-- The value MOVE stores, once the source is read and the destination resolved: no word is used for it. -/
def MovesValue (sz : Size) (src dst : EA) (e : State) (f : Flow) (v w : Long) : Prop :=
  ∃ g, movedValue sz src dst v (e.withFlow f) = .ok w (e.withFlow g) ∧ f.Passed g e 0

theorem movesValue_of_none {sz : Size} {src dst : EA} (h : selfAdjusted sz src dst = none) (v : Long) :
    MovesValue sz src dst e f v v := by
  refine ⟨f, ?_, Flow.Passed.refl f e⟩
  unfold movedValue
  rw [h]
  rfl

/-- The value of MOVE.L of an address register through itself adjusted is the old or the new one. -/
theorem movesValue_of_some {sz : Size} {src dst : EA} {n : RegNum} (h : selfAdjusted sz src dst = some n) (v : Long) :
    ∃ w, (w = v ∨ w = e.areg n) ∧ MovesValue sz src dst e f v w := by
  refine ⟨if Config.freeBit f.free then v else e.areg n, ite_eq_or_eq .., f.spent 1, ?_, f.spent_passed 1 e⟩
  unfold movedValue
  rw [h]
  rfl

theorem exec_moveInstr (sz : Size) (src dst : EA) :
    exec (moveInstr sz src dst) s = runInstr (adjusts2 sz src dst s) (moveBody sz src dst) s := by cases sz <;> rfl

theorem extensionWords_moveInstr (sz : Size) (src dst : EA) :
    extensionWords (moveInstr sz src dst) = src.words ++ dst.words := by cases sz <;> rfl

theorem ea_and_ea_length (src dst : EA) : (src.words ++ dst.words).length = extCount src + extCount dst := by
  rw [List.length_append, EA.words_length, EA.words_length]

/-- MOVE, given what is known of the value it stores. -/
theorem completes_move {sz : Size} {src dst : EA} {Q : Long → Prop} (h : s.Ready 1 sz src)
    (hd : (s.afterMode sz src).Ready (1 + extCount src) sz dst)
    (hw : ∀ f, ∃ w, Q w ∧ MovesValue sz src dst ((s.afterMode sz src).afterMode sz dst) f (s.operand 1 sz src) w) :
    ∃ w, Q w ∧ Completes (moveInstr sz src dst) s
      (((s.afterMode sz src).result (1 + extCount src) sz dst w).setFlags (logicFlags sz s.ccr w)) := by
  obtain ⟨f1, h1, p1⟩ := fetchOperand_at State.startFlow_pc h
  obtain ⟨f2, h2, p2⟩ := resolve_at (s := s.afterMode sz src) (f := f1) (k := 1 + extCount src)
    (by rw [p1.pc_eq, State.startFlow_pc, pc_add, State.afterMode_pc]) hd.1 sz dst
  obtain ⟨w, hq, f3, h3, p3⟩ := hw f2
  obtain ⟨g, h4, p4⟩ := writeBack_of (m := s) (hd.1.afterMode sz dst)
    ((State.afterMode_mem ..).trans (State.afterMode_mem ..)) hd.2 f3 fun c => (w, logicFlags sz c w)
  refine ⟨w, hq, completes_of_body (g := g) (exec_moveInstr ..)
    (encode_length (extensionWords_moveInstr ..) (ea_and_ea_length ..)) ?_
    ((p1.trans ((p2.congr (State.afterMode_mem ..)).same p3)).done p4)⟩
  unfold moveBody
  rw [bind_of_ok h1, bind_of_ok h2, bind_of_ok h3]
  rw [State.afterMode_ccr, State.afterMode_ccr, State.result_setFlags] at h4
  exact h4

/-- Settles O33: MOVE stores the source operand where its value is not free. -/
theorem move : Obligations.Move := by
  intro s sz src dst
  dsimp only
  rw [EA.words_length]
  intro h hd hself
  obtain ⟨_, rfl, hc⟩ := completes_move (Q := (· = s.operand 1 sz src)) h hd fun _ =>
    ⟨_, rfl, movesValue_of_none (selfAdjusted_eq_none hself) _⟩
  exact hc

theorem logicFlags_long (c : CCR) (r : Long) : logicFlags .l c r = ⟨c.x, r.msb, r == 0, false, false⟩ := by
  rw [← msb_long]
  rfl

theorem selfAdjusted_self {n : RegNum} {dst : EA} (h : dst = .postInc n ∨ dst = .preDec n) :
    selfAdjusted .l (.areg n) dst = some n := by
  rcases h with rfl | rfl
  · exact if_pos rfl
  · exact if_pos rfl

/-- Settles O34: the free value is the register before or after the adjustment. -/
theorem moveSelfAdjusted : Obligations.MoveSelfAdjusted := by
  intro s n dst hdst h
  obtain ⟨w, hw, hc⟩ := completes_move (src := .areg n) (dst := dst)
    (Q := fun w => w = s.areg n ∨ w = (s.afterMode .l dst).areg n) ⟨h.1, trivial⟩ h
    fun _ => movesValue_of_some (selfAdjusted_self hdst) (s.areg n)
  refine ⟨w, hw, ?_⟩
  rw [← logicFlags_long]
  exact hc

/-! ## Registers alone -/

/-- An instruction on one data register at a size. -/
theorem completes_onReg (hs : s.Plain) {sz : Size} {n : RegNum} (u : Alu) (hi : exec i s = runInstr adj (onReg sz n u) s)
    (hx : extensionWords i = []) :
    Completes i s ((s.setDreg n (merge sz s.d[n.val] (u s.ccr (trunc sz s.d[n.val])).1)).setFlags
      (u s.ccr (trunc sz s.d[n.val])).2) :=
  completes_modifyOperand (ea := .dreg n) u hi hx (ready_dreg hs ..)

theorem lowWord_ofWord (w : Word) : lowWord (ofWord w) = w := by
  apply BitVec.eq_of_toNat_eq
  have h := w.isLt
  rw [lowWord_toNat, ofWord, BitVec.toNat_setWidth]
  omega

theorem logicFlags_word (c : CCR) (w : Word) : logicFlags .w c (ofWord w) = ⟨c.x, w.msb, w == 0, false, false⟩ := by
  have hn : msb .w (ofWord w) = w.msb := by
    rw [BitVec.msb_eq_getLsbD_last]
    simp [msb, ofWord, Size.bits]
  have hz : (ofWord w == 0) = (w == 0) := by
    rw [Bool.eq_iff_iff, beq_iff_eq, beq_iff_eq]
    exact ⟨fun h => by rw [← lowWord_ofWord w, h]; rfl, fun h => by rw [h]; rfl⟩
  unfold logicFlags
  rw [hn, hz]

theorem trunc_word (v : Long) : trunc .w v = ofWord (lowWord v) := rfl

/-- What EXT.W computes. -/
theorem lowWord_sext_byte (v : Long) : lowWord (sext .b (trunc .w v)) = (v.setWidth 8).signExtend 16 := by
  show (((v.setWidth 16).setWidth 32).setWidth 8 |>.signExtend 32).setWidth 16 = _
  ext j hj
  simp only [BitVec.getElem_setWidth, BitVec.getLsbD_signExtend, BitVec.getElem_signExtend, BitVec.getLsbD_setWidth,
    BitVec.msb_eq_getLsbD_last]
  simp
  interval_cases j <;> simp

theorem completes_extW (hs : s.Plain) (x : RegNum) {w : Word} (hw : w = (s.d[x.val].setWidth 8).signExtend 16) :
    Completes (.extW x) s ((s.setDreg x (highWord s.d[x.val] ++ w)).setFlags ⟨s.ccr.x, w.msb, w == 0, false, false⟩) := by
  have h := completes_onReg hs (i := .extW x)
    (fun c v => (trunc .w (sext .b v), logicFlags .w c (trunc .w (sext .b v)))) rfl rfl
  rw [trunc_word (sext .b _), lowWord_sext_byte, ← hw, logicFlags_word, merge_word, lowWord_ofWord] at h
  exact h

/-- EXG reads both registers after the last fetch and writes both. -/
theorem completes_exchange (hs : s.Plain) {x y : Reg} (hi : exec i s = runInstr adj (exchange x y) s)
    (hx : extensionWords i = []) : Completes i s ((s.setReg x (s.reg y)).setReg y (s.reg x)) := by
  obtain ⟨g, h1, p1⟩ := lastFetch_of (m := s) hs rfl s.startFlow
  have set : ∀ (r : Reg) (v : Long) (u : State), setReg r v (u.withFlow g) = .ok () ((u.setReg r v).withFlow g) := by
    intro r v u
    cases r with
    | d n => rfl
    | a n => exact congrArg (EStateM.Result.ok ()) (State.withFlow_setAreg g n v)
  refine completes_of_body (g := g) hi (encode_length hx rfl) ?_ p1
  unfold exchange
  rw [bind_of_ok h1, inspect_bind, inspect_bind, bind_of_ok (set ..)]
  simp only [State.withFlow_reg]
  exact set ..

/-- Settles O35: the results written out. -/
theorem registerOnly : Obligations.RegisterOnly := by
  intro s x y hs
  dsimp only
  refine ⟨fun b => ?_, ?_, completes_extW hs x rfl, ?_, ?_, ?_, ?_⟩
  · rw [← logicFlags_long]
    exact completes_onReg hs (i := .moveq x b) (fun c _ => (sextByte b, logicFlags .l c (sextByte b))) rfl rfl
  · rw [← logicFlags_long]
    exact completes_onReg hs (i := .swap x)
      (fun c v => (joinWords (lowWord v) (highWord v), logicFlags .l c (joinWords (lowWord v) (highWord v)))) rfl rfl
  · rw [← logicFlags_long]
    exact completes_onReg hs (i := .extL x) (fun c v => (sext .w v, logicFlags .l c (sext .w v))) rfl rfl
  · exact completes_exchange hs (x := .d x) (y := .d y) rfl rfl
  · exact completes_exchange hs (x := .a x) (y := .a y) rfl rfl
  · exact completes_exchange hs (x := .d x) (y := .a y) rfl rfl

/-! ## The status register -/

theorem CCR.ofByte_toByte (c : CCR) : CCR.ofByte c.toByte = c := by
  obtain ⟨x, n, z, v, k⟩ := c
  cases x <;> cases n <;> cases z <;> cases v <;> cases k <;> rfl

theorem CCR.toByte_getLsbD (c : CCR) : c.toByte.getLsbD 4 = c.x ∧ c.toByte.getLsbD 3 = c.n ∧ c.toByte.getLsbD 2 = c.z ∧
    c.toByte.getLsbD 1 = c.v ∧ c.toByte.getLsbD 0 = c.c := by
  have h := CCR.ofByte_toByte c
  exact ⟨congrArg CCR.x h, congrArg CCR.n h, congrArg CCR.z h, congrArg CCR.v h, congrArg CCR.c h⟩

/-- A word is one that SR can read as when its places and its unused bits agree with those of another. -/
theorem sr_word_ext {w u : Word} (h15 : w.getLsbD 15 = u.getLsbD 15) (h13 : w.getLsbD 13 = u.getLsbD 13)
    (hm : w.extractLsb' 8 3 = u.extractLsb' 8 3) (h4 : w.getLsbD 4 = u.getLsbD 4) (h3 : w.getLsbD 3 = u.getLsbD 3)
    (h2 : w.getLsbD 2 = u.getLsbD 2) (h1 : w.getLsbD 1 = u.getLsbD 1) (h0 : w.getLsbD 0 = u.getLsbD 0)
    (hz : w &&& 0x58E0 = u &&& 0x58E0) : w = u := by
  have mask : ∀ j < 3, w.getLsbD (8 + j) = u.getLsbD (8 + j) := by
    intro j hj
    have h := congrArg (fun b : BitVec 3 => b.getLsbD j) hm
    simpa [BitVec.getLsbD_extractLsb', hj] using h
  have unused : ∀ j, (0x58E0 : Word).getLsbD j = true → w.getLsbD j = u.getLsbD j := by
    intro j hj
    have h := congrArg (fun b : Word => b.getLsbD j) hz
    simpa only [BitVec.getLsbD_and, hj, Bool.and_true] using h
  apply BitVec.eq_of_getLsbD_eq
  intro j hj
  interval_cases j
  · exact h0
  · exact h1
  · exact h2
  · exact h3
  · exact h4
  · exact unused 5 (by decide)
  · exact unused 6 (by decide)
  · exact unused 7 (by decide)
  · exact mask 0 (by decide)
  · exact mask 1 (by decide)
  · exact mask 2 (by decide)
  · exact unused 11 (by decide)
  · exact unused 12 (by decide)
  · exact h13
  · exact unused 14 (by decide)
  · exact h15

theorem CCR.toByte_high (c : CCR) :
    c.toByte.getLsbD 5 = false ∧ c.toByte.getLsbD 6 = false ∧ c.toByte.getLsbD 7 = false := by
  obtain ⟨x, n, z, v, k⟩ := c
  cases x <;> cases n <;> cases z <;> cases v <;> cases k <;> decide

/-- Each bit of SR. -/
theorem State.sr_getLsbD (s : State) (j : Nat) : s.sr.getLsbD j =
    if j < 8 then s.ccr.toByte.getLsbD j else if j < 11 then s.mask.getLsbD (j - 8) else
      (j == 13 && s.super) || (j == 15 && s.trace) := by
  show (BitVec.ofBool s.trace ++ 0#1 ++ BitVec.ofBool s.super ++ 0#2 ++ s.mask ++ s.ccr.toByte).getLsbD j = _
  simp only [BitVec.getLsbD_append, BitVec.getLsbD_zero, BitVec.getLsbD_ofBool]
  split_ifs <;> grind

/-- SR reads as the word of the model. -/
theorem srReads_sr (s : State) : s.SrReads s.sr := by
  obtain ⟨h4, h3, h2, h1, h0⟩ := CCR.toByte_getLsbD s.ccr
  obtain ⟨h5, h6, h7⟩ := CCR.toByte_high s.ccr
  have hmask : s.sr.extractLsb' 8 3 = s.mask := by
    apply BitVec.eq_of_getLsbD_eq
    intro j hj
    rw [BitVec.getLsbD_extractLsb', State.sr_getLsbD, if_neg (by omega), if_pos (by omega), Nat.add_sub_cancel_left]
    simp [hj]
  have hunused : s.sr &&& 0x58E0 = 0 := by
    apply BitVec.eq_of_getLsbD_eq
    intro j hj
    rw [BitVec.getLsbD_and, State.sr_getLsbD]
    by_cases hccr : 5 ≤ j ∧ j < 8
    · have hbit : s.ccr.toByte.getLsbD j = false := by
        obtain rfl | rfl | rfl : j = 5 ∨ j = 6 ∨ j = 7 := by omega
        · exact h5
        · exact h6
        · exact h7
      rw [if_pos hccr.2, hbit, Bool.false_and]
      exact BitVec.getLsbD_zero.symm
    · interval_cases j <;> simp at hccr ⊢
  exact ⟨s.sr_getLsbD 15, (s.sr_getLsbD 13).trans (Bool.or_false _), hmask, (s.sr_getLsbD 4).trans h4, (s.sr_getLsbD 3).trans h3,
    (s.sr_getLsbD 2).trans h2, (s.sr_getLsbD 1).trans h1, (s.sr_getLsbD 0).trans h0, hunused⟩

theorem State.SrReads.unique {w : Word} (h : s.SrReads w) : w = s.sr := by
  obtain ⟨a15, a13, am, a4, a3, a2, a1, a0, az⟩ := h
  obtain ⟨b15, b13, bm, b4, b3, b2, b1, b0, bz⟩ := srReads_sr s
  exact sr_word_ext (a15.trans b15.symm) (a13.trans b13.symm) (am.trans bm.symm) (a4.trans b4.symm) (a3.trans b3.symm)
    (a2.trans b2.symm) (a1.trans b1.symm) (a0.trans b0.symm) (az.trans bz.symm)

/-- The operations of a byte on CCR. -/
theorem completes_onCcr (hs : s.Plain) {op : Byte → Byte} (hi : exec i s = runInstr adj (onCcr op) s)
    (hx : (extensionWords i).length = 1) : Completes i s (s.setFlags (CCR.ofByte (op s.ccr.toByte))) := by
  obtain ⟨f1, h1, p1⟩ := fetchExts_of (m := s) hs rfl s.startFlow 1
  obtain ⟨g, h2, p2⟩ := lastFetch_of (m := s) hs rfl f1
  refine completes_of_body (g := g) hi (encode_length rfl hx) ?_ (p1.done p2)
  unfold onCcr
  rw [bind_of_ok h1, bind_of_ok h2]
  rfl

/-- Settles O36: the places of SR and what writes CCR. -/
theorem statusRegister : Obligations.StatusRegister := by
  intro s
  refine ⟨srReads_sr s, fun w h => h.unique, fun ea h => ⟨?_, ?_⟩, fun hs b => ?_⟩
  · rw [← State.result_setFlags_self]
    exact completes_storeOperand (i := .moveFromSr ea) (fun c => (ofWord s.sr, c)) rfl rfl h
  · exact completes_testOperand (i := .moveToCcr ea) (fun _ v => CCR.ofByte (v.setWidth 8)) rfl rfl h
  · obtain ⟨h4, h3, h2, h1, h0⟩ := CCR.toByte_getLsbD s.ccr
    dsimp only
    rw [← h4, ← h3, ← h2, ← h1, ← h0]
    simp only [← BitVec.getLsbD_and, ← BitVec.getLsbD_or, ← BitVec.getLsbD_xor]
    exact ⟨completes_onCcr hs (op := (· &&& b)) rfl rfl, completes_onCcr hs (op := (· ||| b)) rfl rfl,
      completes_onCcr hs (op := (· ^^^ b)) rfl rfl⟩

/-! ## Supervisor state -/

theorem State.setSr_eq_withSr (s : State) (w : Word) : s.setSr w = s.withSr w := by
  unfold State.setSr State.withSr CCR.ofByte
  simp only [BitVec.getLsbD_setWidth, decide_true, Bool.true_and, Nat.reduceLT]

/-- A write of SR that keeps S. -/
theorem writeSr_same (h : s.Plain) (hm : s.mem = m.mem) (f : Flow) {op : Word → Word} {w : Word} (hw : op s.sr = w)
    (hS : w.getLsbD 13 = s.super) : ∃ g, writeSr op (s.withFlow f) = .ok () ((s.withSr w).withFlow g) ∧ f.Done g m 0 := by
  obtain ⟨g, h1, p1⟩ := lastFetch_of h hm f
  refine ⟨g, ?_, p1⟩
  unfold writeSr
  rw [inspect_bind, State.withFlow_sr, hw, inspect_bind, State.withFlow_super, if_pos hS, bind_of_ok h1, ← State.setSr_eq_withSr]
  rfl

/-- A write of SR that changes S fills the queue again. -/
theorem writeSr_changed (h : s.Plain) (f : Flow) {op : Word → Word} {w : Word} (hw : op s.sr = w)
    (hS : w.getLsbD 13 ≠ s.super) (hpc : f.pc.getLsbD 0 = false) :
    ∃ g, writeSr op (s.withFlow f) = .ok () ((s.withSr w).withFlow g) ∧ f.Arrived g (s.withSr w) f.pc := by
  have hp : (s.setSr w).Plain := h
  obtain ⟨g, h1, p1⟩ := jump_of hp f hpc
  rw [← State.setSr_eq_withSr]
  refine ⟨g, ?_, p1⟩
  unfold writeSr
  rw [inspect_bind, State.withFlow_sr, hw, inspect_bind, State.withFlow_super, if_neg hS, update_bind, State.withFlow_setSr]
  exact h1

theorem pc_even {p : Long} (k : Nat) (h : p.getLsbD 0 = false) : (p + BitVec.ofNat 32 (2 * k)).getLsbD 0 = false := by
  rw [getLsbD_zero_add]
  · exact h
  · rw [BitVec.getLsbD_ofNat, Nat.testBit_zero]
    simp

/-- An instruction that ends with a write of SR, in supervisor state: it goes on or fills the queue again. -/
theorem writes_of_body {body : Exec Unit} {op : Word → Word} {w : Word} {n : Nat} (hS : s.super = true)
    (hi : exec i s = runInstr adj body s) (hn : (encode i).length = 1 + n) (he : e.Plain) (hem : e.mem = s.mem)
    (hes : e.super = s.super) (hw : op e.sr = w) (hb : body (s.withFlow s.startFlow) = writeSr op (e.withFlow f))
    (hf : s.startFlow.Passed f s n) :
    (w.getLsbD 13 = true → Completes i s (e.withSr w)) ∧
    (w.getLsbD 13 = false → s.pc.getLsbD 0 = false →
      TransfersTo i s (e.withSr w) (s.pc + BitVec.ofNat 32 (2 * (encode i).length))) := by
  constructor
  · intro h13
    obtain ⟨g, h1, p1⟩ := writeSr_same he hem f hw (by rw [h13, hes, hS])
    exact completes_of_body hi hn (hb.trans h1) (hf.done p1)
  · intro h13 hpc
    have hpc' : f.pc = s.pc + BitVec.ofNat 32 (2 * (encode i).length) := by rw [hf.pc_eq, State.startFlow_pc, pc_add, hn]
    obtain ⟨g, h1, p1⟩ := writeSr_changed he f hw (by rw [h13, hes, hS]; decide) (by rw [hpc']; exact pc_even _ hpc)
    rw [hpc'] at p1
    exact transfers_of_body hi (hb.trans h1) (hf.arrived p1)

/-- The operations of a word on SR. -/
theorem writes_onSr (hs : s.Plain) (hS : s.super = true) {op : Word → Word} {w : Word}
    (hi : exec i s = runInstr adj (onSr op) s) (hn : (encode i).length = 1 + 1) (hw : op s.sr = w) :
    (w.getLsbD 13 = true → Completes i s (s.withSr w)) ∧
    (w.getLsbD 13 = false → s.pc.getLsbD 0 = false →
      TransfersTo i s (s.withSr w) (s.pc + BitVec.ofNat 32 (2 * (encode i).length))) := by
  obtain ⟨f1, h1, p1⟩ := fetchExts_of (m := s) hs rfl s.startFlow 1
  exact writes_of_body hS hi hn hs rfl rfl hw (bind_of_ok h1) p1

theorem writes_moveToSr (hS : s.super = true) {src : EA} (h : s.Ready 1 .w src) {w : Word}
    (hw : w = lowWord (s.operand 1 .w src)) :
    (w.getLsbD 13 = true → Completes (.moveToSr src) s ((s.afterMode .w src).withSr w)) ∧
    (w.getLsbD 13 = false → s.pc.getLsbD 0 = false →
      TransfersTo (.moveToSr src) s ((s.afterMode .w src).withSr w)
        (s.pc + BitVec.ofNat 32 (2 * (encode (.moveToSr src)).length))) := by
  obtain ⟨f1, h1, p1⟩ := fetchOperand_at State.startFlow_pc h
  exact writes_of_body (op := fun _ => lowWord (s.operand 1 .w src)) hS (privileged_super hS)
    (encode_length rfl (EA.words_length _)) (h.1.afterMode ..) (State.afterMode_mem ..) (State.afterMode_super ..) hw.symm
    (bind_of_ok h1) p1

/-- The moves between an address register and the user stack pointer. -/
theorem completes_moveUsp (hs : s.Plain) {body : Exec Unit} (hi : exec i s = runInstr adj body s) (hx : extensionWords i = [])
    (hb : ∀ f g, lastFetch (s.withFlow f) = .ok () (s.withFlow g) → body (s.withFlow f) = .ok () (e.withFlow g)) :
    Completes i s e := by
  obtain ⟨g, h1, p1⟩ := lastFetch_of (m := s) hs rfl s.startFlow
  exact completes_of_body hi (encode_length hx rfl) (hb _ _ h1) p1

/-- Settles O37: MOVE USP, and a write of SR by its places. -/
theorem supervisorMoves : Obligations.SupervisorMoves := by
  intro s sr hS hs hsr
  obtain rfl := hsr.unique
  refine ⟨fun an => ⟨?_, ?_⟩, fun src h => writes_moveToSr hS h rfl, fun w => ⟨?_, ?_, ?_⟩⟩
  · exact completes_moveUsp hs (i := .moveToUsp an) (privileged_super hS) rfl fun _ _ h1 => bind_of_ok h1
  · exact completes_moveUsp hs (i := .moveFromUsp an) (privileged_super hS) rfl fun _ g h1 =>
      (bind_of_ok h1).trans (congrArg (EStateM.Result.ok ()) (State.withFlow_setAreg g an _))
  · exact writes_onSr hs hS (op := (· &&& w)) (privileged_super hS) rfl rfl
  · exact writes_onSr hs hS (op := (· ||| w)) (privileged_super hS) rfl rfl
  · exact writes_onSr hs hS (op := (· ^^^ w)) (privileged_super hS) rfl rfl

/-! ## LEA and PEA -/

/-- A control mode adjusts no register. -/
theorem State.afterMode_of_control {ea : EA} (h : ea.mode.isControl = true) (sz : Size) : s.afterMode sz ea = s := by
  cases ea
  case postInc => cases h
  case preDec => cases h
  all_goals rfl

/-- The address of a control operand, from the second word of an instruction. -/
theorem controlAddress_start (h : s.Plain) {ea : EA} (hc : ea.mode.isControl = true) {sp : Space} {x : Long} {p : Bool}
    (hx : s.locAt 1 .l ea = .mem sp x p) :
    ∃ g, controlAddress ea (s.withFlow s.startFlow) = .ok x (s.withFlow g) ∧ s.startFlow.Passed g s (extCount ea) := by
  obtain ⟨g, h1, p1⟩ := controlAddress_at State.startFlow_pc h hx
  rw [State.afterMode_of_control hc] at h1
  exact ⟨g, h1, p1⟩

/-- Settles O38: the address is computed, the next instruction fetched, the address written or pushed. -/
theorem loadAddress : Obligations.LoadAddress := by
  intro s an src sp addr p hs hc hx
  obtain ⟨f1, h1, p1⟩ := controlAddress_start hs hc hx
  obtain ⟨f2, h2, p2⟩ := lastFetch_of (m := s) hs rfl f1
  refine ⟨?_, fun h7 => ?_⟩
  · exact completes_of_body (g := f2) (i := .lea an src) rfl (encode_length rfl (EA.words_length _))
      ((bind_of_ok h1).trans ((bind_of_ok h2).trans (congrArg (EStateM.Result.ok ()) (State.withFlow_setAreg f2 an addr))))
      (p1.done p2)
  · obtain ⟨g, h3, p3⟩ := push32_of hs h7 s f2 addr
    exact completes_of_body (i := .pea src) rfl (encode_length rfl (EA.words_length _))
      ((bind_of_ok h1).trans ((bind_of_ok h2).trans h3)) ((p1.done p2).same p3)

end Sys2Proof.Machine
end

section
/-! PROOFS. Program control: branches, jumps, returns, DBcc, NOP, RESET, STOP and the traps. -/

namespace Sys2Proof.Machine

variable {s e m : State} {i : Instr} {adj : List Adjusted} {f : Flow}

/-! ## Branches and jumps -/

/-- The displacement of a branch, sign-extended. -/
def dispOffset : Disp → Long
  | .short b => b.signExtend 32
  | .word w => w.signExtend 32

/-- The target of a branch is relative to the word after the operation word. -/
theorem branchTarget_start (hs : s.Plain) (d : Disp) :
    ∃ g, branchTarget d (s.withFlow s.startFlow) = .ok (s.pc + 2 + dispOffset d) (s.withFlow g) ∧
      s.startFlow.Passed g s d.words.length := by
  cases d with
  | short b => exact ⟨s.startFlow, rfl, Flow.Passed.refl _ _⟩
  | word w =>
    obtain ⟨g, h1, p1⟩ := fetchExt_plain (hs.withFlow s.startFlow)
    exact ⟨g, bind_of_ok h1, p1.congr rfl⟩

/-- An instruction that computes a target, then transfers control there. -/
theorem transfers_of_target {n : Nat} {t : Long} {target : Exec Long} (hs : s.Plain)
    (hi : exec i s = runInstr adj (do let t ← target; jump t) s)
    (ht : ∃ g, target (s.withFlow s.startFlow) = .ok t (s.withFlow g) ∧ s.startFlow.Passed g s n)
    (heven : t.getLsbD 0 = false) : TransfersTo i s s t := by
  obtain ⟨f1, h1, p1⟩ := ht
  obtain ⟨g, h2, p2⟩ := jump_of hs f1 heven
  exact transfers_of_body hi ((bind_of_ok h1).trans h2) (p1.arrived p2)

/-- An instruction that computes a target, pushes the address of the next instruction, then transfers control. -/
theorem transfers_of_call {n : Nat} {t : Long} {target : Exec Long} (hs : s.Plain)
    (hi : exec i s = runInstr adj (do let t ← target; let next ← getPc; push32 next; jump t) s)
    (ht : ∃ g, target (s.withFlow s.startFlow) = .ok t (s.withFlow g) ∧ s.startFlow.Passed g s n)
    (h7 : (s.areg 7).getLsbD 0 = false) (heven : t.getLsbD 0 = false) :
    TransfersTo i s (s.pushed32 (s.pc + BitVec.ofNat 32 (2 * (1 + n)))) t := by
  obtain ⟨f1, h1, p1⟩ := ht
  have hpc : f1.pc = s.pc + BitVec.ofNat 32 (2 * (1 + n)) := by rw [p1.pc_eq, State.startFlow_pc, pc_add]
  obtain ⟨f2, h2, p2⟩ := push32_of hs h7 s f1 f1.pc
  obtain ⟨g, h3, p3⟩ := jump_of (hs.pushed32 f1.pc) f2 heven
  rw [← hpc]
  exact transfers_of_body hi ((bind_of_ok h1).trans ((bind_of_ok h2).trans h3)) ((p1.same p2).arrived p3)

theorem bcc_taken (hs : s.Plain) {d : Disp} {cond : Cond} (hc : condHolds s.ccr cond = true)
    (ht : (s.pc + 2 + dispOffset d).getLsbD 0 = false) : TransfersTo (.bcc cond d) s s (s.pc + 2 + dispOffset d) := by
  obtain ⟨f1, h1, p1⟩ := branchTarget_start hs d
  obtain ⟨g, h2, p2⟩ := jump_of hs f1 ht
  refine transfers_of_body rfl ((bind_of_ok h1).trans ?_) (p1.arrived p2)
  show (if condHolds s.ccr cond then jump (s.pc + 2 + dispOffset d) else lastFetch : Exec Unit) (s.withFlow f1) = _
  rw [if_pos hc]
  exact h2

theorem bcc_notTaken (hs : s.Plain) {d : Disp} {cond : Cond} (hc : condHolds s.ccr cond = false) :
    Completes (.bcc cond d) s s := by
  obtain ⟨f1, h1, p1⟩ := branchTarget_start hs d
  obtain ⟨g, h2, p2⟩ := lastFetch_of (m := s) hs rfl f1
  refine completes_of_body rfl (encode_length rfl rfl) ((bind_of_ok h1).trans ?_) (p1.done p2)
  show (if condHolds s.ccr cond then jump (s.pc + 2 + dispOffset d) else lastFetch : Exec Unit) (s.withFlow f1) = _
  rw [if_neg (by rw [hc]; decide)]
  exact h2

/-- Settles O42: the target is computed first; a branch then goes there, or on. -/
theorem branches : Obligations.Branches := by
  intro s d hs
  have key : ((s.pc + 2 + dispOffset d).getLsbD 0 = false →
      TransfersTo (.bra d) s s (s.pc + 2 + dispOffset d) ∧
      (∀ cond, condHolds s.ccr cond = true → TransfersTo (.bcc cond d) s s (s.pc + 2 + dispOffset d)) ∧
      ((s.areg 7).getLsbD 0 = false →
        TransfersTo (.bsr d) s (s.pushed32 (s.pc + BitVec.ofNat 32 (2 * (1 + d.words.length))))
          (s.pc + 2 + dispOffset d))) := fun ht =>
    ⟨transfers_of_target hs rfl (branchTarget_start hs d) ht, fun _ hc => bcc_taken hs hc ht,
      fun h7 => transfers_of_call hs rfl (branchTarget_start hs d) h7 ht⟩
  refine ⟨?_, fun cond hc => bcc_notTaken hs hc⟩
  cases d with
  | short b => exact key
  | word w => exact key

/-- Settles O43: the target is the address of a control operand. -/
theorem jumps : Obligations.Jumps := by
  intro s dst sp addr p hs hc hx ht
  have h := controlAddress_start hs hc hx
  refine ⟨transfers_of_target hs rfl h ht, fun h7 => ?_⟩
  rw [EA.words_length]
  exact transfers_of_call hs rfl h h7 ht

/-! ## Returns -/

theorem add_two_two (x : Long) : x + 2 + 4 = x + 6 := by rw [BitVec.add_assoc]; rfl

theorem State.setAreg_setAreg_same (s : State) (n : RegNum) (v w : Long) : (s.setAreg n v).setAreg n w = s.setAreg n w := by
  have hs : (s.setAreg n v).super = s.super := State.setAreg_super ..
  unfold State.setAreg at hs ⊢
  by_cases hn : n.val < 7
  · simp only [dif_pos hn, Vector.set_set]
  · simp only [dif_neg hn] at hs ⊢
    cases s.super <;> simp

theorem rts_transfers (hs : s.Plain) (h7 : (s.areg 7).getLsbD 0 = false)
    (ht : (s.load .l (s.areg 7)).getLsbD 0 = false) :
    TransfersTo .rts s (s.setAreg 7 (s.areg 7 + 4)) (s.load .l (s.areg 7)) := by
  obtain ⟨f1, h1, p1⟩ := pop32_of hs h7 s s.startFlow
  obtain ⟨g, h2, p2⟩ := jump_of (hs.setAreg 7 _) f1 ht
  exact transfers_of_body rfl ((bind_of_ok h1).trans h2) (p1.arrived p2)

/-- The two pops of RTR and RTE. -/
theorem popFrame_of (hs : s.Plain) (h7 : (s.areg 7).getLsbD 0 = false) (c : CCR) (m : State) (f : Flow) :
    ∃ g, pop32 ((((s.setAreg 7 (s.areg 7 + 2)).setFlags c)).withFlow f) =
        .ok (s.load .l (s.areg 7 + 2)) (((s.setAreg 7 (s.areg 7 + 6)).setFlags c).withFlow g) ∧ f.Passed g m 0 := by
  have hp : ((s.setAreg 7 (s.areg 7 + 2)).setFlags c).Plain := hs.setAreg 7 _
  have ha : ((s.setAreg 7 (s.areg 7 + 2)).setFlags c).areg 7 = s.areg 7 + 2 := State.areg_setAreg_same ..
  obtain ⟨g, h1, p1⟩ := pop32_of hp (by rw [ha]; exact (getLsbD_zero_add _ 2 (by decide)).trans h7) m f
  refine ⟨g, ?_, p1⟩
  rw [ha, State.setFlags_setAreg, State.setAreg_setAreg_same, add_two_two,
    State.load_congr (s := s) (t := (s.setAreg 7 (s.areg 7 + 2)).setFlags c) (State.setAreg_mem ..)] at h1
  exact h1

theorem rtr_transfers (hs : s.Plain) (h7 : (s.areg 7).getLsbD 0 = false)
    (ht : (s.load .l (s.areg 7 + 2)).getLsbD 0 = false) :
    TransfersTo .rtr s ((s.setAreg 7 (s.areg 7 + 6)).setFlags (CCR.ofByte ((lowWord (s.load .w (s.areg 7))).setWidth 8)))
      (s.load .l (s.areg 7 + 2)) := by
  obtain ⟨f1, h1, p1⟩ := pop16_of hs h7 s s.startFlow
  obtain ⟨f2, h2, p2⟩ := popFrame_of hs h7 (CCR.ofByte ((lowWord (s.load .w (s.areg 7))).setWidth 8)) s f1
  have hp : ((s.setAreg 7 (s.areg 7 + 6)).setFlags (CCR.ofByte ((lowWord (s.load .w (s.areg 7))).setWidth 8))).Plain :=
    hs.setAreg 7 _
  obtain ⟨g, h3, p3⟩ := jump_of hp f2 ht
  exact transfers_of_body rfl ((bind_of_ok h1).trans ((bind_of_ok h2).trans h3)) ((p1.same p2).arrived p3)

/-- The second pop of RTE, which does not touch the condition codes. -/
theorem popFrame_of_self (hs : s.Plain) (h7 : (s.areg 7).getLsbD 0 = false) (m : State) (f : Flow) :
    ∃ g, pop32 ((s.setAreg 7 (s.areg 7 + 2)).withFlow f) =
        .ok (s.load .l (s.areg 7 + 2)) ((s.setAreg 7 (s.areg 7 + 6)).withFlow g) ∧ f.Passed g m 0 := by
  obtain ⟨g, h1, p1⟩ := popFrame_of hs h7 (s.setAreg 7 (s.areg 7 + 6)).ccr m f
  have hc : (s.setAreg 7 (s.areg 7 + 6)).ccr = (s.setAreg 7 (s.areg 7 + 2)).ccr :=
    (State.setAreg_ccr ..).trans (State.setAreg_ccr ..).symm
  rw [hc] at h1
  exact ⟨g, h1.trans (by rw [← hc]; rfl), p1⟩

theorem rte_transfers (hs : s.Plain) (hS : s.super = true) (h7 : (s.areg 7).getLsbD 0 = false)
    (ht : (s.load .l (s.areg 7 + 2)).getLsbD 0 = false) :
    TransfersTo .rte s ((s.setAreg 7 (s.areg 7 + 6)).withSr (lowWord (s.load .w (s.areg 7)))) (s.load .l (s.areg 7 + 2)) := by
  obtain ⟨f1, h1, p1⟩ := pop16_of hs h7 s s.startFlow
  obtain ⟨f2, h2, p2⟩ := popFrame_of_self hs h7 s f1
  rw [← State.setSr_eq_withSr]
  have hp : ((s.setAreg 7 (s.areg 7 + 6)).setSr (lowWord (s.load .w (s.areg 7)))).Plain := hs.setAreg 7 _
  obtain ⟨g, h3, p3⟩ := jump_of hp f2 ht
  exact transfers_of_body (privileged_super hS) ((bind_of_ok h1).trans ((bind_of_ok h2).trans h3)) ((p1.same p2).arrived p3)

theorem CCR.ofByte_setWidth (w : Word) : CCR.ofByte (w.setWidth 8) =
    ⟨w.getLsbD 4, w.getLsbD 3, w.getLsbD 2, w.getLsbD 1, w.getLsbD 0⟩ := by
  unfold CCR.ofByte
  simp only [BitVec.getLsbD_setWidth, decide_true, Bool.true_and, Nat.reduceLT]

/-- Settles O44: what is popped, and the transfer. -/
theorem returns : Obligations.Returns := by
  intro s hs h7
  refine ⟨rts_transfers hs h7, fun ht => ⟨?_, fun hS => rte_transfers hs hS h7 ht⟩⟩
  rw [← CCR.ofByte_setWidth]
  exact rtr_transfers hs h7 ht

/-! ## DBcc -/

/-- The counter of DBcc, written as a word. -/
theorem dbcc_counter (s : State) (dn : RegNum) :
    s.setDreg dn (merge .w s.d[dn.val] (ofWord (lowWord s.d[dn.val] - 1))) =
      s.setDreg dn (highWord s.d[dn.val] ++ (lowWord s.d[dn.val] - 1)) := by
  rw [merge_word, lowWord_ofWord]

/-- The body of DBcc. -/
def dbccBody (cond : Cond) (dn : RegNum) (d : Word) : Exec Unit := do
  let base ← getPc
  fetchExts 1
  let flags ← getCcr
  if condHolds flags cond then lastFetch
  else do
    let old ← getD dn
    setD .w dn (ofWord (lowWord old - 1))
    if lowWord old = 0 then lastFetch else jump (base + sextWord d)

theorem exec_dbcc (cond : Cond) (dn : RegNum) (d : Word) : exec (.dbcc cond dn d) s = runInstr [] (dbccBody cond dn d) s := rfl

/-- What DBcc does once its words are used. -/
theorem dbcc_body (hs : s.Plain) (cond : Cond) (dn : RegNum) (d : Word) :
    ∃ f : Flow, s.startFlow.Passed f s 1 ∧
      dbccBody cond dn d (s.withFlow s.startFlow) =
        (if condHolds s.ccr cond then lastFetch (s.withFlow f)
        else if lowWord s.d[dn.val] = 0 then
          lastFetch ((s.setDreg dn (highWord s.d[dn.val] ++ (lowWord s.d[dn.val] - 1))).withFlow f)
        else jump (s.pc + 2 + d.signExtend 32)
          ((s.setDreg dn (highWord s.d[dn.val] ++ (lowWord s.d[dn.val] - 1))).withFlow f)) := by
  obtain ⟨f, h1, p1⟩ := fetchExts_of (m := s) hs rfl s.startFlow 1
  refine ⟨f, p1, ?_⟩
  unfold dbccBody getPc getCcr getD setD
  rw [inspect_bind, bind_of_ok h1, inspect_bind, State.withFlow_ccr, ← dbcc_counter]
  by_cases hc : condHolds s.ccr cond = true
  · rw [if_pos hc, if_pos hc]
  · rw [if_neg hc, if_neg hc, inspect_bind, update_bind, State.withFlow_d]
    by_cases h0 : lowWord s.d[dn.val] = 0
    · rw [if_pos h0, if_pos h0]
      rfl
    · rw [if_neg h0, if_neg h0]
      rfl

/-- Settles O45: the three ways of DBcc. -/
theorem decrementAndBranch : Obligations.DecrementAndBranch := by
  intro s cond dn d hs
  obtain ⟨f, p1, hb⟩ := dbcc_body hs cond dn d
  have hi := exec_dbcc (s := s) cond dn d
  refine ⟨fun hc => ?_, fun hc h0 => ?_, fun hc h0 ht => ?_⟩
  · rw [if_pos hc] at hb
    obtain ⟨g, h2, p2⟩ := lastFetch_of (m := s) hs rfl f
    exact completes_of_body hi (encode_length rfl rfl) (hb.trans h2) (p1.done p2)
  · rw [if_neg (by rw [hc]; decide), if_pos h0] at hb
    obtain ⟨g, h2, p2⟩ := lastFetch_of (m := s) (hs.setDreg dn _) rfl f
    exact completes_of_body hi (encode_length rfl rfl) (hb.trans h2) (p1.done p2)
  · rw [if_neg (by rw [hc]; decide), if_neg h0] at hb
    obtain ⟨g, h2, p2⟩ := jump_of (hs.setDreg dn _) f ht
    exact transfers_of_body hi (hb.trans h2) (p1.arrived p2)

/-! ## NOP and RESET -/

/-- The last fetch with the cycle it shows. -/
theorem lastFetch_run (h : s.Plain) : lastFetch s =
    .ok () { s with
      q0 := s.q1, q1 := s.wordAt 0 (s.pc + 2),
      events := .read (physical (s.pc + 2)) s.programFC .word (s.wordAt 0 (s.pc + 2)) :: s.events } :=
  bind_of_ok (readWordCycle_plain h (s.pc + 2) s.programFC)

theorem pc_two_two (x : Long) : x + 2 + 2 = x + 4 := by rw [BitVec.add_assoc]; rfl

/-- Settles O46: NOP is the last fetch alone. -/
theorem nopAdvancesPc : Obligations.NopAdvancesPc := by
  refine ⟨rfl, fun s hs => ?_⟩
  have h := lastFetch_run (s := s.startInstr) hs
  refine ⟨_, runInstr_of_ok (adj := []) h, rfl, rfl, rfl, ?_, rfl, ?_⟩
  · exact congrArg (s.wordAt 0) (pc_two_two s.pc)
  · rw [← pc_two_two]
    rfl

/-- Settles O47: RESET is the pulse and the last fetch. -/
theorem resetInstruction : Obligations.ResetInstruction := by
  refine ⟨rfl, fun s hs hS => ?_⟩
  have h := lastFetch_run (s := { s.startInstr.note .resetOut with map := s.resetLine.getD s.map }) hs
  refine ⟨_, (privileged_super hS).trans (runInstr_of_ok (adj := []) h), rfl, rfl, rfl, ?_, rfl, ?_⟩
  · exact congrArg (s.wordAt 0) (pc_two_two s.pc)
  · have hfc : s.programFC = .superProgram := if_pos hS
    rw [← pc_two_two, ← hfc]
    rfl

/-! ## STOP and the traps -/

theorem sr_withSr (s : State) (w : Word) : (s.withSr w).sr = w &&& 0xA71F := by
  have hr := srReads_sr (s.withSr w)
  obtain ⟨h15, h13, hm, h4, h3, h2, h1, h0, hz⟩ := hr
  have bit : ∀ j, (0xA71F : Word).getLsbD j = true → w.getLsbD j = (w &&& 0xA71F).getLsbD j := by
    intro j hj
    rw [BitVec.getLsbD_and, hj, Bool.and_true]
  refine sr_word_ext (h15.trans (bit 15 (by decide))) (h13.trans (bit 13 (by decide))) (hm.trans ?_)
    (h4.trans (bit 4 (by decide))) (h3.trans (bit 3 (by decide))) (h2.trans (bit 2 (by decide)))
    (h1.trans (bit 1 (by decide))) (h0.trans (bit 0 (by decide))) (hz.trans ?_)
  · apply BitVec.eq_of_getLsbD_eq
    intro j hj
    show (w.extractLsb' 8 3).getLsbD j = _
    rw [BitVec.getLsbD_extractLsb', BitVec.getLsbD_extractLsb', BitVec.getLsbD_and]
    interval_cases j <;> simp
  · rw [BitVec.and_assoc]
    exact (BitVec.and_zero (x := w)).symm

/-! What is pushed depends on memory and the stack pointer alone. -/

theorem State.store_mem_congr {t : State} (h : t.mem = s.mem) (sz : Size) (p : Bool) (x v : Long) :
    (t.store sz p x v).mem = (s.store sz p x v).mem := by
  cases sz
  case l => cases p <;> simp only [State.store, State.storeWord, h, if_true, if_false, Bool.false_eq_true]
  all_goals simp only [State.store, State.storeWord, State.storeByte, h]

theorem State.pushed32_mem_congr {t : State} (h : t.mem = s.mem) (h7 : t.areg 7 = s.areg 7) (v : Long) :
    (t.pushed32 v).mem = (s.pushed32 v).mem := by
  unfold State.pushed32
  rw [h7]
  exact State.store_mem_congr ((State.setAreg_mem ..).trans (h.trans (State.setAreg_mem ..).symm)) _ _ _ _

theorem State.pushed16_mem_congr {t : State} (h : t.mem = s.mem) (h7 : t.areg 7 = s.areg 7) (v : Word) :
    (t.pushed16 v).mem = (s.pushed16 v).mem := by
  unfold State.pushed16
  rw [h7]
  exact State.store_mem_congr ((State.setAreg_mem ..).trans (h.trans (State.setAreg_mem ..).symm)) _ _ _ _

/-- The handler depends on memory and the supervisor stack pointer alone. -/
theorem State.handler_congr {t : State} (h : t.mem = s.mem) (hp : t.ssp = s.ssp) (vec : Nat) (p : Long) (w : Word)
    (l l' : Option (BitVec 3)) : t.handler vec p w l = s.handler vec p w l' := by
  have h7 : (t.entering l).areg 7 = (s.entering l').areg 7 :=
    (State.areg7_super rfl).trans (hp.trans (State.areg7_super (s := s.entering l') rfl).symm)
  have hm : (t.entered p w l).mem = (s.entered p w l').mem :=
    State.pushed16_mem_congr (State.pushed32_mem_congr (s := s.entering l') (t := t.entering l) h h7 p)
      (by rw [State.areg7_pushed32, State.areg7_pushed32, h7]) w
  exact State.load_congr hm _ _

theorem State.EntryReady.congr {t : State} {vec : Nat} {p : Long} {w : Word} {l l' : Option (BitVec 3)}
    (h : s.EntryReady vec p w l) (ht : t.Plain) (hm : t.mem = s.mem) (hp : t.ssp = s.ssp) : t.EntryReady vec p w l' := by
  obtain ⟨-, h2, h3⟩ := h
  exact ⟨ht, hp ▸ h2, (congrArg (·.getLsbD 0) (State.handler_congr hm hp vec p w l' l)).trans h3⟩

/-- The privilege violation of STOP, in one of its two states. -/
theorem stop_violates {data : Word} (h : ∀ w, s.EntryReady 8 s.pc w none) :
    ∃ (s' : State) (w : Word), ((s' = s ∧ w = s.sr) ∨ (s' = s.withSr data ∧ w = data &&& 0xA71F)) ∧
      Enters (takeGroup1 (pure 8) s.pc (s.stopViolated data).sr none (s.stopViolated data)) s' 8 s.pc w none false := by
  obtain ⟨f, hf | hf, ht⟩ := State.stopViolated_cases (s := s) data
  · refine ⟨s, s.sr, .inl ⟨rfl, rfl⟩, ?_⟩
    rw [hf, State.withFlow_sr]
    have := takeGroup1_plain (s := s.withFlow f) ((State.withFlow_entryReady ..).mpr (h s.sr))
    rw [State.withFlow_tracePending, ht] at this
    exact this.of_withFlow
  · refine ⟨s.withSr data, data &&& 0xA71F, .inr ⟨rfl, rfl⟩, ?_⟩
    rw [hf, State.setSr_eq_withSr, State.withFlow_sr, sr_withSr]
    have := takeGroup1_plain (l := none) (s := (s.withSr data).withFlow f) ((State.withFlow_entryReady ..).mpr
      ((h (data &&& 0xA71F)).congr (h (data &&& 0xA71F)).1 rfl rfl))
    rw [State.withFlow_tracePending, ht] at this
    exact this.of_withFlow

theorem execStop_stops (hS : s.super = true) {data : Word} (h13 : data.getLsbD 13 = true) :
    exec (.stop data) s = .next { s.startInstr.setSr data with pc := s.pc + 4, run := .stopped } := by
  unfold exec execStop
  exact (privileged_super hS).trans (if_pos h13)

theorem execStop_violates (hS : s.super = true) {data : Word} (h13 : data.getLsbD 13 = false) :
    exec (.stop data) s = takeGroup1 (pure 8) s.pc (s.stopViolated data).sr none (s.stopViolated data) := by
  unfold exec execStop
  exact (privileged_super hS).trans (if_neg (by rw [h13]; decide))

/-- Settles O48: STOP loads SR and stops, or is a privilege violation. -/
theorem stop : Obligations.Stop := by
  intro s data hS
  refine ⟨fun h13 => ⟨_, execStop_stops hS h13, ?_, rfl, rfl, rfl⟩, fun h13 h => ?_⟩
  · rw [← State.setSr_eq_withSr]
    rfl
  · rw [execStop_violates hS h13]
    exact stop_violates h

/-- Settles O49: each trap enters its vector with the next PC. -/
theorem traps : Obligations.Traps := by
  refine ⟨by decide, rfl, fun s => ⟨fun v h => ?_, fun hv h => ?_, fun hv hs => ?_⟩⟩
  · exact enters_of_trap (i := .trap v) (g := s.startFlow) rfl rfl (Flow.Passed.refl _ _) rfl h
  · refine enters_of_trap (i := .trapv) (g := s.startFlow) rfl ?_ (Flow.Passed.refl _ _) rfl h
    show (if s.ccr.v then trap2 7 else lastFetch : Exec Unit) (s.withFlow s.startFlow) = _
    rw [if_pos hv]
  · obtain ⟨g, h1, p1⟩ := lastFetch_of (m := s) hs rfl s.startFlow
    refine completes_of_body (i := .trapv) rfl (encode_length rfl rfl) ?_ p1
    show (if s.ccr.v then trap2 7 else lastFetch : Exec Unit) (s.withFlow s.startFlow) = _
    rw [if_neg (by rw [hv]; decide)]
    exact h1

end Sys2Proof.Machine
end

section
/-! PROOFS. The shift and rotate instructions, the bit instructions, TAS and Scc. -/

namespace Sys2Proof.Machine

variable {s e m : State} {i : Instr} {adj : List Adjusted} {f : Flow}

/-! ## Shifts and rotates -/

theorem exec_shiftInstr (op : ShiftOp) (sz : Size) (c : Count) (dn : RegNum) :
    exec (shiftInstr op sz c dn) s = runInstr [] (shiftRegBody op sz c dn) s := by cases op <;> rfl

theorem extensionWords_shiftInstr (op : ShiftOp) (sz : Size) (c : Count) (dn : RegNum) :
    extensionWords (shiftInstr op sz c dn) = [] := by cases op <;> rfl

theorem exec_shiftMemInstr (op : ShiftOp) (dst : EA) :
    exec (shiftMemInstr op dst) s = runInstr (adjusts1 .w dst) (modifyOperand .w dst (aluShift op .w 1)) s := by
  cases op <;> rfl

theorem extensionWords_shiftMemInstr (op : ShiftOp) (dst : EA) : extensionWords (shiftMemInstr op dst) = dst.words := by
  cases op <;> rfl

/-- A register shift by its count. -/
theorem completes_shiftInstr (hs : s.Plain) (op : ShiftOp) (sz : Size) (c : Count) (dn : RegNum) {cnt : Nat}
    (hc : cnt = shiftCount c s) :
    Completes (shiftInstr op sz c dn) s
      ((s.setDreg dn (merge sz s.d[dn.val] (aluShift op sz cnt s.ccr (trunc sz s.d[dn.val])).1)).setFlags
        (aluShift op sz cnt s.ccr (trunc sz s.d[dn.val])).2) := by
  subst hc
  obtain ⟨g, hr, hg⟩ := modifyOperand_at State.startFlow_pc (ready_dreg hs 1 sz dn) (aluShift op sz (shiftCount c s))
  refine completes_of_body (exec_shiftInstr ..) (encode_length (extensionWords_shiftInstr ..) rfl) ?_ hg
  have hcount : shiftCount c (s.withFlow s.startFlow) = shiftCount c s := by cases c <;> rfl
  unfold shiftRegBody
  rw [inspect_bind, hcount]
  exact hr

/-- Settles O39: every form is the shift of `aluShift` by its count. -/
theorem shifts : Obligations.Shifts := by
  intro s op hs
  refine ⟨fun sz c dn => completes_shiftInstr hs op sz c dn ?_,
    fun dst h => completes_modifyOperand _ (exec_shiftMemInstr ..) (extensionWords_shiftMemInstr ..) h⟩
  cases c with
  | imm q =>
    unfold shiftCount
    simp only [Fin.ext_iff, Fin.val_zero]
  | reg n => rfl

/-! ## Bits -/

theorem ofByte_toNat (b : Byte) : (ofByte b).toNat = b.toNat := by
  have h := b.isLt
  rw [ofByte, BitVec.toNat_setWidth]
  omega

/-- What the four instructions on bit `number` of the operand at word `k` do. -/
def BitResults (s : State) (dst : EA) (k number : Nat) (test change clear set : Instr) : Prop :=
  let n := number % (bitSize dst).bits
  let v := s.operand k (bitSize dst) dst
  let f : CCR := { s.ccr with z := !v.getLsbD n }
  Completes test s ((s.afterMode (bitSize dst) dst).setFlags f) ∧
  Completes change s ((s.result k (bitSize dst) dst (v ^^^ 1#32 <<< n)).setFlags f) ∧
  Completes clear s ((s.result k (bitSize dst) dst (v &&& ~~~(1#32 <<< n))).setFlags f) ∧
  Completes set s ((s.result k (bitSize dst) dst (v ||| 1#32 <<< n)).setFlags f)

/-- The static form of a test. -/
theorem completes_static_test {dst : EA} (b : Byte) (h : s.Ready 2 (bitSize dst) dst)
    (hi : exec i s = runInstr adj (staticBitForm b (testBit dst)) s) (hx : (extensionWords i).length = 1 + extCount dst) :
    Completes i s ((s.afterMode (bitSize dst) dst).setFlags
      (bitFlags s.ccr (s.operand 2 (bitSize dst) dst) (bitNumber dst (ofByte b)))) := by
  obtain ⟨f1, h1, p1⟩ := fetchExts_of (m := s) h.1 rfl s.startFlow 1
  obtain ⟨g, h2, p2⟩ := testOperand_at (f := f1) (by rw [p1.pc_eq, State.startFlow_pc, pc_add]) h
    fun c v => bitFlags c v (bitNumber dst (ofByte b))
  exact completes_of_body hi (encode_length rfl hx) ((bind_of_ok h1).trans h2) (p1.done p2)

/-- The static form of a change. -/
theorem completes_static_change {dst : EA} (b : Byte) (op : Long → Long → Long) (h : s.Ready 2 (bitSize dst) dst)
    (hi : exec i s = runInstr adj (staticBitForm b fun n => changeBit dst n op) s)
    (hx : (extensionWords i).length = 1 + extCount dst) :
    Completes i s ((s.result 2 (bitSize dst) dst
        (op (s.operand 2 (bitSize dst) dst) (oneBit (bitNumber dst (ofByte b))))).setFlags
      (bitFlags s.ccr (s.operand 2 (bitSize dst) dst) (bitNumber dst (ofByte b)))) := by
  obtain ⟨f1, h1, p1⟩ := fetchExts_of (m := s) h.1 rfl s.startFlow 1
  obtain ⟨g, h2, p2⟩ := modifyOperand_at (f := f1) (by rw [p1.pc_eq, State.startFlow_pc, pc_add]) h
    fun c v => (op v (oneBit (bitNumber dst (ofByte b))), bitFlags c v (bitNumber dst (ofByte b)))
  exact completes_of_body hi (encode_length rfl hx) ((bind_of_ok h1).trans h2) (p1.done p2)

theorem word_and_ea_length (w : Word) (ea : EA) : (w :: ea.words).length = 1 + extCount ea := by
  rw [List.length_cons, EA.words_length, Nat.add_comm]

theorem bitNumber_ofByte (dst : EA) (b : Byte) : bitNumber dst (ofByte b) = b.toNat % (bitSize dst).bits := by
  unfold bitNumber
  rw [ofByte_toNat]

theorem bitResults_static {dst : EA} (b : Byte) (h : s.Ready 2 (bitSize dst) dst) :
    BitResults s dst 2 b.toNat (.btstImm b dst) (.bchgImm b dst) (.bclrImm b dst) (.bsetImm b dst) := by
  unfold BitResults
  rw [← bitNumber_ofByte]
  exact ⟨completes_static_test b h rfl (word_and_ea_length ..),
    completes_static_change b (fun v m => v ^^^ m) h rfl (word_and_ea_length ..),
    completes_static_change b (fun v m => v &&& ~~~m) h rfl (word_and_ea_length ..),
    completes_static_change b (fun v m => v ||| m) h rfl (word_and_ea_length ..)⟩

/-- The dynamic form of a test. -/
theorem completes_dynamic_test {dst : EA} (dn : RegNum) (h : s.Ready 1 (bitSize dst) dst)
    (hi : exec i s = runInstr adj (dynamicBitForm dn (testBit dst)) s) (hx : extensionWords i = dst.words) :
    Completes i s ((s.afterMode (bitSize dst) dst).setFlags
      (bitFlags s.ccr (s.operand 1 (bitSize dst) dst) (bitNumber dst s.d[dn.val]))) := by
  obtain ⟨g, h2, p2⟩ := testOperand_at State.startFlow_pc h fun c v => bitFlags c v (bitNumber dst s.d[dn.val])
  exact completes_of_body hi (encode_length hx (EA.words_length _)) h2 p2

/-- The dynamic form of a change. -/
theorem completes_dynamic_change {dst : EA} (dn : RegNum) (op : Long → Long → Long) (h : s.Ready 1 (bitSize dst) dst)
    (hi : exec i s = runInstr adj (dynamicBitForm dn fun n => changeBit dst n op) s) (hx : extensionWords i = dst.words) :
    Completes i s ((s.result 1 (bitSize dst) dst
        (op (s.operand 1 (bitSize dst) dst) (oneBit (bitNumber dst s.d[dn.val])))).setFlags
      (bitFlags s.ccr (s.operand 1 (bitSize dst) dst) (bitNumber dst s.d[dn.val]))) := by
  obtain ⟨g, h2, p2⟩ := modifyOperand_at State.startFlow_pc h
    fun c v => (op v (oneBit (bitNumber dst s.d[dn.val])), bitFlags c v (bitNumber dst s.d[dn.val]))
  exact completes_of_body hi (encode_length hx (EA.words_length _)) h2 p2

theorem bitResults_dynamic {dst : EA} (dn : RegNum) (h : s.Ready 1 (bitSize dst) dst) :
    BitResults s dst 1 s.d[dn.val].toNat (.btstReg dn dst) (.bchgReg dn dst) (.bclrReg dn dst) (.bsetReg dn dst) :=
  ⟨completes_dynamic_test dn h rfl rfl, completes_dynamic_change dn (fun v m => v ^^^ m) h rfl rfl,
    completes_dynamic_change dn (fun v m => v &&& ~~~m) h rfl rfl, completes_dynamic_change dn (fun v m => v ||| m) h rfl rfl⟩

/-- Settles O40: the size of the operand, and so the modulus, is the one of its mode. -/
theorem bitInstructions : Obligations.BitInstructions := by
  intro s dst _
  have static : ∀ b : Byte, s.Ready 2 (bitSize dst) dst →
      BitResults s dst 2 b.toNat (.btstImm b dst) (.bchgImm b dst) (.bclrImm b dst) (.bsetImm b dst) :=
    fun b h => bitResults_static b h
  have dynamic : ∀ dn : RegNum, s.Ready 1 (bitSize dst) dst →
      BitResults s dst 1 s.d[dn.val].toNat (.btstReg dn dst) (.bchgReg dn dst) (.bclrReg dn dst) (.bsetReg dn dst) :=
    fun dn h => bitResults_dynamic dn h
  cases dst
  case dreg n => exact ⟨static, dynamic⟩
  all_goals exact ⟨static, dynamic⟩

/-! ## TAS and Scc -/

theorem State.valueAt_lt (s : State) (sz : Size) (loc : Loc) : (s.valueAt sz loc).toNat < 2 ^ sz.bits := by
  unfold State.valueAt
  split
  · exact trunc_lt ..
  · exact trunc_lt ..
  · exact load_lt ..
  · exact trunc_lt ..

/-- An operand's value is below `2^bits`, so it is its own truncation. -/
theorem trunc_valueAt (s : State) (sz : Size) (loc : Loc) : trunc sz (s.valueAt sz loc) = s.valueAt sz loc := by
  apply BitVec.eq_of_toNat_eq
  rw [trunc_toNat]
  exact Nat.mod_eq_of_lt (s.valueAt_lt sz loc)

/-- An operand's value is not changed by the side effect of its own mode. -/
theorem State.valueAt_locAt_afterMode (s : State) (k : Nat) (sz : Size) (ea : EA) :
    (s.afterMode sz ea).valueAt sz (s.locAt k sz ea) = s.operand k sz ea := by
  cases ea
  case postInc => exact State.load_congr (State.setAreg_mem ..) _ _
  case preDec => exact State.load_congr (State.setAreg_mem ..) _ _
  all_goals rfl

/-- A read-modify-write cycle in plain memory, whose computation keeps memory plain. -/
theorem modifyByteCycle_plain (h : s.Plain) {addr : Long} {fc : FC} {compute : Byte → Exec Byte} {new : Byte} {t : State}
    (hc : compute (s.byteAt addr) s = .ok new t) (ht : t.Plain) :
    modifyByteCycle addr fc compute s =
      .ok () ((t.storeByte 0 addr new).note (.modify (physical addr) fc (s.byteAt addr) new)) := by
  have hr : modifyRead addr fc s = .ok (s.byteAt addr) s := by
    unfold modifyRead
    simp only [h.2]
    rfl
  unfold modifyByteCycle
  rw [bind_of_ok (h.grantBus _), bind_of_ok hr, bind_of_ok hc]
  unfold modifyWrite
  simp only [ht.2]

/-- The flags of TAS. -/
def tasFlags (c : CCR) (v : Long) : CCR := ⟨c.x, v.getLsbD 7, v == 0, false, false⟩

theorem ofByte_or (b : Byte) : ofByte (b ||| 0x80) = ofByte b ||| 0x80 := by
  unfold ofByte
  rw [BitVec.setWidth_or]
  rfl

theorem setWidth_ofByte (b : Byte) : (ofByte b).setWidth 8 = b := by
  apply BitVec.eq_of_toNat_eq
  have h := b.isLt
  rw [BitVec.toNat_setWidth, ofByte_toNat]
  omega

/-- A byte operand, through its byte. -/
theorem ofByte_valueAt (s : State) (loc : Loc) : ofByte ((s.valueAt .b loc).setWidth 8) = s.valueAt .b loc :=
  trunc_valueAt s .b loc

theorem testAndSet_run (old : Byte) (s : State) :
    testAndSet old s = .ok (old ||| 0x80) (s.setFlags (tasFlags s.ccr (ofByte old))) := rfl

/-- TAS on an operand in a register, or immediate. -/
theorem testAndSetReg_of {loc : Loc} (hr : ∀ t : State, readLoc .b loc t = .ok (t.valueAt .b loc) t)
    (hw : ∀ (v : Long) (t : State), writeLoc .b loc v t = .ok () (t.written .b loc v)) (e : State) (f : Flow) :
    testAndSetReg loc (e.withFlow f) =
      .ok () (((e.written .b loc (e.valueAt .b loc ||| 0x80)).setFlags (tasFlags e.ccr (e.valueAt .b loc))).withFlow f) := by
  unfold testAndSetReg
  rw [bind_of_ok (hr _), bind_of_ok (testAndSet_run ..), hw, ofByte_or, ofByte_valueAt, State.withFlow_valueAt,
    State.written_setFlags, State.withFlow_written]
  rfl

/-- The read-modify-write cycle of TAS at an address. -/
def tasEvent (e : State) (addr : Long) : Event :=
  .modify (physical addr) e.dataFC (e.byteAt addr) (e.byteAt addr ||| 0x80)

/-- TAS at a location; in memory it shows one cycle. -/
theorem testAndSetLoc_of (he : e.Plain) (m : State) (f : Flow) (loc : Loc) :
    ∃ g, testAndSetLoc loc (e.withFlow f) =
        .ok () (((e.written .b loc (e.valueAt .b loc ||| 0x80)).setFlags (tasFlags e.ccr (e.valueAt .b loc))).withFlow g) ∧
      f.Passed g m 0 ∧ ∀ sp addr p, loc = .mem sp addr p → g.events.head? = some (tasEvent e addr) := by
  cases loc with
  | dreg n => exact ⟨f, testAndSetReg_of (fun _ => rfl) (fun _ _ => rfl) e f, Flow.Passed.refl _ _, fun _ _ _ h => (by cases h)⟩
  | areg n => exact ⟨f, testAndSetReg_of (fun _ => rfl) (fun _ _ => rfl) e f, Flow.Passed.refl _ _, fun _ _ _ h => (by cases h)⟩
  | imm v => exact ⟨f, testAndSetReg_of (fun _ => rfl) (fun _ _ => rfl) e f, Flow.Passed.refl _ _, fun _ _ _ h => (by cases h)⟩
  | mem sp addr p =>
    have hb : (e.valueAt .b (.mem sp addr p) ||| 0x80).setWidth 8 = e.byteAt addr ||| 0x80 := by
      show (ofByte (e.byteAt addr) ||| 0x80).setWidth 8 = _
      rw [← ofByte_or, setWidth_ofByte]
    refine ⟨f.noted (tasEvent e addr), ?_, f.noted_passed _ m, fun _ _ _ h => by cases h; rfl⟩
    refine (modifyByteCycle_plain (he.withFlow f) (testAndSet_run (e.byteAt addr) (e.withFlow f)) (he.withFlow f)).trans ?_
    show _ = EStateM.Result.ok () (((e.storeByte 0 addr _).setFlags _).withFlow _)
    rw [hb]
    rfl

/-- TAS: the operand resolved, the next instruction fetched, the cycle made. -/
theorem tas_runs {dst : EA} (h : s.Ready 1 .b dst) :
    ∃ (body : Exec Unit) (g : Flow), exec (.tas dst) s = runInstr (adjusts1 .b dst) body s ∧
      body (s.withFlow s.startFlow) = .ok ()
        (((s.result 1 .b dst (s.operand 1 .b dst ||| 0x80)).setFlags (tasFlags s.ccr (s.operand 1 .b dst))).withFlow g) ∧
      s.startFlow.Done g s (extCount dst) ∧
      ∀ sp addr p, s.locAt 1 .b dst = .mem sp addr p → g.events.head? = some (tasEvent (s.afterMode .b dst) addr) := by
  obtain ⟨f1, h1, p1⟩ := resolve_at State.startFlow_pc h.1 .b dst
  obtain ⟨f2, h2, p2⟩ := lastFetch_of (m := s) (h.1.afterMode .b dst) (State.afterMode_mem ..) f1
  obtain ⟨g, h3, p3, hev⟩ := testAndSetLoc_of (h.1.afterMode .b dst) s f2 (s.locAt 1 .b dst)
  rw [State.valueAt_locAt_afterMode, State.afterMode_ccr] at h3
  exact ⟨_, g, rfl, (bind_of_ok h1).trans ((bind_of_ok h2).trans h3), (p1.done p2).same p3, hev⟩

theorem tasEvent_afterMode (dst : EA) (addr : Long) : tasEvent (s.afterMode .b dst) addr = tasEvent s addr := by
  unfold tasEvent State.dataFC State.byteAt
  rw [State.afterMode_super, State.afterMode_mem]

/-- Settles O41: TAS and Scc. -/
theorem testAndSet_and_scc : Obligations.TestAndSet := by
  intro s dst h
  obtain ⟨body, g, hi, hr, hg, hev⟩ := tas_runs h
  refine ⟨completes_of_body hi (encode_length rfl (EA.words_length _)) hr hg,
    fun addr p hx => ⟨_, hi.trans (runInstr_of_ok hr), ?_⟩, fun cond => ?_⟩
  · exact (hev _ _ _ hx).trans (congrArg some (tasEvent_afterMode dst addr))
  · rw [← State.result_setFlags_self]
    exact completes_storeOperand (i := .scc cond dst) (fun c => (if condHolds c cond then 0xFF else 0, c)) rfl rfl h

end Sys2Proof.Machine
end

section
/-! PROOFS. Memory under a store, the twelve addressing modes, the frame of an exception, and the state after reset. -/

namespace Sys2Proof.Machine

variable {s t : State}

/-! ## Keys -/

theorem byteKey_zero (x : Long) : byteKey 0 x = x.toNat % 2 ^ 24 := by
  unfold byteKey physical
  simp

/-- The key some bytes further, around the 24 bits of the bus. -/
theorem byteKey_add (x y : Long) : byteKey 0 (x + y) = (byteKey 0 x + y.toNat) % 2 ^ 24 := by
  rw [byteKey_zero, byteKey_zero, BitVec.toNat_add]
  omega

theorem byteKey_zero_lt (x : Long) : byteKey 0 x < 2 ^ 24 := by
  rw [byteKey_zero]
  exact Nat.mod_lt _ (by decide)

/-! ## Words -/

theorem canonical_storeByte (h : s.MemoryCanonical) (x : Long) (v : Byte) : (s.storeByte 0 x v).MemoryCanonical :=
  Memory.wf_writeByte h (byteKey_lt 0 x)

theorem canonical_storeWord (h : s.MemoryCanonical) (x : Long) (v : Word) : (s.storeWord 0 x v).MemoryCanonical :=
  Memory.wf_writeByte (Memory.wf_writeByte h (byteKey_lt 0 x)) (byteKey_lt 0 (x + 1))

theorem canonical_store (h : s.MemoryCanonical) (sz : Size) (p : Bool) (x v : Long) : (s.store sz p x v).MemoryCanonical := by
  cases sz with
  | b => exact canonical_storeByte h x _
  | w => exact canonical_storeWord h x _
  | l =>
    cases p with
    | true => exact canonical_storeWord (canonical_storeWord h (x + 2) _) x _
    | false => exact canonical_storeWord (canonical_storeWord h x _) (x + 2) _

theorem readByte_storeByte (h : s.MemoryCanonical) (x : Long) (v : Byte) (k : Nat) :
    (s.storeByte 0 x v).mem.readByte k = if k = byteKey 0 x then v else s.mem.readByte k := Memory.readByte_writeByte h

/-- A byte after a word is stored: its low byte, its high byte, or as before. -/
theorem readByte_storeWord (h : s.MemoryCanonical) (x : Long) (v : Word) (k : Nat) :
    (s.storeWord 0 x v).mem.readByte k =
      if k = byteKey 0 (x + 1) then v.setWidth 8 else if k = byteKey 0 x then (v >>> 8).setWidth 8 else s.mem.readByte k := by
  show ((s.mem.writeByte _ _).writeByte _ _).readByte k = _
  rw [Memory.readByte_writeByte (Memory.wf_writeByte h (byteKey_lt 0 x)), Memory.readByte_writeByte h]

theorem readByte_storeWord_of_ne (h : s.MemoryCanonical) {x : Long} {v : Word} {k : Nat} (h0 : k ≠ byteKey 0 x)
    (h1 : k ≠ byteKey 0 (x + 1)) : (s.storeWord 0 x v).mem.readByte k = s.mem.readByte k := by
  rw [readByte_storeWord h, if_neg h1, if_neg h0]

theorem byteAt_storeWord (h : s.MemoryCanonical) (x : Long) (v : Word) :
    (s.storeWord 0 x v).byteAt x = (v >>> 8).setWidth 8 := by
  have hk : byteKey 0 x ≠ byteKey 0 (x + 1) := by
    have := byteKey_zero_lt x
    rw [byteKey_add]
    show _ ≠ (_ + 1) % 2 ^ 24
    omega
  unfold State.byteAt
  rw [readByte_storeWord h, if_neg hk, if_pos rfl]

theorem word_of_bytes (v : Word) : (v >>> 8).setWidth 8 ++ v.setWidth 8 = v := by
  apply BitVec.eq_of_getLsbD_eq
  intro j hj
  rw [BitVec.getLsbD_append, BitVec.getLsbD_setWidth, BitVec.getLsbD_setWidth, BitVec.getLsbD_ushiftRight]
  by_cases h : j < 8
  · simp [h]
  · rw [if_neg h, show 8 + (j - 8) = j by omega]
    simp only [Bool.and_eq_right_iff_imp, decide_eq_true_eq]
    omega

theorem wordAt_storeWord (h : s.MemoryCanonical) (x : Long) (v : Word) : (s.storeWord 0 x v).wordAt 0 x = v := by
  have hlow : (s.storeWord 0 x v).mem.readByte (byteKey 0 (x + 1)) = v.setWidth 8 := by
    rw [readByte_storeWord h, if_pos rfl]
  have hhigh := byteAt_storeWord h x v
  unfold State.byteAt at hhigh
  unfold State.wordAt
  rw [hlow, hhigh]
  exact word_of_bytes v

/-- A word keeps its bytes. -/
theorem wordAt_of_bytes {x : Long} (h0 : t.mem.readByte (byteKey 0 x) = s.mem.readByte (byteKey 0 x))
    (h1 : t.mem.readByte (byteKey 0 (x + 1)) = s.mem.readByte (byteKey 0 (x + 1))) : t.wordAt 0 x = s.wordAt 0 x := by
  unfold State.wordAt
  rw [h0, h1]

theorem add_two_one (x : Long) : x + 2 + 1 = x + 3 := by rw [BitVec.add_assoc]; rfl

/-- An operand keeps its bytes. -/
theorem load_of_bytes {sz : Size} {x : Long} (h : ∀ k ∈ occupied sz x, t.mem.readByte k = s.mem.readByte k) :
    t.load sz x = s.load sz x := by
  cases sz with
  | b => exact congrArg ofByte (h _ (by simp [occupied]))
  | w => exact congrArg ofWord (wordAt_of_bytes (h _ (by simp [occupied])) (h _ (by simp [occupied])))
  | l =>
    have h0 : t.wordAt 0 x = s.wordAt 0 x := wordAt_of_bytes (h _ (by simp [occupied])) (h _ (by simp [occupied]))
    have h2 : t.wordAt 0 (x + 2) = s.wordAt 0 (x + 2) :=
      wordAt_of_bytes (h _ (by simp [occupied])) (h _ (by rw [add_two_one]; simp [occupied]))
    show joinWords _ _ = joinWords _ _
    rw [h0, h2]

/-- The second word of a long word is apart from the first. -/
theorem wordAt_storeWord_next (h : s.MemoryCanonical) (x : Long) (v : Word) :
    (s.storeWord 0 x v).wordAt 0 (x + 2) = s.wordAt 0 (x + 2) := by
  have hx := byteKey_zero_lt x
  have h1 : byteKey 0 (x + 1) = (byteKey 0 x + 1) % 2 ^ 24 := byteKey_add x 1
  have h2 : byteKey 0 (x + 2) = (byteKey 0 x + 2) % 2 ^ 24 := byteKey_add x 2
  have h3 : byteKey 0 (x + 2 + 1) = (byteKey 0 x + 3) % 2 ^ 24 := by rw [add_two_one]; exact byteKey_add x 3
  exact wordAt_of_bytes (readByte_storeWord_of_ne h (by omega) (by omega)) (readByte_storeWord_of_ne h (by omega) (by omega))

theorem wordAt_storeWord_before (h : s.MemoryCanonical) (x : Long) (v : Word) :
    (s.storeWord 0 (x + 2) v).wordAt 0 x = s.wordAt 0 x := by
  have hx := byteKey_zero_lt x
  have h1 : byteKey 0 (x + 1) = (byteKey 0 x + 1) % 2 ^ 24 := byteKey_add x 1
  have h2 : byteKey 0 (x + 2) = (byteKey 0 x + 2) % 2 ^ 24 := byteKey_add x 2
  have h3 : byteKey 0 (x + 2 + 1) = (byteKey 0 x + 3) % 2 ^ 24 := by rw [add_two_one]; exact byteKey_add x 3
  exact wordAt_of_bytes (readByte_storeWord_of_ne h (by omega) (by omega)) (readByte_storeWord_of_ne h (by omega) (by omega))

/-! ## A store -/

theorem load_store (h : s.MemoryCanonical) (sz : Size) (p : Bool) (x v : Long) : (s.store sz p x v).load sz x = trunc sz v := by
  cases sz with
  | b =>
    show ofByte ((s.storeByte 0 x _).mem.readByte _) = _
    rw [readByte_storeByte h, if_pos rfl]
    rfl
  | w =>
    show ofWord ((s.storeWord 0 x _).wordAt 0 x) = _
    rw [wordAt_storeWord h]
    rfl
  | l =>
    cases p with
    | true =>
      have h2 := canonical_storeWord h (x + 2) (lowWord v)
      show joinWords (((s.storeWord 0 (x + 2) _).storeWord 0 x _).wordAt 0 x)
        (((s.storeWord 0 (x + 2) _).storeWord 0 x _).wordAt 0 (x + 2)) = v
      rw [wordAt_storeWord h2, wordAt_storeWord_next h2, wordAt_storeWord h, join_halves]
    | false =>
      have h2 := canonical_storeWord h x (highWord v)
      show joinWords (((s.storeWord 0 x _).storeWord 0 (x + 2) _).wordAt 0 x)
        (((s.storeWord 0 x _).storeWord 0 (x + 2) _).wordAt 0 (x + 2)) = v
      rw [wordAt_storeWord h2, wordAt_storeWord_before h2, wordAt_storeWord h, join_halves]

/-- The bytes outside an operand are as before. -/
theorem readByte_store_of_outside (h : s.MemoryCanonical) {sz : Size} {p : Bool} {x v : Long} {k : Nat}
    (hk : k ∉ occupied sz x) : (s.store sz p x v).mem.readByte k = s.mem.readByte k := by
  cases sz with
  | b => exact (readByte_storeByte h x _ k).trans (if_neg (by simpa [occupied] using hk))
  | w =>
    simp only [occupied, List.mem_cons, List.not_mem_nil, or_false, not_or] at hk
    exact readByte_storeWord_of_ne h hk.1 hk.2
  | l =>
    simp only [occupied, List.mem_cons, List.not_mem_nil, or_false, not_or] at hk
    obtain ⟨h0, h1, h2, h3⟩ := hk
    rw [← add_two_one] at h3
    cases p with
    | true =>
      exact (readByte_storeWord_of_ne (canonical_storeWord h (x + 2) _) h0 h1).trans (readByte_storeWord_of_ne h h2 h3)
    | false =>
      exact (readByte_storeWord_of_ne (canonical_storeWord h x _) h2 h3).trans (readByte_storeWord_of_ne h h0 h1)

/-- The high byte of a word is at its address. -/
theorem byteAt_of_wordAt (s : State) (x : Long) : s.byteAt x = (s.wordAt 0 x >>> 8).setWidth 8 := by
  unfold State.byteAt State.wordAt
  apply BitVec.eq_of_getLsbD_eq
  intro j hj
  rw [BitVec.getLsbD_setWidth, BitVec.getLsbD_ushiftRight, BitVec.getLsbD_append, if_neg (by omega)]
  simp [hj]

/-- The most significant byte of an operand is at its address. -/
theorem byteAt_of_load (s : State) (sz : Size) (x : Long) :
    s.byteAt x = BitVec.ofNat 8 ((s.load sz x).toNat / 2 ^ (sz.bits - 8)) := by
  apply BitVec.eq_of_toNat_eq
  cases sz with
  | b =>
    show _ = (BitVec.ofNat 8 ((ofByte (s.byteAt x)).toNat / 1)).toNat
    rw [BitVec.toNat_ofNat, ofByte_toNat]
    have := (s.byteAt x).isLt
    omega
  | w =>
    show _ = (BitVec.ofNat 8 ((ofWord (s.wordAt 0 x)).toNat / 2 ^ 8)).toNat
    rw [byteAt_of_wordAt, BitVec.toNat_ofNat, BitVec.toNat_setWidth, BitVec.toNat_ushiftRight, Nat.shiftRight_eq_div_pow,
      ofWord, BitVec.toNat_setWidth]
    have := (s.wordAt 0 x).isLt
    omega
  | l =>
    show _ = (BitVec.ofNat 8 ((s.wordAt 0 x ++ s.wordAt 0 (x + 2)).toNat / 2 ^ 24)).toNat
    have h2 := (s.wordAt 0 (x + 2)).isLt
    rw [byteAt_of_wordAt, BitVec.toNat_ofNat, BitVec.toNat_setWidth, BitVec.toNat_ushiftRight, Nat.shiftRight_eq_div_pow,
      BitVec.toNat_append, ← Nat.shiftLeft_add_eq_or_of_lt h2, Nat.shiftLeft_eq]
    omega

/-- Settles O15: the bytes of a store, in canonical memory. -/
theorem storeFrame : Obligations.StoreFrame := by
  intro s sz p x v h
  refine ⟨load_store h sz p x v, ?_, fun k hk => readByte_store_of_outside h hk⟩
  rw [byteAt_of_load _ sz, load_store h]

/-! ## The addressing modes -/

/-- An operand fetched through a mode whose location, side effect and number of words are known. -/
theorem fetchOperand_reads (h : s.Plain) {sz : Size} {ea : EA} {v : Long} {t : State} {n : Nat}
    (ha : (s.locate sz ea).Aligned sz) (hv : s.valueAt sz (s.locate sz ea) = v) (ht : s.afterMode sz ea = t)
    (hn : extCount ea = n) :
    ∃ u, fetchOperand sz ea s = .ok v u ∧ u.settled = t.settled ∧ u.pc = s.pc + BitVec.ofNat 32 (2 * n) := by
  subst hv ht hn
  obtain ⟨g, h1, h2⟩ := fetchOperand_plain h ha
  exact ⟨_, h1, rfl, h2.pc_eq⟩

theorem extractLsb'_zero_word (v : Long) : v.extractLsb' 0 16 = lowWord v := by
  apply BitVec.eq_of_toNat_eq
  rw [BitVec.extractLsb'_toNat, lowWord_toNat, Nat.shiftRight_zero]

theorem indexOffset_eq (s : State) (x : Index) : indexOffset s x = s.indexValue x := by
  unfold indexOffset State.indexValue
  rw [extractLsb'_zero_word]
  rfl

theorem stepOf_eq (sz : Size) (n : RegNum) :
    stepOf sz n = if n = 7 ∧ sz = .b then 2 else BitVec.ofNat 32 sz.bytes := by
  unfold stepOf
  simp only [Fin.ext_iff]
  rfl

theorem trunc_immValue {sz : Size} {i : Imm} (h : i.size = sz) : trunc sz (immValue i) = immValue i := by
  subst h
  cases i with
  | b v => exact congrArg ofByte (setWidth_ofByte v)
  | w v => exact congrArg ofWord (lowWord_ofWord v)
  | l v => rfl

/-- Settles O16: for each mode its location, its side effect and its words. -/
theorem operandModes : Obligations.OperandModes := by
  intro s sz h
  dsimp only
  simp only [← stepOf_eq, ← indexOffset_eq]
  exact ⟨fun n => fetchOperand_reads h (ea := .dreg n) trivial rfl rfl rfl,
    fun n => fetchOperand_reads h (ea := .areg n) trivial rfl rfl rfl,
    fun n ha => fetchOperand_reads h (ea := .ind n) ha rfl rfl rfl,
    fun n ha => fetchOperand_reads h (ea := .postInc n) ha rfl rfl rfl,
    fun n ha => fetchOperand_reads h (ea := .preDec n) ha rfl rfl rfl,
    fun n d ha => fetchOperand_reads h (ea := .disp n d) ha rfl rfl rfl,
    fun n x ha => fetchOperand_reads h (ea := .index n x) ha rfl rfl rfl,
    fun w ha => fetchOperand_reads h (ea := .absW w) ha rfl rfl rfl,
    fun l ha => fetchOperand_reads h (ea := .absL l) ha rfl rfl rfl,
    fun d ha => fetchOperand_reads h (ea := .pcDisp d) ha rfl rfl rfl,
    fun x ha => fetchOperand_reads h (ea := .pcIndex x) ha rfl rfl rfl,
    fun i hi => fetchOperand_reads h (ea := .imm i) trivial (trunc_immValue hi) rfl (Imm.words_length i).symm⟩

/-! ## The frame of an exception -/

theorem State.setAreg7_super (h : s.super = true) (v : Long) : s.setAreg 7 v = { s with ssp := v } := by
  unfold State.setAreg
  rw [dif_neg (by decide), if_pos h]

theorem sub_four_two (x : Long) : x - 4 - 2 = x - 6 := by rw [BitVec.sub_sub]; rfl

theorem State.pushed32_super_eq (h : s.super = true) (v : Long) :
    s.pushed32 v = { s with ssp := s.ssp - 4, mem := (s.store .l true (s.ssp - 4) v).mem } := by
  unfold State.pushed32
  rw [State.areg7_super h, State.setAreg7_super h]
  rfl

theorem State.pushed16_super_eq (h : s.super = true) (v : Word) :
    s.pushed16 v = { s with ssp := s.ssp - 2, mem := (s.store .w true (s.ssp - 2) (ofWord v)).mem } := by
  unfold State.pushed16
  rw [State.areg7_super h, State.setAreg7_super h]
  rfl

/-- The state entered, its fields written out. -/
theorem State.entered_eq (s : State) (p : Long) (w : Word) (l : Option (BitVec 3)) :
    s.entered p w l = { s.entering l with
      ssp := s.ssp - 6, mem := ((s.store .l true (s.ssp - 4) p).store .w true (s.ssp - 6) (ofWord w)).mem, run := .running } := by
  unfold State.entered
  rw [State.pushed32_super_eq rfl, State.pushed16_super_eq rfl, ← sub_four_two]
  rfl

theorem sub_six_two (x : Long) : x - 6 + 2 = x - 4 := by
  rw [BitVec.sub_eq_add_neg, BitVec.sub_eq_add_neg, BitVec.add_assoc]
  rfl

/-- The long word above a word is apart from it. -/
theorem load_above_word (h : s.MemoryCanonical) (p : Bool) (x v : Long) :
    (s.store .w p x v).load .l (x + 2) = s.load .l (x + 2) := by
  refine load_of_bytes fun k hk => readByte_store_of_outside h ?_
  have hx := byteKey_zero_lt x
  have h1 : byteKey 0 (x + 1) = (byteKey 0 x + 1) % 2 ^ 24 := byteKey_add x 1
  have above : ∀ y : Long, byteKey 0 (x + 2 + y) = ((byteKey 0 x + 2) % 2 ^ 24 + y.toNat) % 2 ^ 24 := by
    intro y
    rw [byteKey_add, byteKey_add]
    rfl
  have h2 : byteKey 0 (x + 2) = (byteKey 0 x + 2) % 2 ^ 24 := byteKey_add x 2
  simp only [occupied, List.mem_cons, List.not_mem_nil, or_false, above] at hk ⊢
  change k = byteKey 0 (x + 2) ∨ k = ((byteKey 0 x + 2) % 2 ^ 24 + 1) % 2 ^ 24 ∨ k = ((byteKey 0 x + 2) % 2 ^ 24 + 2) % 2 ^ 24 ∨
    k = ((byteKey 0 x + 2) % 2 ^ 24 + 3) % 2 ^ 24 at hk
  omega

/-- Settles O53: the fields of the state entered, and its six bytes. -/
theorem sixByteFrame : Obligations.SixByteFrame := by
  intro s p w l h
  dsimp only
  rw [State.entered_eq]
  have h4 : (s.store .l true (s.ssp - 4) p).MemoryCanonical := canonical_store h ..
  refine ⟨rfl, rfl, rfl, rfl, rfl, rfl, rfl, rfl, rfl, ?_, ?_, fun k hk => ?_⟩
  · exact (load_store h4 .w true (s.ssp - 6) (ofWord w)).trans (congrArg ofWord (lowWord_ofWord w))
  · show ((s.store .l true (s.ssp - 4) p).store .w true (s.ssp - 6) (ofWord w)).load .l (s.ssp - 6 + 2) = p
    rw [load_above_word h4, sub_six_two, load_store h]
    rfl
  · have hk : ∀ j < 6, k ≠ byteKey 0 (s.ssp - 6 + BitVec.ofNat 32 j) := hk
    have key : ∀ j : Nat, s.ssp - 4 + BitVec.ofNat 32 j = s.ssp - 6 + BitVec.ofNat 32 (j + 2) := by
      intro j
      rw [← sub_six_two, BitVec.ofNat_add, BitVec.add_assoc, BitVec.add_comm (BitVec.ofNat 32 j)]
      rfl
    refine (readByte_store_of_outside h4 ?_).trans (readByte_store_of_outside h ?_)
    · simp only [occupied, List.mem_cons, List.not_mem_nil, or_false, not_or]
      exact ⟨by simpa using hk 0 (by decide), hk 1 (by decide)⟩
    · simp only [occupied, List.mem_cons, List.not_mem_nil, or_false, not_or]
      exact ⟨sub_six_two s.ssp ▸ hk 2 (by decide), key 1 ▸ hk 3 (by decide), key 2 ▸ hk 4 (by decide),
        key 3 ▸ hk 5 (by decide)⟩

/-! ## Sums -/

theorem signedOf_of_lt {sz : Size} {v : Long} (h : v.toNat < 2 ^ sz.bits) :
    signedOf sz v = v.toNat - (if 2 ^ (sz.bits - 1) ≤ v.toNat then 2 ^ sz.bits else 0 : Nat) := by
  rw [signedOf_eq, trunc_toNat, Nat.mod_eq_of_lt h]

theorem addAt_toNat (sz : Size) (d a : Long) (x : Bool) :
    (addAt sz d a x).r.toNat = (d.toNat + a.toNat + x.toNat) % 2 ^ sz.bits := by
  have h := Nat.mod_lt (d.toNat + a.toNat + x.toNat) (Nat.two_pow_pos sz.bits)
  show (BitVec.ofNat 32 _).toNat = _
  rw [BitVec.toNat_ofNat]
  exact Nat.mod_eq_of_lt (h.trans_le (two_pow_bits_le sz))

theorem subAt_x_toNat (sz : Size) (d a : Long) (x : Bool) :
    (subAt sz d a x).r.toNat = (2 ^ sz.bits + d.toNat - (a.toNat + x.toNat)) % 2 ^ sz.bits := by
  have h := Nat.mod_lt (2 ^ sz.bits + d.toNat - (a.toNat + x.toNat)) (Nat.two_pow_pos sz.bits)
  show (BitVec.ofNat 32 _).toNat = _
  rw [BitVec.toNat_ofNat]
  exact Nat.mod_eq_of_lt (h.trans_le (two_pow_bits_le sz))

/-- A number below twice another is at most once above it. -/
theorem mod_eq_sub_of_lt {a n : Nat} (h : a < 2 * n) : a % n = if n ≤ a then a - n else a := by
  split
  · rename_i hn
    rw [Nat.mod_eq_sub_mod hn, Nat.mod_eq_of_lt (by omega)]
  · exact Nat.mod_eq_of_lt (by omega)

/-- The number a value below `2 * half` stands for. -/
def halfSigned (half n : Nat) : Int := n - (if half ≤ n then 2 * half else 0 : Nat)

theorem signedOf_eq_halfSigned {sz : Size} {v : Long} (h : v.toNat < 2 ^ sz.bits) :
    signedOf sz v = halfSigned (2 ^ (sz.bits - 1)) v.toNat := by
  rw [signedOf_of_lt h, two_pow_bits]
  rfl

/-- Whether the top bits say that a signed sum overflows. -/
def sumOverflows (half d a r : Nat) : Bool := decide (half ≤ d) == decide (half ≤ a) && decide (half ≤ r) != decide (half ≤ d)

/-- Whether the top bits say that a signed difference overflows. -/
def differenceOverflows (half d a r : Nat) : Bool :=
  decide (half ≤ d) != decide (half ≤ a) && decide (half ≤ r) != decide (half ≤ d)

/-- Overflow of a sum, by the signs: operands of one sign and a result of the other. -/
theorem sumOverflows_iff {half d a x r : Nat} (hd : d < 2 * half) (ha : a < 2 * half) (hx : x ≤ 1)
    (hr : r = if 2 * half ≤ d + a + x then d + a + x - 2 * half else d + a + x) :
    (sumOverflows half d a r = false ↔ halfSigned half r = halfSigned half d + halfSigned half a + x) ∧
    (sumOverflows half d a r = true ↔ halfSigned half d + halfSigned half a + x < -(half : Int) ∨
      (half : Int) ≤ halfSigned half d + halfSigned half a + x) := by
  unfold sumOverflows halfSigned
  by_cases h1 : half ≤ d <;> by_cases h2 : half ≤ a <;> by_cases h3 : half ≤ r <;> by_cases h4 : 2 * half ≤ d + a + x <;>
    simp only [h1, h2, h3, h4, if_true, if_false, decide_true, decide_false] at hr ⊢ <;> simp <;> omega

/-- Overflow of a difference, by the signs: operands of two signs and a result with the sign of the second. -/
theorem differenceOverflows_iff {half d a x r : Nat} (hd : d < 2 * half) (ha : a < 2 * half) (hx : x ≤ 1)
    (hr : r = if a + x ≤ d then d - (a + x) else 2 * half + d - (a + x)) :
    (differenceOverflows half d a r = false ↔ halfSigned half r = halfSigned half d - halfSigned half a - x) ∧
    (differenceOverflows half d a r = true ↔ halfSigned half d - halfSigned half a - x < -(half : Int) ∨
      (half : Int) ≤ halfSigned half d - halfSigned half a - x) := by
  unfold differenceOverflows halfSigned
  by_cases h1 : half ≤ d <;> by_cases h2 : half ≤ a <;> by_cases h3 : half ≤ r <;> by_cases h4 : a + x ≤ d <;>
    simp only [h1, h2, h3, h4, if_true, if_false, decide_true, decide_false] at hr ⊢ <;> simp <;> omega

theorem addAt_overflow {sz : Size} {d a : Long} {x : Bool} (hd : d.toNat < 2 ^ sz.bits) (ha : a.toNat < 2 ^ sz.bits)
    (hr : (addAt sz d a x).r.toNat < 2 ^ sz.bits) :
    (addAt sz d a x).overflow = sumOverflows (2 ^ (sz.bits - 1)) d.toNat a.toNat (addAt sz d a x).r.toNat := by
  unfold sumOverflows
  rw [← msb_of_lt hd, ← msb_of_lt ha, ← msb_of_lt hr]
  rfl

theorem subAt_overflow {sz : Size} {d a : Long} {x : Bool} (hd : d.toNat < 2 ^ sz.bits) (ha : a.toNat < 2 ^ sz.bits)
    (hr : (subAt sz d a x).r.toNat < 2 ^ sz.bits) :
    (subAt sz d a x).overflow = differenceOverflows (2 ^ (sz.bits - 1)) d.toNat a.toNat (subAt sz d a x).r.toNat := by
  unfold differenceOverflows
  rw [← msb_of_lt hd, ← msb_of_lt ha, ← msb_of_lt hr]
  rfl

theorem signedOf_trunc (sz : Size) (v : Long) : signedOf sz (trunc sz v) = signedOf sz v := by
  rw [signedOf_eq, signedOf_eq, trunc_trunc]

/-- The sum of two values below `2^bits`. -/
theorem addAt_meaning {sz : Size} {d a : Long} {x : Bool} (hd : d.toNat < 2 ^ sz.bits) (ha : a.toNat < 2 ^ sz.bits) :
    let t := addAt sz d a x
    let sum : Int := signedOf sz d + signedOf sz a + x.toNat
    t.r.toNat + (if t.carry then 2 ^ sz.bits else 0) = d.toNat + a.toNat + x.toNat ∧ t.r.toNat < 2 ^ sz.bits ∧
    (t.overflow = false ↔ signedOf sz t.r = sum) ∧
    (t.overflow = true ↔ sum < -2 ^ (sz.bits - 1) ∨ 2 ^ (sz.bits - 1) ≤ sum) := by
  have hx := x.toNat_le
  have hlt : (addAt sz d a x).r.toNat < 2 ^ sz.bits := by
    rw [addAt_toNat]
    exact Nat.mod_lt _ (Nat.two_pow_pos _)
  have hr : (addAt sz d a x).r.toNat = if 2 ^ sz.bits ≤ d.toNat + a.toNat + x.toNat then
      d.toNat + a.toNat + x.toNat - 2 ^ sz.bits else d.toNat + a.toNat + x.toNat := by
    rw [addAt_toNat, mod_eq_sub_of_lt (by omega)]
  have hcarry : (addAt sz d a x).carry = decide (2 ^ sz.bits ≤ d.toNat + a.toNat + x.toNat) := rfl
  dsimp only
  refine ⟨?_, hlt, ?_⟩
  · rw [hcarry, hr]
    simp only [decide_eq_true_eq]
    split <;> omega
  · rw [addAt_overflow hd ha hlt, signedOf_eq_halfSigned hd, signedOf_eq_halfSigned ha, signedOf_eq_halfSigned hlt]
    rw [two_pow_bits] at hd ha hr
    exact_mod_cast sumOverflows_iff hd ha hx hr

/-- The difference of two values below `2^bits`. -/
theorem subAt_meaning {sz : Size} {d a : Long} {x : Bool} (hd : d.toNat < 2 ^ sz.bits) (ha : a.toNat < 2 ^ sz.bits) :
    let u := subAt sz d a x
    let difference : Int := signedOf sz d - signedOf sz a - x.toNat
    u.r.toNat + a.toNat + x.toNat = d.toNat + (if u.carry then 2 ^ sz.bits else 0) ∧ u.r.toNat < 2 ^ sz.bits ∧
    (u.overflow = false ↔ signedOf sz u.r = difference) ∧
    (u.overflow = true ↔ difference < -2 ^ (sz.bits - 1) ∨ 2 ^ (sz.bits - 1) ≤ difference) := by
  have hx := x.toNat_le
  have hlt : (subAt sz d a x).r.toNat < 2 ^ sz.bits := by
    rw [subAt_x_toNat]
    exact Nat.mod_lt _ (Nat.two_pow_pos _)
  have hr : (subAt sz d a x).r.toNat = if a.toNat + x.toNat ≤ d.toNat then d.toNat - (a.toNat + x.toNat)
      else 2 ^ sz.bits + d.toNat - (a.toNat + x.toNat) := by
    rw [subAt_x_toNat, mod_eq_sub_of_lt (by omega)]
    split <;> split <;> omega
  have hcarry : (subAt sz d a x).carry = decide (d.toNat < a.toNat + x.toNat) := rfl
  dsimp only
  refine ⟨?_, hlt, ?_⟩
  · rw [hcarry, hr]
    simp only [decide_eq_true_eq]
    split <;> split <;> omega
  · rw [subAt_overflow hd ha hlt, signedOf_eq_halfSigned hd, signedOf_eq_halfSigned ha, signedOf_eq_halfSigned hlt]
    rw [two_pow_bits] at hd ha hr
    exact_mod_cast differenceOverflows_iff hd ha hx hr

/-- Settles O17: a sum wraps at most once, and its signs say when the signed one does not fit. -/
theorem sumMeaning : Obligations.SumMeaning := by
  intro sz d a x
  dsimp only
  rw [← signedOf_trunc sz d, ← signedOf_trunc sz a]
  obtain ⟨h1, h2, h3, h4⟩ := addAt_meaning (x := x) (trunc_lt sz d) (trunc_lt sz a)
  obtain ⟨h5, h6, h7, h8⟩ := subAt_meaning (x := x) (trunc_lt sz d) (trunc_lt sz a)
  exact ⟨h1, h2, h3, h4, h5, h6, h7, h8⟩

/-! ## Small facts -/

/-- Settles O10: nothing is listed in memory, and the program counter is zero. -/
theorem resetInvariants : Obligations.ResetInvariants := ⟨rfl, fun _ _ => rfl⟩

/-- Settles O1: the decoder is run on the words. -/
theorem decodeExamples : Obligations.DecodeExamples :=
  ⟨rfl, rfl, rfl, rfl, rfl, rfl, rfl, rfl, rfl, rfl⟩

end Sys2Proof.Machine
end

section
/-! PROOFS. The step at an instruction boundary: which instruction runs, illegal words, interrupts, trace, reset, and waiting. -/

namespace Sys2Proof.Machine

variable {s t : State}

/-! ## Which part of a step runs -/

theorem step_reset (h : s.resetRequest = true) : step s = processReset s := if_pos h

theorem step_waits (hr : s.resetRequest = false) (h : s.run = .halted ∨ s.haltPin = true) : step s = waitOnBus s := by
  show stepOnce s = _
  unfold stepOnce
  rw [if_neg (by rw [hr]; decide), if_pos]
  rcases h with h | h
  · rw [decide_eq_true h, Bool.or_true]
  · rw [h, Bool.true_or]

/-- A processor that is neither held nor halted. -/
theorem step_runs (hr : s.resetRequest = false) (hp : s.haltPin = false) (hh : s.run ≠ .halted) :
    step s = if s.tracePending then takeTrace s else atBoundary s := by
  show stepOnce s = _
  unfold stepOnce
  rw [if_neg (by rw [hr]; decide), if_neg]
  rw [hp, Bool.false_or]
  simpa using hh

theorem accepts_sampled : s.sampled.accepts = true ↔ s.mask < s.irqLevel ∨ (s.irqLevel = 7 ∧ s.l7Seen = false) := by
  show (decide (s.mask < s.irqLevel) || (s.irqLevel == 7 && !(s.l7Seen && s.irqLevel == 7))) = true ↔ _
  rw [Bool.or_eq_true, decide_eq_true_iff, Bool.and_eq_true, beq_iff_eq]
  refine or_congr_right (and_congr_right fun h7 => ?_)
  rw [h7, beq_self_eq_true, Bool.and_true, Bool.not_eq_true']

/-- At a boundary where no request is accepted. -/
theorem step_boundary (hr : s.resetRequest = false) (hp : s.haltPin = false) (hh : s.run ≠ .halted)
    (ht : s.tracePending = false) (hm : s.irqLevel ≤ s.mask) (h7 : ¬ (s.irqLevel = 7 ∧ s.l7Seen = false)) :
    step s = if s.run = .stopped then waitOnBus s.sampled else runNext s.sampled := by
  have ha : ¬ s.sampled.accepts = true := by
    rw [accepts_sampled]
    exact not_or.mpr ⟨BitVec.not_lt.mpr hm, h7⟩
  rw [step_runs hr hp hh, if_neg (by rw [ht]; decide)]
  exact if_neg ha

/-- At a boundary where nothing is due the next words are decoded. -/
theorem step_decodes (hr : s.resetRequest = false) (hp : s.haltPin = false) (hh : s.run = .running)
    (ht : s.tracePending = false) (hm : s.irqLevel ≤ s.mask) (h7 : ¬ (s.irqLevel = 7 ∧ s.l7Seen = false))
    (hpc : s.pc.getLsbD 0 = false) : step s = runDecoded s.sampled := by
  rw [step_boundary hr hp (by rw [hh]; decide) ht hm h7, if_neg (by rw [hh]; decide)]
  exact if_neg (by rw [show s.sampled.pc = s.pc from rfl, hpc]; decide)

/-! ## Decoding -/

theorem runDecoded_ok {i : Instr} {rest : List Word} (h : decodeWords s.instrWords = .ok (i, rest)) :
    runDecoded s = exec i s := by
  unfold runDecoded
  rw [h]

theorem runDecoded_illegal (h : decodeWords s.instrWords = .error .illegal) : runDecoded s = refuseInstr 4 s := by
  unfold runDecoded
  rw [h]

theorem runDecoded_btstImmediate {dn : RegNum} {b : Byte} (h : decodeWords s.instrWords = .error (.btstImmediate dn b)) :
    runDecoded s = refuseInstr 4 s ∨ runDecoded s = exec (.btstReg dn (.imm (.b b))) s := by
  unfold runDecoded
  rw [h]
  dsimp only
  split
  · exact .inr rfl
  · exact .inl rfl

theorem State.Plain.deviceWord (h : s.Plain) (x : Long) : s.deviceWord x = false := by
  unfold State.deviceWord
  rw [h.2]
  rfl

/-- In plain memory the words after the queue are known. -/
theorem State.Plain.knownAhead (h : s.Plain) : s.knownAhead = true := by
  unfold State.knownAhead
  rw [h.1, h.deviceWord, h.deviceWord, h.deviceWord]
  rfl

theorem State.Plain.peekWords_succ (h : s.Plain) (n : Nat) (x : Long) :
    peekWords s (n + 1) x = s.wordAt 0 x :: peekWords s n (x + 2) := by
  rw [peekWords, h.2]

/-- In plain memory the words of the next instruction are the queue and three words of memory. -/
theorem instrWords_plain (h : s.Plain) :
    s.instrWords = [s.q0, s.q1, s.wordAt 0 (s.pc + 4), s.wordAt 0 (s.pc + 6), s.wordAt 0 (s.pc + 8)] := by
  show s.q0 :: s.q1 :: (if s.knownAhead then peekWords s 3 (s.pc + 4) else _) = _
  rw [if_pos h.knownAhead, h.peekWords_succ, h.peekWords_succ, h.peekWords_succ, BitVec.add_assoc, BitVec.add_assoc]
  rfl

/-- Settles O4: at such a boundary a step decodes the next words. -/
theorem stepRunsDecoded : Obligations.StepRunsDecoded := by
  intro s
  refine ⟨fun i rest hr hp hh ht hm h7 hpc hd => ?_, fun hs => instrWords_plain (s := s.sampled) hs⟩
  rw [step_decodes hr hp hh ht hm h7 hpc]
  exact runDecoded_ok hd

/-- The words of BTST Dn,#imm are rejected by name. -/
theorem decodeWords_btstImmediate (dn : RegNum) (w : Word) (rest : List Word) :
    decodeWords ((0x013C + BitVec.ofNat 16 (512 * dn.val)) :: w :: rest) = .error (.btstImmediate dn (w.setWidth 8)) := by
  fin_cases dn <;> rfl

/-- Settles O5: an illegal word is not started, and BTST Dn,#imm is one or runs. -/
theorem illegalWordTraps : Obligations.IllegalWordTraps := by
  refine ⟨decodeWords_btstImmediate, fun s hr hp hh ht hm h7 hpc he => ?_⟩
  have hrefuse : Enters (refuseInstr 4 s.sampled) s.sampled 4 s.pc s.sr none false := refuseInstr_plain he
  rw [step_decodes hr hp hh ht hm h7 hpc]
  refine ⟨fun hd => ?_, fun dn b hd => ?_⟩
  · rw [runDecoded_illegal (s := s.sampled) hd]
    exact hrefuse
  · rcases runDecoded_btstImmediate (s := s.sampled) hd with h | h
    · rw [h]
      exact .inl hrefuse
    · exact .inr h

/-! ## Trace and interrupts -/

/-- Settles O7: a trace that is due is the first thing a running processor does. -/
theorem traceEntry : Obligations.TraceEntry := by
  intro s hr hp hh ht he
  rw [step_runs hr hp hh, if_pos ht]
  exact (takeGroup1_plain ((State.withFlow_entryReady (s := s)
    { s.flow with tracePending := false } 9 s.pc s.sr none).mpr he)).of_withFlow

/-- The acknowledge cycle in plain memory. -/
theorem acknowledgeCycle_plain (h : s.Plain) (level : BitVec 3) :
    acknowledgeCycle level s = .ok s.ackVector (s.note (.acknowledge level)) := by
  unfold acknowledgeCycle
  rw [bind_of_ok (h.grantBus _), update_bind]
  rfl

/-- A push of the program counter, from what its two writes and the vector between them do. -/
theorem pushPc_of {vector : Exec Nat} {vec : Nat} {v : Long} {m n u : State} (ha : (s.areg 7).getLsbD 0 = false)
    (hlow : writeWordCycle (s.areg 7 - 4 + 2) (s.setAreg 7 (s.areg 7 - 4)).dataFC (lowWord v)
      (s.setAreg 7 (s.areg 7 - 4)) = .ok () m)
    (hvec : vector m = .ok vec n)
    (hhigh : writeWordCycle (s.areg 7 - 4) (s.setAreg 7 (s.areg 7 - 4)).dataFC (highWord v) n = .ok () u) :
    pushPc vector v s = .ok vec u := by
  have h2 : misaligned .l (s.areg 7 - 4) = false := by
    simp only [misaligned, getLsbD_zero_sub4, ha, Bool.and_false]
  unfold pushPc getA setA dataSpace
  rw [inspect_bind, update_bind, inspect_bind, if_neg (by rw [h2]; decide), bind_of_ok hlow, bind_of_ok hvec,
    bind_of_ok hhigh]
  rfl

theorem Shown.storeWord {e : State} (h : Shown e t) (r : Fin 4) (x : Long) (w : Word) :
    Shown (e.storeWord r x w) (t.storeWord r x w) := by
  obtain ⟨es, rfl⟩ := h
  exact ⟨es, rfl⟩

/-- The program counter is pushed with an acknowledge cycle between its two words. -/
theorem pushPc_acknowledge (h : s.Plain) (ha : (s.areg 7).getLsbD 0 = false) (level : BitVec 3) (v : Long) :
    ∃ t, pushPc (acknowledgeCycle level) v s = .ok s.ackVector t ∧ Shown (s.pushed32 v) t := by
  have h1 : (s.setAreg 7 (s.areg 7 - 4)).Plain := h.setAreg 7 _
  have hack : (s.setAreg 7 (s.areg 7 - 4)).ackVector = s.ackVector := by
    unfold State.ackVector
    rw [State.setAreg_ack, State.setAreg_irqLevel]
  have hlow := writeWordCycle_plain h1 (s.areg 7 - 4 + 2) (s.setAreg 7 (s.areg 7 - 4)).dataFC (lowWord v)
  generalize hm : ((s.setAreg 7 (s.areg 7 - 4)).storeWord 0 (s.areg 7 - 4 + 2) (lowWord v)) = m at hlow
  generalize hn : m.note (.write (physical (s.areg 7 - 4 + 2)) _ .word (lowWord v)) = n at hlow
  have hmn : Shown m n := by rw [← hn]; exact Shown.note _ m
  have hp : n.Plain := hmn.plain (by rw [← hm]; exact h1)
  have hv : n.ackVector = s.ackVector := by rw [← hack, ← hn, ← hm]; rfl
  have hvec := acknowledgeCycle_plain hp level
  rw [hv] at hvec
  have hhigh := writeWordCycle_plain (s := n.note (.acknowledge level)) hp (s.areg 7 - 4)
    (s.setAreg 7 (s.areg 7 - 4)).dataFC (highWord v)
  refine ⟨_, pushPc_of ha hlow hvec hhigh, ?_⟩
  have hs : Shown (s.pushed32 v) (m.storeWord 0 (s.areg 7 - 4) (highWord v)) := by
    rw [← hm]
    exact Shown.refl _
  exact hs.trans (((hmn.trans (Shown.note _ n)).storeWord 0 _ _).trans (Shown.note _ _))

/-- An interrupt whose entry does not fault. -/
theorem takeException_acknowledge {level : BitVec 3} {p : Long} {w : Word} {l : Option (BitVec 3)}
    (h : s.EntryReady s.ackVector p w l) :
    ∃ g, takeException (acknowledgeCycle level) p w l none s = .ok () ((s.entered p w l).withFlow g) ∧
      s.flow.Arrived g (s.entered p w l) (s.handler s.ackVector p w l) := by
  obtain ⟨hp, hs, hh⟩ := h
  have h7 : (s.entering l).areg 7 = s.ssp := State.areg7_super rfl
  obtain ⟨t, h1, ht⟩ := pushPc_acknowledge (hp.entering l) (by rw [h7]; exact hs) level p
  obtain ⟨u, h2, hu⟩ := push16_plain (ht.plain ((hp.entering l).pushed32 p))
    (by rw [ht.areg, State.areg7_pushed32, getLsbD_zero_sub4, h7]; exact hs) w
  have hq : (((s.entering l).pushed32 p).pushed16 w).Plain := ((hp.entering l).pushed32 p).pushed16 w
  have hl : s.handler s.ackVector p w l = (((s.entering l).pushed32 p).pushed16 w).load .l (vectorAddress s.ackVector) :=
    State.load_congr rfl _ _
  rw [hl] at hh
  obtain ⟨g, h4, h5⟩ := enterHandler_plain hq ((ht.pushed16 w).trans hu) s.ackVector hh
  rw [State.pushed16_flow, State.pushed32_flow] at h5
  refine ⟨g, ?_, ?_⟩
  · unfold takeException
    rw [update_bind]
    show (pushPc (acknowledgeCycle level) p >>= _) (s.entering l) = _
    rw [bind_of_ok h1, bind_of_ok h2]
    unfold pushExtra
    rw [pure_bind_run]
    exact h4
  · rw [hl]
    exact h5.congr rfl

theorem takeGroup1_acknowledge {level : BitVec 3} {p : Long} {w : Word} {l : Option (BitVec 3)}
    (h : s.EntryReady s.ackVector p w l) :
    Enters (takeGroup1 (acknowledgeCycle level) p w l s) s s.ackVector p w l s.tracePending := by
  obtain ⟨g, h1, h2⟩ := takeException_acknowledge (level := level) h
  refine ⟨(s.entered p w l).withFlow g, ?_, rfl, h2.pc_eq, h2.trace_eq, h2.filled⟩
  unfold takeGroup1
  rw [h1]
  rfl

/-- Settles O6: an accepted request is entered with the vector of its acknowledge cycle. -/
theorem interruptEntry : Obligations.InterruptEntry := by
  intro s vec hr hp hh ht ha hv he
  have hv : vec = ({ s with l7Seen := s.irqLevel == 7 } : State).ackVector := hv
  rw [hv] at he ⊢
  have hstep : step s = takeInterrupt s.sampled := by
    rw [step_runs hr hp hh, if_neg (by rw [ht]; decide)]
    exact if_pos (accepts_sampled.mpr ha)
  rw [hstep, ← ht]
  exact takeGroup1_acknowledge (s := { s with l7Seen := s.irqLevel == 7 }) he

/-! ## Reset -/

/-- The state in which reset processing reads its vectors. -/
def State.resetting (s : State) : State :=
  { s with
    super := true, trace := false, mask := 7, run := .running, l7Seen := false, tracePending := false, resetRequest := false }

/-- The two vectors are read. -/
theorem enterReset_reads (h : s.Plain) : ∃ f : Flow, f.tracePending = false ∧
    enterReset s.resetting = jump (s.load .l 4) (({ s.resetting with ssp := s.load .l 0 } : State).withFlow f) := by
  have hp : s.resetting.Plain := h
  obtain ⟨t, h1, es, rfl⟩ := memRead_plain hp (sz := .l) (addr := 0) rfl .superProgram
  have hp2 : ({ s.resetting with events := es, ssp := s.resetting.load .l 0 } : State).Plain := h
  obtain ⟨t, h2, es2, rfl⟩ := memRead_plain hp2 (sz := .l) (addr := 4) rfl .superProgram
  refine ⟨{ s.resetting.flow with events := es2 }, rfl, ?_⟩
  unfold enterReset
  rw [bind_of_ok h1, update_bind]
  exact bind_of_ok h2

/-- Settles O8: the queue is filled from vector 1, or the processor halts. -/
theorem resetProcessing : Obligations.ResetProcessing := by
  intro s hr hs
  obtain ⟨f, hf, hread⟩ := enterReset_reads hs
  have hstep : step s = concluded (fun _ => halt) (enterReset s.resetting) := step_reset hr
  rw [hstep, hread]
  refine ⟨fun hodd => ?_, fun heven => ?_⟩
  · rw [jump_odd hodd]
    exact ⟨_, rfl, rfl⟩
  · have hp : ({ s.resetting with ssp := s.load .l 0 } : State).Plain := hs
    obtain ⟨g, h1, h2⟩ := jump_of hp f heven
    rw [h1]
    exact ⟨({ s.resetting with ssp := s.load .l 0 } : State).withFlow g, rfl, rfl, h2.pc_eq, h2.q0_eq, h2.q1_eq,
      h2.trace_eq.trans hf⟩

/-! ## Waiting -/

theorem waitOnBus_idle (h : s.outside = []) : waitOnBus s = .next s := by
  unfold waitOnBus
  rw [grantBus_idle h]
  rfl

/-- The state after the one act of another master, a byte written. -/
def State.dmaWritten (s : State) (x : Long) (v : Byte) : State :=
  { s.storeByte 0 x v with outside := [], events := .dmaWrite 0 (physical x) v :: s.events }

/-- Another master that is due writes its byte. -/
theorem grantBus_dmaWrite {again : Option Event} {x : Long} {v : Byte} (h : s.outside = [⟨0, .dmaWrite 0 x v⟩]) :
    grantBus again s = .ok () (s.dmaWritten x v) := by
  unfold grantBus
  rw [h]
  rfl

/-- Another master that is not due yet. -/
theorem grantBus_later {again : Option Event} {n : Nat} {act : OutsideAct} {rest : List Outside}
    (h : s.outside = ⟨n + 1, act⟩ :: rest) : grantBus again s = .ok () { s with outside := ⟨n, act⟩ :: rest } := by
  unfold grantBus
  rw [h]
  rfl

theorem performReadWord_of_map (h : s.map = []) (x : Long) (fc : FC) :
    performReadWord x fc s = .ok (s.wordAt 0 x) (s.note (.read (physical x) fc .word (s.wordAt 0 x))) := by
  have ha : s.answer x fc .read .word = .memory 0 := by
    show lookup s.map x fc .read .word = _
    rw [h]
    rfl
  unfold performReadWord
  rw [ha]

/-- A master that is due after one cycle writes between the two cycles of a long read. -/
theorem memRead_between {addr x : Long} {v : Byte} {fc : FC} (hm : s.map = []) (ho : s.outside = [⟨1, .dmaWrite 0 x v⟩])
    (ha : addr.getLsbD 0 = false) :
    ∃ t, memRead .l addr fc s = .ok (s.wordAt 0 addr ++ (s.storeByte 0 x v).wordAt 0 (addr + 2)) t ∧
      t.mem = (s.storeByte 0 x v).mem := by
  obtain ⟨s1, h1, ho1, hm1, hmem⟩ : ∃ s1, readWordCycle addr fc s = .ok (s.wordAt 0 addr) s1 ∧
      s1.outside = [⟨0, .dmaWrite 0 x v⟩] ∧ s1.map = s.map ∧ s1.mem = s.mem :=
    ⟨_, (bind_of_ok (grantBus_later ho)).trans
      (performReadWord_of_map (s := { s with outside := [⟨0, .dmaWrite 0 x v⟩] }) hm addr fc), rfl, rfl, rfl⟩
  have hstore : (s1.storeByte 0 x v).mem = (s.storeByte 0 x v).mem := congrArg (Memory.writeByte · _ v) hmem
  obtain ⟨s2, h2, hmem2⟩ : ∃ s2, readWordCycle (addr + 2) fc s1 = .ok ((s1.storeByte 0 x v).wordAt 0 (addr + 2)) s2 ∧
      s2.mem = (s1.storeByte 0 x v).mem :=
    ⟨_, (bind_of_ok (grantBus_dmaWrite ho1)).trans
      (performReadWord_of_map (s := s1.dmaWritten x v) (hm1.trans hm) (addr + 2) fc), rfl⟩
  refine ⟨s2, ?_, hmem2.trans hstore⟩
  unfold memRead
  rw [if_neg (by simp only [misaligned, ha, Bool.and_false]; decide)]
  refine (bind_of_ok h1).trans ((bind_of_ok h2).trans ?_)
  rw [State.wordAt_congr (s := s.storeByte 0 x v) hstore]
  rfl

/-- Settles O9: waiting is the bus alone. -/
theorem waitingStates : Obligations.WaitingStates := by
  intro s
  refine ⟨fun hr => ⟨fun ho => ⟨fun hw => ?_, fun hst hp ht hm h7 => ?_⟩, fun addr v ho hw => ?_⟩,
    fun addr x v fc hm ho ha => memRead_between hm ho ha⟩
  · rw [step_waits hr hw, waitOnBus_idle ho]
  · rw [step_boundary hr hp (by rw [hst]; decide) ht hm h7, if_pos hst]
    exact waitOnBus_idle (s := s.sampled) ho
  · rw [step_waits hr hw]
    unfold waitOnBus
    rw [grantBus_dmaWrite ho]
    rfl

end Sys2Proof.Machine
end

section
/-! PROOFS. MOVEM, MOVEP, LINK and UNLK: sequences of accesses, by induction on the list of registers or the count of bytes. -/

namespace Sys2Proof.Machine

variable {s e m : State} {i : Instr} {adj : List Adjusted} {f : Flow}

/-! ## The lists of registers -/

theorem map_filter_eq_filterMap {α β : Type} (p : α → Bool) (g : α → β) (l : List α) :
    (l.filter p).map g = l.filterMap fun a => if p a then some (g a) else none := by
  induction l with
  | nil => rfl
  | cons a l ih =>
    rw [List.filter_cons, List.filterMap_cons]
    cases p a with
    | true => exact congrArg (g a :: ·) ih
    | false => exact ih

theorem maskBits_eq : maskBits = List.finRange 16 := by decide

/-- The registers of a mask in the order of its bits. -/
def regsUp (mask : Word) : List Reg :=
  (List.finRange 16).filterMap fun i => if mask.getLsbD i.val then some (regOfIndex i) else none

/-- The registers of a predecrement mask in the order of its bits. -/
def regsDown (mask : Word) : List Reg :=
  (List.finRange 16).filterMap fun i => if mask.getLsbD i.val then some (regOfIndex i.rev) else none

theorem movemList_eq (mask : Word) : movemList mask = regsUp mask := by
  unfold movemList regsUp
  rw [map_filter_eq_filterMap, maskBits_eq]

theorem movemDownList_eq (mask : Word) : movemDownList mask = regsDown mask := by
  unfold movemDownList regsDown
  rw [map_filter_eq_filterMap, maskBits_eq]
  have hrev : ∀ j : Fin 16, (⟨15 - j.val, by omega⟩ : Fin 16) = j.rev := by
    intro j
    apply Fin.ext
    rw [Fin.val_rev]
    show 15 - j.val = _
    omega
  simp only [hrev]

/-! ## Addresses -/

theorem wsize_bytes_even (sz : WSize) : (BitVec.ofNat 32 sz.size.bytes).getLsbD 0 = false := by cases sz <;> rfl

theorem even_add_wsize {x : Long} (sz : WSize) (h : x.getLsbD 0 = false) :
    (x + BitVec.ofNat 32 sz.size.bytes).getLsbD 0 = false := (getLsbD_zero_add _ _ (wsize_bytes_even sz)).trans h

theorem even_sub_wsize {x : Long} (sz : WSize) (h : x.getLsbD 0 = false) :
    (x - BitVec.ofNat 32 sz.size.bytes).getLsbD 0 = false := by
  cases sz
  · exact (getLsbD_zero_sub2 x).trans h
  · exact (getLsbD_zero_sub4 x).trans h

theorem misaligned_of_even {x : Long} (sz : Size) (h : x.getLsbD 0 = false) : misaligned sz x = false := by
  simp only [misaligned, h, Bool.and_false]

theorem add_mul_succ (x : Long) (b n : Nat) :
    x + BitVec.ofNat 32 b + BitVec.ofNat 32 (b * n) = x + BitVec.ofNat 32 (b * (n + 1)) := by
  rw [Nat.mul_succ, Nat.add_comm (b * n), BitVec.ofNat_add, BitVec.add_assoc]

theorem sub_mul_succ (x : Long) (b n : Nat) :
    x - BitVec.ofNat 32 b - BitVec.ofNat 32 (b * n) = x - BitVec.ofNat 32 (b * (n + 1)) := by
  rw [Nat.mul_succ, Nat.add_comm (b * n), BitVec.ofNat_add, BitVec.sub_sub]

/-! ## Registers stored -/

theorem writeData_of (h : s.Plain) {sz : Size} {x : Long} (ha : misaligned sz x = false) (p : Bool) (v : Long) (m : State)
    (f : Flow) : ∃ g, writeData sz p x v (s.withFlow f) = .ok () ((s.store sz p x v).withFlow g) ∧ f.Passed g m 0 := by
  obtain ⟨t, h1, h2⟩ := writeData_plain (h.withFlow f) ha p v
  obtain ⟨g, rfl, h3⟩ := h2.flow m
  rw [State.store_flow] at h3
  rw [State.withFlow_store, State.withFlow_withFlow] at h1
  exact ⟨g, h1, h3⟩

theorem storeUp_of (hs : s.Plain) (sz : WSize) (m : State) (rs : List Reg) {x : Long}
    (hx : rs ≠ [] → x.getLsbD 0 = false) (f : Flow) :
    ∃ g, storeUp sz.size x rs (s.withFlow f) = .ok () ((s.storedUp sz.size x rs).withFlow g) ∧ f.Passed g m 0 := by
  induction rs generalizing s x f with
  | nil => exact ⟨f, rfl, Flow.Passed.refl _ _⟩
  | cons r rs ih =>
    have hx := hx (List.cons_ne_nil r rs)
    obtain ⟨f1, h1, p1⟩ := writeData_of hs (misaligned_of_even sz.size hx) false (s.reg r) m f
    obtain ⟨g, h2, p2⟩ := ih (hs.store ..) (fun _ => even_add_wsize sz hx) f1
    refine ⟨g, ?_, p1.same p2⟩
    unfold storeUp
    rw [inspect_bind, State.withFlow_reg, bind_of_ok h1]
    exact h2

theorem storeDown_of (hs : s.Plain) (sz : WSize) (m : State) (rs : List Reg) {x : Long}
    (hx : rs ≠ [] → x.getLsbD 0 = false) (f : Flow) :
    ∃ g, storeDown sz.size x rs (s.withFlow f) =
        .ok (x - BitVec.ofNat 32 (sz.size.bytes * rs.length)) ((s.storedDown sz.size x rs).withFlow g) ∧ f.Passed g m 0 := by
  induction rs generalizing s x f with
  | nil => exact ⟨f, congrArg (EStateM.Result.ok · _) (BitVec.sub_zero x).symm, Flow.Passed.refl _ _⟩
  | cons r rs ih =>
    have hx := even_sub_wsize sz (hx (List.cons_ne_nil r rs))
    obtain ⟨f1, h1, p1⟩ := writeData_of hs (misaligned_of_even sz.size hx) true (s.reg r) m f
    obtain ⟨g, h2, p2⟩ := ih (hs.store ..) (fun _ => hx) f1
    refine ⟨g, ?_, p1.same p2⟩
    unfold storeDown
    rw [inspect_bind, State.withFlow_reg, bind_of_ok h1, List.length_cons, ← sub_mul_succ]
    exact h2

/-- The location of a control operand does not depend on the size. -/
theorem State.locAt_of_control {ea : EA} (h : ea.mode.isControl = true) (k : Nat) (sz sz' : Size) :
    s.locAt k sz ea = s.locAt k sz' ea := by
  cases ea
  case preDec => cases h
  all_goals rfl

theorem movemToMemBody_control {dst : EA} (h : dst.mode.isControl = true) (sz : Size) (mask : Word) :
    movemToMemBody sz mask dst = (do
      fetchExts 1
      let addr ← controlAddress dst
      lastFetch
      storeUp sz addr (movemList mask)) := by
  cases dst
  case preDec => cases h
  all_goals rfl

theorem completes_movemToMem (hs : s.Plain) {sz : WSize} {mask : Word} {dst : EA} {sp : Space} {x : Long} {p : Bool}
    (hc : dst.mode.isControl = true) (hl : s.locAt 2 sz.size dst = .mem sp x p)
    (hx : regsUp mask ≠ [] → x.getLsbD 0 = false) :
    Completes (.movemToMem sz mask dst) s (s.storedUp sz.size x (regsUp mask)) := by
  obtain ⟨f1, h1, p1⟩ := fetchExts_of (m := s) hs rfl s.startFlow 1
  obtain ⟨f2, h2, p2⟩ := controlAddress_at (f := f1) (by rw [p1.pc_eq, State.startFlow_pc, pc_add]) hs
    ((State.locAt_of_control hc 2 .l sz.size).trans hl)
  rw [State.afterMode_of_control hc] at h2
  obtain ⟨f3, h3, p3⟩ := lastFetch_of (m := s) hs rfl f2
  obtain ⟨g, h4, p4⟩ := storeUp_of hs sz s (regsUp mask) hx f3
  refine completes_of_body (g := g) rfl (encode_length rfl (word_and_ea_length ..)) ?_ (((p1.trans p2).done p3).same p4)
  rw [movemToMemBody_control hc, bind_of_ok h1, bind_of_ok h2, bind_of_ok h3, movemList_eq]
  exact h4

theorem completes_movemToMem_preDec (hs : s.Plain) {sz : WSize} {mask : Word} {n : RegNum}
    (hx : regsDown mask ≠ [] → (s.areg n).getLsbD 0 = false) :
    Completes (.movemToMem sz mask (.preDec n)) s ((s.storedDown sz.size (s.areg n) (regsDown mask)).setAreg n
      (s.areg n - BitVec.ofNat 32 (sz.size.bytes * (regsDown mask).length))) := by
  obtain ⟨f1, h1, p1⟩ := fetchExts_of (m := s) hs rfl s.startFlow 1
  obtain ⟨f2, h2, p2⟩ := lastFetch_of (m := s) hs rfl f1
  obtain ⟨g, h3, p3⟩ := storeDown_of hs sz s (regsDown mask) hx f2
  refine completes_of_body (g := g) rfl (encode_length rfl rfl) ?_ ((p1.done p2).same p3)
  unfold movemToMemBody
  rw [bind_of_ok h1]
  dsimp only
  unfold getA
  rw [inspect_bind, State.withFlow_areg, bind_of_ok h2, movemDownList_eq, bind_of_ok h3]
  exact congrArg (EStateM.Result.ok ()) (State.withFlow_setAreg ..)

/-- Settles O57: the registers are stored one after another. -/
theorem movemStore : Obligations.MovemStore := fun _ _ _ hs =>
  ⟨fun _ _ _ _ hc hl hx => completes_movemToMem hs hc hl hx, fun _ hx => completes_movemToMem_preDec hs hx⟩

/-! ## Registers loaded -/

theorem setReg_run (r : Reg) (v : Long) (s : State) (f : Flow) :
    Machine.setReg r v (s.withFlow f) = .ok () ((s.setReg r v).withFlow f) := by
  cases r with
  | d n => rfl
  | a n => exact congrArg (EStateM.Result.ok ()) (State.withFlow_setAreg f n v)

theorem State.Plain.setReg (h : s.Plain) (r : Reg) (v : Long) : (s.setReg r v).Plain := by
  cases r with
  | d n => exact h
  | a n => exact h.setAreg n v

theorem State.setReg_mem (s : State) (r : Reg) (v : Long) : (s.setReg r v).mem = s.mem := by
  cases r with
  | d n => rfl
  | a n => exact State.setAreg_mem ..

theorem State.loadedUp_mem (s : State) (sz : Size) (rs : List Reg) (x : Long) : (s.loadedUp sz x rs).mem = s.mem := by
  induction rs generalizing s x with
  | nil => rfl
  | cons r rs ih => exact (ih ..).trans (State.setReg_mem ..)

theorem State.Plain.loadedUp (h : s.Plain) (sz : Size) (rs : List Reg) (x : Long) : (s.loadedUp sz x rs).Plain := by
  induction rs generalizing s x with
  | nil => exact h
  | cons r rs ih => exact ih (h.setReg ..) _

theorem memRead_of (h : s.Plain) {sz : Size} {x : Long} (ha : misaligned sz x = false) (fc : FC) (m : State) (f : Flow) :
    ∃ g, memRead sz x fc (s.withFlow f) = .ok (s.load sz x) (s.withFlow g) ∧ f.Passed g m 0 := by
  obtain ⟨t, h1, h2⟩ := memRead_plain (h.withFlow f) ha fc
  obtain ⟨g, rfl, h3⟩ := h2.flow m
  rw [State.withFlow_load] at h1
  exact ⟨g, h1, h3⟩

theorem loadUp_of (hs : s.Plain) (sz : WSize) (fc : FC) (m : State) (rs : List Reg) {x : Long}
    (hx : rs ≠ [] → x.getLsbD 0 = false) (f : Flow) :
    ∃ g, loadUp sz.size fc x rs (s.withFlow f) =
        .ok (x + BitVec.ofNat 32 (sz.size.bytes * rs.length)) ((s.loadedUp sz.size x rs).withFlow g) ∧ f.Passed g m 0 := by
  induction rs generalizing s x f with
  | nil => exact ⟨f, congrArg (EStateM.Result.ok · _) (BitVec.add_zero x).symm, Flow.Passed.refl _ _⟩
  | cons r rs ih =>
    have hx := hx (List.cons_ne_nil r rs)
    obtain ⟨f1, h1, p1⟩ := memRead_of hs (misaligned_of_even sz.size hx) fc m f
    obtain ⟨g, h2, p2⟩ := ih (hs.setReg r (sext sz.size (s.load sz.size x))) (fun _ => even_add_wsize sz hx) f1
    refine ⟨g, ?_, p1.same p2⟩
    unfold loadUp
    rw [bind_of_ok h1, bind_of_ok (setReg_run ..), List.length_cons, ← add_mul_succ]
    exact h2

/-- The word read past the last datum changes the flow at most. -/
theorem extraRead_of (hs : s.Plain) (fc : FC) (x : Long) (rs : List Reg) (m : State) (f : Flow) :
    ∃ g, extraRead fc x rs (s.withFlow f) = .ok () (s.withFlow g) ∧ f.Passed g m 0 := by
  cases rs with
  | nil => exact ⟨f, rfl, Flow.Passed.refl _ _⟩
  | cons r rs => exact unasked_of ⟨_, bind_of_ok (readWordCycle_plain (hs.withFlow f) x fc), f.noted_passed _ m⟩

theorem movemToRegBody_control {src : EA} (h : src.mode.isControl = true) (sz : Size) (mask : Word) :
    movemToRegBody sz mask src = (do
      fetchExts 1
      let loc ← resolve sz src
      match loc with
      | .mem sp addr _ => do
        let fc ← spaceFC sp
        let last ← loadUp sz fc addr (movemList mask)
        extraRead fc last (movemList mask)
        lastFetch
      | .dreg _ | .areg _ | .imm _ => lastFetch) := by
  cases src
  case postInc => cases h
  all_goals rfl

theorem spaceFC_run (sp : Space) (s : State) : ∃ fc, spaceFC sp s = .ok fc s := by
  cases sp with
  | data => exact ⟨_, rfl⟩
  | program => exact ⟨_, rfl⟩

theorem completes_movemToReg (hs : s.Plain) {sz : WSize} {mask : Word} {src : EA} {sp : Space} {x : Long} {p : Bool}
    (hc : src.mode.isControl = true) (hl : s.locAt 2 sz.size src = .mem sp x p)
    (hx : regsUp mask ≠ [] → x.getLsbD 0 = false) :
    Completes (.movemToReg sz mask src) s (s.loadedUp sz.size x (regsUp mask)) := by
  obtain ⟨f1, h1, p1⟩ := fetchExts_of (m := s) hs rfl s.startFlow 1
  obtain ⟨f2, h2, p2⟩ := resolve_at (f := f1) (k := 2) (by rw [p1.pc_eq, State.startFlow_pc, pc_add]) hs sz.size src
  rw [State.afterMode_of_control hc, hl] at h2
  obtain ⟨fc, hfc⟩ := spaceFC_run sp (s.withFlow f2)
  obtain ⟨f3, h3, p3⟩ := loadUp_of hs sz fc s (regsUp mask) hx f2
  have hp := hs.loadedUp sz.size (regsUp mask) x
  obtain ⟨f4, h4, p4⟩ := extraRead_of hp fc _ (regsUp mask) s f3
  obtain ⟨g, h5, p5⟩ := lastFetch_of (m := s) hp (State.loadedUp_mem ..) f4
  refine completes_of_body (g := g) rfl (encode_length rfl (word_and_ea_length ..)) ?_
    ((((p1.trans p2).same p3).same p4).done p5)
  rw [movemToRegBody_control hc, bind_of_ok h1, bind_of_ok h2]
  dsimp only
  rw [bind_of_ok hfc, movemList_eq, bind_of_ok h3, bind_of_ok h4]
  exact h5

theorem completes_movemToReg_postInc (hs : s.Plain) {sz : WSize} {mask : Word} {n : RegNum}
    (hx : regsUp mask ≠ [] → (s.areg n).getLsbD 0 = false) :
    Completes (.movemToReg sz mask (.postInc n)) s ((s.loadedUp sz.size (s.areg n) (regsUp mask)).setAreg n
      (s.areg n + BitVec.ofNat 32 (sz.size.bytes * (regsUp mask).length))) := by
  obtain ⟨f1, h1, p1⟩ := fetchExts_of (m := s) hs rfl s.startFlow 1
  obtain ⟨f2, h2, p2⟩ := loadUp_of hs sz s.dataFC s (regsUp mask) hx f1
  have hp := hs.loadedUp sz.size (regsUp mask) (s.areg n)
  obtain ⟨f3, h3, p3⟩ := extraRead_of hp s.dataFC (s.areg n + BitVec.ofNat 32 (sz.size.bytes * (regsUp mask).length))
    (regsUp mask) s f2
  obtain ⟨g, h4, p4⟩ := lastFetch_of (m := s) (hp.setAreg n _) ((State.setAreg_mem ..).trans (State.loadedUp_mem ..)) f3
  refine completes_of_body (g := g) rfl (encode_length rfl rfl) ?_ (((p1.same p2).same p3).done p4)
  unfold movemToRegBody
  rw [bind_of_ok h1]
  dsimp only
  unfold getA dataSpace setA
  rw [inspect_bind, inspect_bind, movemList_eq]
  refine (bind_of_ok h2).trans ((bind_of_ok h3).trans ?_)
  rw [update_bind, State.withFlow_setAreg]
  exact h4

/-- Settles O58: the registers are loaded one after another. -/
theorem movemLoad : Obligations.MovemLoad := fun _ _ _ hs =>
  ⟨fun _ _ _ _ hc hl hx => completes_movemToReg hs hc hl hx, fun _ hx => completes_movemToReg_postInc hs hx⟩

/-! ## MOVEP -/

theorem storeAlternate_of (hs : s.Plain) (v : Long) (m : State) (j : Nat) (x : Long) (f : Flow) :
    ∃ g, storeAlternate v j x (s.withFlow f) =
        .ok () ((s.storedAlternate x ((List.range j).reverse.map (byteOf v))).withFlow g) ∧ f.Passed g m 0 := by
  induction j generalizing s x f with
  | zero => exact ⟨f, rfl, Flow.Passed.refl _ _⟩
  | succ j ih =>
    have hstore : (s.storeByte 0 x (byteOf v j)).Plain := hs
    obtain ⟨g, h2, p2⟩ := ih hstore (x + 2) (f.noted (.write (physical x) s.dataFC .byte ((byteOf v j).setWidth 16)))
    refine ⟨g, ?_, (f.noted_passed _ m).same p2⟩
    unfold storeAlternate dataSpace
    rw [inspect_bind, bind_of_ok (writeByteCycle_plain (hs.withFlow f) ..), List.range_succ, List.reverse_append]
    exact h2

/-- A byte gathered onto a value. -/
def gatherByte (acc : Long) (b : Byte) : Long := acc <<< 8 ||| ofByte b

/-- The bytes at every other address, gathered onto a value. -/
def State.gathered (s : State) : Long → Nat → Long → Long
  | acc, 0, _ => acc
  | acc, j + 1, x => State.gathered s (gatherByte acc (s.byteAt x)) j (x + 2)

theorem loadAlternate_of (hs : s.Plain) (m : State) (j : Nat) (acc x : Long) (f : Flow) :
    ∃ g, loadAlternate acc j x (s.withFlow f) = .ok (s.gathered acc j x) (s.withFlow g) ∧ f.Passed g m 0 := by
  induction j generalizing acc x f with
  | zero => exact ⟨f, rfl, Flow.Passed.refl _ _⟩
  | succ j ih =>
    obtain ⟨g, h2, p2⟩ := ih (gatherByte acc (s.byteAt x)) (x + 2)
      (f.noted (.read (physical x) s.dataFC .byte ((s.byteAt x).setWidth 16)))
    refine ⟨g, ?_, (f.noted_passed _ m).same p2⟩
    unfold loadAlternate dataSpace
    rw [inspect_bind, bind_of_ok (readByteCycle_plain (hs.withFlow f) ..)]
    exact h2

theorem toNat_append_add {a b : Nat} (x : BitVec a) (y : BitVec b) : (x ++ y).toNat = x.toNat * 2 ^ b + y.toNat := by
  rw [BitVec.toNat_append, ← Nat.shiftLeft_add_eq_or_of_lt y.isLt, Nat.shiftLeft_eq]

theorem gatherByte_toNat {acc : Long} (h : acc.toNat < 2 ^ 24) (b : Byte) :
    (gatherByte acc b).toNat = acc.toNat * 2 ^ 8 + b.toNat := by
  unfold gatherByte
  rw [BitVec.toNat_or, BitVec.toNat_shiftLeft, ofByte_toNat, Nat.mod_eq_of_lt (by rw [Nat.shiftLeft_eq]; omega),
    ← Nat.shiftLeft_add_eq_or_of_lt b.isLt, Nat.shiftLeft_eq]

theorem gatherByte_zero_toNat (b : Byte) : (gatherByte 0 b).toNat = b.toNat := by
  rw [gatherByte_toNat (by decide)]
  exact Nat.zero_add _

theorem gathered_word (s : State) (x : Long) : lowWord (s.gathered 0 2 x) = s.byteAt x ++ s.byteAt (x + 2) := by
  have h0 := (s.byteAt x).isLt
  have h1 := (s.byteAt (x + 2)).isLt
  have e0 := gatherByte_zero_toNat (s.byteAt x)
  apply BitVec.eq_of_toNat_eq
  show (lowWord (gatherByte (gatherByte 0 (s.byteAt x)) (s.byteAt (x + 2)))).toNat = _
  rw [lowWord_toNat, toNat_append_add, gatherByte_toNat (by omega), e0]
  omega

theorem gathered_long (s : State) (x : Long) :
    s.gathered 0 4 x = s.byteAt x ++ s.byteAt (x + 2) ++ s.byteAt (x + 4) ++ s.byteAt (x + 6) := by
  have h0 := (s.byteAt x).isLt
  have h1 := (s.byteAt (x + 2)).isLt
  have h2 := (s.byteAt (x + 4)).isLt
  have e0 := gatherByte_zero_toNat (s.byteAt x)
  have e1 := gatherByte_toNat (acc := gatherByte 0 (s.byteAt x)) (by omega) (s.byteAt (x + 2))
  have e2 := gatherByte_toNat (acc := gatherByte (gatherByte 0 (s.byteAt x)) (s.byteAt (x + 2))) (by omega) (s.byteAt (x + 4))
  have h : s.gathered 0 4 x = gatherByte (gatherByte (gatherByte (gatherByte 0 (s.byteAt x)) (s.byteAt (x + 2)))
      (s.byteAt (x + 4))) (s.byteAt (x + 6)) := by
    simp only [State.gathered, pc_two_two, show x + 4 + 2 = x + 6 from by rw [BitVec.add_assoc]; rfl]
  apply BitVec.eq_of_toNat_eq
  rw [h, gatherByte_toNat (by omega), e2, e1, e0, toNat_append_add, toNat_append_add, toNat_append_add]

theorem completes_movepToReg (hs : s.Plain) (sz : WSize) (dn an : RegNum) (d : Word) :
    Completes (.movepToReg sz dn an d) s (s.setDreg dn (merge sz.size s.d[dn.val]
      (s.gathered 0 sz.size.bytes (s.areg an + d.signExtend 32)))) := by
  obtain ⟨f1, h1, p1⟩ := fetchExts_of (m := s) hs rfl s.startFlow 1
  obtain ⟨f2, h2, p2⟩ := loadAlternate_of hs s sz.size.bytes 0 (s.areg an + d.signExtend 32) f1
  obtain ⟨g, h3, p3⟩ := lastFetch_of (m := s) hs rfl f2
  exact completes_of_body (g := g) rfl (encode_length rfl rfl)
    ((bind_of_ok h1).trans ((bind_of_ok h2).trans (bind_of_ok h3))) ((p1.same p2).done p3)

theorem completes_movepToMem (hs : s.Plain) (sz : WSize) (dn an : RegNum) (d : Word) :
    Completes (.movepToMem sz dn an d) s (s.storedAlternate (s.areg an + d.signExtend 32)
      ((List.range sz.size.bytes).reverse.map (byteOf s.d[dn.val]))) := by
  obtain ⟨f1, h1, p1⟩ := fetchExts_of (m := s) hs rfl s.startFlow 1
  obtain ⟨f2, h2, p2⟩ := lastFetch_of (m := s) hs rfl f1
  obtain ⟨g, h3, p3⟩ := storeAlternate_of hs s.d[dn.val] s sz.size.bytes (s.areg an + d.signExtend 32) f2
  exact completes_of_body (g := g) rfl (encode_length rfl rfl)
    ((bind_of_ok h1).trans ((bind_of_ok h2).trans h3)) ((p1.done p2).same p3)

/-- Settles O59: the bytes at every other address. -/
theorem movePeripheral : Obligations.MovePeripheral := by
  intro s dn an d hs
  refine ⟨?_, ?_, completes_movepToMem hs .w dn an d, completes_movepToMem hs .l dn an d⟩
  · rw [← gathered_word, ← merge_word]
    exact completes_movepToReg hs .w dn an d
  · rw [← gathered_long]
    exact completes_movepToReg hs .l dn an d

/-! ## LINK and UNLK -/

/-- The value LINK pushes: the register, or free for A7. -/
theorem linkValue_of (an : RegNum) (s : State) (f : Flow) (m : State) :
    ∃ v g, linkValue an (s.withFlow f) = .ok v (s.withFlow g) ∧ f.Passed g m 0 ∧ (an ≠ 7 → v = s.areg an) := by
  by_cases h : an = 7
  · exact ⟨Config.freeLong f.free, f.spent 1, by unfold linkValue; rw [if_pos h]; rfl, f.spent_passed 1 m, fun hn => absurd h hn⟩
  · exact ⟨s.areg an, f, by unfold linkValue; rw [if_neg h]; rfl, Flow.Passed.refl _ _, fun _ => rfl⟩

theorem completes_link (hs : s.Plain) (h7 : (s.areg 7).getLsbD 0 = false) (an : RegNum) (d : Word) :
    ∃ v, (an ≠ 7 → v = s.areg an) ∧ Completes (.link an d) s
      (((s.pushed32 v).setAreg an (s.areg 7 - 4)).setAreg 7 (s.areg 7 - 4 + d.signExtend 32)) := by
  obtain ⟨f1, h1, p1⟩ := fetchExts_of (m := s) hs rfl s.startFlow 1
  obtain ⟨f2, h2, p2⟩ := lastFetch_of (m := s) hs rfl f1
  obtain ⟨v, f3, h3, p3, hv⟩ := linkValue_of an s f2 s
  obtain ⟨g, h4, p4⟩ := push32_of hs h7 s f3 v
  refine ⟨v, hv, completes_of_body (g := g) rfl (encode_length rfl rfl) ?_ (((p1.done p2).same p3).same p4)⟩
  refine (bind_of_ok h1).trans ((bind_of_ok h2).trans ((bind_of_ok h3).trans ((bind_of_ok h4).trans ?_)))
  unfold getA setA
  rw [inspect_bind, update_bind, update_run, State.withFlow_areg, State.areg7_pushed32, State.withFlow_setAreg,
    State.withFlow_setAreg]
  rfl

/-- The value UNLK leaves in its register: the one popped, or free for A7. -/
theorem unlinkValue_of (an : RegNum) (v : Long) (s : State) (f : Flow) :
    ∃ w f', unlinkValue an v (s.withFlow f) = .ok w (s.withFlow f') ∧ (∀ m, f.Passed f' m 0) ∧ (an ≠ 7 → w = v) := by
  by_cases h : an = 7
  · exact ⟨Config.freeLong f.free, f.spent 1, by unfold unlinkValue; rw [if_pos h]; rfl, f.spent_passed 1, fun hn => absurd h hn⟩
  · exact ⟨v, f, by unfold unlinkValue; rw [if_neg h]; rfl, fun m => Flow.Passed.refl _ m, fun _ => rfl⟩

theorem completes_unlk (hs : s.Plain) {an : RegNum} (ha : (s.areg an).getLsbD 0 = false) :
    ∃ w, (an ≠ 7 → w = s.load .l (s.areg an)) ∧
      Completes (.unlk an) s ((s.setAreg 7 (s.areg an + 4)).setAreg an w) := by
  have hp := hs.setAreg 7 (s.areg an)
  have h7 : (s.setAreg 7 (s.areg an)).areg 7 = s.areg an := State.areg_setAreg_same ..
  obtain ⟨f1, h1, p1⟩ := pop32_of hp (by rw [h7]; exact ha) s s.startFlow
  rw [h7, State.setAreg_setAreg_same, State.load_congr (State.setAreg_mem ..)] at h1
  obtain ⟨f2, h2, p2⟩ := lastFetch_of (m := s) (hs.setAreg 7 (s.areg an + 4)) (State.setAreg_mem ..) f1
  obtain ⟨w, g, h3, p3, hw⟩ := unlinkValue_of an (s.load .l (s.areg an)) (s.setAreg 7 (s.areg an + 4)) f2
  refine ⟨w, hw, completes_of_body (g := g) (i := .unlk an) rfl (encode_length rfl rfl) ?_ ((p1.done p2).same (p3 s))⟩
  unfold getA setA
  rw [inspect_bind, update_bind, State.withFlow_areg, State.withFlow_setAreg]
  refine (bind_of_ok h1).trans ((bind_of_ok h2).trans ((bind_of_ok h3).trans ?_))
  exact congrArg (EStateM.Result.ok ()) (State.withFlow_setAreg ..)

/-- Settles O60: LINK and UNLK, whose value is free just for A7. -/
theorem linkUnlink : Obligations.LinkUnlink := by
  intro s an d hs
  refine ⟨fun h7 => ⟨fun hn => ?_, ?_, ?_⟩, fun ha hn => ?_⟩
  · obtain ⟨v, hv, hc⟩ := completes_link hs h7 an d
    exact hv hn ▸ hc
  · obtain ⟨v, -, hc⟩ := completes_link hs h7 7 d
    rw [State.setAreg_setAreg_same] at hc
    exact ⟨v, hc⟩
  · obtain ⟨w, -, hc⟩ := completes_unlk hs h7
    rw [State.setAreg_setAreg_same] at hc
    exact ⟨w, hc⟩
  · obtain ⟨w, hw, hc⟩ := completes_unlk hs ha
    exact hw hn ▸ hc

end Sys2Proof.Machine
end

section
/-! PROOFS. The entry of a bus error or an address error, and the double fault. The entry uses supervisor space alone, so it is
followed wherever that space is plain memory, whatever the user's space answers. -/

namespace Sys2Proof.Machine

variable {s e t : State}

/-! ## Spaces of plain memory -/

/-- No other agent is due, and every cycle of a space is one of plain memory. -/
def State.Serves (s : State) (fc : FC) : Prop := s.outside = [] ∧ ∀ a dir w, s.answer a fc dir w = .memory 0

theorem State.Serves.congr {fc : FC} (h : s.Serves fc) (hm : t.map = s.map) (ho : t.outside = s.outside) : t.Serves fc := by
  refine ⟨ho.trans h.1, fun a dir w => ?_⟩
  show lookup t.map a fc dir w = _
  rw [hm]
  exact h.2 a dir w

theorem State.Plain.serves (h : s.Plain) (fc : FC) : s.Serves fc := ⟨h.1, fun a dir w => h.2 a fc dir w⟩

/-- Nothing is fetched from `f` to `g`. -/
def Flow.Still (f g : Flow) : Prop := ∀ m, f.Passed g m 0

theorem Flow.Still.refl (f : Flow) : f.Still f := Flow.Passed.refl f

theorem Flow.Still.trans {f g h : Flow} (p : f.Still g) (q : g.Still h) : f.Still h := fun m => (p m).trans (q m)

theorem Flow.Still.noted (f : Flow) (ev : Event) : f.Still (f.noted ev) := f.noted_passed ev

theorem Flow.Still.spent (f : Flow) (n : Nat) : f.Still (f.spent n) := f.spent_passed n

/-- A word read that plain memory serves. -/
theorem readWordCycle_at {a : Long} {fc : FC} (ho : s.outside = []) (h : s.answer a fc .read .word = .memory 0) (f : Flow) :
    ∃ g, readWordCycle a fc (s.withFlow f) = .ok (s.wordAt 0 a) (s.withFlow g) ∧ f.Still g := by
  refine ⟨f.noted (.read (physical a) fc .word (s.wordAt 0 a)), ?_, Flow.Still.noted f _⟩
  unfold readWordCycle
  rw [bind_of_ok (grantBus_idle (s := s.withFlow f) ho _)]
  unfold performReadWord
  simp only [State.withFlow_answer, h]
  rfl

theorem readByteCycle_at {a : Long} {fc : FC} (ho : s.outside = []) (h : s.answer a fc .read .byte = .memory 0) (f : Flow) :
    ∃ g, readByteCycle a fc (s.withFlow f) = .ok (s.mem.readByte (byteKey 0 a)) (s.withFlow g) ∧ f.Still g := by
  refine ⟨f.noted (.read (physical a) fc .byte ((s.mem.readByte (byteKey 0 a)).setWidth 16)), ?_, Flow.Still.noted f _⟩
  unfold readByteCycle
  rw [bind_of_ok (grantBus_idle (s := s.withFlow f) ho _)]
  unfold performReadByte
  simp only [State.withFlow_answer, h]
  rfl

/-- A word write that plain memory serves. -/
theorem writeWordCycle_at {a : Long} {fc : FC} (ho : s.outside = []) (h : s.answer a fc .write .word = .memory 0) (v : Word)
    (f : Flow) : ∃ g, writeWordCycle a fc v (s.withFlow f) = .ok () ((s.storeWord 0 a v).withFlow g) ∧ f.Still g := by
  refine ⟨f.noted (.write (physical a) fc .word v), ?_, Flow.Still.noted f _⟩
  unfold writeWordCycle
  rw [bind_of_ok (grantBus_idle (s := s.withFlow f) ho _)]
  unfold performWriteWord
  simp only [State.withFlow_answer, h]
  rfl

theorem writeByteCycle_at {a : Long} {fc : FC} (ho : s.outside = []) (h : s.answer a fc .write .byte = .memory 0) (v : Byte)
    (f : Flow) : ∃ g, writeByteCycle a fc v (s.withFlow f) = .ok () ((s.storeByte 0 a v).withFlow g) ∧ f.Still g := by
  refine ⟨f.noted (.write (physical a) fc .byte (v.setWidth 16)), ?_, Flow.Still.noted f _⟩
  unfold writeByteCycle
  rw [bind_of_ok (grantBus_idle (s := s.withFlow f) ho _)]
  unfold performWriteByte
  simp only [State.withFlow_answer, h]
  rfl

/-- A read of an operand at an aligned address of a plain space. -/
theorem memRead_serves {fc : FC} (h : s.Serves fc) {sz : Size} {a : Long} (ha : misaligned sz a = false) (f : Flow) :
    ∃ g, memRead sz a fc (s.withFlow f) = .ok (s.load sz a) (s.withFlow g) ∧ f.Still g := by
  unfold memRead
  rw [if_neg (by rw [ha]; decide)]
  cases sz with
  | b =>
    obtain ⟨g, h1, p1⟩ := readByteCycle_at h.1 (h.2 a _ _) f
    exact ⟨g, bind_of_ok h1, p1⟩
  | w =>
    obtain ⟨g, h1, p1⟩ := readWordCycle_at h.1 (h.2 a _ _) f
    exact ⟨g, bind_of_ok h1, p1⟩
  | l =>
    obtain ⟨g, h1, p1⟩ := readWordCycle_at h.1 (h.2 a _ _) f
    obtain ⟨g', h2, p2⟩ := readWordCycle_at h.1 (h.2 (a + 2) _ _) g
    exact ⟨g', (bind_of_ok h1).trans (bind_of_ok h2), p1.trans p2⟩

/-- A push, to a plain space, of a word or a long word. -/
theorem memWrite_serves {fc : FC} (h : s.Serves fc) {sz : Size} {a : Long} (ha : misaligned sz a = false) (v : Long)
    (f : Flow) : ∃ g, memWrite sz true a fc v (s.withFlow f) = .ok () ((s.store sz true a v).withFlow g) ∧ f.Still g := by
  unfold memWrite
  rw [if_neg (by rw [ha]; decide)]
  cases sz with
  | b => exact writeByteCycle_at h.1 (h.2 a _ _) _ f
  | w => exact writeWordCycle_at h.1 (h.2 a _ _) _ f
  | l =>
    obtain ⟨g, h1, p1⟩ := writeWordCycle_at h.1 (h.2 (a + 2) _ _) (lowWord v) f
    obtain ⟨g', h2, p2⟩ := writeWordCycle_at (s := s.storeWord 0 (a + 2) (lowWord v)) h.1 (h.2 a _ _) (highWord v) g
    exact ⟨g', (bind_of_ok h1).trans h2, p1.trans p2⟩

/-- A transfer of control to an even address of a plain space. -/
theorem jump_serves (h : s.Serves s.programFC) {x : Long} (hx : x.getLsbD 0 = false) (f : Flow) :
    ∃ g, jump x (s.withFlow f) = .ok () (s.withFlow g) ∧ f.Arrived g s x := by
  obtain ⟨g, h1, p1⟩ := readWordCycle_at (s := s) h.1 (h.2 x _ _) { f with pc := x }
  obtain ⟨g', h2, p2⟩ := readWordCycle_at (s := s) h.1 (h.2 (x + 2) _ _) g
  have h0 : fetchWord x s.programFC (s.withFlow { f with pc := x }) = .ok (s.wordAt 0 x) (s.withFlow g) := by
    unfold fetchWord
    rw [if_neg (by rw [hx]; decide)]
    exact h1
  have p := (p1.trans p2) s
  refine ⟨{ g' with q0 := s.wordAt 0 x, q1 := s.wordAt 0 (x + 2) }, relaid_of_ok ?_, p.pc_same, rfl, rfl, p.trace_eq⟩
  show (fetchWord x s.programFC >>= _) (s.withFlow { f with pc := x }) = _
  exact (bind_of_ok h0).trans (bind_of_ok h2)

/-! ## The supervisor's stack -/

/-- In supervisor state, on an even stack in plain memory. -/
structure State.Framing (s : State) : Prop where
  super : s.super = true
  data : s.Serves .superData
  even : (s.areg 7).getLsbD 0 = false

theorem State.Framing.dataFC (h : s.Framing) : s.dataFC = .superData := by
  unfold State.dataFC
  rw [h.super]
  rfl

theorem State.pushed32_map (v : Long) : (s.pushed32 v).map = s.map := (State.store_map ..).trans (State.setAreg_map ..)

theorem State.pushed16_map (v : Word) : (s.pushed16 v).map = s.map := (State.store_map ..).trans (State.setAreg_map ..)

theorem State.store_outside (sz : Size) (p : Bool) (x v : Long) : (s.store sz p x v).outside = s.outside := by
  cases sz
  case l => cases p <;> rfl
  all_goals rfl

theorem State.pushed32_outside (v : Long) : (s.pushed32 v).outside = s.outside :=
  (State.store_outside ..).trans (State.setAreg_outside ..)

theorem State.pushed16_outside (v : Word) : (s.pushed16 v).outside = s.outside :=
  (State.store_outside ..).trans (State.setAreg_outside ..)

theorem State.Framing.pushed32 (h : s.Framing) (v : Long) : (s.pushed32 v).Framing :=
  ⟨(State.pushed32_super v).trans h.super, h.data.congr (State.pushed32_map v) (State.pushed32_outside v),
    by rw [State.areg7_pushed32, getLsbD_zero_sub4]; exact h.even⟩

theorem State.Framing.pushed16 (h : s.Framing) (v : Word) : (s.pushed16 v).Framing :=
  ⟨(State.pushed16_super v).trans h.super, h.data.congr (State.pushed16_map v) (State.pushed16_outside v),
    by rw [State.areg7_pushed16, getLsbD_zero_sub2]; exact h.even⟩

theorem State.withFlow_dataFC (f : Flow) : (s.withFlow f).dataFC = s.dataFC := rfl

theorem State.setAreg_dataFC (n : RegNum) (v : Long) : (s.setAreg n v).dataFC = s.dataFC := by
  unfold State.dataFC
  rw [State.setAreg_super]

theorem push32_framing (h : s.Framing) (v : Long) (f : Flow) :
    ∃ g, push32 v (s.withFlow f) = .ok () ((s.pushed32 v).withFlow g) ∧ f.Still g := by
  have hd : (s.setAreg 7 (s.areg 7 - 4)).Serves .superData := h.data.congr (State.setAreg_map ..) (State.setAreg_outside ..)
  obtain ⟨g, h1, p1⟩ := memWrite_serves hd (misaligned_of_even .l (by rw [getLsbD_zero_sub4]; exact h.even)) v f
  refine ⟨g, ?_, p1⟩
  unfold push32 getA setA writeData dataSpace
  rw [inspect_bind, update_bind, inspect_bind, State.withFlow_setAreg, State.withFlow_dataFC, State.setAreg_dataFC, h.dataFC]
  exact h1

theorem push16_framing (h : s.Framing) (v : Word) (f : Flow) :
    ∃ g, push16 v (s.withFlow f) = .ok () ((s.pushed16 v).withFlow g) ∧ f.Still g := by
  have hd : (s.setAreg 7 (s.areg 7 - 2)).Serves .superData := h.data.congr (State.setAreg_map ..) (State.setAreg_outside ..)
  obtain ⟨g, h1, p1⟩ := memWrite_serves hd (misaligned_of_even .w (by rw [getLsbD_zero_sub2]; exact h.even)) (ofWord v) f
  refine ⟨g, ?_, p1⟩
  unfold push16 getA setA writeData dataSpace
  rw [inspect_bind, update_bind, inspect_bind, State.withFlow_setAreg, State.withFlow_dataFC, State.setAreg_dataFC, h.dataFC]
  exact h1

/-! ## The entry -/

/-- Both supervisor spaces are plain memory. -/
structure State.SupervisorServed (s : State) : Prop where
  data : s.Serves .superData
  program : s.Serves .superProgram

theorem State.Plain.supervisorServed (h : s.Plain) : s.SupervisorServed := ⟨h.serves _, h.serves _⟩

theorem State.SupervisorServed.congr (h : s.SupervisorServed) (hm : t.map = s.map) (ho : t.outside = s.outside) :
    t.SupervisorServed := ⟨h.data.congr hm ho, h.program.congr hm ho⟩

/-- The frame of a group 0 exception but for its run state. -/
theorem State.entered0_eq (p : Long) (w ir : Word) (a : Long) (st : Word) :
    s.entered0 p w ir a st =
      { (((((s.entering none).pushed32 p).pushed16 w).pushed16 ir).pushed32 a).pushed16 st with run := .running } := rfl

theorem vectorSpace_fault (k : FaultKind) : vectorSpace k.vector = .superData := by cases k <;> rfl

/-- The entry with the fourteen-byte frame, once nothing in it faults. -/
theorem takeException_group0 (h : s.SupervisorServed) {k : FaultKind} {p : Long} {w ir : Word} {a : Long} {st : Word}
    (hs : s.ssp.getLsbD 0 = false) (hh : (s.handler0 k.vector p w ir a st).getLsbD 0 = false) (f : Flow) :
    ∃ g, takeException (pure k.vector) p w none (some ⟨ir, a, st⟩) (s.withFlow f) =
        .ok () ((s.entered0 p w ir a st).withFlow g) ∧
      f.Arrived g (s.entered0 p w ir a st) (s.handler0 k.vector p w ir a st) := by
  have f1 : (s.entering none).Framing := ⟨rfl, h.data, by rw [State.areg7_super rfl]; exact hs⟩
  have f2 := f1.pushed32 p
  have f3 := f2.pushed16 w
  have f4 := f3.pushed16 ir
  have f5 := f4.pushed32 a
  have f6 := f5.pushed16 st
  obtain ⟨g1, h1, p1⟩ := push32_framing f1 p f
  obtain ⟨g2, h2, p2⟩ := push16_framing f2 w g1
  obtain ⟨g3, h3, p3⟩ := push16_framing f3 ir g2
  obtain ⟨g4, h4, p4⟩ := push32_framing f4 a g3
  obtain ⟨g5, h5, p5⟩ := push16_framing f5 st g4
  obtain ⟨g6, h6, p6⟩ := memRead_serves f6.data (misaligned_of_even .l (vectorAddress_even k.vector)) g5
  have hl : s.handler0 k.vector p w ir a st =
      ((((((s.entering none).pushed32 p).pushed16 w).pushed16 ir).pushed32 a).pushed16 st).load .l (vectorAddress k.vector) :=
    State.load_congr rfl _ _
  have hsup : (s.entered0 p w ir a st).super = true := f6.super
  have hmap : (s.entered0 p w ir a st).map = s.map := by
    show (((((s.entering none).pushed32 p).pushed16 w).pushed16 ir).pushed32 a |>.pushed16 st).map = _
    rw [State.pushed16_map, State.pushed32_map, State.pushed16_map, State.pushed16_map, State.pushed32_map]
    rfl
  have hserve : (s.entered0 p w ir a st).Serves (s.entered0 p w ir a st).programFC := by
    unfold State.programFC
    rw [hsup]
    exact h.program.congr hmap (f6.data.1.trans h.data.1.symm)
  obtain ⟨g7, h7, p7⟩ := jump_serves hserve hh g6
  refine ⟨g7, ?_, ((((((p1.trans p2).trans p3).trans p4).trans p5).trans p6) s).arrived p7⟩
  have hpush : pushPc (pure k.vector) p ((s.entering none).withFlow f) =
      .ok k.vector (((s.entering none).pushed32 p).withFlow g1) := by
    rw [pushPc_pure, bind_of_ok h1]
    rfl
  unfold takeException
  rw [update_bind]
  show (pushPc (pure k.vector) p >>= _) ((s.entering none).withFlow f) = _
  rw [bind_of_ok hpush, bind_of_ok h2]
  have hextra : pushExtra (some ⟨ir, a, st⟩) ((((s.entering none).pushed32 p).pushed16 w).withFlow g2) =
      .ok () ((((((s.entering none).pushed32 p).pushed16 w).pushed16 ir).pushed32 a |>.pushed16 st).withFlow g5) :=
    (bind_of_ok h3).trans ((bind_of_ok h4).trans h5)
  rw [bind_of_ok hextra, vectorSpace_fault, bind_of_ok h6, update_bind, ← hl]
  exact h7

/-- The three bits of a status word that tell the direction, I/N and the function code. -/
theorem statusWord_bits (free : Word) (f : BusFault) (b : Bool) :
    (statusWord free f b).getLsbD 4 = (f.dir == .read) ∧ (statusWord free f b).getLsbD 3 = b ∧
      (statusWord free f b).extractLsb' 0 3 = f.fc.code := by
  unfold statusWord
  generalize free.extractLsb' 5 11 = u
  generalize (f.dir == .read) = r
  generalize f.fc.code = c
  refine ⟨?_, ?_, ?_⟩
  · simp only [BitVec.getLsbD_append]
    cases r <;> rfl
  · simp only [BitVec.getLsbD_append]
    cases b <;> rfl
  · ext i hi
    simp only [BitVec.getElem_extractLsb', Nat.zero_add, BitVec.getLsbD_append, hi, BitVec.getLsbD_eq_getElem, if_true]

theorem State.withFlow_entered0 (f : Flow) (p : Long) (w ir : Word) (a : Long) (st : Word) :
    (s.withFlow f).entered0 p w ir a st = (s.entered0 p w ir a st).withFlow f := by
  simp only [State.entered0_eq, State.withFlow_entering, State.withFlow_pushed32, State.withFlow_pushed16]
  rfl

theorem State.withFlow_handler0 (f : Flow) (vec : Nat) (p : Long) (w ir : Word) (a : Long) (st : Word) :
    (s.withFlow f).handler0 vec p w ir a st = s.handler0 vec p w ir a st := by
  unfold State.handler0
  rw [State.withFlow_entered0, State.withFlow_load]

theorem State.withFlow_ready0 (f : Flow) (vec : Nat) (ir : Word) (a : Long) :
    (s.withFlow f).Ready0 vec ir a ↔ s.Ready0 vec ir a := by
  unfold State.Ready0
  simp only [State.withFlow_handler0, State.withFlow_sr, State.withFlow_ssp]

/-- The instruction register that a frame holds: the operation word, or a free one where the frame is not an instruction's. -/
def BusFault.heldIr (n : Nat) (notInstr : Bool) (s : State) : Word := if notInstr then Config.freeWord n else s.ir

/-- The entry sequence that does not fault. -/
theorem enterGroup0_run {f : BusFault} {notInstr : Bool} (h : s.SupervisorServed)
    (hr : s.Ready0 f.kind.vector (BusFault.heldIr (s.free + 1) notInstr s) f.addr) {p : Long} {st : Word}
    (hp : p = savedPcOf (Config.freeLong s.free) f notInstr s.owl) (hst : st = statusWord (Config.freeWord (s.free + 2)) f notInstr) :
    ∃ g, enterGroup0 f notInstr s { s with tracePending := false } =
        .ok () ((s.entered0 p s.sr (BusFault.heldIr (s.free + 1) notInstr s) f.addr st).withFlow g) ∧
      Flow.Arrived { s.flow with tracePending := false } g (s.entered0 p s.sr (BusFault.heldIr (s.free + 1) notInstr s) f.addr st)
        (s.handler0 f.kind.vector p s.sr (BusFault.heldIr (s.free + 1) notInstr s) f.addr st) := by
  obtain ⟨g, h1, h2⟩ := takeException_group0 h hr.1 (hr.2 p st) { s.flow with tracePending := false, free := s.free + 3 }
  refine ⟨g, ?_, h2.pc_eq, h2.q0_eq, h2.q1_eq, h2.trace_eq⟩
  rw [← h1, hp, hst]
  rfl

/-- Bus error and address error processing that does not fault. -/
theorem takeGroup0_enters {f : BusFault} {notInstr : Bool} (h : s.SupervisorServed)
    (hr : s.Ready0 f.kind.vector (BusFault.heldIr (s.free + 1) notInstr s) f.addr) :
    Enters0 (takeGroup0 f notInstr s) s f.kind.vector (fun p => ∃ free, p = savedPcOf free f notInstr s.owl)
      (BusFault.heldIr (s.free + 1) notInstr s) f.addr (f.dir == .read) notInstr f.fc.code := by
  obtain ⟨hdir, hin, hfc⟩ := statusWord_bits (Config.freeWord (s.free + 2)) f notInstr
  generalize hp : savedPcOf (Config.freeLong s.free) f notInstr s.owl = p
  generalize hst : statusWord (Config.freeWord (s.free + 2)) f notInstr = st at hdir hin hfc
  obtain ⟨g, h1, h2⟩ := enterGroup0_run h hr hp.symm hst.symm
  exact ⟨p, st, _, congrArg (concluded fun _ => halt) h1, ⟨_, hp.symm⟩, hdir, hin, hfc, rfl, h2.pc_eq, h2.trace_eq, h2.filled⟩

theorem Enters0.of_withFlow {o : Outcome} {f : Flow} {vec : Nat} {saved : Long → Prop} {ir : Word} {a : Long} {r n : Bool}
    {fc : BitVec 3} (h : Enters0 o (s.withFlow f) vec saved ir a r n fc) : Enters0 o s vec saved ir a r n fc := by
  obtain ⟨p, st, t, h1, h2, h3, h4, h5, h6, h7, h8, h9⟩ := h
  exact ⟨p, st, t, h1, h2, h3, h4, h5, by rw [h6, State.withFlow_sr, State.withFlow_entered0]; rfl,
    by rw [h7, State.withFlow_sr, State.withFlow_handler0], h8, h9⟩

theorem Enters0.mono {o : Outcome} {vec : Nat} {saved saved' : Long → Prop} {ir : Word} {a : Long} {r n : Bool}
    {fc : BitVec 3} (h : Enters0 o s vec saved ir a r n fc) (hs : ∀ p, saved p → saved' p) :
    Enters0 o s vec saved' ir a r n fc := by
  obtain ⟨p, st, t, h1, h2, h3⟩ := h
  exact ⟨p, st, t, h1, hs p h2, h3⟩

/-- The saved PC of a fault inside an instruction. -/
theorem savedPcOf_operand {f : BusFault} (h : f.phase = .operand) (free owl : Long) :
    InsideOf owl (savedPcOf free f false owl) := by
  refine ⟨free.toNat % 5, by omega, ?_⟩
  unfold savedPcOf
  rw [h]
  rfl

/-- The saved PC of a fault of the fetch at a target. -/
theorem savedPcOf_target {f : BusFault} {x : Long} (h : f.phase = .target x ∨ f.phase = .handler x) (b : Bool) (free owl : Long) :
    NearTarget x (savedPcOf free f b owl) := by
  refine ⟨free.toNat % 5, by omega, ?_⟩
  unfold savedPcOf
  rcases h with h | h <;> rw [h]

/-- The processing of a fault of the fetch at a target, from a state with any flow. -/
theorem takeGroup0_near {f : BusFault} {x : Long} {b : Bool} {g : Flow} (hf : f.phase = .target x ∨ f.phase = .handler x)
    (h : s.SupervisorServed) (hr : ∀ ir, (b = false → ir = g.ir) → s.Ready0 f.kind.vector ir f.addr) :
    ∃ ir, (b = false → ir = g.ir) ∧ Enters0 (takeGroup0 f b (s.withFlow g)) s f.kind.vector (NearTarget x) ir f.addr
      (f.dir == .read) b f.fc.code := by
  have hir : b = false → BusFault.heldIr (g.free + 1) b (s.withFlow g) = g.ir := by
    rintro rfl
    rfl
  refine ⟨_, hir, Enters0.of_withFlow (f := g)
    ((takeGroup0_enters (s := s.withFlow g) (h.congr rfl rfl) ((State.withFlow_ready0 ..).mpr (hr _ hir))).mono ?_)⟩
  rintro p ⟨free, rfl⟩
  exact savedPcOf_target hf b free _

/-- The processing of a fault inside an instruction, from a state with any flow. -/
theorem takeGroup0_inside {f : BusFault} {g : Flow} (hf : f.phase = .operand) (h : s.SupervisorServed)
    (hr : s.Ready0 f.kind.vector g.ir f.addr) :
    Enters0 (takeGroup0 f false (s.withFlow g)) s f.kind.vector (InsideOf g.owl) g.ir f.addr (f.dir == .read) false
      f.fc.code := by
  have hir : BusFault.heldIr (g.free + 1) false (s.withFlow g) = g.ir := rfl
  have he := takeGroup0_enters (s := s.withFlow g) (f := f) (notInstr := false) (h.congr rfl rfl)
    ((State.withFlow_ready0 ..).mpr (hir ▸ hr))
  rw [State.withFlow_free, hir] at he
  refine Enters0.of_withFlow (f := g) (he.mono ?_)
  rintro p ⟨free, rfl⟩
  exact savedPcOf_operand hf free _

/-! ## Faults inside an entry -/

/-- The push of a program counter on an odd stack is an address error. -/
theorem pushPc_odd (vector : Exec Nat) (ha : (s.areg 7).getLsbD 0 = true) (v : Long) :
    pushPc vector v s =
      .error (.group0 ⟨.addressError, s.areg 7 - 4, .write, (s.setAreg 7 (s.areg 7 - 4)).dataFC, .operand⟩)
        (s.setAreg 7 (s.areg 7 - 4)) := by
  have h2 : misaligned .l (s.areg 7 - 4) = true := by
    simp only [misaligned, getLsbD_zero_sub4, ha, Bool.and_true]
    decide
  unfold pushPc getA setA dataSpace
  rw [inspect_bind, update_bind, inspect_bind, if_pos h2]
  rfl

/-- A group 0 exception with an odd supervisor stack pointer halts the processor. -/
theorem takeGroup0_odd (f : BusFault) (notInstr : Bool) (h : s.ssp.getLsbD 0 = true) :
    ∃ t, takeGroup0 f notInstr s = .next t ∧ t.run = .halted := by
  let e : State := (s.withFlow { s.flow with tracePending := false, free := s.free + 3 }).entering none
  have ht := pushPc_odd (s := e) (pure f.kind.vector) (by rw [State.areg7_super rfl]; exact h)
    (savedPcOf (Config.freeLong s.free) f notInstr s.owl)
  refine ⟨{ e.setAreg 7 (e.areg 7 - 4) with run := .halted }, ?_, rfl⟩
  exact congrArg (concluded fun _ => halt) (bind_of_error ht)

/-- An exception whose handler is odd faults at the fetch there, its frame pushed. -/
theorem takeException_oddHandler {vec : Nat} {p : Long} {w : Word} (h : s.Plain) (hs : s.ssp.getLsbD 0 = false)
    (hh : (s.handler vec p w none).getLsbD 0 = true) :
    ∃ g, takeException (pure vec) p w none none s =
      .error (.group0 ⟨.addressError, s.handler vec p w none, .read, .superProgram, .target (s.handler vec p w none)⟩)
        ((s.entered p w none).withFlow g) := by
  have h7 : (s.entering none).areg 7 = s.ssp := State.areg7_super rfl
  obtain ⟨t, u, h1, h2, h3⟩ := pushFrame_plain (h.entering none) (by rw [h7]; exact hs) p w
  obtain ⟨f, rfl, -⟩ := h3.flow s
  have hl : (s.handler vec p w none) = (((s.entering none).pushed32 p).pushed16 w).load .l (vectorAddress vec) :=
    State.load_congr rfl _ _
  have hserve : (((s.entering none).pushed32 p).pushed16 w).Serves (vectorSpace vec) :=
    (((h.entering none).pushed32 p).pushed16 w).serves _
  obtain ⟨g, h4, -⟩ := memRead_serves hserve (misaligned_of_even .l (vectorAddress_even vec)) f
  have h8 : pushPc (pure vec) p (s.entering none) = .ok vec t := by
    rw [pushPc_pure, bind_of_ok h1]
    rfl
  have hsup : (s.entered p w none).super = true := (State.pushed16_super w).trans (State.pushed32_super p)
  have hj := jump_odd (s := (s.entered p w none).withFlow g) hh
  have hfc : ((s.entered p w none).withFlow g).programFC = .superProgram := by
    unfold State.programFC
    rw [State.withFlow_super, hsup]
    rfl
  rw [hfc] at hj
  refine ⟨{ g with pc := s.handler vec p w none }, ?_⟩
  unfold takeException
  rw [update_bind]
  show (pushPc (pure vec) p >>= _) (s.entering none) = _
  rw [bind_of_ok h8, bind_of_ok h2]
  unfold pushExtra
  rw [pure_bind_run, bind_of_ok h4, update_bind, ← hl]
  exact hj

/-- A fault inside the entry of an instruction's own trap. -/
theorem runInstr_handlerFault {adj : List Adjusted} {body : Exec Unit} {f : BusFault} {x : Long} {u : State}
    (h : body s.startInstr = .error (.group0 f) u) (hf : f.phase = .handler x) :
    runInstr adj body s = takeGroup0 f true u := by
  unfold runInstr
  rw [h]
  show takeFault f (abandon adj f s.startInstr u) = _
  unfold takeFault abandon
  rw [hf]

theorem State.Plain.entered (h : s.Plain) (p : Long) (w : Word) (l : Option (BitVec 3)) : (s.entered p w l).Plain :=
  ((h.entering l).pushed32 p).pushed16 w

/-- TRAP with an odd handler. -/
theorem exec_trap_oddHandler {v : Fin 16} {x : Long} (h : s.Plain) (hs : s.ssp.getLsbD 0 = false)
    (hx : s.handler (32 + v.val) (s.pc + 2) s.sr none = x) (hodd : x.getLsbD 0 = true) :
    ∃ g, exec (.trap v) s = takeGroup0 ⟨.addressError, x, .read, .superProgram, .handler x⟩ true
      ((s.entered (s.pc + 2) s.sr none).withFlow g) := by
  have hf : (s.withFlow s.startFlow).handler (32 + v.val) (s.pc + 2) s.sr none = x := by
    rw [State.withFlow_handler]
    exact hx
  obtain ⟨g, h1⟩ := takeException_oddHandler (h.withFlow s.startFlow) hs (hf ▸ hodd)
  rw [hf, State.withFlow_entered, State.withFlow_withFlow] at h1
  exact ⟨g, runInstr_handlerFault (relaid_of_error h1) rfl⟩

/-- Settles O56: bus error and address error processing halts on an odd stack; a trap with an odd handler is a fault of its own. -/
theorem doubleFault : Obligations.DoubleFault := by
  refine ⟨fun s f notInstr h => takeGroup0_odd f notInstr h, fun s v hp hs => ?_⟩
  intro target s' hodd hready
  obtain ⟨g, hg⟩ := exec_trap_oddHandler (v := v) hp hs rfl hodd
  obtain ⟨ir, -, h⟩ := takeGroup0_near (f := ⟨.addressError, target, .read, .superProgram, .handler target⟩) (b := true) (g := g)
    (.inr rfl) (hp.entered _ _ _).supervisorServed (fun ir _ => hready ir)
  rw [hg]
  exact ⟨ir, h⟩

end Sys2Proof.Machine
end

section
/-! PROOFS. Bus errors and address errors of instructions: what an aborted instruction leaves, and every access and transfer at an
odd address. -/

namespace Sys2Proof.Machine

variable {s e t : State} {i : Instr} {adj : List Adjusted} {body : Exec Unit}

/-! ## What the body of an instruction does not touch -/

/-- The instruction that is running: its operation word and where it stands. -/
def Began (ir : Word) (owl : Long) (s : State) : Prop := s.ir = ir ∧ s.owl = owl

theorem began_kept (ir : Word) (owl : Long) : Kept (Began ir owl) (Began ir owl) := by
  have c : Closed (Began ir owl) := {
    dreg := id
    areg := fun h => ⟨(State.setAreg_ir ..).trans h.1, (State.setAreg_owl ..).trans h.2⟩
    flags := id
    byte := id
    word := id
    note := id
    spend := id
    acts := fun h _ => h
    queue := id
    running := id
    trace := id }
  exact { closed := c, closedE := c, toE := id, extension := id, target := id, arrived := fun h _ => h, entering := id }

/-- An operation of an instruction's body. -/
def Runs {α : Type} (x : Exec α) : Prop := ∀ ir owl, Keeps (Began ir owl) (Began ir owl) x

theorem runs_admits : Admits fun x => Runs x where
  pure a := fun ir owl => (admits_keeps (began_kept ir owl)).pure a
  bind h g := fun ir owl => (admits_keeps (began_kept ir owl)).bind (h ir owl) fun a => g a ir owl
  inspect f := fun ir owl => (admits_keeps (began_kept ir owl)).inspect f
  setD sz n v := fun ir owl => (admits_keeps (began_kept ir owl)).setD sz n v
  setA n v := fun ir owl => (admits_keeps (began_kept ir owl)).setA n v
  setCcr f := fun ir owl => (admits_keeps (began_kept ir owl)).setCcr f
  takeBit := fun ir owl => (admits_keeps (began_kept ir owl)).takeBit
  takeWord := fun ir owl => (admits_keeps (began_kept ir owl)).takeWord
  takeLong := fun ir owl => (admits_keeps (began_kept ir owl)).takeLong
  takeIndex := fun ir owl => (admits_keeps (began_kept ir owl)).takeIndex
  addressError x dir fc := fun ir owl => (admits_keeps (began_kept ir owl)).addressError x dir fc
  readByteCycle x fc := fun ir owl => (admits_keeps (began_kept ir owl)).readByteCycle x fc
  readWordCycle x fc := fun ir owl => (admits_keeps (began_kept ir owl)).readWordCycle x fc
  writeByteCycle x fc v := fun ir owl => (admits_keeps (began_kept ir owl)).writeByteCycle x fc v
  writeWordCycle x fc v := fun ir owl => (admits_keeps (began_kept ir owl)).writeWordCycle x fc v
  modifyByteCycle x fc _ h := fun ir owl => (admits_keeps (began_kept ir owl)).modifyByteCycle x fc fun b => h b ir owl
  unasked h := fun ir owl => (admits_keeps (began_kept ir owl)).unasked (h ir owl)
  afterMode sz ea := fun ir owl => (admits_keeps (began_kept ir owl)).afterMode sz ea
  fetchExt := fun ir owl => (admits_keeps (began_kept ir owl)).fetchExt
  lastFetch := fun ir owl => (admits_keeps (began_kept ir owl)).lastFetch
  jump x := fun ir owl => (admits_keeps (began_kept ir owl)).jump x
  trap2 vec := fun ir owl => (admits_keeps (began_kept ir owl)).trap2 vec

theorem Runs.setSr (w : Word) : Runs (update fun s => s.setSr w) := fun ir owl =>
  keeps_update (P := Began ir owl) fun _ h => h

/-- An aborted body leaves the operation word and its address. -/
theorem Runs.began (h : Runs body) {g : Flow} {a : Abort} (hb : body (s.withFlow s.startFlow) = .error a (e.withFlow g)) :
    g.ir = s.q0 ∧ g.owl = s.pc := (h s.q0 s.pc (s.withFlow s.startFlow) ⟨rfl, rfl⟩).2 _ _ hb

/-! ## A fault of the fetch at a target -/

theorem runInstr_targetFault {f : BusFault} {x : Long} {u : State} (h : body s.startInstr = .error (.group0 f) u)
    (hf : f.phase = .target x) : runInstr adj body s = takeGroup0 f false u := by
  unfold runInstr
  rw [h]
  show takeFault f (abandon adj f s.startInstr u) = _
  unfold takeFault abandon
  rw [hf]

/-- An instruction whose transfer of control faults at the target. -/
theorem enters0_of_target {f : BusFault} {x : Long} {g : Flow} (hi : exec i s = runInstr adj body s) (hk : Runs body)
    (hb : body (s.withFlow s.startFlow) = .error (.group0 f) (e.withFlow g)) (hf : f.phase = .target x)
    (hs : e.SupervisorServed) (hr : e.Ready0 f.kind.vector s.q0 f.addr) :
    Enters0 (exec i s) e f.kind.vector (NearTarget x) s.q0 f.addr (f.dir == .read) false f.fc.code := by
  obtain ⟨hir, -⟩ := hk.began hb
  obtain ⟨ir, h1, h2⟩ := takeGroup0_near (f := f) (b := false) (g := g) (.inl hf) hs fun ir h => by rw [h rfl, hir]; exact hr
  rw [h1 rfl, hir] at h2
  rw [hi, runInstr_targetFault hb hf]
  exact h2

/-! ## A fault inside an instruction -/

/-- The states in which an aborted instruction may be left, by what its registers and condition codes may hold. -/
def State.unsettledEnds (before : State) : List Adjusted → State → List State
  | [], e => [e, e.setFlags before.ccr]
  | r :: rs, e =>
    (before.areg r.reg :: e.areg r.reg :: r.between).flatMap fun v => before.unsettledEnds rs (e.setAreg r.reg v)

theorem pick_run (e : State) (l : List Long) : ∀ (v : Long) (f : Flow),
    ∃ w n, pick v l (e.withFlow f) = .ok w (e.withFlow (f.spent n)) ∧ w ∈ v :: l := by
  induction l with
  | nil => exact fun v f => ⟨v, 0, rfl, List.mem_singleton.mpr rfl⟩
  | cons u us ih =>
    intro v f
    obtain ⟨w, n, h1, h2⟩ := ih u (f.spent 1)
    cases hb : Config.freeBit f.free with
    | true =>
      refine ⟨v, 1, ?_, List.mem_cons_self ..⟩
      show (if Config.freeBit f.free then (pure v : Exec Long) else pick u us) (e.withFlow (f.spent 1)) = _
      rw [hb]
      rfl
    | false =>
      refine ⟨w, 1 + n, ?_, List.mem_cons_of_mem _ h2⟩
      show (if Config.freeBit f.free then (pure v : Exec Long) else pick u us) (e.withFlow (f.spent 1)) = _
      rw [hb]
      refine h1.trans ?_
      unfold Flow.spent
      rw [Nat.add_assoc]

theorem unsettle_run (before : State) (rs : List Adjusted) : ∀ (e : State) (f : Flow),
    ∃ e' n, unsettle before rs (e.withFlow f) = .ok () (e'.withFlow (f.spent n)) ∧ e' ∈ before.unsettledEnds rs e := by
  induction rs with
  | nil =>
    intro e f
    cases hb : Config.freeBit f.free with
    | true =>
      refine ⟨e.setFlags before.ccr, 1, ?_, by simp [State.unsettledEnds]⟩
      show EStateM.Result.ok () ((e.withFlow (f.spent 1)).setFlags (if Config.freeBit f.free then before.ccr else e.ccr)) = _
      rw [hb]
      rfl
    | false =>
      refine ⟨e, 1, ?_, by simp [State.unsettledEnds]⟩
      show EStateM.Result.ok () ((e.withFlow (f.spent 1)).setFlags (if Config.freeBit f.free then before.ccr else e.ccr)) = _
      rw [hb]
      rfl
  | cons r rs ih =>
    intro e f
    obtain ⟨w, n, h1, h2⟩ := pick_run e (e.areg r.reg :: r.between) (before.areg r.reg) f
    obtain ⟨e', k, h3, h4⟩ := ih (e.setAreg r.reg w) (f.spent n)
    refine ⟨e', n + k, ?_, List.mem_flatMap.mpr ⟨w, h2, h4⟩⟩
    show (pick (before.areg r.reg) (e.areg r.reg :: r.between) >>= _) (e.withFlow f) = _
    rw [bind_of_ok h1]
    show unsettle before rs ((e.withFlow (f.spent n)).setAreg r.reg w) = _
    rw [State.withFlow_setAreg, h3]
    unfold Flow.spent
    rw [Nat.add_assoc]

theorem State.unsettledEnds_withFlow (before : State) (f : Flow) (rs : List Adjusted) : ∀ e,
    (before.withFlow f).unsettledEnds rs e = before.unsettledEnds rs e := by
  induction rs with
  | nil => exact fun _ => rfl
  | cons r rs ih => exact fun e => congrArg (List.flatMap · _) (funext fun v => ih (e.setAreg r.reg v))

theorem State.unsettledEnds_served {before e' : State} {rs : List Adjusted} : ∀ {e : State}, e' ∈ before.unsettledEnds rs e →
    e.SupervisorServed → e'.SupervisorServed := by
  induction rs with
  | nil =>
    intro e h hs
    simp only [State.unsettledEnds, List.mem_cons, List.not_mem_nil, or_false] at h
    rcases h with rfl | rfl
    · exact hs
    · exact hs.congr rfl rfl
  | cons r rs ih =>
    intro e h hs
    obtain ⟨v, -, hv⟩ := List.mem_flatMap.mp h
    exact ih hv (hs.congr (State.setAreg_map ..) (State.setAreg_outside ..))

theorem runInstr_operandFault {f : BusFault} {g : Flow} (h : body (s.withFlow s.startFlow) = .error (.group0 f) (e.withFlow g))
    (hf : f.phase = .operand) :
    ∃ e' n, runInstr adj body s = takeGroup0 f false (e'.withFlow (g.spent n)) ∧ e' ∈ s.unsettledEnds adj e := by
  obtain ⟨e', n, h1, h2⟩ := unsettle_run (s.withFlow s.startFlow) adj e g
  rw [State.unsettledEnds_withFlow] at h2
  refine ⟨e', n, ?_, h2⟩
  unfold runInstr
  rw [State.startInstr_flow, h]
  show takeFault f (abandon adj f (s.withFlow s.startFlow) (e.withFlow g)) = _
  unfold takeFault abandon
  simp only [hf, h1]

/-- An instruction with a fault inside it. -/
theorem enters0_of_operand {f : BusFault} {g : Flow} (hi : exec i s = runInstr adj body s) (hk : Runs body)
    (hb : body (s.withFlow s.startFlow) = .error (.group0 f) (e.withFlow g)) (hf : f.phase = .operand)
    (hs : e.SupervisorServed) (hr : ∀ e' ∈ s.unsettledEnds adj e, e'.Ready0 f.kind.vector s.q0 f.addr) :
    ∃ e' ∈ s.unsettledEnds adj e,
      Enters0 (exec i s) e' f.kind.vector (InsideOf s.pc) s.q0 f.addr (f.dir == .read) false f.fc.code := by
  obtain ⟨hir, howl⟩ := hk.began hb
  obtain ⟨e', n, h1, h2⟩ := runInstr_operandFault (adj := adj) hb hf
  have h := takeGroup0_inside (g := g.spent n) hf (State.unsettledEnds_served h2 hs) (by
    show e'.Ready0 _ g.ir _
    rw [hir]
    exact hr e' h2)
  rw [show (g.spent n).ir = s.q0 from hir, show (g.spent n).owl = s.pc from howl, ← h1, ← hi] at h
  exact ⟨e', h2, h⟩

/-! ## Which states those are -/

theorem State.setAreg_areg (s : State) (n : RegNum) : s.setAreg n (s.areg n) = s := by
  unfold State.setAreg State.areg
  by_cases hn : n.val < 7
  · simp only [dif_pos hn, Vector.set_getElem_self]
  · simp only [dif_neg hn]
    by_cases h : s.super = true
    · simp only [if_pos h]
    · simp only [if_neg h]

/-- Nothing adjusted. -/
theorem State.unsettledEnds_nil (h : e.ccr = s.ccr) {e' : State} (hm : e' ∈ s.unsettledEnds [] e) : e' = e := by
  simp only [State.unsettledEnds, List.mem_cons, List.not_mem_nil, or_false] at hm
  rcases hm with rfl | rfl
  · rfl
  · rw [← h]
    rfl

/-- One register adjusted. -/
theorem State.mem_unsettledEnds_one {n : RegNum} {e' : State} (h : e' ∈ s.unsettledEnds [⟨n, []⟩] e) :
    e' ∈ [e, e.setAreg n (s.areg n), e.setFlags s.ccr, (e.setAreg n (s.areg n)).setFlags s.ccr] := by
  obtain ⟨v, hv, h⟩ := List.mem_flatMap.mp h
  simp only [State.unsettledEnds, List.mem_cons, List.not_mem_nil, or_false] at h hv ⊢
  rcases hv with rfl | rfl
  · rcases h with rfl | rfl
    · exact .inr (.inl rfl)
    · exact .inr (.inr (.inr rfl))
  · rw [State.setAreg_areg] at h
    rcases h with rfl | rfl
    · exact .inl rfl
    · exact .inr (.inr (.inl rfl))

/-- The register that a mode adjusts, put back. -/
theorem State.afterMode_undone {sz : Size} {ea : EA} {n : RegNum} {k : Long} (h : adjustment sz ea = some (n, k)) :
    (s.afterMode sz ea).setAreg n (s.areg n) = s := by
  cases ea
  case postInc m =>
    cases h
    exact (State.setAreg_setAreg_same ..).trans (State.setAreg_areg ..)
  case preDec m =>
    cases h
    exact (State.setAreg_setAreg_same ..).trans (State.setAreg_areg ..)
  all_goals cases h

/-- The states in which an instruction with one operand may be left, once the mode has had its effect. -/
theorem State.mem_ends_adjusts1 {sz : Size} {ea : EA} {f : CCR} {e' : State}
    (h : e' ∈ s.unsettledEnds (adjusts1 sz ea) ((s.afterMode sz ea).setFlags f)) :
    e' ∈ [s, s.afterMode sz ea, s.setFlags f, (s.afterMode sz ea).setFlags f] := by
  have back : ∀ u : State, u.ccr = s.ccr → (u.setFlags f).setFlags s.ccr = u := fun u hu => by rw [← hu]; rfl
  have hc : (s.afterMode sz ea).ccr = s.ccr := State.afterMode_ccr ..
  unfold adjusts1 at h
  cases ha : adjustment sz ea with
  | none =>
    simp only [ha, State.unsettledEnds, back _ hc, List.mem_cons, List.not_mem_nil, or_false] at h ⊢
    rcases h with h | h
    · exact .inr (.inr (.inr h))
    · exact .inr (.inl h)
  | some nk =>
    obtain ⟨n, k⟩ := nk
    rw [ha] at h
    have h := State.mem_unsettledEnds_one h
    rw [State.setFlags_setAreg, State.afterMode_undone ha, back _ hc, back _ rfl] at h
    simp only [List.mem_cons, List.not_mem_nil, or_false] at h ⊢
    rcases h with h | h | h | h
    · exact .inr (.inr (.inr h))
    · exact .inr (.inr (.inl h))
    · exact .inr (.inl h)
    · exact .inl h

/-- The same where the condition codes are not changed yet. -/
theorem State.mem_ends_adjusts1_read {sz : Size} {ea : EA} {e' : State}
    (h : e' ∈ s.unsettledEnds (adjusts1 sz ea) (s.afterMode sz ea)) : e' = s ∨ e' = s.afterMode sz ea := by
  have hc : (s.afterMode sz ea).setFlags s.ccr = s.afterMode sz ea := by
    rw [← State.afterMode_ccr (s := s) sz ea]
    rfl
  have hm := State.mem_ends_adjusts1 (f := s.ccr) (hc.symm ▸ h)
  rw [hc] at hm
  simp only [List.mem_cons, List.not_mem_nil, or_false] at hm
  rcases hm with h | h | h | h
  · exact .inl h
  · exact .inr h
  · exact .inl h
  · exact .inr h

/-! ## Transfers of control to an odd target -/

/-- The function code of the program space, as a frame holds it. -/
theorem State.programFC_code : s.programFC.code = if s.super then 6 else 2 := by
  unfold State.programFC
  cases s.super <;> rfl

theorem State.dataFC_code : s.dataFC.code = if s.super then 5 else 1 := by
  unfold State.dataFC
  cases s.super <;> rfl

/-- An instruction whose body ends in a transfer of control to an odd target. -/
theorem enters0_of_jump {g : Flow} {x : Long} (hi : exec i s = runInstr adj body s) (hk : Runs body)
    (hb : body (s.withFlow s.startFlow) = jump x (e.withFlow g)) (he : e.Plain) (hx : x.getLsbD 0 = true)
    (hr : e.Ready0 3 s.q0 x) :
    Enters0 (exec i s) e 3 (NearTarget x) s.q0 x true false (if e.super then 6 else 2) := by
  have hj : body (s.withFlow s.startFlow) =
      .error (.group0 ⟨.addressError, x, .read, e.programFC, .target x⟩) (e.withFlow { g with pc := x }) :=
    hb.trans (jump_odd (s := e.withFlow g) hx)
  rw [← State.programFC_code]
  exact enters0_of_target hi hk hj rfl he.supervisorServed hr

/-- An instruction that computes a target, then transfers control there. -/
theorem enters0_of_targetJump {x : Long} {target : Exec Long} (hs : s.Plain)
    (hi : exec i s = runInstr adj (do let t ← target; jump t) s) (hk : Runs target)
    (ht : ∃ g, target (s.withFlow s.startFlow) = .ok x (s.withFlow g)) (hx : x.getLsbD 0 = true) (hr : s.Ready0 3 s.q0 x) :
    Enters0 (exec i s) s 3 (NearTarget x) s.q0 x true false (if s.super then 6 else 2) := by
  obtain ⟨g, h1⟩ := ht
  exact enters0_of_jump hi (runs_admits.bind hk fun _ => runs_admits.jump _) (bind_of_ok h1) hs hx hr

theorem runs_call {target : Exec Long} (hk : Runs target) :
    Runs (do let t ← target; let next ← getPc; push32 next; jump t) :=
  runs_admits.bind hk fun _ => runs_admits.bind (runs_admits.inspect _) fun _ =>
    runs_admits.bind (runs_admits.push32 _) fun _ => runs_admits.jump _

/-- An instruction that computes a target, pushes the address of the next instruction, then transfers control. -/
theorem enters0_of_callJump {n : Nat} {x : Long} {target : Exec Long} (hs : s.Plain)
    (hi : exec i s = runInstr adj (do let t ← target; let next ← getPc; push32 next; jump t) s) (hk : Runs target)
    (ht : ∃ g, target (s.withFlow s.startFlow) = .ok x (s.withFlow g) ∧ s.startFlow.Passed g s n)
    (h7 : (s.areg 7).getLsbD 0 = false) (hx : x.getLsbD 0 = true)
    (hr : (s.pushed32 (s.pc + BitVec.ofNat 32 (2 * (1 + n)))).Ready0 3 s.q0 x) :
    Enters0 (exec i s) (s.pushed32 (s.pc + BitVec.ofNat 32 (2 * (1 + n)))) 3 (NearTarget x) s.q0 x true false
      (if (s.pushed32 (s.pc + BitVec.ofNat 32 (2 * (1 + n)))).super then 6 else 2) := by
  obtain ⟨f1, h1, p1⟩ := ht
  have hpc : f1.pc = s.pc + BitVec.ofNat 32 (2 * (1 + n)) := by rw [p1.pc_eq, State.startFlow_pc, pc_add]
  obtain ⟨f2, h2, -⟩ := push32_of hs h7 s f1 f1.pc
  rw [← hpc] at hr ⊢
  exact enters0_of_jump hi (runs_call hk) ((bind_of_ok h1).trans (bind_of_ok h2)) (hs.pushed32 f1.pc) hx hr

theorem bcc_odd (hs : s.Plain) {d : Disp} {cond : Cond} (hc : condHolds s.ccr cond = true) {x : Long}
    (hd : s.pc + 2 + dispOffset d = x) (hx : x.getLsbD 0 = true) (hr : s.Ready0 3 s.q0 x) :
    Enters0 (exec (.bcc cond d) s) s 3 (NearTarget x) s.q0 x true false (if s.super then 6 else 2) := by
  obtain ⟨f1, h1, -⟩ := branchTarget_start hs d
  rw [hd] at h1
  refine enters0_of_jump (g := f1) rfl (runs_admits.bind (runs_admits.branchTarget d) fun _ => runs_admits.bind (runs_admits.inspect _) fun _ =>
    admits_ite (A := fun x => Runs x) (runs_admits.jump _) runs_admits.lastFetch) ((bind_of_ok h1).trans ?_) hs hx hr
  show (if condHolds s.ccr cond then jump x else lastFetch : Exec Unit) (s.withFlow f1) = _
  rw [if_pos hc]

theorem runs_dbccBody (cond : Cond) (dn : RegNum) (d : Word) : Runs (dbccBody cond dn d) :=
  runs_admits.bind (runs_admits.inspect _) fun _ => runs_admits.bind (runs_admits.fetchExts _) fun _ =>
    runs_admits.bind (runs_admits.inspect _) fun _ => admits_ite (A := fun x => Runs x) runs_admits.lastFetch
      (runs_admits.bind (runs_admits.inspect _) fun _ => runs_admits.bind (runs_admits.setD _ _ _) fun _ =>
        admits_ite (A := fun x => Runs x) runs_admits.lastFetch (runs_admits.jump _))

theorem dbcc_odd (hs : s.Plain) {cond : Cond} {dn : RegNum} {d : Word} (hc : condHolds s.ccr cond = false)
    (h0 : lowWord s.d[dn.val] ≠ 0) {e : State} (he : e = s.setDreg dn (highWord s.d[dn.val] ++ (lowWord s.d[dn.val] - 1)))
    (hx : (s.pc + 2 + d.signExtend 32).getLsbD 0 = true) (hr : e.Ready0 3 s.q0 (s.pc + 2 + d.signExtend 32)) :
    Enters0 (exec (.dbcc cond dn d) s) e 3 (NearTarget (s.pc + 2 + d.signExtend 32)) s.q0 (s.pc + 2 + d.signExtend 32) true
      false (if e.super then 6 else 2) := by
  obtain ⟨f, -, hb⟩ := dbcc_body hs cond dn d
  rw [if_neg (by rw [hc]; decide), if_neg h0, ← he] at hb
  exact enters0_of_jump (exec_dbcc cond dn d) (runs_dbccBody cond dn d) hb (by rw [he]; exact hs.setDreg _ _) hx hr

theorem rts_odd (hs : s.Plain) (h7 : (s.areg 7).getLsbD 0 = false) (hx : (s.load .l (s.areg 7)).getLsbD 0 = true) {e : State}
    (he : e = s.setAreg 7 (s.areg 7 + 4)) (hr : e.Ready0 3 s.q0 (s.load .l (s.areg 7))) :
    Enters0 (exec .rts s) e 3 (NearTarget (s.load .l (s.areg 7))) s.q0 (s.load .l (s.areg 7)) true false
      (if e.super then 6 else 2) := by
  obtain ⟨f1, h1, -⟩ := pop32_of hs h7 s s.startFlow
  rw [← he] at h1
  exact enters0_of_jump (i := .rts) rfl (runs_admits.bind runs_admits.pop32 fun _ => runs_admits.jump _) (bind_of_ok h1)
    (by rw [he]; exact hs.setAreg _ _) hx hr

theorem rtr_odd (hs : s.Plain) (h7 : (s.areg 7).getLsbD 0 = false) (hx : (s.load .l (s.areg 7 + 2)).getLsbD 0 = true) {e : State}
    (he : e = (s.setAreg 7 (s.areg 7 + 6)).setFlags (CCR.ofByte ((lowWord (s.load .w (s.areg 7))).setWidth 8)))
    (hr : e.Ready0 3 s.q0 (s.load .l (s.areg 7 + 2))) :
    Enters0 (exec .rtr s) e 3 (NearTarget (s.load .l (s.areg 7 + 2))) s.q0 (s.load .l (s.areg 7 + 2)) true false
      (if e.super then 6 else 2) := by
  obtain ⟨f1, h1, -⟩ := pop16_of hs h7 s s.startFlow
  obtain ⟨f2, h2, -⟩ := popFrame_of hs h7 (CCR.ofByte ((lowWord (s.load .w (s.areg 7))).setWidth 8)) s f1
  rw [← he] at h2
  exact enters0_of_jump (i := .rtr) rfl (runs_admits.bind runs_admits.pop16 fun _ => runs_admits.bind (runs_admits.setCcr _) fun _ =>
    runs_admits.bind runs_admits.pop32 fun _ => runs_admits.jump _) ((bind_of_ok h1).trans (bind_of_ok h2))
    (by rw [he]; exact hs.setAreg _ _) hx hr

theorem rte_odd (hs : s.Plain) (hS : s.super = true) (h7 : (s.areg 7).getLsbD 0 = false)
    (hx : (s.load .l (s.areg 7 + 2)).getLsbD 0 = true) {e : State}
    (he : e = (s.setAreg 7 (s.areg 7 + 6)).setSr (lowWord (s.load .w (s.areg 7))))
    (hr : e.Ready0 3 s.q0 (s.load .l (s.areg 7 + 2))) :
    Enters0 (exec .rte s) e 3 (NearTarget (s.load .l (s.areg 7 + 2))) s.q0 (s.load .l (s.areg 7 + 2)) true false
      (if e.super then 6 else 2) := by
  obtain ⟨f1, h1, -⟩ := pop16_of hs h7 s s.startFlow
  obtain ⟨f2, h2, -⟩ := popFrame_of_self hs h7 s f1
  refine enters0_of_jump (g := f2) (i := .rte) (privileged_super hS) (runs_admits.bind runs_admits.pop16 fun _ =>
    runs_admits.bind runs_admits.pop32 fun _ => runs_admits.bind (Runs.setSr _) fun _ => runs_admits.jump _)
    ((bind_of_ok h1).trans ((bind_of_ok h2).trans ?_)) (by rw [he]; exact hs.setAreg _ _) hx hr
  rw [he]
  rfl

/-! ## Operands whose access is refused -/

/-- The words of instructions can be fetched. -/
def State.Fetches (s : State) : Prop := s.outside = [] ∧ ∀ a, s.answer a s.programFC .read .word = .memory 0

theorem State.Plain.fetches (h : s.Plain) : s.Fetches := ⟨h.1, fun a => h.2 a _ _ _⟩

theorem State.answer_congr (h : t.map = s.map) (a : Long) (fc : FC) (dir : Dir) (w : Width) :
    t.answer a fc dir w = s.answer a fc dir w := by
  show lookup t.map a fc dir w = lookup s.map a fc dir w
  rw [h]

theorem State.Fetches.congr (h : s.Fetches) (hm : t.map = s.map) (ho : t.outside = s.outside) (hp : t.super = s.super) :
    t.Fetches := by
  refine ⟨ho.trans h.1, fun a => ?_⟩
  have hfc : t.programFC = s.programFC := by
    unfold State.programFC
    rw [hp]
  rw [hfc, State.answer_congr hm]
  exact h.2 a

theorem State.afterMode_map (sz : Size) (ea : EA) : (s.afterMode sz ea).map = s.map := by
  cases ea
  case postInc => exact State.setAreg_map ..
  case preDec => exact State.setAreg_map ..
  all_goals rfl

theorem State.afterMode_outside (sz : Size) (ea : EA) : (s.afterMode sz ea).outside = s.outside := by
  cases ea
  case postInc => exact State.setAreg_outside ..
  case preDec => exact State.setAreg_outside ..
  all_goals rfl

theorem State.Fetches.afterMode (h : s.Fetches) (sz : Size) (ea : EA) : (s.afterMode sz ea).Fetches :=
  h.congr (State.afterMode_map ..) (State.afterMode_outside ..) (State.afterMode_super ..)

theorem fetchExts_fetches (h : s.Fetches) (n : Nat) : ∀ f, ∃ g, fetchExts n (s.withFlow f) = .ok () (s.withFlow g) := by
  induction n with
  | zero => exact fun f => ⟨f, rfl⟩
  | succ n ih =>
    intro f
    obtain ⟨g, h1, -⟩ := readWordCycle_at h.1 (h.2 (f.pc + 2)) f
    obtain ⟨g', h2⟩ := ih { g with q1 := s.wordAt 0 (f.pc + 2), pc := f.pc + 2, stream := g.stream ++ [s.wordAt 0 (f.pc + 2)] }
    have hext : fetchExt (s.withFlow f) = .ok () (s.withFlow
        { g with q1 := s.wordAt 0 (f.pc + 2), pc := f.pc + 2, stream := g.stream ++ [s.wordAt 0 (f.pc + 2)] }) := bind_of_ok h1
    exact ⟨g', (bind_of_ok hext).trans h2⟩

theorem lastFetch_fetches (h : s.Fetches) (f : Flow) : ∃ g, lastFetch (s.withFlow f) = .ok () (s.withFlow g) := by
  obtain ⟨g, h1, -⟩ := readWordCycle_at h.1 (h.2 (f.pc + 2)) f
  exact ⟨{ g with q0 := g.q1, q1 := s.wordAt 0 (f.pc + 2) }, bind_of_ok h1⟩

/-- The first operand of an instruction, resolved. -/
theorem resolve_fetches (h : s.Fetches) (sz : Size) (ea : EA) :
    ∃ g, resolve sz ea (s.withFlow s.startFlow) = .ok (s.locAt 1 sz ea) ((s.afterMode sz ea).withFlow g) := by
  obtain ⟨g, h1⟩ := fetchExts_fetches (h.afterMode sz ea) (extCount ea) s.startFlow
  refine ⟨g, ?_⟩
  unfold resolve
  rw [inspect_bind, update_bind, State.withFlow_locate State.startFlow_pc, State.withFlow_afterMode, bind_of_ok h1]
  rfl

/-- The function code of a space. -/
def State.fcOf (s : State) : Space → FC
  | .data => s.dataFC
  | .program => s.programFC

theorem spaceFC_fcOf (sp : Space) : spaceFC sp s = .ok (s.fcOf sp) s := by cases sp <;> rfl

theorem State.fcOf_congr (h : t.super = s.super) (sp : Space) : t.fcOf sp = s.fcOf sp := by
  cases sp
  · show (if t.super then _ else _) = if s.super then _ else _
    rw [h]
  · show (if t.super then _ else _) = if s.super then _ else _
    rw [h]

/-- ADD to a data register whose operand is not read. -/
theorem addToReg_fault (hs : s.SupervisorServed) (hx : s.Fetches) {sz : Size} {ea : EA} {dn : RegNum} {sp : Space} {a : Long}
    {p : Bool} {φ : BusFault} (hl : s.locAt 1 sz ea = .mem sp a p) (hφ : φ.phase = .operand)
    (hm : ∀ f, ∃ g, memRead sz a (s.fcOf sp) ((s.afterMode sz ea).withFlow f) =
      .error (.group0 φ) ((s.afterMode sz ea).withFlow g))
    (h1 : s.Ready0 φ.kind.vector s.q0 φ.addr) (h2 : (s.afterMode sz ea).Ready0 φ.kind.vector s.q0 φ.addr) :
    ∃ s', (s' = s ∨ s' = s.afterMode sz ea) ∧ Enters0 (exec (.addToReg sz ea dn) s) s' φ.kind.vector (InsideOf s.pc) s.q0 φ.addr
      (φ.dir == .read) false φ.fc.code := by
  obtain ⟨f, hr⟩ := resolve_fetches hx sz ea
  obtain ⟨g, hm⟩ := hm f
  have hread : readLoc sz (s.locAt 1 sz ea) ((s.afterMode sz ea).withFlow f) =
      .error (.group0 φ) ((s.afterMode sz ea).withFlow g) := by
    rw [hl, ← hm, ← State.fcOf_congr (t := (s.afterMode sz ea).withFlow f) (State.afterMode_super ..)]
    exact bind_of_ok (spaceFC_fcOf sp)
  obtain ⟨s', hm, he⟩ := enters0_of_operand (i := .addToReg sz ea dn) (adj := adjusts1 sz ea) rfl
    (runs_admits.combineReg _ _ _ _ _) (bind_of_error ((bind_of_ok hr).trans hread)) hφ
    (hs.congr (State.afterMode_map ..) (State.afterMode_outside ..)) (fun e' hm => by
      rcases State.mem_ends_adjusts1_read hm with rfl | rfl
      · exact h1
      · exact h2)
  exact ⟨s', State.mem_ends_adjusts1_read hm, he⟩

/-- The body of MOVE from a data register, up to its write. -/
theorem moveBody_dreg (hx : s.Fetches) (sz : Size) (dst : EA) (m : RegNum) :
    ∃ g, moveBody sz (.dreg m) dst (s.withFlow s.startFlow) = writeLoc sz (s.locAt 1 sz dst) (trunc sz s.d[m.val])
      (((s.afterMode sz dst).setFlags (logicFlags sz s.ccr (trunc sz s.d[m.val]))).withFlow g) := by
  obtain ⟨f1, h1⟩ := resolve_fetches hx sz dst
  obtain ⟨f2, h2, -⟩ := movesValue_of_none (e := s.afterMode sz dst) (f := f1) (sz := sz) (src := .dreg m) (dst := dst)
    (selfAdjusted_eq_none fun h => by obtain ⟨-, n, h, -⟩ := h; cases h) (trunc sz s.d[m.val])
  obtain ⟨g, h3⟩ := lastFetch_fetches (hx.afterMode sz dst) f2
  refine ⟨g, (bind_of_ok (show fetchOperand sz (.dreg m) (s.withFlow s.startFlow) = .ok (trunc sz s.d[m.val]) _ from rfl)).trans
    ((bind_of_ok h1).trans ((bind_of_ok h2).trans ((bind_of_ok h3).trans ?_)))⟩
  rw [← State.afterMode_ccr (s := s) sz dst]
  rfl

theorem adjusts2_dreg (sz : Size) (m : RegNum) (dst : EA) (s : State) : adjusts2 sz (.dreg m) dst s = adjusts1 sz dst := by
  cases dst <;> rfl

/-- A change of memory that commutes with what an aborted instruction leaves free. -/
def Settled (before : State) (stored : State → State) : Prop :=
  (∀ e, (stored e).map = e.map ∧ (stored e).outside = e.outside) ∧
    ∀ rs e, before.unsettledEnds rs (stored e) = (before.unsettledEnds rs e).map stored

theorem settled_id (before : State) : Settled before id := ⟨fun _ => ⟨rfl, rfl⟩, fun _ _ => (List.map_id _).symm⟩

/-- MOVE from a data register whose result is not, or not wholly, written. -/
theorem move_fault (hs : s.SupervisorServed) (hx : s.Fetches) {sz : Size} {dst : EA} {m : RegNum} {a : Long} {p : Bool} {c : CCR}
    {φ : BusFault} {stored : State → State} (hl : s.locAt 1 sz dst = .mem .data a p) (hφ : φ.phase = .operand)
    (hst : Settled s stored) (hc : c = logicFlags sz s.ccr (trunc sz s.d[m.val]))
    (hw : ∀ f, ∃ g, memWrite sz p a s.dataFC (trunc sz s.d[m.val]) (((s.afterMode sz dst).setFlags c).withFlow f) =
      .error (.group0 φ) ((stored ((s.afterMode sz dst).setFlags c)).withFlow g))
    (hr : ∀ s' ∈ [s, s.afterMode sz dst, s.setFlags c, (s.afterMode sz dst).setFlags c].map stored,
      s'.Ready0 φ.kind.vector s.q0 φ.addr) :
    ∃ s' ∈ [s, s.afterMode sz dst, s.setFlags c, (s.afterMode sz dst).setFlags c].map stored,
      Enters0 (exec (moveInstr sz (.dreg m) dst) s) s' φ.kind.vector (InsideOf s.pc) s.q0 φ.addr (φ.dir == .read) false
        φ.fc.code := by
  obtain ⟨f, hb⟩ := moveBody_dreg hx sz dst m
  obtain ⟨g, hw⟩ := hw f
  rw [hl, ← hc] at hb
  have hfc : (((s.afterMode sz dst).setFlags c).withFlow f).dataFC = s.dataFC := State.fcOf_congr (State.afterMode_super ..) .data
  have hwrite : writeLoc sz (.mem .data a p) (trunc sz s.d[m.val]) (((s.afterMode sz dst).setFlags c).withFlow f) =
      .error (.group0 φ) ((stored ((s.afterMode sz dst).setFlags c)).withFlow g) := by
    rw [← hw, ← hfc]
    rfl
  have hi := exec_moveInstr (s := s) sz (.dreg m) dst
  rw [adjusts2_dreg] at hi
  have hends : ∀ e' ∈ s.unsettledEnds (adjusts1 sz dst) (stored ((s.afterMode sz dst).setFlags c)),
      e' ∈ [s, s.afterMode sz dst, s.setFlags c, (s.afterMode sz dst).setFlags c].map stored := by
    intro e' he
    rw [hst.2] at he
    obtain ⟨u, hu, rfl⟩ := List.mem_map.mp he
    exact List.mem_map_of_mem (State.mem_ends_adjusts1 hu)
  obtain ⟨hmap, hout⟩ := hst.1 ((s.afterMode sz dst).setFlags c)
  obtain ⟨s', hm, he⟩ := enters0_of_operand hi (runs_admits.moveBody sz (.dreg m) dst) (hb.trans hwrite) hφ
    (hs.congr (hmap.trans (State.afterMode_map ..)) (hout.trans (State.afterMode_outside ..))) (fun e' hm => hr e' (hends e' hm))
  exact ⟨s', hends s' hm, he⟩

/-! ## Operands at an odd address -/

/-- An operand of more than a byte at an odd address. -/
theorem misaligned_of_odd {sz : Size} {a : Long} (hsz : sz ≠ .b) (ha : a.getLsbD 0 = true) : misaligned sz a = true := by
  unfold misaligned
  rw [ha, Bool.and_true]
  exact bne_iff_ne.mpr hsz

/-- ADD to a data register from an odd address. -/
theorem addToReg_odd (hs : s.Plain) {sz : Size} {ea : EA} {dn : RegNum} {sp : Space} {a : Long} {p : Bool}
    (hl : s.locAt 1 sz ea = .mem sp a p) (ha : misaligned sz a = true)
    (h1 : s.Ready0 3 s.q0 a) (h2 : (s.afterMode sz ea).Ready0 3 s.q0 a) :
    ∃ s', (s' = s ∨ s' = s.afterMode sz ea) ∧
      Enters0 (exec (.addToReg sz ea dn) s) s' 3 (InsideOf s.pc) s.q0 a true false (s.fcOf sp).code :=
  addToReg_fault (φ := ⟨.addressError, a, .read, s.fcOf sp, .operand⟩) hs.supervisorServed hs.fetches hl rfl
    (fun f => ⟨f, memRead_misaligned ha _⟩) h1 h2

/-- MOVE from a data register to an odd address. -/
theorem move_odd (hs : s.Plain) {sz : Size} {dst : EA} {m : RegNum} {a : Long} {p : Bool} {f : CCR}
    (hl : s.locAt 1 sz dst = .mem .data a p) (ha : misaligned sz a = true)
    (hf : f = logicFlags sz s.ccr (trunc sz s.d[m.val]))
    (hr : ∀ s' ∈ [s, s.afterMode sz dst, s.setFlags f, (s.afterMode sz dst).setFlags f], s'.Ready0 3 s.q0 a) :
    ∃ s' ∈ [s, s.afterMode sz dst, s.setFlags f, (s.afterMode sz dst).setFlags f],
      Enters0 (exec (moveInstr sz (.dreg m) dst) s) s' 3 (InsideOf s.pc) s.q0 a false false s.dataFC.code := by
  have h := move_fault (φ := ⟨.addressError, a, .write, s.dataFC, .operand⟩) (stored := id) hs.supervisorServed hs.fetches hl rfl
    (settled_id s) hf (fun f => ⟨f, memWrite_misaligned ha _ _ _⟩)
  rw [List.map_id] at h
  exact h hr

/-! ## The stack at an odd address -/

theorem push32_odd_at (h7 : (s.areg 7).getLsbD 0 = true) (v : Long) (f : Flow) :
    push32 v (s.withFlow f) = .error (.group0 ⟨.addressError, s.areg 7 - 4, .write, s.dataFC, .operand⟩)
      ((s.setAreg 7 (s.areg 7 - 4)).withFlow f) := by
  have h := push32_odd (s := s.withFlow f) h7 v
  rw [State.setAreg_dataFC, State.withFlow_setAreg] at h
  exact h

/-- The states in which an instruction that uses the stack may be left. -/
theorem State.mem_ends_adjustsStack {x : Long} {e' : State} (h : e' ∈ s.unsettledEnds adjustsStack (s.setAreg 7 x)) :
    e' = s ∨ e' = s.setAreg 7 x := by
  have hc : (s.setAreg 7 x).setFlags s.ccr = s.setAreg 7 x := by
    rw [← State.setAreg_ccr (s := s) 7 x]
    rfl
  have hm := State.mem_unsettledEnds_one h
  rw [State.setAreg_setAreg_same, State.setAreg_areg, hc] at hm
  simp only [List.mem_cons, List.not_mem_nil, or_false] at hm
  rcases hm with h | h | h | h
  · exact .inr h
  · exact .inl h
  · exact .inr h
  · exact .inl h

/-- An instruction that pushes on an odd stack. -/
theorem enters0_of_push (hs : s.Plain) (hi : exec i s = runInstr adjustsStack body s) (hk : Runs body)
    (hb : ∃ f, body (s.withFlow s.startFlow) = .error (.group0 ⟨.addressError, s.areg 7 - 4, .write, s.dataFC, .operand⟩)
      ((s.setAreg 7 (s.areg 7 - 4)).withFlow f))
    (h1 : s.Ready0 3 s.q0 (s.areg 7 - 4)) (h2 : (s.setAreg 7 (s.areg 7 - 4)).Ready0 3 s.q0 (s.areg 7 - 4)) :
    ∃ s', (s' = s ∨ s' = s.setAreg 7 (s.areg 7 - 4)) ∧
      Enters0 (exec i s) s' 3 (InsideOf s.pc) s.q0 (s.areg 7 - 4) false false s.dataFC.code := by
  obtain ⟨f, hb⟩ := hb
  obtain ⟨s', hm, he⟩ := enters0_of_operand hi hk hb rfl (hs.setAreg 7 _).supervisorServed (fun e' hm => by
    rcases State.mem_ends_adjustsStack hm with rfl | rfl
    · exact h1
    · exact h2)
  exact ⟨s', State.mem_ends_adjustsStack hm, he⟩

/-- What BSR and JSR do on an odd stack. -/
theorem call_oddStack {target : Exec Long} {x : Long} {n : Nat} (h7 : (s.areg 7).getLsbD 0 = true)
    (ht : ∃ g, target (s.withFlow s.startFlow) = .ok x (s.withFlow g) ∧ s.startFlow.Passed g s n) :
    ∃ f, (do let t ← target; let next ← getPc; push32 next; jump t : Exec Unit) (s.withFlow s.startFlow) =
      .error (.group0 ⟨.addressError, s.areg 7 - 4, .write, s.dataFC, .operand⟩) ((s.setAreg 7 (s.areg 7 - 4)).withFlow f) := by
  obtain ⟨f, h1, -⟩ := ht
  exact ⟨f, (bind_of_ok h1).trans
    (bind_of_error (x := push32 f.pc) (f := fun _ => jump x) (push32_odd_at h7 f.pc f))⟩

/-- A read of the stack at an odd address is an address error with nothing changed. -/
theorem readStack_odd {sz : Size} (hsz : sz ≠ .b) (h7 : (s.areg 7).getLsbD 0 = true) (f : Flow) :
    readData sz (s.areg 7) (s.withFlow f) = .error (.group0 ⟨.addressError, s.areg 7, .read, s.dataFC, .operand⟩) (s.withFlow f) :=
  memRead_misaligned (misaligned_of_odd hsz h7) _

theorem pop32_odd (h7 : (s.areg 7).getLsbD 0 = true) (f : Flow) :
    pop32 (s.withFlow f) = .error (.group0 ⟨.addressError, s.areg 7, .read, s.dataFC, .operand⟩) (s.withFlow f) := by
  unfold pop32 getA
  rw [inspect_bind]
  exact bind_of_error (readStack_odd (by decide) h7 f)

theorem pop16_odd (h7 : (s.areg 7).getLsbD 0 = true) (f : Flow) :
    pop16 (s.withFlow f) = .error (.group0 ⟨.addressError, s.areg 7, .read, s.dataFC, .operand⟩) (s.withFlow f) := by
  unfold pop16 getA
  rw [inspect_bind]
  exact bind_of_error (readStack_odd (by decide) h7 f)

/-- An instruction that pops from an odd stack. -/
theorem enters0_of_pop (hs : s.Plain) (hi : exec i s = runInstr adjustsStack body s) (hk : Runs body)
    (hb : body (s.withFlow s.startFlow) = .error (.group0 ⟨.addressError, s.areg 7, .read, s.dataFC, .operand⟩)
      (s.withFlow s.startFlow)) (hr : s.Ready0 3 s.q0 (s.areg 7)) :
    Enters0 (exec i s) s 3 (InsideOf s.pc) s.q0 (s.areg 7) true false s.dataFC.code := by
  have hone : ∀ e' ∈ s.unsettledEnds adjustsStack s, e' = s := by
    intro e' h
    have h' := State.mem_ends_adjustsStack (s := s) (x := s.areg 7) (by rw [State.setAreg_areg]; exact h)
    rw [State.setAreg_areg] at h'
    exact h'.elim id id
  obtain ⟨s', hm, he⟩ := enters0_of_operand hi hk hb rfl hs.supervisorServed (fun e' hm => by rw [hone e' hm]; exact hr)
  rw [hone s' hm] at he
  exact he

/-- What the obligation says of a push in user state. -/
theorem oddPushes (hs : s.Plain) (h7 : (s.areg 7).getLsbD 0 = true)
    (h1 : s.Ready0 3 s.q0 (s.areg 7 - 4)) (h2 : (s.setAreg 7 (s.areg 7 - 4)).Ready0 3 s.q0 (s.areg 7 - 4)) :
    ∀ i, (∃ d, i = .bsr d) ∨ (∃ an d, i = .link an d) ∨ (∃ ea sp a p, ea.mode.isControl = true ∧ s.locAt 1 .l ea = .mem sp a p ∧
        (i = .jsr ea ∨ i = .pea ea)) →
      ∃ s', (s' = s ∨ s' = s.setAreg 7 (s.areg 7 - 4)) ∧
        Enters0 (exec i s) s' 3 (InsideOf s.pc) s.q0 (s.areg 7 - 4) false false s.dataFC.code := by
  rintro i (⟨d, rfl⟩ | ⟨an, d, rfl⟩ | ⟨ea, sp, a, p, hc, hl, rfl | rfl⟩)
  · exact enters0_of_push hs (i := .bsr d) rfl (runs_call (runs_admits.branchTarget d))
      (call_oddStack h7 (branchTarget_start hs d)) h1 h2
  · obtain ⟨f1, hb1, -⟩ := fetchExts_of (m := s) hs rfl s.startFlow 1
    obtain ⟨f2, hb2, -⟩ := lastFetch_of (m := s) hs rfl f1
    obtain ⟨v, f3, hb3, -⟩ := linkValue_of an s f2 s
    exact enters0_of_push hs (i := .link an d) rfl (runs_admits.bind (runs_admits.fetchExts _) fun _ =>
      runs_admits.bind runs_admits.lastFetch fun _ => runs_admits.bind (admits_ite (A := fun x => Runs x) runs_admits.takeLong
        (runs_admits.inspect _)) fun _ => runs_admits.bind (runs_admits.push32 _) fun _ => runs_admits.bind (runs_admits.inspect _)
        fun _ => runs_admits.bind (runs_admits.setA _ _) fun _ => runs_admits.setA _ _)
      ⟨f3, (bind_of_ok hb1).trans ((bind_of_ok hb2).trans ((bind_of_ok hb3).trans (bind_of_error (push32_odd_at h7 v f3))))⟩ h1 h2
  · exact enters0_of_push hs (i := .jsr ea) rfl (runs_call (runs_admits.controlAddress ea))
      (call_oddStack h7 (controlAddress_start hs hc hl)) h1 h2
  · obtain ⟨f1, hb1, -⟩ := controlAddress_start hs hc hl
    obtain ⟨f2, hb2, -⟩ := lastFetch_of (m := s) hs rfl f1
    exact enters0_of_push hs (i := .pea ea) rfl (runs_admits.bind (runs_admits.controlAddress _) fun _ =>
      runs_admits.bind runs_admits.lastFetch fun _ => runs_admits.push32 _)
      ⟨f2, (bind_of_ok hb1).trans ((bind_of_ok hb2).trans (push32_odd_at h7 a f2))⟩ h1 h2

/-! ## All of them -/

theorem State.fcOf_code (sp : Space) : (s.fcOf sp).code =
    (match sp with | .data => if s.super then 5 else 1 | .program => (if s.super then 5 else 1) + 1) := by
  cases sp
  · exact State.dataFC_code
  · refine State.programFC_code.trans ?_
    cases s.super <;> rfl

/-- A branch with an odd target. -/
theorem branch_odd (hs : s.Plain) (d : Disp) (x : Long) (hx : s.pc + 2 + dispOffset d = x) :
    (x.getLsbD 0 = true → s.Ready0 3 s.q0 x →
      Enters0 (exec (.bra d) s) s 3 (NearTarget x) s.q0 x true false (if s.super then 6 else 2)) ∧
    (∀ cond, condHolds s.ccr cond = true → x.getLsbD 0 = true → s.Ready0 3 s.q0 x →
      Enters0 (exec (.bcc cond d) s) s 3 (NearTarget x) s.q0 x true false (if s.super then 6 else 2)) ∧
    ((s.areg 7).getLsbD 0 = false → x.getLsbD 0 = true →
      (s.pushed32 (s.pc + BitVec.ofNat 32 (2 * (encode (.bsr d)).length))).Ready0 3 s.q0 x →
      Enters0 (exec (.bsr d) s) (s.pushed32 (s.pc + BitVec.ofNat 32 (2 * (encode (.bsr d)).length))) 3 (NearTarget x) s.q0 x
        true false (if (s.pushed32 (s.pc + BitVec.ofNat 32 (2 * (encode (.bsr d)).length))).super then 6 else 2)) := by
  subst hx
  obtain ⟨g, h1, p1⟩ := branchTarget_start hs d
  rw [encode_length (i := .bsr d) rfl rfl]
  exact ⟨fun hx hr => enters0_of_targetJump hs rfl (runs_admits.branchTarget d) ⟨g, h1⟩ hx hr,
    fun cond hc hx hr => bcc_odd hs hc rfl hx hr,
    fun h7 hx hr => enters0_of_callJump hs rfl (runs_admits.branchTarget d) ⟨g, h1, p1⟩ h7 hx hr⟩

/-- Settles O54: operands, the stack and targets at odd addresses. (`addressError` is a name of the model.) -/
theorem addressError_entered : Obligations.AddressError := by
  intro s hs
  dsimp only
  refine ⟨?_, ?_, ?_, ?_, ?_, ?_, ?_⟩
  · intro sz ea dn sp a p hsz hl ha h1 h2
    obtain ⟨s', hm, he⟩ := addToReg_odd (dn := dn) hs hl (misaligned_of_odd hsz ha) h1 h2
    rw [State.fcOf_code] at he
    refine ⟨s', hm, ?_⟩
    cases sp <;> exact he
  · intro sz dst m a p f hsz hl ha hf hr
    rw [← State.dataFC_code]
    exact move_odd hs hl (misaligned_of_odd hsz ha) hf hr
  · intro hu h7
    have hfc : s.dataFC.code = 1 := by rw [State.dataFC_code, hu]; rfl
    rw [← hfc]
    refine ⟨fun h1 h2 => ?_, fun hr => ⟨?_, ?_⟩⟩
    · have key := oddPushes hs h7 h1 h2
      exact ⟨fun d => key _ (.inl ⟨d, rfl⟩), fun an d => key _ (.inr (.inl ⟨an, d, rfl⟩)), fun ea sp a p hc hl =>
        ⟨key _ (.inr (.inr ⟨ea, sp, a, p, hc, hl, .inl rfl⟩)), key _ (.inr (.inr ⟨ea, sp, a, p, hc, hl, .inr rfl⟩))⟩⟩
    · exact enters0_of_pop hs (i := .rts) rfl (runs_admits.bind runs_admits.pop32 fun _ => runs_admits.jump _)
        (bind_of_error (pop32_odd h7 _)) hr
    · exact enters0_of_pop hs (i := .rtr) rfl (runs_admits.bind runs_admits.pop16 fun _ => runs_admits.bind (runs_admits.setCcr _)
        fun _ => runs_admits.bind runs_admits.pop32 fun _ => runs_admits.jump _)
        (bind_of_error (pop16_odd h7 _)) hr
  · intro d
    have key := branch_odd hs d
    cases d with
    | short b => exact key _ rfl
    | word w => exact key _ rfl
  · intro cond dn d hc h0 hx hr
    exact dbcc_odd hs hc h0 rfl hx hr
  · intro ea sp a p hc hl
    obtain ⟨g, h1, p1⟩ := controlAddress_start hs hc hl
    rw [encode_length (i := .jsr ea) rfl (EA.words_length ea)]
    exact ⟨fun hx hr => enters0_of_targetJump hs rfl (runs_admits.controlAddress ea) ⟨g, h1⟩ hx hr,
      fun h7 hx hr => enters0_of_callJump hs rfl (runs_admits.controlAddress ea) ⟨g, h1, p1⟩ h7 hx hr⟩
  · intro h7
    refine ⟨fun hx hr => rts_odd hs h7 hx rfl hr, fun hx hr => ?_, fun hS hx hr => ?_⟩
    · rw [← CCR.ofByte_setWidth] at hr ⊢
      exact rtr_odd hs h7 hx rfl hr
    · exact rte_odd hs hS h7 hx (State.setSr_eq_withSr ..).symm hr

end Sys2Proof.Machine
end

section
/-! PROOFS. Bus errors in user state: reads, writes and fetches whose cycle is refused. -/

namespace Sys2Proof.Machine

variable {s e t : State}

/-! ## Refused cycles -/

theorem readWordCycle_refused {a : Long} {fc : FC} (ho : s.outside = []) (h : s.answer a fc .read .word = .berr) (f : Flow) :
    ∃ g, readWordCycle a fc (s.withFlow f) = .error (.group0 ⟨.busError, a, .read, fc, .operand⟩) (s.withFlow g) := by
  refine ⟨f.noted (.aborted (physical a) fc .word none false), ?_⟩
  unfold readWordCycle
  rw [bind_of_ok (grantBus_idle (s := s.withFlow f) ho _)]
  unfold performReadWord
  simp only [State.withFlow_answer, h]
  rfl

theorem readByteCycle_refused {a : Long} {fc : FC} (ho : s.outside = []) (h : s.answer a fc .read .byte = .berr) (f : Flow) :
    ∃ g, readByteCycle a fc (s.withFlow f) = .error (.group0 ⟨.busError, a, .read, fc, .operand⟩) (s.withFlow g) := by
  refine ⟨f.noted (.aborted (physical a) fc .byte none false), ?_⟩
  unfold readByteCycle
  rw [bind_of_ok (grantBus_idle (s := s.withFlow f) ho _)]
  unfold performReadByte
  simp only [State.withFlow_answer, h]
  rfl

theorem writeWordCycle_refused {a : Long} {fc : FC} (ho : s.outside = []) (h : s.answer a fc .write .word = .berr) (v : Word)
    (f : Flow) : ∃ g, writeWordCycle a fc v (s.withFlow f) =
      .error (.group0 ⟨.busError, a, .write, fc, .operand⟩) (s.withFlow g) := by
  refine ⟨f.noted (.aborted (physical a) fc .word (some v) false), ?_⟩
  unfold writeWordCycle
  rw [bind_of_ok (grantBus_idle (s := s.withFlow f) ho _)]
  unfold performWriteWord
  simp only [State.withFlow_answer, h]
  rfl

theorem writeByteCycle_refused {a : Long} {fc : FC} (ho : s.outside = []) (h : s.answer a fc .write .byte = .berr) (v : Byte)
    (f : Flow) : ∃ g, writeByteCycle a fc v (s.withFlow f) =
      .error (.group0 ⟨.busError, a, .write, fc, .operand⟩) (s.withFlow g) := by
  refine ⟨f.noted (.aborted (physical a) fc .byte (some (v.setWidth 16)) false), ?_⟩
  unfold writeByteCycle
  rw [bind_of_ok (grantBus_idle (s := s.withFlow f) ho _)]
  unfold performWriteByte
  simp only [State.withFlow_answer, h]
  rfl

/-- The width of the cycles that an operand of a size takes. -/
def cycleWidth (sz : Size) : Width := if sz = .b then .byte else .word

/-- An operand whose first cycle is refused. -/
theorem memRead_refused {sz : Size} {a : Long} {fc : FC} (ho : s.outside = []) (ha : misaligned sz a = false)
    (h : s.answer a fc .read (cycleWidth sz) = .berr) (f : Flow) :
    ∃ g, memRead sz a fc (s.withFlow f) = .error (.group0 ⟨.busError, a, .read, fc, .operand⟩) (s.withFlow g) := by
  unfold memRead
  rw [if_neg (by rw [ha]; decide)]
  cases sz with
  | b =>
    obtain ⟨g, h1⟩ := readByteCycle_refused ho h f
    exact ⟨g, bind_of_error h1⟩
  | w =>
    obtain ⟨g, h1⟩ := readWordCycle_refused ho h f
    exact ⟨g, bind_of_error h1⟩
  | l =>
    obtain ⟨g, h1⟩ := readWordCycle_refused ho h f
    exact ⟨g, bind_of_error h1⟩

/-- A long word whose second cycle is refused. -/
theorem memRead_refused_second {a : Long} {fc : FC} (ho : s.outside = []) (ha : misaligned .l a = false)
    (h1 : s.answer a fc .read .word = .memory 0) (h2 : s.answer (a + 2) fc .read .word = .berr) (f : Flow) :
    ∃ g, memRead .l a fc (s.withFlow f) = .error (.group0 ⟨.busError, a + 2, .read, fc, .operand⟩) (s.withFlow g) := by
  unfold memRead
  rw [if_neg (by rw [ha]; decide)]
  obtain ⟨g, h3, -⟩ := readWordCycle_at ho h1 f
  obtain ⟨g', h4⟩ := readWordCycle_refused ho h2 g
  exact ⟨g', (bind_of_ok h3).trans (bind_of_error h4)⟩

/-- The address of the first cycle of a write. -/
def firstCycle (sz : Size) (p : Bool) (a : Long) : Long := if sz = .l ∧ p = true then a + 2 else a

theorem memWrite_refused {sz : Size} {a : Long} {fc : FC} {p : Bool} (ho : s.outside = []) (ha : misaligned sz a = false)
    (h : s.answer (firstCycle sz p a) fc .write (cycleWidth sz) = .berr) (v : Long) (f : Flow) :
    ∃ g, memWrite sz p a fc v (s.withFlow f) =
      .error (.group0 ⟨.busError, firstCycle sz p a, .write, fc, .operand⟩) (s.withFlow g) := by
  unfold memWrite
  rw [if_neg (by rw [ha]; decide)]
  cases sz with
  | b => exact writeByteCycle_refused ho h _ f
  | w => exact writeWordCycle_refused ho h _ f
  | l =>
    cases p with
    | true =>
      obtain ⟨g, h1⟩ := writeWordCycle_refused ho h (lowWord v) f
      exact ⟨g, bind_of_error h1⟩
    | false =>
      obtain ⟨g, h1⟩ := writeWordCycle_refused ho h (highWord v) f
      exact ⟨g, bind_of_error h1⟩

/-- A long word whose second half is not written. -/
theorem memWrite_refused_second {a : Long} {fc : FC} {p : Bool} (ho : s.outside = []) (ha : misaligned .l a = false)
    (h1 : s.answer (firstCycle .l p a) fc .write .word = .memory 0)
    (h2 : s.answer (if p then a else a + 2) fc .write .word = .berr) (v : Long) (f : Flow) :
    ∃ g, memWrite .l p a fc v (s.withFlow f) =
      .error (.group0 ⟨.busError, if p then a else a + 2, .write, fc, .operand⟩)
        ((s.storeWord 0 (firstCycle .l p a) (if p then lowWord v else highWord v)).withFlow g) := by
  unfold memWrite
  rw [if_neg (by rw [ha]; decide)]
  cases p with
  | true =>
    obtain ⟨g, h3, -⟩ := writeWordCycle_at ho h1 (lowWord v) f
    obtain ⟨g', h4⟩ := writeWordCycle_refused (s := s.storeWord 0 (a + 2) (lowWord v)) ho h2 (highWord v) g
    exact ⟨g', (bind_of_ok h3).trans h4⟩
  | false =>
    obtain ⟨g, h3, -⟩ := writeWordCycle_at ho h1 (highWord v) f
    obtain ⟨g', h4⟩ := writeWordCycle_refused (s := s.storeWord 0 a (highWord v)) ho h2 (lowWord v) g
    exact ⟨g', (bind_of_ok h3).trans h4⟩

/-- A word of memory that is written commutes with what an aborted instruction leaves free. -/
theorem State.setAreg_storeWord (b : Fin 4) (x : Long) (w : Word) (n : RegNum) (v : Long) :
    (s.storeWord b x w).setAreg n v = (s.setAreg n v).storeWord b x w := by
  have hs : (s.storeWord b x w).super = s.super := rfl
  unfold State.setAreg
  rw [hs]
  by_cases hn : n.val < 7
  · rw [dif_pos hn, dif_pos hn]
    rfl
  · rw [dif_neg hn, dif_neg hn]
    cases s.super <;> rfl

theorem settled_storeWord (before : State) (b : Fin 4) (x : Long) (w : Word) :
    Settled before fun u => u.storeWord b x w := by
  refine ⟨fun _ => ⟨rfl, rfl⟩, fun rs => ?_⟩
  induction rs with
  | nil => exact fun _ => rfl
  | cons r rs ih =>
    intro e
    unfold State.unsettledEnds
    rw [List.map_flatMap]
    refine congrArg (List.flatMap · _) (funext fun v => ?_)
    rw [State.setAreg_storeWord, ih]

/-! ## The obligation -/

/-- What the obligation supposes of the environment. -/
structure State.UserRun (s : State) : Prop where
  user : s.super = false
  outside : s.outside = []
  served : s.SupervisorServed

theorem State.UserRun.dataFC (h : s.UserRun) : s.dataFC = .userData := by
  unfold State.dataFC
  rw [h.user]
  rfl

theorem State.UserRun.programFC (h : s.UserRun) : s.programFC = .userProgram := by
  unfold State.programFC
  rw [h.user]
  rfl

theorem State.afterMode_answer (sz : Size) (ea : EA) (a : Long) (fc : FC) (dir : Dir) (w : Width) :
    (s.afterMode sz ea).answer a fc dir w = s.answer a fc dir w := State.answer_congr (State.afterMode_map ..) ..

/-- Reads of operands. -/
theorem read_refused (h : s.UserRun) (hx : s.Fetches) {sz : Size} {ea : EA} (dn : RegNum) {a x : Long} {p : Bool}
    (hl : s.locAt 1 sz ea = .mem .data a p) (ha : misaligned sz a = false)
    (hc : (x = a ∧ s.answer a .userData .read (cycleWidth sz) = .berr) ∨
      (x = a + 2 ∧ sz = .l ∧ s.answer a .userData .read .word = .memory 0 ∧ s.answer (a + 2) .userData .read .word = .berr))
    (h1 : s.Ready0 2 s.q0 x) (h2 : (s.afterMode sz ea).Ready0 2 s.q0 x) :
    ∃ s', (s' = s ∨ s' = s.afterMode sz ea) ∧
      Enters0 (exec (.addToReg sz ea dn) s) s' 2 (InsideOf s.pc) s.q0 x true false 1 := by
  have ho : (s.afterMode sz ea).outside = [] := (State.afterMode_outside ..).trans h.outside
  refine addToReg_fault (φ := ⟨.busError, x, .read, .userData, .operand⟩) h.served hx hl rfl (fun f => ?_) h1 h2
  rw [show s.fcOf .data = .userData from h.dataFC]
  rcases hc with ⟨rfl, hb⟩ | ⟨rfl, rfl, hg, hb⟩
  · exact memRead_refused ho ha ((State.afterMode_answer ..).trans hb) f
  · exact memRead_refused_second ho ha ((State.afterMode_answer ..).trans hg) ((State.afterMode_answer ..).trans hb) f

/-- Writes of operands whose first cycle is refused. -/
theorem write_refused (h : s.UserRun) (hx : s.Fetches) {sz : Size} {dst : EA} {m : RegNum} {a : Long} {p : Bool} {c : CCR}
    (hl : s.locAt 1 sz dst = .mem .data a p) (ha : misaligned sz a = false)
    (hf : c = logicFlags sz s.ccr (trunc sz s.d[m.val]))
    (hb : s.answer (firstCycle sz p a) .userData .write (cycleWidth sz) = .berr)
    (hr : ∀ s' ∈ [s, s.afterMode sz dst, s.setFlags c, (s.afterMode sz dst).setFlags c].map id,
      s'.Ready0 2 s.q0 (firstCycle sz p a)) :
    ∃ s' ∈ [s, s.afterMode sz dst, s.setFlags c, (s.afterMode sz dst).setFlags c].map id,
      Enters0 (exec (moveInstr sz (.dreg m) dst) s) s' 2 (InsideOf s.pc) s.q0 (firstCycle sz p a) false false 1 := by
  refine move_fault (φ := ⟨.busError, firstCycle sz p a, .write, .userData, .operand⟩) h.served hx hl rfl (settled_id s) hf
    (fun f => ?_) hr
  rw [h.dataFC]
  exact memWrite_refused (s := (s.afterMode sz dst).setFlags c) ((State.afterMode_outside ..).trans h.outside) ha
    ((State.afterMode_answer ..).trans hb) _ f

/-- And those of a long word whose second cycle is refused. -/
theorem write_refused_second (h : s.UserRun) (hx : s.Fetches) {dst : EA} {m : RegNum} {a : Long} {p : Bool} {c : CCR}
    (hl : s.locAt 1 .l dst = .mem .data a p) (ha : misaligned .l a = false)
    (hf : c = logicFlags .l s.ccr (trunc .l s.d[m.val])) {half : Word}
    (hh : half = if p then lowWord (trunc .l s.d[m.val]) else highWord (trunc .l s.d[m.val]))
    (hg : s.answer (firstCycle .l p a) .userData .write .word = .memory 0)
    (hb : s.answer (if p then a else a + 2) .userData .write .word = .berr)
    (hr : ∀ s' ∈ [s, s.afterMode .l dst, s.setFlags c, (s.afterMode .l dst).setFlags c].map
      fun u => u.storeWord 0 (firstCycle .l p a) half, s'.Ready0 2 s.q0 (if p then a else a + 2)) :
    ∃ s' ∈ [s, s.afterMode .l dst, s.setFlags c, (s.afterMode .l dst).setFlags c].map
        fun u => u.storeWord 0 (firstCycle .l p a) half,
      Enters0 (exec (moveInstr .l (.dreg m) dst) s) s' 2 (InsideOf s.pc) s.q0 (if p then a else a + 2) false false 1 := by
  refine move_fault (φ := ⟨.busError, if p then a else a + 2, .write, .userData, .operand⟩) h.served hx hl rfl
    (settled_storeWord s 0 (firstCycle .l p a) half) hf (fun f => ?_) hr
  rw [h.dataFC, hh]
  exact memWrite_refused_second (s := (s.afterMode .l dst).setFlags c) ((State.afterMode_outside ..).trans h.outside) ha
    ((State.afterMode_answer ..).trans hg) ((State.afterMode_answer ..).trans hb) _ f

/-- The fetch of the word after the next instruction. -/
theorem nop_refused (h : s.UserRun) (hb : s.answer (s.pc + 4) .userProgram .read .word = .berr)
    (hr : s.Ready0 2 s.q0 (s.pc + 4)) :
    Enters0 (exec .nop s) s 2 (InsideOf s.pc) s.q0 (s.pc + 4) true false 2 := by
  obtain ⟨g, h1⟩ := readWordCycle_refused h.outside hb s.startFlow
  have h2 : lastFetch (s.withFlow s.startFlow) =
      .error (.group0 ⟨.busError, s.pc + 4, .read, .userProgram, .operand⟩) (s.withFlow g) := by
    unfold lastFetch getPc programSpace
    rw [inspect_bind, inspect_bind]
    refine bind_of_error ?_
    rw [← h1, ← h.programFC, ← pc_two_two]
    rfl
  have hone : ∀ e' ∈ s.unsettledEnds [] s, e' = s := fun e' => State.unsettledEnds_nil rfl
  obtain ⟨s', hm, he⟩ := enters0_of_operand (i := .nop) (adj := []) rfl runs_admits.lastFetch h2 rfl h.served
    (fun e' hm => by rw [hone e' hm]; exact hr)
  rw [hone s' hm] at he
  exact he

/-- The fetch at a branch's target. -/
theorem bra_refused (h : s.UserRun) {b : Byte} {x : Long} (hx : s.pc + 2 + b.signExtend 32 = x) (he : x.getLsbD 0 = false)
    (hb : s.answer x .userProgram .read .word = .berr) (hr : s.Ready0 2 s.q0 x) :
    Enters0 (exec (.bra (.short b)) s) s 2 (NearTarget x) s.q0 x true false 2 := by
  obtain ⟨g, h1⟩ := readWordCycle_refused h.outside hb { s.startFlow with pc := x }
  have h2 : fetchTarget x (s.withFlow s.startFlow) =
      .error (.group0 ⟨.busError, x, .read, .userProgram, .operand⟩) (s.withFlow g) := by
    unfold fetchTarget programSpace fetchWord
    rw [inspect_bind, update_bind, if_neg (by rw [he]; decide)]
    refine bind_of_error ?_
    rw [← h1, ← h.programFC]
    rfl
  have h3 : jump x (s.withFlow s.startFlow) =
      .error (.group0 ⟨.busError, x, .read, .userProgram, .target x⟩) (s.withFlow g) := relaid_of_error h2
  have hbody : (branchTarget (.short b) >>= fun t => jump t) (s.withFlow s.startFlow) =
      .error (.group0 ⟨.busError, x, .read, .userProgram, .target x⟩) (s.withFlow g) := by
    rw [← h3, ← hx]
    rfl
  exact enters0_of_target (i := .bra (.short b)) (adj := []) rfl
    (runs_admits.bind (runs_admits.branchTarget _) fun _ => runs_admits.jump _) hbody rfl h.served hr

/-- Settles O55: reads, writes and fetches that are refused. (`busError` is a name of the model.) -/
theorem busError_entered : Obligations.BusError := by
  intro s hu ho hd hp
  have h : s.UserRun := ⟨hu, ho, ⟨ho, hd⟩, ⟨ho, hp⟩⟩
  refine ⟨fun hx => ?_, nop_refused h, fun b he hb hr => bra_refused h rfl he hb hr⟩
  have hx : s.Fetches := ⟨ho, fun a => by rw [h.programFC]; exact hx a⟩
  refine ⟨fun sz ea dn a p hl ha => ⟨fun hb h1 h2 => ?_, fun hsz hg hb h1 h2 => ?_⟩,
    fun sz dst m a p c hl ha hf => ⟨fun hb hr => ?_, fun hsz hg hb hr => ?_⟩⟩
  · exact read_refused h hx dn hl ha (.inl ⟨rfl, hb⟩) h1 h2
  · exact read_refused h hx dn hl ha (.inr ⟨rfl, hsz, hg, hb⟩) h1 h2
  · exact write_refused h hx hl ha hf hb hr
  · subst hsz
    exact write_refused_second h hx hl ha hf rfl hg hb hr

end Sys2Proof.Machine
end

section
/-! PROOFS. What a step leaves of the inputs: the environment's part of the state is kept by every operation, and a reset can be
requested only where another agent is due to request one. -/

namespace Sys2Proof.Machine

variable {α β : Type} {s t : State}

/-! ## The acts to come -/

theorem Later.refl (l : List Outside) : Later l l := by
  cases l with
  | nil => exact .inl rfl
  | cons o rest => exact .inr ⟨o.wait, 0, o.act, rest, List.suffix_refl _, rfl⟩

theorem Later.trans {a b c : List Outside} (h : Later a b) (g : Later b c) : Later a c := by
  rcases g with rfl | ⟨n, m, act, rest, hb, rfl⟩
  · exact .inl rfl
  rcases h with rfl | ⟨n', m', act', rest', ha, rfl⟩
  · exact absurd (List.suffix_nil.mp hb) (List.cons_ne_nil _ _)
  refine .inr ⟨n, ?_⟩
  rcases List.suffix_cons_iff.mp hb with heq | hs
  · obtain ⟨ho, rfl⟩ := List.cons.inj heq
    obtain ⟨rfl, rfl⟩ := Outside.mk.inj ho
    exact ⟨m + m', act, rest, by rw [← Nat.add_assoc]; exact ha, rfl⟩
  · exact ⟨m, act, rest, hs.trans ((List.suffix_cons _ _).trans ha), rfl⟩

/-- What remains of the acts was there before, but for the wait. -/
theorem Later.mem {l l' : List Outside} (h : Later l l') {o : Outside} (ho : o ∈ l') : ∃ n, ⟨n, o.act⟩ ∈ l := by
  rcases h with rfl | ⟨n, m, act, rest, hs, rfl⟩
  · cases ho
  · rcases List.mem_cons.mp ho with rfl | ho
    · exact ⟨_, hs.subset (List.mem_cons_self ..)⟩
    · exact ⟨o.wait, hs.subset (List.mem_cons_of_mem _ ho)⟩

/-! ## The inputs -/

/-- The inputs of the environment but for the request of a reset. -/
structure State.InputsPassed (s t : State) : Prop where
  irqLevel : t.irqLevel = s.irqLevel
  ack : t.ack = s.ack
  haltPin : t.haltPin = s.haltPin
  resetLine : t.resetLine = s.resetLine
  map : t.map = s.map ∨ s.resetLine = some t.map
  outside : Later s.outside t.outside

theorem State.InputsPassed.refl (s : State) : s.InputsPassed s := ⟨rfl, rfl, rfl, rfl, .inl rfl, Later.refl _⟩

/-- A change that leaves the inputs. -/
theorem State.InputsPassed.congr {u : State} (h : s.InputsPassed t) (h1 : u.irqLevel = t.irqLevel) (h2 : u.ack = t.ack)
    (h3 : u.haltPin = t.haltPin) (h4 : u.resetLine = t.resetLine) (h5 : u.map = t.map) (h6 : u.outside = t.outside) :
    s.InputsPassed u :=
  ⟨h1.trans h.irqLevel, h2.trans h.ack, h3.trans h.haltPin, h4.trans h.resetLine, by rw [h5]; exact h.map,
    by rw [h6]; exact h.outside⟩

theorem closed_inputsPassed (s : State) : Closed s.InputsPassed where
  dreg h := h.congr rfl rfl rfl rfl rfl rfl
  areg h := h.congr (State.setAreg_irqLevel ..) (State.setAreg_ack ..) (State.setAreg_haltPin ..) (State.setAreg_resetLine ..)
    (State.setAreg_map ..) (State.setAreg_outside ..)
  flags h := h.congr rfl rfl rfl rfl rfl rfl
  byte h := h.congr rfl rfl rfl rfl rfl rfl
  word h := h.congr rfl rfl rfl rfl rfl rfl
  note h := h.congr rfl rfl rfl rfl rfl rfl
  spend h := h.congr rfl rfl rfl rfl rfl rfl
  acts h ho := ⟨h.irqLevel, h.ack, h.haltPin, h.resetLine, h.map, h.outside.trans ho⟩
  queue h := h.congr rfl rfl rfl rfl rfl rfl
  running h := h.congr rfl rfl rfl rfl rfl rfl
  trace h := h.congr rfl rfl rfl rfl rfl rfl

theorem kept_inputsPassed (s : State) : KeptByStep s.InputsPassed s.InputsPassed where
  closed := closed_inputsPassed s
  closedE := closed_inputsPassed s
  toE h := h
  extension h := h.congr rfl rfl rfl rfl rfl rfl
  target h := h.congr rfl rfl rfl rfl rfl rfl
  arrived h _ := h
  entering h := h.congr rfl rfl rfl rfl rfl rfl
  start h := h.congr rfl rfl rfl rfl rfl rfl
  flow h := h.congr rfl rfl rfl rfl rfl rfl
  level7 h := h.congr rfl rfl rfl rfl rfl rfl
  level7E h := h.congr rfl rfl rfl rfl rfl rfl

/-- RESET puts the map of its line in place. -/
theorem State.InputsPassed.remap (h : s.InputsPassed t) : s.InputsPassed { t with map := t.resetLine.getD t.map } := by
  refine ⟨h.irqLevel, h.ack, h.haltPin, h.resetLine, ?_, h.outside⟩
  show t.resetLine.getD t.map = s.map ∨ s.resetLine = some (t.resetLine.getD t.map)
  rw [← h.resetLine]
  cases hl : t.resetLine with
  | none => exact h.map.imp_right fun hm => absurd (hm.symm.trans (h.resetLine.symm.trans hl)) (Option.some_ne_none _)
  | some m => exact .inr rfl

theorem keptBySupervisor_inputsPassed (s : State) : KeptBySupervisor s.InputsPassed s.InputsPassed where
  toKept := (kept_inputsPassed s).toKept
  setSr h := h.congr rfl rfl rfl rfl rfl rfl
  setSrE h := h.congr rfl rfl rfl rfl rfl rfl
  setUsp h := h.congr rfl rfl rfl rfl rfl rfl
  remap h := h.remap
  stopped h := h.congr rfl rfl rfl rfl rfl rfl

theorem step_inputsPassed (h : step s = .next t) : s.InputsPassed t := by
  have k := kept_inputsPassed s
  have hs := State.InputsPassed.refl s
  rcases step_arrives k hs h
      (processReset_arrives k.toKept (fun h => h.congr rfl rfl rfl rfl rfl rfl) (hs.congr rfl rfl rfl rfl rfl rfl))
      (fun i => exec_arrives k.toKeptAtBoundary (keptBySupervisor_inputsPassed s) (hs.congr rfl rfl rfl rfl rfl rfl))
    with ht | ⟨u, hu, rfl | rfl⟩
  · exact ht
  · exact hu.congr rfl rfl rfl rfl rfl rfl
  · exact hu.congr rfl rfl rfl rfl rfl rfl

/-! ## No reset where none is due -/

/-- No reset is requested, and no other agent is to request one. -/
structure Quiet (s : State) : Prop where
  requested : s.resetRequest = false
  acts : ∀ n, (⟨n, .reset⟩ : Outside) ∉ s.outside

theorem Quiet.congr (h : Quiet s) (h1 : t.resetRequest = s.resetRequest) (h2 : t.outside = s.outside) : Quiet t :=
  ⟨h1.trans h.requested, by rw [h2]; exact h.acts⟩

theorem closed_quiet : Closed Quiet where
  dreg h := h.congr rfl rfl
  areg h := h.congr (State.setAreg_resetRequest ..) (State.setAreg_outside ..)
  flags h := h.congr rfl rfl
  byte h := h.congr rfl rfl
  word h := h.congr rfl rfl
  note h := h.congr rfl rfl
  spend h := h.congr rfl rfl
  acts h ho := ⟨h.requested, fun n hn => by
    obtain ⟨m, hm⟩ := ho.mem hn
    exact h.acts m hm⟩
  queue h := h.congr rfl rfl
  running h := h.congr rfl rfl
  trace h := h.congr rfl rfl

theorem kept_quiet : Kept Quiet Quiet where
  closed := closed_quiet
  closedE := closed_quiet
  toE h := h
  extension h := h.congr rfl rfl
  target h := h.congr rfl rfl
  arrived h _ := h
  entering h := h.congr rfl rfl

/-- From a quiet state the operation ends in one, and not by a reset. -/
structure Unreset (x : Exec α) : Prop where
  keeps : Keeps Quiet Quiet x
  never : ∀ s s', Quiet s → x s ≠ .error .reset s'

theorem Unreset.bind {x : Exec α} {f : α → Exec β} (h : Unreset x) (hf : ∀ a, Unreset (f a)) : Unreset (x >>= f) := by
  refine ⟨h.keeps.bind fun a => (hf a).keeps, fun s s' hs he => ?_⟩
  rcases bind_error.mp he with h1 | ⟨a, s1, h1, h2⟩
  · exact h.never s s' hs h1
  · exact (hf a).never s1 s' (h.keeps.ok hs h1) h2

/-- An operation that always completes. -/
theorem Unreset.of_ok {x : Exec α} (h : Keeps Quiet Quiet x) {a : State → α} {f : State → State}
    (hx : ∀ s, x s = .ok (a s) (f s)) : Unreset x :=
  ⟨h, fun s s' _ he => by rw [hx s] at he; cases he⟩

theorem unreset_update {f : State → State} (h : ∀ s, Quiet s → Quiet (f s)) : Unreset (update f) :=
  .of_ok (keeps_update h) (a := fun _ => ()) fun _ => rfl

theorem performDue_never {l : List Outside} (again : Option Event) (h : ∀ n, (⟨n, .reset⟩ : Outside) ∉ l) :
    ∀ (s s' : State) (e : Abort), performDue again l s ≠ .error e s' := by
  induction l with
  | nil => exact fun s s' e h => by cases h
  | cons o rest ih =>
    have ih := ih fun n hn => h n (List.mem_cons_of_mem _ hn)
    obtain ⟨n, act⟩ := o
    intro s s' e
    cases n with
    | succ n => exact fun h => by cases h
    | zero =>
      cases act with
      | dmaRead b x => exact ih _ _ _
      | dmaWrite b x v => exact ih _ _ _
      | rerun => exact ih _ _ _
      | reset => exact absurd (List.mem_cons_self ..) (h 0)

theorem unreset_grantBus (again : Option Event) : Unreset (grantBus again) :=
  ⟨keeps_grantBus closed_quiet again, fun s s' hs => performDue_never again hs.acts s s' _⟩

theorem unreset_readByteCycle (x : Long) (fc : FC) : Unreset (readByteCycle x fc) :=
  (unreset_grantBus _).bind fun _ => ⟨keeps_performReadByte closed_quiet x fc, fun s s' _ h => by
    rcases performReadByte_error h with ⟨-, he, -⟩ | ⟨-, he, -⟩ <;> cases he⟩

theorem unreset_readWordCycle (x : Long) (fc : FC) : Unreset (readWordCycle x fc) :=
  (unreset_grantBus _).bind fun _ => ⟨keeps_performReadWord closed_quiet x fc, fun s s' _ h => by
    rcases performReadWord_error h with ⟨-, he, -⟩ | ⟨-, he, -⟩ <;> cases he⟩

theorem unreset_writeByteCycle (x : Long) (fc : FC) (v : Byte) : Unreset (writeByteCycle x fc v) :=
  (unreset_grantBus _).bind fun _ => ⟨keeps_performWriteByte closed_quiet x fc v, fun s s' _ h => by
    rcases performWriteByte_error h with ⟨-, he, -⟩ | ⟨-, he, -⟩ <;> cases he⟩

theorem unreset_writeWordCycle (x : Long) (fc : FC) (v : Word) : Unreset (writeWordCycle x fc v) :=
  (unreset_grantBus _).bind fun _ => ⟨keeps_performWriteWord closed_quiet x fc v, fun s s' _ h => by
    rcases performWriteWord_error h with ⟨-, he, -⟩ | ⟨-, he, -⟩ <;> cases he⟩

theorem unreset_modifyRead (x : Long) (fc : FC) : Unreset (modifyRead x fc) :=
  ⟨keeps_modifyRead closed_quiet x fc, fun s s' _ h => by
    unfold modifyRead at h
    split at h <;> cases h⟩

theorem unreset_modifyWrite (x : Long) (fc : FC) (old new : Byte) : Unreset (modifyWrite x fc old new) :=
  ⟨keeps_modifyWrite closed_quiet x fc old new, fun s s' _ h => by
    unfold modifyWrite at h
    split at h <;> cases h⟩

theorem unreset_admitsBus : AdmitsBus fun x => Unreset x where
  pure a := .of_ok (keeps_pure Quiet Quiet a) (a := fun _ => a) fun _ => rfl
  bind := Unreset.bind
  inspect f := .of_ok (keeps_inspect Quiet Quiet f) fun _ => rfl
  setD sz n v := .of_ok (keeps_setD closed_quiet sz n v) (a := fun _ => ()) fun _ => rfl
  setA n v := .of_ok (keeps_setA closed_quiet n v) (a := fun _ => ()) fun _ => rfl
  setCcr f := .of_ok (keeps_setCcr closed_quiet f) (a := fun _ => ()) fun _ => rfl
  takeBit := .of_ok (keeps_takeBit closed_quiet) fun _ => rfl
  takeWord := .of_ok (keeps_takeWord closed_quiet) fun _ => rfl
  takeLong := .of_ok (keeps_takeLong closed_quiet) fun _ => rfl
  takeIndex := .of_ok (keeps_takeIndex closed_quiet) fun _ => rfl
  addressError x dir fc := ⟨keeps_error, fun s s' _ h => by cases h⟩
  readByteCycle := unreset_readByteCycle
  readWordCycle := unreset_readWordCycle
  writeByteCycle := unreset_writeByteCycle
  writeWordCycle := unreset_writeWordCycle
  modifyByteCycle x fc _ h := (unreset_grantBus _).bind fun _ => (unreset_modifyRead x fc).bind fun old => (h old).bind fun new =>
    unreset_modifyWrite x fc old new
  unasked h := by
    refine ⟨fun s hs => ?_, fun s s' hs => ?_⟩
    · unfold unasked
      split
      · exact keeps_pure Quiet Quiet () s hs
      · exact h.keeps s hs
    · unfold unasked
      split
      · exact fun h => by cases h
      · exact h.never s s' hs

theorem Unreset.relaid {x : Exec α} (h : Unreset x) (g : BusFault → BusFault) : Unreset (relaid g x) := by
  refine ⟨fun s hs => relaid_arrives (h.keeps s hs), fun s s' hs he => ?_⟩
  obtain ⟨e', h1, h2⟩ := relaid_error.mp he
  cases e' with
  | reset => exact h.never s s' hs h1
  | group0 f => cases h2
  | hang => cases h2

theorem unreset_jump (x : Long) : Unreset (jump x) := by
  have c := unreset_admitsBus
  have fetch : ∀ fc, Unreset (fetchWord x fc) := fun fc => admits_ite (A := fun x => Unreset x) (c.addressError _ _ _)
    (c.readWordCycle _ _)
  exact ((c.inspect _).bind fun _ => (unreset_update fun _ h => by exact h.congr rfl rfl).bind fun _ => (fetch _).bind fun _ =>
    (c.readWordCycle _ _).bind fun _ => unreset_update fun _ h => by exact h.congr rfl rfl).relaid _

theorem unreset_takeException {vector : Exec Nat} (hv : Unreset vector) (p : Long) (w : Word) (l : Option (BitVec 3))
    (extra : Option Group0Words) : Unreset (takeException vector p w l extra) := by
  have c := unreset_admitsBus
  exact (unreset_update fun _ h => by exact h.congr rfl rfl).bind fun _ => (c.pushPc hv p).bind fun _ => (c.push16 w).bind fun _ =>
    (c.pushExtra extra).bind fun _ => (c.memRead _ _ _).bind fun _ => (unreset_update fun _ h => by exact h.congr rfl rfl).bind fun _ =>
      unreset_jump _

theorem unreset_admits : AdmitsPrivileged fun x => Unreset x where
  toAdmitsBus := unreset_admitsBus
  afterMode sz ea := unreset_update fun _ h => closed_afterMode closed_quiet sz ea h
  fetchExt := (unreset_admitsBus.inspect _).bind fun _ => (unreset_admitsBus.inspect _).bind fun _ =>
    (unreset_readWordCycle _ _).bind fun _ => unreset_update fun _ h => by exact h.congr rfl rfl
  lastFetch := (unreset_admitsBus.inspect _).bind fun _ => (unreset_admitsBus.inspect _).bind fun _ =>
    (unreset_readWordCycle _ _).bind fun _ => unreset_update fun _ h => by exact h.congr rfl rfl
  jump := unreset_jump
  trap2 vec := (unreset_admitsBus.inspect _).bind fun _ => (unreset_admitsBus.inspect _).bind fun _ =>
    (unreset_takeException (unreset_admitsBus.pure vec) _ _ _ _).relaid _
  setSr _ := unreset_update fun _ h => by exact h.congr rfl rfl
  setUsp _ := unreset_update fun _ h => by exact h.congr rfl rfl
  fromUsp _ := unreset_update fun _ h => closed_quiet.areg h
  resetOut := unreset_update fun _ h => by exact h.congr rfl rfl

/-! ## Every step -/

theorem concluded_quiet {onFault : BusFault → State → Outcome} {x : Exec Unit} (hx : Unreset x) (hs : Quiet s)
    (hf : ∀ f u, Quiet u → onFault f u = .next t → Quiet t) (h : concluded onFault (x s) = .next t) : Quiet t := by
  cases hr : x s with
  | ok a u =>
    rw [hr] at h
    cases h
    exact hx.keeps.ok hs hr
  | error e u =>
    have hu : Quiet u := hx.keeps.error hs hr
    rw [hr] at h
    cases e with
    | group0 f => exact hf f u hu h
    | hang => cases h
    | reset => exact absurd hr (hx.never s u hs)

theorem halt_quiet (hs : Quiet s) (h : halt s = .next t) : Quiet t := by
  cases h
  exact hs.congr rfl rfl

theorem takeGroup0_quiet {f : BusFault} {b : Bool} (hs : Quiet s) (h : takeGroup0 f b s = .next t) : Quiet t := by
  have c := unreset_admitsBus
  have hx : Unreset (enterGroup0 f b s) := c.takeLong.bind fun _ => c.takeWord.bind fun _ => c.takeWord.bind fun _ =>
    unreset_takeException (c.pure _) _ _ _ _
  exact concluded_quiet hx (s := { s with tracePending := false }) (hs.congr rfl rfl) (fun _ _ hu => halt_quiet hu) h

theorem takeGroup1_quiet {vector : Exec Nat} (hv : Unreset vector) {p : Long} {w : Word} {l : Option (BitVec 3)} (hs : Quiet s)
    (h : takeGroup1 vector p w l s = .next t) : Quiet t :=
  concluded_quiet (unreset_takeException hv p w l none) hs (fun _ _ hu => takeGroup0_quiet hu) h

theorem runInstr_quiet {adj : List Adjusted} {body : Exec Unit} (hb : Unreset body) (hs : Quiet s)
    (h : runInstr adj body s = .next t) : Quiet t := by
  refine concluded_quiet hb (s := s.startInstr) (hs.congr rfl rfl) (fun f u hu hf => ?_) h
  have ha : Quiet (abandon adj f s.startInstr u) := abandon_keeps kept_quiet hu
  unfold takeFault at hf
  split at hf
  · exact takeGroup0_quiet ha hf
  · exact takeGroup0_quiet ha hf
  · exact takeGroup0_quiet ha hf
  · exact takeGroup0_quiet ha hf

theorem refuseInstr_quiet {vec : Nat} (hs : Quiet s) (h : refuseInstr vec s = .next t) : Quiet t :=
  takeGroup1_quiet (unreset_admitsBus.pure vec) (by exact hs.congr rfl rfl) h

theorem exec_quiet {i : Instr} (hs : Quiet s) (h : exec i s = .next t) : Quiet t := by
  have run : RunsBody (fun x => Unreset x) i s → Quiet t := fun ⟨_, _, hi, hb⟩ => runInstr_quiet hb hs (hi ▸ h)
  rcases exec_cases unreset_admits.toAdmits i s with hi | ⟨vec, hi⟩ | ⟨n, w, ea, hi⟩
  · exact run hi
  · exact refuseInstr_quiet hs (hi ▸ h)
  cases hu : s.super with
  | false =>
    rw [exec_privileged_user hi hu] at h
    exact refuseInstr_quiet hs h
  | true =>
    rcases exec_privileged_cases unreset_admits hi hu with hr | rfl
    · exact run hr
    rcases execStop_super hu w with he | he
    · rw [he] at h
      cases h
      exact hs.congr rfl rfl
    · rw [he] at h
      have hv : Quiet (s.stopViolated w) := by
        obtain ⟨f, hf | hf, -⟩ := State.stopViolated_cases (s := s) w
        · exact hf ▸ hs.congr rfl rfl
        · exact hf ▸ hs.congr rfl rfl
      exact takeGroup1_quiet (unreset_admitsBus.pure 8) hv h

/-- A request is served, and with no reset to come there is no other. -/
theorem step_quiet (ha : ∀ n, (⟨n, .reset⟩ : Outside) ∉ s.outside) (h : step s = .next t) : Quiet t := by
  have c := unreset_admitsBus
  rcases step_cases h with ⟨-, h⟩ | ⟨hr, h⟩
  · have hx : Unreset enterReset := (c.memRead _ _ _).bind fun _ => (unreset_update fun _ h => by exact h.congr rfl rfl).bind fun _ =>
      (c.memRead _ _ _).bind fun _ => unreset_jump _
    exact concluded_quiet hx (by exact ⟨rfl, ha⟩) (fun _ _ hu => halt_quiet hu) h
  · have hs : Quiet s := ⟨hr, ha⟩
    have hs' : Quiet s.sampled := hs.congr rfl rfl
    have hack : ∀ l, Unreset (acknowledgeCycle l) := fun l => (unreset_grantBus _).bind fun _ =>
      (unreset_update fun _ h => by exact h.congr rfl rfl).bind fun _ => c.inspect _
    rcases h with h | h | h | h | h | h | ⟨-, -, i, h⟩
    · exact concluded_quiet (unreset_grantBus none) hs (fun _ _ hu => halt_quiet hu) h
    · exact concluded_quiet (unreset_grantBus none) hs' (fun _ _ hu => halt_quiet hu) h
    · exact takeGroup1_quiet (c.pure 9) (by exact hs.congr rfl rfl) h
    · exact takeGroup1_quiet (hack _) (by exact hs'.congr rfl rfl) h
    · exact takeGroup0_quiet (by exact hs'.congr rfl rfl) h
    · exact refuseInstr_quiet hs' h
    · exact exec_quiet hs' h

/-- Settles O14: no operation writes an input, and only an act of another agent requests a reset. -/
theorem inputsKept : Obligations.InputsKept := by
  intro s t h
  obtain ⟨h1, h2, h3, h4, h5, h6⟩ := step_inputsPassed h
  refine ⟨h1, h2, h3, h4, h5, h6, fun hreq => ?_⟩
  by_contra hn
  have hq := step_quiet (fun n hm => hn ⟨n, hm⟩) h
  rw [hq.requested] at hreq
  cases hreq

end Sys2Proof.Machine
end

section
/-! PROOFS. What the shifts and rotates compute: one single-bit step in numbers and in bits, and the steps of a count by induction. -/

namespace Sys2Proof.Machine

/-! ## One step, in bits and in numbers -/

/-- A bit above the range of a size. -/
theorem getLsbD_of_lt_bits {sz : Size} {v : Long} (h : v.toNat < 2 ^ sz.bits) {i : Nat} (hi : sz.bits ≤ i) :
    v.getLsbD i = false :=
  Nat.testBit_lt_two_pow (h.trans_le (Nat.pow_le_pow_right (by decide) hi))

theorem getLsbD_leftIn (sz : Size) (v : Long) (b : Bool) {i : Nat} (hi : i < sz.bits) :
    (leftIn sz v b).getLsbD i = if i = 0 then b else v.getLsbD (i - 1) := by
  have ht : (trunc sz (v <<< 1)).getLsbD i = (v <<< 1).getLsbD i := by
    unfold BitVec.getLsbD
    rw [trunc_toNat, Nat.testBit_mod_two_pow, decide_eq_true hi, Bool.true_and]
  have hb : i < 32 := by cases sz <;> simp only [Size.bits] at hi <;> omega
  unfold leftIn
  rw [BitVec.getLsbD_or, ht, BitVec.getLsbD_shiftLeft, BitVec.getLsbD_setWidth, BitVec.getLsbD_ofBool]
  rcases Nat.eq_zero_or_pos i with rfl | hpos
  · simp
  · have h1 : i ≠ 0 := by omega
    have h2 : ¬ i < 1 := by omega
    simp [hb, h1, h2]

theorem getLsbD_rightIn {sz : Size} {v : Long} (hv : v.toNat < 2 ^ sz.bits) (b : Bool) {i : Nat} (hi : i < sz.bits) :
    (rightIn sz v b).getLsbD i = if i = sz.bits - 1 then b else v.getLsbD (i + 1) := by
  have hb : sz.bits ≤ 32 := by cases sz <;> decide
  unfold rightIn
  rw [BitVec.getLsbD_or, BitVec.getLsbD_ushiftRight, BitVec.getLsbD_shiftLeft, BitVec.getLsbD_setWidth, BitVec.getLsbD_ofBool,
    Nat.add_comm 1 i]
  by_cases h : i = sz.bits - 1
  · have htop : v.getLsbD (i + 1) = false := getLsbD_of_lt_bits hv (by omega)
    have h32 : i < 32 := by omega
    have hle : ¬ i < sz.bits - 1 := by omega
    have h0 : i - (sz.bits - 1) = 0 := by omega
    rw [htop, if_pos h, h0]
    simp [h32, hle]
  · have hlt : i < sz.bits - 1 := by omega
    rw [if_neg h]
    simp [hlt]

theorem leftIn_toNat (sz : Size) (v : Long) (b : Bool) : (leftIn sz v b).toNat = 2 * v.toNat % 2 ^ sz.bits + b.toNat := by
  have hv := v.isLt
  have ht : (trunc sz (v <<< 1)).toNat = 2 ^ 1 * (v.toNat % 2 ^ (sz.bits - 1)) := by
    rw [trunc_toNat, BitVec.toNat_shiftLeft, Nat.shiftLeft_eq]
    cases sz <;> simp only [Size.bits] <;> omega
  have hb : ((BitVec.ofBool b).setWidth 32).toNat = b.toNat := by cases b <;> rfl
  unfold leftIn
  rw [BitVec.toNat_or, ht, hb, ← Nat.two_pow_add_eq_or_of_lt (by cases b <;> decide)]
  cases sz <;> simp only [Size.bits] <;> omega

theorem rightIn_toNat {sz : Size} {v : Long} (hv : v.toNat < 2 ^ sz.bits) (b : Bool) :
    (rightIn sz v b).toNat = 2 ^ (sz.bits - 1) * b.toNat + v.toNat / 2 := by
  have hb : ((BitVec.ofBool b).setWidth 32 <<< (sz.bits - 1) : Long).toNat = 2 ^ (sz.bits - 1) * b.toNat := by
    cases sz <;> cases b <;> rfl
  have hlt : v.toNat / 2 < 2 ^ (sz.bits - 1) := by
    rw [two_pow_bits] at hv
    omega
  unfold rightIn
  rw [BitVec.toNat_or, hb, Nat.or_comm, BitVec.toNat_ushiftRight, Nat.shiftRight_eq_div_pow, ← Nat.two_pow_add_eq_or_of_lt hlt]

/-- The value of a step is in the range of the size. -/
theorem shiftStep_lt {op : ShiftOp} {sz : Size} {t : Shifted} (h : t.v.toNat < 2 ^ sz.bits) :
    (shiftStep op sz t).v.toNat < 2 ^ sz.bits := by
  have left : ∀ b, (leftIn sz t.v b).toNat < 2 ^ sz.bits := by
    intro b
    have hb := b.toNat_le
    rw [leftIn_toNat]
    cases sz <;> simp only [Size.bits] <;> omega
  have right : ∀ b, (rightIn sz t.v b).toNat < 2 ^ sz.bits := by
    intro b
    have hb := b.toNat_le
    rw [rightIn_toNat h]
    cases sz <;> simp only [Size.bits] at h ⊢ <;> omega
  cases op
  case asl | lsl | rol | roxl => exact left _
  case asr | lsr | ror | roxr => exact right _

/-! ## The steps of a count -/

theorem shiftSteps_succ (op : ShiftOp) (sz : Size) (n : Nat) : ∀ t,
    shiftSteps op sz (n + 1) t = shiftStep op sz (shiftSteps op sz n t) := by
  induction n with
  | zero => exact fun _ => rfl
  | succ n ih => exact fun t => ih (shiftStep op sz t)

theorem shiftSteps_lt {op : ShiftOp} {sz : Size} (n : Nat) : ∀ {t : Shifted}, t.v.toNat < 2 ^ sz.bits →
    (shiftSteps op sz n t).v.toNat < 2 ^ sz.bits := by
  induction n with
  | zero => exact id
  | succ n ih => exact fun h => ih (shiftStep_lt h)

/-- Only ASL notes a change of the sign. -/
theorem shiftSteps_changed {op : ShiftOp} (h : op ≠ .asl) (sz : Size) (n : Nat) : ∀ t,
    (shiftSteps op sz n t).changed = t.changed := by
  induction n with
  | zero => exact fun _ => rfl
  | succ n ih =>
    intro t
    refine (ih _).trans ?_
    cases op
    case asl => exact absurd rfl h
    all_goals rfl

/-- ROL and ROR leave X. -/
theorem shiftSteps_x_rotate {op : ShiftOp} (h : op = .rol ∨ op = .ror) (sz : Size) (n : Nat) : ∀ t,
    (shiftSteps op sz n t).x = t.x := by
  induction n with
  | zero => exact fun _ => rfl
  | succ n ih =>
    intro t
    refine (ih _).trans ?_
    rcases h with rfl | rfl <;> rfl

/-- The others put the last bit out into X. -/
theorem shiftStep_x_out {op : ShiftOp} (h : op ≠ .rol ∧ op ≠ .ror) (sz : Size) (t : Shifted) :
    (shiftStep op sz t).x = (shiftStep op sz t).out := by
  obtain ⟨h1, h2⟩ := h
  cases op
  case rol => exact absurd rfl h1
  case ror => exact absurd rfl h2
  all_goals rfl

/-! ### Left and right as products and quotients -/

theorem shiftSteps_lsl (sz : Size) (n : Nat) : ∀ {t : Shifted}, t.v.toNat < 2 ^ sz.bits →
    (shiftSteps .lsl sz n t).v.toNat = t.v.toNat * 2 ^ n % 2 ^ sz.bits := by
  induction n with
  | zero =>
    intro t h
    rw [Nat.pow_zero, Nat.mul_one, Nat.mod_eq_of_lt h]
    rfl
  | succ n ih =>
    intro t h
    refine (ih (shiftStep_lt (op := .lsl) h)).trans ?_
    show (leftIn sz t.v false).toNat * 2 ^ n % 2 ^ sz.bits = _
    rw [leftIn_toNat, Bool.toNat_false, Nat.add_zero, Nat.mod_mul_mod, Nat.pow_succ', Nat.mul_comm 2, Nat.mul_assoc]

/-- ASL and LSL give the same value and bits out. -/
theorem shiftSteps_asl_lsl (sz : Size) (n : Nat) : ∀ {t u : Shifted}, t.v = u.v → t.out = u.out →
    (shiftSteps .asl sz n t).v = (shiftSteps .lsl sz n u).v ∧ (shiftSteps .asl sz n t).out = (shiftSteps .lsl sz n u).out := by
  induction n with
  | zero => exact fun h g => ⟨h, g⟩
  | succ n ih =>
    intro t u h _
    exact ih (congrArg (leftIn sz · false) h) (congrArg (msb sz) h)

theorem shiftSteps_lsr (sz : Size) (n : Nat) : ∀ {t : Shifted}, t.v.toNat < 2 ^ sz.bits →
    (shiftSteps .lsr sz n t).v.toNat = t.v.toNat / 2 ^ n := by
  induction n with
  | zero =>
    intro t _
    rw [Nat.pow_zero, Nat.div_one]
    rfl
  | succ n ih =>
    intro t h
    refine (ih (shiftStep_lt (op := .lsr) h)).trans ?_
    show (rightIn sz t.v false).toNat / 2 ^ n = _
    rw [rightIn_toNat h, Bool.toNat_false, Nat.mul_zero, Nat.zero_add, Nat.div_div_eq_div_mul, Nat.pow_succ']

/-- The signed value shifted right by one. -/
theorem signedOf_rightIn {sz : Size} {v : Long} (h : v.toNat < 2 ^ sz.bits) :
    signedOf sz (rightIn sz v (msb sz v)) = signedOf sz v / 2 := by
  have hr := shiftStep_lt (op := .asr) (t := ⟨v, false, false, false⟩) h
  rw [signedOf_of_lt (v := rightIn sz v (msb sz v)) hr, signedOf_of_lt h, rightIn_toNat h, msb_of_lt h]
  by_cases hm : 2 ^ (sz.bits - 1) ≤ v.toNat
  · rw [decide_eq_true hm, Bool.toNat_true, Nat.mul_one, if_pos hm, if_pos (by omega)]
    cases sz <;> simp only [Size.bits] at * <;> omega
  · rw [decide_eq_false hm, Bool.toNat_false, Nat.mul_zero, Nat.zero_add, if_neg hm, if_neg (by omega)]
    omega

theorem shiftSteps_asr (sz : Size) (n : Nat) : ∀ {t : Shifted}, t.v.toNat < 2 ^ sz.bits →
    signedOf sz (shiftSteps .asr sz n t).v = signedOf sz t.v / 2 ^ n := by
  induction n with
  | zero =>
    intro t _
    rw [Int.pow_zero, Int.ediv_one]
    rfl
  | succ n ih =>
    intro t h
    refine (ih (shiftStep_lt (op := .asr) h)).trans ?_
    show signedOf sz (rightIn sz t.v (msb sz t.v)) / 2 ^ n = _
    rw [signedOf_rightIn h, Int.ediv_ediv_of_nonneg (by decide), Int.pow_succ']

/-- The low bit of a value, as the parity of its number and of its signed number. -/
theorem getLsbD_zero_toNat (v : Long) : v.getLsbD 0 = decide (v.toNat % 2 = 1) := by
  rw [BitVec.getLsbD, Nat.testBit_zero]

theorem getLsbD_zero_signed {sz : Size} {v : Long} (h : v.toNat < 2 ^ sz.bits) :
    v.getLsbD 0 = decide (signedOf sz v % 2 = 1) := by
  rw [getLsbD_zero_toNat, signedOf_eq_halfSigned h, decide_eq_decide]
  generalize 2 ^ (sz.bits - 1) = half
  unfold halfSigned
  by_cases hm : half ≤ v.toNat
  · rw [if_pos hm]
    omega
  · rw [if_neg hm]
    omega

/-! ### The sign under ASL -/

/-- A number is in the signed range whose negative half is `half` long. -/
def FitsHalf (half : Nat) (y : Int) : Prop := -(half : Int) ≤ y ∧ y < half

theorem fitsHalf_halfSigned {half n : Nat} (h : n < 2 * half) : FitsHalf half (halfSigned half n) := by
  unfold FitsHalf halfSigned
  by_cases hm : half ≤ n
  · rw [if_pos hm]
    omega
  · rw [if_neg hm]
    omega

/-- What a number doubled in a range of `2 * half` says of the signed number doubled. -/
theorem halfSigned_double {half n : Nat} (h : n < 2 * half) :
    ((half ≤ 2 * n % (2 * half) ↔ half ≤ n) ↔ FitsHalf half (halfSigned half n * 2)) ∧
    (FitsHalf half (halfSigned half n * 2) → halfSigned half (2 * n % (2 * half)) = halfSigned half n * 2) := by
  rw [mod_eq_sub_of_lt (a := 2 * n) (by omega)]
  unfold FitsHalf halfSigned
  by_cases hm : half ≤ n
  · rw [if_pos (by omega : 2 * half ≤ 2 * n), if_pos hm]
    by_cases h2 : half ≤ 2 * n - 2 * half
    · rw [if_pos h2]
      omega
    · rw [if_neg h2]
      omega
  · rw [if_neg (by omega : ¬ 2 * half ≤ 2 * n), if_neg hm]
    by_cases h2 : half ≤ 2 * n
    · rw [if_pos h2]
      omega
    · rw [if_neg h2]
      omega

/-- A number is in the signed range of a size. -/
def FitsSigned (sz : Size) (y : Int) : Prop := FitsHalf (2 ^ (sz.bits - 1)) y

theorem fitsSigned_signedOf {sz : Size} {v : Long} (h : v.toNat < 2 ^ sz.bits) : FitsSigned sz (signedOf sz v) := by
  rw [signedOf_eq_halfSigned h]
  exact fitsHalf_halfSigned (by rw [← two_pow_bits]; exact h)

/-- What the doubled value says of the doubled number. -/
theorem leftIn_signed {sz : Size} {v : Long} (h : v.toNat < 2 ^ sz.bits) :
    (msb sz (leftIn sz v false) = msb sz v ↔ FitsSigned sz (signedOf sz v * 2)) ∧
    (FitsSigned sz (signedOf sz v * 2) → signedOf sz (leftIn sz v false) = signedOf sz v * 2) := by
  have hl : (leftIn sz v false).toNat < 2 ^ sz.bits := shiftStep_lt (op := .lsl) (t := ⟨v, false, false, false⟩) h
  rw [msb_of_lt hl, msb_of_lt h, decide_eq_decide, signedOf_eq_halfSigned hl, signedOf_eq_halfSigned h, leftIn_toNat,
    Bool.toNat_false, Nat.add_zero, two_pow_bits]
  exact halfSigned_double (by rw [← two_pow_bits]; exact h)

/-- A number that fits when it is doubled fits. -/
theorem FitsSigned.of_double {sz : Size} {y : Int} (h : FitsSigned sz (y * 2)) : FitsSigned sz y := by
  obtain ⟨h1, h2⟩ := h
  exact ⟨by omega, by omega⟩

/-- ASL notes no change of the sign just where the product fits, and then its value is the product. -/
theorem shiftSteps_asl {sz : Size} {t : Shifted} (h : t.v.toNat < 2 ^ sz.bits) (hc : t.changed = false) (n : Nat) :
    ((shiftSteps .asl sz n t).changed = false ↔ FitsSigned sz (signedOf sz t.v * 2 ^ n)) ∧
    (FitsSigned sz (signedOf sz t.v * 2 ^ n) → signedOf sz (shiftSteps .asl sz n t).v = signedOf sz t.v * 2 ^ n) := by
  induction n with
  | zero =>
    rw [Int.pow_zero, Int.mul_one]
    exact ⟨iff_of_true hc (fitsSigned_signedOf h), fun _ => rfl⟩
  | succ n ih =>
    obtain ⟨ih1, ih2⟩ := ih
    have hlt := shiftSteps_lt (op := .asl) n h
    obtain ⟨d1, d2⟩ := leftIn_signed hlt
    rw [shiftSteps_succ, Int.pow_succ, ← Int.mul_assoc]
    generalize hu : shiftSteps .asl sz n t = u at *
    have hstep : (shiftStep .asl sz u).changed = false ↔
        u.changed = false ∧ msb sz (leftIn sz u.v false) = msb sz u.v := by
      show (u.changed || msb sz (leftIn sz u.v false) != msb sz u.v) = false ↔ _
      rw [Bool.or_eq_false_iff, bne_eq_false_iff_eq]
    constructor
    · rw [hstep, ih1, d1]
      constructor
      · rintro ⟨hf, hd⟩
        rw [ih2 hf] at hd
        exact hd
      · intro hd
        have hf := hd.of_double
        exact ⟨hf, by rw [ih2 hf]; exact hd⟩
    · intro hd
      have hf := hd.of_double
      have hv := ih2 hf
      show signedOf sz (leftIn sz u.v false) = _
      rw [d2 (by rw [hv]; exact hd), hv]

/-! ### Rotation -/

theorem shiftSteps_rol (sz : Size) (n : Nat) : ∀ (t : Shifted) {i : Nat}, i < sz.bits →
    (shiftSteps .rol sz n t).v.getLsbD i = t.v.getLsbD ((i + sz.bits - n % sz.bits) % sz.bits) := by
  induction n with
  | zero =>
    intro t i hi
    rw [Nat.zero_mod, Nat.sub_zero, Nat.add_mod_right, Nat.mod_eq_of_lt hi]
    rfl
  | succ n ih =>
    intro t i hi
    refine (ih _ hi).trans ?_
    show (leftIn sz t.v (msb sz t.v)).getLsbD _ = _
    rw [getLsbD_leftIn sz _ _ (Nat.mod_lt _ (by cases sz <;> decide)), msb]
    split
    · congr 1
      cases sz <;> simp only [Size.bits] at * <;> omega
    · congr 1
      cases sz <;> simp only [Size.bits] at * <;> omega

theorem shiftSteps_ror (sz : Size) (n : Nat) : ∀ {t : Shifted} {i : Nat}, t.v.toNat < 2 ^ sz.bits → i < sz.bits →
    (shiftSteps .ror sz n t).v.getLsbD i = t.v.getLsbD ((i + n) % sz.bits) := by
  induction n with
  | zero =>
    intro t i _ hi
    rw [Nat.add_zero, Nat.mod_eq_of_lt hi]
    rfl
  | succ n ih =>
    intro t i h hi
    refine (ih (shiftStep_lt (op := .ror) h) hi).trans ?_
    show (rightIn sz t.v (t.v.getLsbD 0)).getLsbD _ = _
    rw [getLsbD_rightIn h _ (Nat.mod_lt _ (by cases sz <;> decide))]
    split
    · congr 1
      cases sz <;> simp only [Size.bits] at * <;> omega
    · congr 1
      cases sz <;> simp only [Size.bits] at * <;> omega

/-- The ring of the operand and X. -/
def ringBit (sz : Size) (t : Shifted) (j : Nat) : Bool := if j = sz.bits then t.x else t.v.getLsbD j

theorem shiftStep_roxl {sz : Size} {t : Shifted} {j : Nat} (hj : j ≤ sz.bits) :
    ringBit sz (shiftStep .roxl sz t) j = ringBit sz t ((j + sz.bits) % (sz.bits + 1)) := by
  have hpos : 0 < sz.bits := by cases sz <;> decide
  unfold ringBit
  by_cases h : j = sz.bits
  · have hk : (j + sz.bits) % (sz.bits + 1) = sz.bits - 1 := by
      rw [h, show sz.bits + sz.bits = sz.bits - 1 + (sz.bits + 1) by omega, Nat.add_mod_right, Nat.mod_eq_of_lt (by omega)]
    rw [if_pos h, hk, if_neg (by omega)]
    rfl
  · rw [if_neg h]
    show (leftIn sz t.v t.x).getLsbD j = _
    rw [getLsbD_leftIn sz _ _ (by omega)]
    by_cases h0 : j = 0
    · have hk : (j + sz.bits) % (sz.bits + 1) = sz.bits := by rw [h0, Nat.zero_add, Nat.mod_eq_of_lt (by omega)]
      rw [if_pos h0, hk, if_pos rfl]
    · have hk : (j + sz.bits) % (sz.bits + 1) = j - 1 := by
        rw [show j + sz.bits = j - 1 + (sz.bits + 1) by omega, Nat.add_mod_right, Nat.mod_eq_of_lt (by omega)]
      rw [if_neg h0, hk, if_neg (by omega)]

theorem shiftStep_roxr {sz : Size} {t : Shifted} (ht : t.v.toNat < 2 ^ sz.bits) {j : Nat} (hj : j ≤ sz.bits) :
    ringBit sz (shiftStep .roxr sz t) j = ringBit sz t ((j + 1) % (sz.bits + 1)) := by
  have hpos : 0 < sz.bits := by cases sz <;> decide
  unfold ringBit
  by_cases h : j = sz.bits
  · have hk : (j + 1) % (sz.bits + 1) = 0 := by rw [h, Nat.mod_self]
    rw [if_pos h, hk, if_neg (by omega)]
    rfl
  · rw [if_neg h]
    show (rightIn sz t.v t.x).getLsbD j = _
    rw [getLsbD_rightIn ht _ (by omega), Nat.mod_eq_of_lt (a := j + 1) (by omega)]
    by_cases h1 : j = sz.bits - 1
    · rw [if_pos h1, if_pos (by omega)]
    · rw [if_neg h1, if_neg (by omega)]

theorem shiftSteps_roxl (sz : Size) (n : Nat) : ∀ (t : Shifted) {j : Nat}, j ≤ sz.bits →
    ringBit sz (shiftSteps .roxl sz n t) j = ringBit sz t ((j + (sz.bits + 1) - n % (sz.bits + 1)) % (sz.bits + 1)) := by
  induction n with
  | zero =>
    intro t j hj
    rw [Nat.zero_mod, Nat.sub_zero, Nat.add_mod_right, Nat.mod_eq_of_lt (by omega)]
    rfl
  | succ n ih =>
    intro t j hj
    have hlt := Nat.mod_lt (j + (sz.bits + 1) - n % (sz.bits + 1)) (y := sz.bits + 1) (by omega)
    refine (ih _ hj).trans ((shiftStep_roxl (Nat.lt_succ_iff.mp hlt)).trans ?_)
    congr 1
    cases sz <;> simp only [Size.bits] at * <;> omega

theorem shiftSteps_roxr (sz : Size) (n : Nat) : ∀ {t : Shifted} {j : Nat}, t.v.toNat < 2 ^ sz.bits → j ≤ sz.bits →
    ringBit sz (shiftSteps .roxr sz n t) j = ringBit sz t ((j + n) % (sz.bits + 1)) := by
  induction n with
  | zero =>
    intro t j _ hj
    rw [Nat.add_zero, Nat.mod_eq_of_lt (by omega)]
    rfl
  | succ n ih =>
    intro t j ht hj
    refine (ih (shiftStep_lt (op := .roxr) ht) hj).trans
      ((shiftStep_roxr ht (Nat.lt_succ_iff.mp (Nat.mod_lt _ (Nat.succ_pos _)))).trans ?_)
    rw [Nat.mod_add_mod, Nat.add_assoc]

/-! ### The last bit out -/

/-- The bit that a doubling puts out of the range. -/
theorem half_le_mod_iff (half x : Nat) : half ≤ x % (2 * half) ↔ 2 * x / (2 * half) % 2 = 1 ∧ 0 < half ∨ half = 0 := by
  rcases Nat.eq_zero_or_pos half with rfl | hpos
  · simp
  · have h2 : 2 * x / (2 * half) = x / half := Nat.mul_div_mul_left x half (by decide)
    have h3 : x % (2 * half) = x % half + half * (x / half % 2) := by rw [Nat.mul_comm 2, Nat.mod_mul]
    have h4 : x % half < half := Nat.mod_lt x hpos
    rw [h2, h3]
    rcases Nat.mod_two_eq_zero_or_one (x / half) with h | h
    · rw [h]
      omega
    · rw [h]
      omega

theorem lsl_out {sz : Size} {t : Shifted} (h : t.v.toNat < 2 ^ sz.bits) (n : Nat) :
    (shiftSteps .lsl sz (n + 1) t).out = decide (t.v.toNat * 2 ^ (n + 1) / 2 ^ sz.bits % 2 = 1) := by
  rw [shiftSteps_succ]
  show msb sz (shiftSteps .lsl sz n t).v = _
  have hpos : 0 < 2 ^ (sz.bits - 1) := Nat.two_pow_pos _
  rw [msb_of_lt (shiftSteps_lt n h), shiftSteps_lsl sz n h, decide_eq_decide, two_pow_bits, half_le_mod_iff, Nat.pow_succ',
    Nat.mul_left_comm]
  omega

theorem lsr_out {sz : Size} {t : Shifted} (h : t.v.toNat < 2 ^ sz.bits) (n : Nat) :
    (shiftSteps .lsr sz (n + 1) t).out = decide (t.v.toNat / 2 ^ n % 2 = 1) := by
  rw [shiftSteps_succ]
  show (shiftSteps .lsr sz n t).v.getLsbD 0 = _
  rw [getLsbD_zero_toNat, shiftSteps_lsr sz n h]

theorem asr_out {sz : Size} {t : Shifted} (h : t.v.toNat < 2 ^ sz.bits) (n : Nat) :
    (shiftSteps .asr sz (n + 1) t).out = decide (signedOf sz t.v / 2 ^ n % 2 = 1) := by
  rw [shiftSteps_succ]
  show (shiftSteps .asr sz n t).v.getLsbD 0 = _
  rw [getLsbD_zero_signed (shiftSteps_lt n h), shiftSteps_asr sz n h]

theorem rol_out (sz : Size) (t : Shifted) (n : Nat) :
    (shiftSteps .rol sz (n + 1) t).out = (shiftSteps .rol sz (n + 1) t).v.getLsbD 0 := by
  rw [shiftSteps_succ]
  exact (getLsbD_leftIn sz _ _ (i := 0) (by cases sz <;> decide)).symm

theorem ror_out {sz : Size} {t : Shifted} (h : t.v.toNat < 2 ^ sz.bits) (n : Nat) :
    (shiftSteps .ror sz (n + 1) t).out = (shiftSteps .ror sz (n + 1) t).v.getLsbD (sz.bits - 1) := by
  rw [shiftSteps_succ]
  refine (Eq.trans (getLsbD_rightIn (shiftSteps_lt n h) _ (by cases sz <;> decide)) (if_pos rfl)).symm

/-- The bit out is X but for ROL and ROR, and for the extended rotates from the start. -/
theorem out_eq_x {op : ShiftOp} (h : op ≠ .rol ∧ op ≠ .ror) {t : Shifted} (sz : Size) {n : Nat} (hn : 0 < n ∨ t.out = t.x) :
    (shiftSteps op sz n t).x = (shiftSteps op sz n t).out := by
  cases n with
  | zero => exact (hn.resolve_left (by decide)).symm
  | succ n =>
    rw [shiftSteps_succ]
    exact shiftStep_x_out h sz _

/-! ## The obligation -/

/-- Where a shift starts. -/
def shiftStart (op : ShiftOp) (f : CCR) (v : Long) : Shifted := ⟨v, f.x, zeroCountCarry op f.x, false⟩

/-- Where it ends. -/
def shiftEnd (op : ShiftOp) (sz : Size) (cnt : Nat) (f : CCR) (v : Long) : Shifted := shiftSteps op sz cnt (shiftStart op f v)

theorem aluShift_eq (op : ShiftOp) (sz : Size) (cnt : Nat) (f : CCR) (v : Long) :
    aluShift op sz cnt f v = ((shiftEnd op sz cnt f v).v, ⟨(shiftEnd op sz cnt f v).x, msb sz (shiftEnd op sz cnt f v).v,
      (shiftEnd op sz cnt f v).v == 0, (shiftEnd op sz cnt f v).changed, (shiftEnd op sz cnt f v).out⟩) := rfl

section

variable {sz : Size} {v : Long} (hv : v.toNat < 2 ^ sz.bits) (f : CCR) (cnt : Nat)
include hv

/-- V of ASL. -/
theorem asl_overflow : (shiftEnd .asl sz cnt f v).changed = true ↔
    signedOf sz v * 2 ^ cnt < -2 ^ (sz.bits - 1) ∨ (2 : Int) ^ (sz.bits - 1) ≤ signedOf sz v * 2 ^ cnt := by
  have h := (shiftSteps_asl (t := shiftStart .asl f v) hv rfl cnt).1
  have hc : ((2 ^ (sz.bits - 1) : Nat) : Int) = 2 ^ (sz.bits - 1) := by push_cast; rfl
  rw [← Bool.not_eq_false, show (shiftEnd .asl sz cnt f v).changed = false ↔ _ from h]
  unfold FitsSigned FitsHalf
  rw [hc, not_and_or, not_le, not_lt]
  exact Iff.rfl

/-- The places of bits after the rotates. -/
theorem rotate_bits {i : Nat} (hi : i < sz.bits) :
    (shiftEnd .rol sz cnt f v).v.getLsbD i = v.getLsbD ((i + sz.bits - cnt % sz.bits) % sz.bits) ∧
    (shiftEnd .ror sz cnt f v).v.getLsbD i = v.getLsbD ((i + cnt) % sz.bits) ∧
    (shiftEnd .roxl sz cnt f v).v.getLsbD i =
      ringBit sz (shiftStart .roxl f v) ((i + (sz.bits + 1) - cnt % (sz.bits + 1)) % (sz.bits + 1)) ∧
    (shiftEnd .roxr sz cnt f v).v.getLsbD i = ringBit sz (shiftStart .roxr f v) ((i + cnt) % (sz.bits + 1)) := by
  have hne : i ≠ sz.bits := by omega
  refine ⟨shiftSteps_rol sz cnt _ hi, shiftSteps_ror sz cnt hv hi, ?_, ?_⟩
  · rw [← shiftSteps_roxl sz cnt _ hi.le]
    exact (if_neg hne).symm
  · rw [← shiftSteps_roxr sz cnt hv hi.le]
    exact (if_neg hne).symm

/-- X after the extended rotates. -/
theorem rotate_x :
    (shiftEnd .roxl sz cnt f v).x = ringBit sz (shiftStart .roxl f v) ((2 * sz.bits + 1 - cnt % (sz.bits + 1)) % (sz.bits + 1)) ∧
    (shiftEnd .roxr sz cnt f v).x = ringBit sz (shiftStart .roxr f v) ((sz.bits + cnt) % (sz.bits + 1)) := by
  constructor
  · rw [show 2 * sz.bits + 1 = sz.bits + (sz.bits + 1) by omega, ← shiftSteps_roxl sz cnt _ le_rfl]
    exact (if_pos rfl).symm
  · rw [← shiftSteps_roxr sz cnt hv le_rfl]
    exact (if_pos rfl).symm

/-- ROL by a count is ROR by what is missing to the width. -/
theorem rol_eq_ror (h : cnt < sz.bits) : (shiftEnd .rol sz cnt f v).v = (shiftEnd .ror sz (sz.bits - cnt) f v).v := by
  apply BitVec.eq_of_getLsbD_eq
  intro i _
  by_cases hi : i < sz.bits
  · rw [(rotate_bits hv f cnt hi).1, (rotate_bits hv f (sz.bits - cnt) hi).2.1, Nat.mod_eq_of_lt h, Nat.add_sub_assoc h.le]
  · have hl : (shiftEnd .rol sz cnt f v).v.getLsbD i = false := getLsbD_of_lt_bits (shiftSteps_lt cnt hv) (by omega)
    have hr : (shiftEnd .ror sz (sz.bits - cnt) f v).v.getLsbD i = false :=
      getLsbD_of_lt_bits (shiftSteps_lt (sz.bits - cnt) hv) (by omega)
    rw [hl, hr]

/-- The carries of a count above zero. -/
theorem shift_carries (h : 0 < cnt) :
    ((shiftEnd .lsl sz cnt f v).out = decide (v.toNat * 2 ^ cnt / 2 ^ sz.bits % 2 = 1)) ∧
    ((shiftEnd .lsr sz cnt f v).out = decide (v.toNat / 2 ^ (cnt - 1) % 2 = 1)) ∧
    ((shiftEnd .asr sz cnt f v).out = decide (signedOf sz v / 2 ^ (cnt - 1) % 2 = 1)) ∧
    ((shiftEnd .rol sz cnt f v).out = (shiftEnd .rol sz cnt f v).v.getLsbD 0) ∧
    ((shiftEnd .ror sz cnt f v).out = (shiftEnd .ror sz cnt f v).v.getLsbD (sz.bits - 1)) := by
  obtain ⟨n, rfl⟩ := Nat.exists_eq_succ_of_ne_zero h.ne'
  exact ⟨lsl_out hv n, lsr_out hv n, asr_out hv n, rol_out sz _ n, ror_out hv n⟩

end

/-- What the obligation says of every operation. -/
theorem shift_general {sz : Size} {v : Long} (hv : v.toNat < 2 ^ sz.bits) (f : CCR) (cnt : Nat) (op : ShiftOp) :
    (shiftEnd op sz cnt f v).v.toNat < 2 ^ sz.bits ∧ (op ≠ .asl → (shiftEnd op sz cnt f v).changed = false) ∧
    (cnt = 0 → shiftEnd op sz cnt f v = ⟨v, f.x, if op = .roxl ∨ op = .roxr then f.x else false, false⟩) := by
  refine ⟨shiftSteps_lt cnt hv, fun h => shiftSteps_changed h sz cnt _, ?_⟩
  rintro rfl
  have hz : zeroCountCarry op f.x = if op = .roxl ∨ op = .roxr then f.x else false := by cases op <;> rfl
  rw [← hz]
  rfl

/-- Settles O19: the steps of a count, as arithmetic and as places of bits. -/
theorem shiftMeaning : Obligations.ShiftMeaning := by
  intro sz d f cnt
  have hv : (trunc sz d).toNat < 2 ^ sz.bits := trunc_lt sz d
  generalize trunc sz d = v at hv
  dsimp only
  simp only [aluShift_eq]
  obtain ⟨haslv, haslo⟩ := shiftSteps_asl_lsl (t := shiftStart .asl f v) (u := shiftStart .lsl f v) sz cnt rfl rfl
  have x_out : ∀ op : ShiftOp, op ≠ .rol ∧ op ≠ .ror → 0 < cnt →
      (shiftEnd op sz cnt f v).x = (shiftEnd op sz cnt f v).out := fun op h h0 => out_eq_x h sz (.inl h0)
  have x_ring : ∀ op : ShiftOp, op = .roxl ∨ op = .roxr → (shiftEnd op sz cnt f v).out = (shiftEnd op sz cnt f v).x := by
    rintro op (rfl | rfl)
    · exact (out_eq_x (by decide) sz (.inr rfl)).symm
    · exact (out_eq_x (by decide) sz (.inr rfl)).symm
  refine ⟨shiftSteps_lsl sz cnt hv, haslv, asl_overflow hv f cnt, shiftSteps_lsr sz cnt hv, shiftSteps_asr sz cnt hv,
    fun i hi => rotate_bits hv f cnt hi, (rotate_x hv f cnt).1, (rotate_x hv f cnt).2, x_ring _ (.inl rfl), x_ring _ (.inr rfl),
    shiftSteps_x_rotate (.inl rfl) sz cnt _, shiftSteps_x_rotate (.inr rfl) sz cnt _, fun h0 => ?_, rol_eq_ror hv f cnt,
    fun op => ?_⟩
  · obtain ⟨hlsl, hlsr, hasr, hrol, hror⟩ := shift_carries hv f cnt h0
    exact ⟨hlsl, x_out _ (by decide) h0, hlsr, x_out _ (by decide) h0, haslo, x_out _ (by decide) h0, hasr,
      x_out _ (by decide) h0, hrol, hror⟩
  · obtain ⟨hlt, hch, hzero⟩ := shift_general hv f cnt op
    refine ⟨hlt, rfl, trivial, hch, fun h0 => ?_⟩
    rw [hzero h0]
    exact ⟨rfl, rfl, rfl, rfl⟩

end Sys2Proof.Machine
end
